-- ==== Sys2Proof/Word.lean ====
section
/-! DEFINITION. The widths of the block (R9): bytes on the wire and in host memory, 32-bit host registers. -/

namespace Sys2Proof

/-- One byte on the wire, in host memory, or in the flash status register (R9, R11). -/
abbrev Byte := BitVec 8

/-- One 32-bit host register or host-memory address (R9, R22, R62). -/
abbrev Word := BitVec 32

end Sys2Proof
end

