-- ==== Sys2Proof/Config.lean ====
section
/-! DEFINITION. What is fixed for one block and what the spec leaves open: the constants of R6, the parameters of R7 and R8
with the spec's defaults, the types of the transport contract (R76 to R80) and of the registry port (R14), and the free
values (opaque constants without a value). -/

namespace Sys2Proof

/-! ## Constants fixed by the source (R6) -/

/-- `ADDR4_THRESHOLD`: `addr_width = 4` iff `size_bytes` is above it (R6, R258). -/
def Config.addr4Threshold : Nat := 16777216
/-- `READ_CHUNK`, the longest read-back of one fast-read frame: 128 KiB (R6, R243). -/
def Config.readChunk : Nat := 131072
/-- `WTR_SCRATCH`: which of the transport's two internal paths carries a `WriteThenRead`. Not observable: the two have
identical results, and no definition reads it (R6, R78, R81). -/
def Config.wtrScratch : Nat := 16
/-- `AAI_PROGRESS_STEP`: a print cadence of host software. No definition reads it (R6, R222). -/
def Config.aaiProgressStep : Nat := 256
/-- `MX_NO_EAR_ID`, the Macronix ID without an extended-address register (R6, R179). -/
def Config.mxNoEarId : BitVec 24 := 0xC22619
/-- `BUSY_BIT` of the flash status register (R6, R150). -/
def Config.busyBit : Nat := 0
/-- `BRWR_EN_BIT` of the bank register (R6, R103). -/
def Config.brwrEnBit : Nat := 7

/-! ## Address width -/

/-- `s.addr_width` (R43): 3 or 4 bytes, and the reset value 0, "not probed". -/
inductive AddrWidth
  | unset
  | three
  | four
  deriving DecidableEq, Repr

/-- The number of address bytes (R43, R95). -/
def AddrWidth.bytes : AddrWidth → Nat
  | .unset => 0
  | .three => 3
  | .four => 4

/-! ## The transport contract (R74 to R80) -/

/-- The three transport operations: `T.Write`, `T.WriteTwo`, `T.WriteThenRead` (R76, R77, R78). -/
inductive FrameKind
  | w
  | w2
  | wr
  deriving DecidableEq, Repr

/-- One frame as the block hands it to the transport: the transmitted bytes, the second part of a `WriteTwo` (empty
otherwise), and the number of bytes to read back (0 but for a `WriteThenRead`) (R76, R77, R78, R80). -/
structure Frame where
  kind : FrameKind
  tx : List Byte
  tx2 : List Byte
  n : Nat
  deriving DecidableEq, Repr

/-- All bytes of a frame in wire order: `a ++ b` for a `WriteTwo` (R77). -/
def Frame.wire (f : Frame) : List Byte := f.tx ++ f.tx2

/-- The chip select every frame is carried out on: `(CS_BUS, CS_LINE)` (R74). -/
structure ChipSelect where
  bus : Nat
  line : Nat
  deriving DecidableEq, Repr

/-- The direction of a DMA access (R62, R80). -/
inductive MemDir
  | read
  | write
  deriving DecidableEq, Repr

/-- One event of the run's history (R80). -/
inductive Event
  /-- A transport call: the frame, its `ok`, how many of its wire bytes reached the wire, and the bytes read back. -/
  | frame (cs : ChipSelect) (f : Frame) (ok : Bool) (sent : Nat) (rx : List Byte)
  /-- A one-byte DMA access. -/
  | mem (dir : MemDir) (a : Word) (v : Byte)
  /-- A frame cut short by a reset after `sent` bytes (R302). -/
  | cut (cs : ChipSelect) (f : Frame) (sent : Nat)
  deriving DecidableEq, Repr

/-- What the world outside the block answers to one transport call: the `TransportOk` draw, how many bytes of a frame that
failed reached the wire, and the `FlashOracle`'s bytes (R79, R82). -/
structure Answer where
  ok : Bool
  sent : Nat
  rx : List Byte
  deriving DecidableEq, Repr

/-! ## The registry port (R14) -/

/-- `erase_granularity` of a descriptor (R14, R196). -/
inductive Granularity
  | g4k
  | g4kPmc
  | g32k
  | g64k
  | g256k
  deriving DecidableEq, Repr

/-- The flag set of a descriptor (R14). -/
structure ChipFlags where
  initSr : Bool
  sstAai : Bool
  bp02 : Bool
  bp3 : Bool
  bp4 : Bool
  deriving DecidableEq, Repr

/-- A chip descriptor as `Lookup` returns it, less its `model` string (R14, R49). -/
structure Descriptor where
  jedecId : BitVec 24
  extId : BitVec 16
  sizeBytes : BitVec 64
  granularity : Granularity
  flags : ChipFlags
  deriving DecidableEq, Repr

/-- One row of a registry given as data: the answer of `Lookup` for an ID, for one extended ID or (`ext = none`) for all of
them. DESIGN CHOICE, safe: a finite list stands for the function; an ID no row names is answered by `Config.lookup`. -/
structure RegEntry where
  jedecId : BitVec 24
  ext : Option (BitVec 16)
  result : Option Descriptor
  deriving DecidableEq, Repr

/-! ## Parameters with defaults (R7, R101, R171) and OPEN parameters (R8) -/

/-- The parameters of the block. Every default of an opcode, of a manufacturer code but Macronix's, and of a protection mask
is the spec's own, from general knowledge (R101, R171, 93 K1 to K4). The last three are OPEN (R8): their value here is a
DESIGN CHOICE, unsafe, and every statement about a state holds for all their values. `regBase` has the width of a host bus
address, which the spec does not give: 32 bits (DESIGN CHOICE, log entry 27). -/
structure Params where
  opWren : Byte := 0x06
  opWrdi : Byte := 0x04
  opRdsr : Byte := 0x05
  opWrsr : Byte := 0x01
  opRdid : Byte := 0x9F
  opPp : Byte := 0x02
  opAai : Byte := 0xAD
  opFastRead : Byte := 0x0B
  opSe4k : Byte := 0x20
  opSe4kPmc : Byte := 0xD7
  opBe32k : Byte := 0x52
  opBe64k : Byte := 0xD8
  opEn4b : Byte := 0xB7
  opEx4b : Byte := 0xE9
  opExhbl : Byte := 0x98
  opWrear : Byte := 0xC5
  opBrwr : Byte := 0x17
  mfrMicron : Byte := 0x20
  mfrEon : Byte := 0x1C
  mfrMacronix : Byte := 0xC2
  mfrWinbond : Byte := 0xEF
  mfrGigadevice : Byte := 0xC8
  mfrIssi : Byte := 0x9D
  mfrSpansion : Byte := 0x01
  bp02Mask : Byte := 0x1C
  bp3Mask : Byte := 0x20
  bp4Mask : Byte := 0x40
  pageSize : Nat := 256
  fastReadDummy : Byte := 0x00
  aaiContPrefix : List Byte := []
  regBase : Word := 0
  csBus : Nat := 0
  csLine : Nat := 0
  deriving DecidableEq, Repr

/-- The spec's default parameters (R7, R101, R171). -/
def Params.standard : Params := {}

/-- `(CS_BUS, CS_LINE)` (R74). -/
def Params.chipSelect (p : Params) : ChipSelect := { bus := p.csBus, line := p.csLine }

/-- The seventeen opcode parameters of R101, in its order. -/
def Params.opcodes (p : Params) : List Byte :=
  [p.opWren, p.opWrdi, p.opRdsr, p.opWrsr, p.opRdid, p.opPp, p.opAai, p.opFastRead, p.opSe4k, p.opSe4kPmc, p.opBe32k,
   p.opBe64k, p.opEn4b, p.opEx4b, p.opExhbl, p.opWrear, p.opBrwr]

/-- The seven manufacturer codes of R171. -/
def Params.manufacturers (p : Params) : List Byte :=
  [p.mfrMicron, p.mfrEon, p.mfrMacronix, p.mfrWinbond, p.mfrGigadevice, p.mfrIssi, p.mfrSpansion]

/-! ## Free values. None has a value: no proof can see what it is. The arguments are the run's history and a draw counter,
so that no two draws of a run, and no draws of two runs with different histories, are tied to each other. -/

/-- `TransportOk` once the answers given as data have run out (R8, R79, U3). -/
opaque Config.transportOk : List Event → Nat → Bool
/-- How many bytes of a failed or cut frame reached the wire, before it is bounded by the frame's length (R79, R302, U4). -/
opaque Config.sentBytes : List Event → Nat → Nat
/-- `FlashOracle`: byte `i` of a read-back (R82, U2). -/
opaque Config.flashByte : List Event → Nat → Nat → Byte
/-- An unspecified host-memory byte: byte `i` of the destination of a failed read frame (R86, U5), the byte being written at a
reset (R302), or a byte that host and block race for (R87, R309, U10). -/
opaque Config.freeByte : List Event → Nat → Nat → Byte
/-- Whether a host load in the destination of a READ in flight sees, of the values before and after the block's write, the one
that host memory does not hold (R87). -/
opaque Config.loadsOther : List Event → Nat → Bool
/-- `Lookup` for an ID that no registry row given as data names (R8, R14). -/
opaque Config.lookup : BitVec 24 → BitVec 16 → Option Descriptor

end Sys2Proof
end

