-- ==== Sys2Proof/Syntax.lean ====
section
/-! DEFINITION. The instruction set: the four host commands of R93 and the eighteen SPI commands of R101 and R102, one
constructor per row of spec/opcode_table.json. -/

namespace Sys2Proof

/-- The value of `s.op` (R45): a host command, or ILLEGAL. -/
inductive HostOp
  | probe
  | read
  | erase
  | write
  | illegal
  deriving DecidableEq, Repr

/-- A command of the block. The host commands carry no operand: theirs are in ADDR, LEN and BUF (R91, R94). The SPI commands
carry what their frame carries (R102); an address is the engine's natural-number cursor (R46, R97). -/
inductive Instr
  /-- PROBE (R259). -/
  | probe
  /-- READ (R241). -/
  | read
  /-- ERASE (R197). -/
  | erase
  /-- WRITE (R211). -/
  | write
  /-- WREN (R146). -/
  | wren
  /-- WRDI (R147). -/
  | wrdi
  /-- RDSR (R148). -/
  | rdsr
  /-- WRSR (R149). -/
  | wrsr (value : Byte)
  /-- RDID (R256). -/
  | rdid
  /-- PP (R214). -/
  | pp (addr : Nat) (data : List Byte)
  /-- AAI_WP (R218). -/
  | aaiWp (addr : Nat) (d0 d1 : Byte)
  /-- AAI_CONT (R221). -/
  | aaiCont (d0 d1 : Byte)
  /-- FAST_READ (R244). -/
  | fastRead (addr len : Nat)
  /-- SE_4K (R201). -/
  | se4k (addr : Nat)
  /-- SE_4K_PMC (R202). -/
  | se4kPmc (addr : Nat)
  /-- BE_32K (R203). -/
  | be32k (addr : Nat)
  /-- BE_64K (R204). -/
  | be64k (addr : Nat)
  /-- EN4B (R173). -/
  | en4b
  /-- EX4B (R174). -/
  | ex4b
  /-- EXHBL (R175). -/
  | exhbl
  /-- WREAR (R177). -/
  | wrear
  /-- BRWR (R176). -/
  | brwr (en : Bool)
  deriving DecidableEq, Repr

/-- The frame formats of R102, and the host command word of R91. -/
inductive Format
  | hostCmd
  | f1
  | f2
  | f3
  | f4
  | f5
  | f6
  | f7
  | f8
  deriving DecidableEq, Repr

/-- The format of each command (R102; the column "format" of spec/opcode_table.json). -/
def Instr.format : Instr → Format
  | .probe => .hostCmd
  | .read => .hostCmd
  | .erase => .hostCmd
  | .write => .hostCmd
  | .wren => .f1
  | .wrdi => .f1
  | .rdsr => .f8
  | .wrsr _ => .f2
  | .rdid => .f8
  | .pp _ _ => .f4
  | .aaiWp _ _ _ => .f5
  | .aaiCont _ _ => .f6
  | .fastRead _ _ => .f7
  | .se4k _ => .f3
  | .se4kPmc _ => .f3
  | .be32k _ => .f3
  | .be64k _ => .f3
  | .en4b => .f1
  | .ex4b => .f1
  | .exhbl => .f1
  | .wrear => .f2
  | .brwr _ => .f2

/-- The flash address in the frame, for the formats that have one (R102). -/
def Instr.address : Instr → Option Nat
  | .probe => none
  | .read => none
  | .erase => none
  | .write => none
  | .wren => none
  | .wrdi => none
  | .rdsr => none
  | .wrsr _ => none
  | .rdid => none
  | .pp a _ => some a
  | .aaiWp a _ _ => some a
  | .aaiCont _ _ => none
  | .fastRead a _ => some a
  | .se4k a => some a
  | .se4kPmc a => some a
  | .be32k a => some a
  | .be64k a => some a
  | .en4b => none
  | .ex4b => none
  | .exhbl => none
  | .wrear => none
  | .brwr _ => none

end Sys2Proof
end

