-- ==== Sys2Proof/WellFormed.lean ====
section
/-! DEFINITION. Which commands a frame can carry (R102, R201 to R204, R214, R218, R244), and which parameters the spec admits
(R102, R171, 93 U12). -/

namespace Sys2Proof

/-- An address that a field of `w` bytes holds without losing a bit (R97). -/
def addrFits (w : AddrWidth) (a : Nat) : Bool :=
  match w with
  | .unset => false
  | .three => decide (a < 16777216)
  | .four => decide (a < 4294967296)

/-- Operand checks of each command, for a block of parameters `p` that sends `w` address bytes:
an address fits its field (R97); an erase address is a multiple of the smallest sector the opcode erases (R198, R201 to R204);
a page program has 1 byte or more and stays in its page (R214); an AAI first pair has an even address (R218); a fast read
reads 1 to `READ_CHUNK` bytes (R244). -/
def Instr.wf (p : Params) (w : AddrWidth) : Instr → Bool
  | .probe => true
  | .read => true
  | .erase => true
  | .write => true
  | .wren => true
  | .wrdi => true
  | .rdsr => true
  | .wrsr _ => true
  | .rdid => true
  | .pp a d => addrFits w a && decide (1 ≤ d.length) && decide (d.length ≤ p.pageSize - a % p.pageSize)
  | .aaiWp a _ _ => addrFits w a && decide (a % 2 = 0)
  | .aaiCont _ _ => true
  | .fastRead a n => addrFits w a && decide (1 ≤ n) && decide (n ≤ Config.readChunk)
  | .se4k a => addrFits w a && decide (a % 4096 = 0)
  | .se4kPmc a => addrFits w a && decide (a % 4096 = 0)
  | .be32k a => addrFits w a && decide (a % 32768 = 0)
  | .be64k a => addrFits w a && decide (a % 65536 = 0)
  | .en4b => true
  | .ex4b => true
  | .exhbl => true
  | .wrear => true
  | .brwr _ => true

/-- Every element differs from every later one. -/
def allDistinct : List Byte → Bool
  | [] => true
  | x :: xs => !(xs.contains x) && allDistinct xs

/-- The parameter premises: the seven manufacturer codes are distinct (R171, 93 U12), and a page holds a byte (R102, F4). -/
def Params.wf (p : Params) : Bool := allDistinct p.manufacturers && decide (0 < p.pageSize)

/-- The opcode parameters tell the commands apart. Not a premise of the block, which only sends (R106); the premise under
which a frame can be decoded by its first byte (R104). -/
def Params.opcodesDistinct (p : Params) : Bool := allDistinct p.opcodes

end Sys2Proof
end

