-- ==== Sys2Proof/Decode.lean ====
section
/-! DEFINITION. The two encodings (30_encoding.md): the host command word, and the SPI frames. The decoder is total and
rejects by name; the encoder follows it. Byte-order helpers stand here too (R65, R67, R97, R99). -/

namespace Sys2Proof

/-! ## Byte order -/

/-- The byte lanes of a host register: offset +0 carries bits [7:0], offset +3 bits [31:24] (R65). -/
def wordLanes (v : Word) : List Byte :=
  [v.extractLsb' 0 8, v.extractLsb' 8 8, v.extractLsb' 16 8, v.extractLsb' 24 8]

/-- The register value of four byte lanes (R65); none for an access of another width (R66). -/
def wordOfLanes : List Byte → Option Word
  | [b0, b1, b2, b3] => some (b3 ++ b2 ++ b1 ++ b0)
  | _ => none

/-- `Encode(a, w)`: big-endian, most significant byte first, truncated to `w` bytes (R67, R97). -/
def encodeAddr (a : Nat) : AddrWidth → List Byte
  | .unset => []
  | .three => [BitVec.ofNat 8 (a / 65536), BitVec.ofNat 8 (a / 256), BitVec.ofNat 8 a]
  | .four =>
    [BitVec.ofNat 8 (a / 16777216), BitVec.ofNat 8 (a / 65536), BitVec.ofNat 8 (a / 256), BitVec.ofNat 8 a]

/-- The address that an address field holds: big-endian (R67). -/
def decodeAddr (bs : List Byte) : Nat := bs.foldl (fun acc b => acc * 256 + b.toNat) 0

/-- `CommandLength(w)` (R95). -/
def commandLength (w : AddrWidth) : Nat := w.bytes + 1

/-- `Hdr(op, a)` (R98). -/
def header (op : Byte) (a : Nat) (w : AddrWidth) : List Byte := op :: encodeAddr a w

/-- The 24-bit JEDEC ID of the RDID bytes: the first byte is the high byte (R99). -/
def assembleId (rx : List Byte) : BitVec 24 := rx.getD 0 0 ++ rx.getD 1 0 ++ rx.getD 2 0

/-- The 16-bit extended ID of the RDID bytes (R99). -/
def assembleExt (rx : List Byte) : BitVec 16 := rx.getD 3 0 ++ rx.getD 4 0

/-! ## Frame formats (R102) -/

/-- F1: one opcode byte. -/
def frameF1 (op : Byte) : Frame := { kind := .w, tx := [op], tx2 := [], n := 0 }
/-- F2: an opcode and one data byte. -/
def frameF2 (op d : Byte) : Frame := { kind := .w, tx := [op, d], tx2 := [], n := 0 }
/-- F3: an opcode and an address. -/
def frameF3 (op : Byte) (a : Nat) (w : AddrWidth) : Frame := { kind := .w, tx := header op a w, tx2 := [], n := 0 }
/-- F4: an opcode and an address, then the data as the second part of a `WriteTwo`. -/
def frameF4 (op : Byte) (a : Nat) (w : AddrWidth) (data : List Byte) : Frame :=
  { kind := .w2, tx := header op a w, tx2 := data, n := 0 }
/-- F5: an opcode, an address and two data bytes in one `Write`. -/
def frameF5 (op : Byte) (a : Nat) (w : AddrWidth) (d0 d1 : Byte) : Frame :=
  { kind := .w, tx := header op a w ++ [d0, d1], tx2 := [], n := 0 }
/-- F6: the continuation prefix (empty by default) and two data bytes. -/
def frameF6 (pre : List Byte) (d0 d1 : Byte) : Frame := { kind := .w, tx := pre ++ [d0, d1], tx2 := [], n := 0 }
/-- F7: an opcode, an address and the dummy byte, then `k` bytes read back. -/
def frameF7 (op : Byte) (a : Nat) (w : AddrWidth) (dummy : Byte) (k : Nat) : Frame :=
  { kind := .wr, tx := header op a w ++ [dummy], tx2 := [], n := k }
/-- F8: one opcode byte, then `k` bytes read back. -/
def frameF8 (op : Byte) (k : Nat) : Frame := { kind := .wr, tx := [op], tx2 := [], n := k }

/-- The second byte of BRWR: `enable4b` in its top bit, the other bits 0 (R103, R176). -/
def bankByte (en : Bool) : Byte := if en then 1 <<< Config.brwrEnBit else 0

/-! ## Decoding -/

/-- Why a word or a frame is no command. -/
inductive DecodeError
  /-- A host word with bits [31:4] not 0 (R92). -/
  | reservedBits
  /-- A host word with OP 0x0 or 0x5 to 0xF (R93). -/
  | reservedOp
  /-- A frame without a byte. -/
  | emptyFrame
  /-- A first byte that is no opcode of its transport operation, outside an AAI sequence (R101, R104). -/
  | unknownOpcode
  /-- A length that the opcode's format does not have (R102). -/
  | badLength
  /-- A fixed data byte with another value (R103). -/
  | badFixedByte
  /-- Operands that `Instr.wf` refuses. -/
  | illFormedOperand
  deriving DecidableEq, Repr

/-- The host command word (R91 to R93): bits [31:4] are tested first (R92). -/
def decodeHostWord (v : Word) : Except DecodeError Instr :=
  if v.extractLsb' 4 28 ≠ 0 then .error .reservedBits
  else
    match (v.extractLsb' 0 4).toNat with
    | 1 => .ok .probe
    | 2 => .ok .read
    | 3 => .ok .erase
    | 4 => .ok .write
    | _ => .error .reservedOp

/-- A one-byte command: nothing follows the opcode (F1). -/
def decodeF1 (rest : List Byte) (i : Instr) : Except DecodeError Instr :=
  match rest with
  | [] => .ok i
  | _ => .error .badLength

/-- An opcode and an address of the block's width (F3). -/
def decodeF3 (w : AddrWidth) (rest : List Byte) (mk : Nat → Instr) : Except DecodeError Instr :=
  if rest.length = w.bytes then .ok (mk (decodeAddr rest)) else .error .badLength

/-- A `Write` frame outside an AAI sequence (R101 to R103). -/
def decodeWrite (p : Params) (w : AddrWidth) (tx : List Byte) : Except DecodeError Instr :=
  match tx with
  | [] => .error .emptyFrame
  | op :: rest =>
    if op = p.opWren then decodeF1 rest .wren
    else if op = p.opWrdi then decodeF1 rest .wrdi
    else if op = p.opEn4b then decodeF1 rest .en4b
    else if op = p.opEx4b then decodeF1 rest .ex4b
    else if op = p.opExhbl then decodeF1 rest .exhbl
    else if op = p.opWrsr then
      match rest with
      | [v] => .ok (.wrsr v)
      | _ => .error .badLength
    else if op = p.opWrear then
      match rest with
      | [v] => if v = 0 then .ok .wrear else .error .badFixedByte
      | _ => .error .badLength
    else if op = p.opBrwr then
      match rest with
      | [v] =>
        if v = bankByte true then .ok (.brwr true)
        else if v = bankByte false then .ok (.brwr false)
        else .error .badFixedByte
      | _ => .error .badLength
    else if op = p.opSe4k then decodeF3 w rest .se4k
    else if op = p.opSe4kPmc then decodeF3 w rest .se4kPmc
    else if op = p.opBe32k then decodeF3 w rest .be32k
    else if op = p.opBe64k then decodeF3 w rest .be64k
    else if op = p.opAai then
      match rest.drop w.bytes with
      | [d0, d1] => .ok (.aaiWp (decodeAddr (rest.take w.bytes)) d0 d1)
      | _ => .error .badLength
    else .error .unknownOpcode

/-- An AAI continuation: the prefix and two data bytes; none for a frame of another shape (R104, R221). -/
def decodeContinuation (p : Params) (tx : List Byte) : Option Instr :=
  if p.aaiContPrefix.isPrefixOf tx then
    match tx.drop p.aaiContPrefix.length with
    | [d0, d1] => some (.aaiCont d0 d1)
    | _ => none
  else none

/-- A `WriteThenRead` frame (F7, F8). -/
def decodeReadBack (p : Params) (w : AddrWidth) (tx : List Byte) (n : Nat) : Except DecodeError Instr :=
  match tx with
  | [] => .error .emptyFrame
  | op :: rest =>
    if op = p.opRdsr then
      if rest = [] ∧ n = 1 then .ok .rdsr else .error .badLength
    else if op = p.opRdid then
      if rest = [] ∧ n = 5 then .ok .rdid else .error .badLength
    else if op = p.opFastRead then
      match rest.drop w.bytes with
      | [d] =>
        if d = p.fastReadDummy then .ok (.fastRead (decodeAddr (rest.take w.bytes)) n) else .error .badFixedByte
      | _ => .error .badLength
    else .error .unknownOpcode

/-- A `WriteTwo` frame (F4). -/
def decodeWriteTwo (p : Params) (w : AddrWidth) (tx data : List Byte) : Except DecodeError Instr :=
  match tx with
  | [] => .error .emptyFrame
  | op :: rest =>
    if op = p.opPp then decodeF3 w rest (fun a => .pp a data) else .error .unknownOpcode

/-- A decoded command is kept only when its operands are well formed. -/
def checkOperands (p : Params) (w : AddrWidth) (r : Except DecodeError Instr) : Except DecodeError Instr :=
  match r with
  | .ok i => if i.wf p w then .ok i else .error .illFormedOperand
  | .error e => .error e

/-- A frame of the history, for a block that sends `w` address bytes; `aai` says that the frame lies between an AAI_WP frame
and the WRDI that ends its sequence, after an RDSR frame (R104). -/
def decodeFrame (p : Params) (w : AddrWidth) (aai : Bool) (f : Frame) : Except DecodeError Instr :=
  checkOperands p w <|
    match f.kind with
    | .w =>
      match (if aai then decodeContinuation p f.tx else none) with
      | some i => .ok i
      | none => decodeWrite p w f.tx
    | .w2 => decodeWriteTwo p w f.tx f.tx2
    | .wr => decodeReadBack p w f.tx f.n

/-- Where a trace stands to an AAI sequence (R104): outside one; after a pair, whose RDSR frames must follow; or after an RDSR
frame in one, where the next `Write` frame is a continuation pair or the WRDI that ends the sequence. -/
inductive AaiContext
  | outside
  | paired
  | polled
  deriving DecidableEq, Repr

/-- Whether a frame can be an AAI continuation there: RDSR frames separate it from the pair before (R104). -/
def AaiContext.continues (c : AaiContext) : Bool := decide (c = .polled)

/-- The context after an RDSR frame. -/
def AaiContext.read : AaiContext → AaiContext
  | .outside => .outside
  | .paired => .polled
  | .polled => .polled

/-- The context after a command whose frame succeeded: a pair opens or goes on with the sequence, RDSR stays in it, and every
other command is no part of it (R104, R217). -/
def AaiContext.after (c : AaiContext) : Instr → AaiContext
  | .aaiWp _ _ _ => .paired
  | .aaiCont _ _ => .paired
  | .rdsr => c.read
  | .wrdi => .outside
  | .probe => .outside
  | .read => .outside
  | .erase => .outside
  | .write => .outside
  | .wren => .outside
  | .wrsr _ => .outside
  | .rdid => .outside
  | .pp _ _ => .outside
  | .fastRead _ _ => .outside
  | .se4k _ => .outside
  | .se4kPmc _ => .outside
  | .be32k _ => .outside
  | .be64k _ => .outside
  | .en4b => .outside
  | .ex4b => .outside
  | .exhbl => .outside
  | .wrear => .outside
  | .brwr _ => .outside

/-- The context after a frame: one that failed, or that is no command, ends its host command and with it the sequence
(R104, R278, R279). -/
def AaiContext.step (c : AaiContext) (ok : Bool) (r : Except DecodeError Instr) : AaiContext :=
  match r with
  | .ok i => if ok then c.after i else .outside
  | .error _ => .outside

/-- A trace decoder (R104): the commands of the events of one session, in issue order, for a block that sends `w` address
bytes. DMA accesses are no frames; a frame cut by a reset ends its command. -/
def decodeTrace (p : Params) (w : AddrWidth) (c : AaiContext) : List Event → List (Except DecodeError Instr)
  | [] => []
  | .mem _ _ _ :: es => decodeTrace p w c es
  | .frame _ f ok _ _ :: es =>
    decodeFrame p w c.continues f :: decodeTrace p w (c.step ok (decodeFrame p w c.continues f)) es
  | .cut _ f _ :: es => decodeFrame p w c.continues f :: decodeTrace p w .outside es

/-! ## Encoding -/

/-- What a command is written as: the word for the CMD register, or a frame. -/
inductive Encoded
  | word (v : Word)
  | frame (f : Frame)
  deriving DecidableEq, Repr

/-- The encoding of every command (R93, R101 to R103). -/
def encode (p : Params) (w : AddrWidth) : Instr → Encoded
  | .probe => .word 0x00000001
  | .read => .word 0x00000002
  | .erase => .word 0x00000003
  | .write => .word 0x00000004
  | .wren => .frame (frameF1 p.opWren)
  | .wrdi => .frame (frameF1 p.opWrdi)
  | .rdsr => .frame (frameF8 p.opRdsr 1)
  | .wrsr v => .frame (frameF2 p.opWrsr v)
  | .rdid => .frame (frameF8 p.opRdid 5)
  | .pp a d => .frame (frameF4 p.opPp a w d)
  | .aaiWp a d0 d1 => .frame (frameF5 p.opAai a w d0 d1)
  | .aaiCont d0 d1 => .frame (frameF6 p.aaiContPrefix d0 d1)
  | .fastRead a n => .frame (frameF7 p.opFastRead a w p.fastReadDummy n)
  | .se4k a => .frame (frameF3 p.opSe4k a w)
  | .se4kPmc a => .frame (frameF3 p.opSe4kPmc a w)
  | .be32k a => .frame (frameF3 p.opBe32k a w)
  | .be64k a => .frame (frameF3 p.opBe64k a w)
  | .en4b => .frame (frameF1 p.opEn4b)
  | .ex4b => .frame (frameF1 p.opEx4b)
  | .exhbl => .frame (frameF1 p.opExhbl)
  | .wrear => .frame (frameF2 p.opWrear 0)
  | .brwr en => .frame (frameF2 p.opBrwr (bankByte en))

/-- Decode what `encode` writes. -/
def decode (p : Params) (w : AddrWidth) (aai : Bool) : Encoded → Except DecodeError Instr
  | .word v => decodeHostWord v
  | .frame f => decodeFrame p w aai f

/-- The AAI context in which a command's own frame stands: inside the sequence for AAI_CONT only (R104). -/
def Instr.isContinuation : Instr → Bool
  | .aaiCont _ _ => true
  | .probe => false
  | .read => false
  | .erase => false
  | .write => false
  | .wren => false
  | .wrdi => false
  | .rdsr => false
  | .wrsr _ => false
  | .rdid => false
  | .pp _ _ => false
  | .aaiWp _ _ _ => false
  | .fastRead _ _ => false
  | .se4k _ => false
  | .se4kPmc _ => false
  | .be32k _ => false
  | .be64k _ => false
  | .en4b => false
  | .ex4b => false
  | .exhbl => false
  | .wrear => false
  | .brwr _ => false

/-! ## Rows of the opcode table -/

/-- The frame whose first byte is `op` and whose operand bytes are all 0, at the default parameters and three address bytes,
with the AAI context it is read in. A first byte that is no opcode can only open an AAI continuation, which has none
(R104, R106), so its first data byte is `op`. -/
def zeroFrame (op : Byte) : Frame × Bool :=
  let p := Params.standard
  if op = p.opPp then (frameF4 op 0 .three [0], false)
  else if op = p.opFastRead then (frameF7 op 0 .three 0 1, false)
  else if op = p.opRdsr then (frameF8 op 1, false)
  else if op = p.opRdid then (frameF8 op 5, false)
  else if op = p.opAai then (frameF5 op 0 .three 0 0, false)
  else if op = p.opSe4k then (frameF3 op 0 .three, false)
  else if op = p.opSe4kPmc then (frameF3 op 0 .three, false)
  else if op = p.opBe32k then (frameF3 op 0 .three, false)
  else if op = p.opBe64k then (frameF3 op 0 .three, false)
  else if op = p.opWrsr then (frameF2 op 0, false)
  else if op = p.opWrear then (frameF2 op 0, false)
  else if op = p.opBrwr then (frameF2 op 0, false)
  else if p.opcodes.contains op then (frameF1 op, false)
  else (frameF6 p.aaiContPrefix op 0, true)

/-- `some` of a decoded command. -/
def instrOf : Except DecodeError Instr → Option Instr
  | .ok i => some i
  | .error _ => none

/-- The command the decoder reads from an opcode-table row's bits: a 32-bit row is a host command word, laid out in its byte
lanes (R65); an 8-bit row is the first byte of a frame whose other bytes are 0. -/
def decodeTableWord (nbits w : Nat) : Option Instr :=
  if nbits = 32 ∧ w < 4294967296 then
    match wordOfLanes (wordLanes (BitVec.ofNat 32 w)) with
    | some v => instrOf (decodeHostWord v)
    | none => none
  else if nbits = 8 ∧ w < 256 then
    let fa := zeroFrame (BitVec.ofNat 8 w)
    instrOf (decodeFrame Params.standard .three fa.2 fa.1)
  else none

end Sys2Proof
end

