-- ==== Sys2Proof/Machine/State.lean ====
section
/-! DEFINITION. The machine's state as plain data: every piece of state of 10_state.md, host memory, the run's history, the
answers of the world outside the block, and the script of the host's turns. Its fault and refusal reasons and its reset. -/

namespace Sys2Proof.Machine

/-! ## Control state -/

/-- `s.probe_state` (R41). -/
inductive ProbeState
  | unprobed
  | probed
  | failed
  deriving DecidableEq, Repr

/-- The code in STATUS.ERR (R276): codes 10 to 15 have no constructor (93 U17). -/
inductive ErrCode
  | ok
  | transport
  | noChip
  | unknownId
  | align
  | capacity
  | noBuffer
  | notProbed
  | illegalCommand
  | probeRejected
  deriving DecidableEq, Repr

/-- The places where `Poll` is called (R152): after the unlock writes (`u1`, `u3`), after an erase (`e`), after a page
(`g`), and in the AAI program after the odd first byte (`s1`), a pair (`s3`), the closing WRDI (`s4`) and the odd last byte
(`s5`). -/
inductive PollSite
  | u1
  | u3
  | e
  | g
  | s1
  | s3
  | s4
  | s5
  deriving DecidableEq, Repr

/-- A position in a command's pseudocode (R47). A position that issues a frame is named for it; the position after the frame
is the next one of the pseudocode. -/
inductive Label
  /-- The first position of every command (R131). -/
  | start
  /-- An error has been raised; its completion step is next (R278). -/
  | raise (e : ErrCode)
  /-- `SetAddressMode(true)` with `k` of its frames sent (R172). -/
  | enter (k : Nat)
  /-- `SetAddressMode(false)` with `k` of its frames sent (R172). -/
  | exit (k : Nat)
  /-- @Q1: RDID (R259). -/
  | q1
  /-- @Q2: the ID is captured (R257). -/
  | q2
  /-- @U1: WREN of the INIT_SR unlock (R181). -/
  | u1w
  /-- @U1: WRSR 0. -/
  | u1s
  /-- @U2: RDSR of the block-protection unlock (R182). -/
  | u2
  /-- @U2: the status has been read. -/
  | u3
  /-- @U3: WREN. -/
  | u3w
  /-- @U3: WRSR of the cleared value. -/
  | u3s
  /-- @R4: loop head of READ (R241). -/
  | r4
  /-- @R4a: FAST_READ. -/
  | r4a
  /-- @R4b: DMA writes of the bytes received. -/
  | r4b
  /-- @E3: loop head of ERASE (R197). -/
  | e3
  /-- @E3a: WREN. -/
  | e3a
  /-- @E3b: the erase frame. -/
  | e3b
  /-- @G1: loop head of the page program (R213). -/
  | g1
  /-- @G2: DMA reads of the chunk. -/
  | g2
  /-- @G3: WREN. -/
  | g3
  /-- @G4: PP. -/
  | g4
  /-- @S1: DMA read of the odd first byte (R217). -/
  | s1m
  /-- @S1: WREN of `ProgramByte`. -/
  | s1w
  /-- @S1: PP of `ProgramByte`. -/
  | s1p
  /-- @S2: WREN before the pairs. -/
  | s2
  /-- @S2: `s.first` is set. -/
  | s2d
  /-- @S3: loop head of the pairs. -/
  | s3
  /-- @S3: DMA reads of a pair. -/
  | s3m
  /-- @S3: AAI_WP or AAI_CONT. -/
  | s3f
  /-- @S4: WRDI. -/
  | s4
  /-- @S5: DMA read of the odd last byte. -/
  | s5m
  /-- @S5: WREN of `ProgramByte`. -/
  | s5w
  /-- @S5: PP of `ProgramByte`. -/
  | s5p
  /-- @S6: the last WRDI. -/
  | s6
  /-- @P1: RDSR of a Poll (R151). -/
  | poll (c : PollSite)
  /-- @P1: the status of a Poll has been read into `s.sr`. -/
  | polled (c : PollSite)
  deriving DecidableEq, Repr

/-- `s.phase`, the sequencer's step pointer: IDLE, or a command and a position in it (R47). -/
inductive Phase
  | idle
  | run (op : HostOp) (l : Label)
  deriving DecidableEq, Repr

/-- The derived session parameters (R43, R258). -/
structure Derived where
  eraseOp : Byte
  eraseSize : Word
  addrWidth : AddrWidth
  sstWrite : Bool
  deriving DecidableEq, Repr

/-- The derived parameters before a probe (R43, R52). -/
def Derived.none : Derived := { eraseOp := 0, eraseSize := 0, addrWidth := .unset, sstWrite := false }

/-- A sector, chunk or pair of the flash array: `size` bytes from `addr` on (R16). -/
structure Span where
  addr : Nat
  size : Nat
  deriving DecidableEq, Repr

/-- One thing the frames sent have done to the flash array (R201 to R204, R214, R218, R221). What the array then holds is the
flash's own (R63, R82, R223). -/
inductive ArrayOp
  /-- The flash erases `size` bytes at `addr`. -/
  | erased (addr size : Nat)
  /-- The flash programs `data` at `addr`, `addr + 1`, ... (R68). -/
  | programmed (addr : Nat) (data : List Byte)
  /-- A frame of this unit failed: its bytes are in an unknown state, and every other unit is as it was (R280, 93 U6). -/
  | disturbed (unit : Span)
  /-- A reset cut a command short, or a pair went to a pointer that is unknown: any contents (R302, 93 U8). -/
  | unknown
  deriving DecidableEq, Repr

/-- What the frames sent so far say of the flash device's hidden state (R50) and array, by the "On the flash" clauses of the
SPI commands' rules. `none` says that the spec leaves it unknown: after reset (R52), after a failed frame (R280) and after a
reset while busy (R302). No step of the block reads it (R49, R50). -/
structure FlashView where
  /-- (a) the busy bit. -/
  busy : Option Bool
  /-- (b) the write-enable latch. -/
  wel : Option Bool
  /-- (c) 4-byte addressing mode. -/
  fourByte : Option Bool
  /-- (d) the extended-address register. -/
  ear : Option Byte
  /-- (d) the bank register. -/
  bank : Option Byte
  /-- (d) the high-bank latch. -/
  highBank : Option Bool
  /-- (e) AAI mode. -/
  aai : Option Bool
  /-- (f) the status register, block-protection bits among its bits. -/
  sr : Option Byte
  /-- The internal address pointer of an AAI sequence (R220, R221). -/
  pointer : Option Nat
  /-- What has been done to the array, the latest first. -/
  array : List ArrayOp
  deriving DecidableEq, Repr

/-- Nothing is known of the flash device, and nothing has been done to its array. -/
def FlashView.unknown : FlashView :=
  { busy := none, wel := none, fourByte := none, ear := none, bank := none, highBank := none, aai := none, sr := none,
    pointer := none, array := [] }

/-- Host memory: address and byte pairs, addresses strictly rising, no entry equal to what an unlisted address reads as. -/
abbrev Memory := List Host.Cell

/-! ## The host's side -/

/-- One access of the host (R21, R22, R84): a bus write of as many bytes as its width, in lane order (R65); a bus read of
`size` bytes; and a store to and a load from a byte of its own memory (R87). -/
inductive HostAccess
  | write (addr : Word) (data : List Byte)
  | read (addr : Word) (size : Nat)
  | store (addr : Word) (v : Byte)
  | load (addr : Word)
  deriving DecidableEq, Repr

/-- Who moves next. A script of turns is one interleaving of the host and the sequencer (R84); any interleaving is one. -/
inductive Turn
  /-- The host makes an access. -/
  | host (a : HostAccess)
  /-- The sequencer takes a step. -/
  | seq
  /-- The host repeats `lw STATUS` until BUSY = 0 (R108); while BUSY = 1 the sequencer moves between two reads. -/
  | wait
  /-- Reset is asserted and released (R301). -/
  | reset
  deriving DecidableEq, Repr

/-! ## State -/

/-- The whole state. The registers are those of R23 to R39 (STATUS is assembled from `busy`, `done`, `err`, `statusCur` and
the probe state, and the other read-only registers from the fields they show), then the internal state of R41 to R47, host
memory, and the model's own fields. -/
structure State where
  /-- ADDR (R24). -/
  addr : Word
  /-- LEN (R25). -/
  len : Word
  /-- BUF (R26). -/
  buf : Word
  /-- STATUS.BUSY (R28). -/
  busy : Bool
  /-- STATUS.DONE (R29). -/
  done : Bool
  /-- STATUS.ERR (R32). -/
  err : ErrCode
  /-- STATUS.CUR (R33). -/
  statusCur : BitVec 4
  /-- PROGRESS (R39). -/
  progress : Word
  /-- `s.probe_state` (R41). -/
  probeState : ProbeState
  /-- `s.desc` (R42). -/
  desc : Option Descriptor
  /-- `s.erase_op`, `s.erase_size`, `s.addr_width`, `s.sst_write` (R43). -/
  params : Derived
  /-- `s.raw_id` (R44). -/
  rawId : BitVec 24
  /-- `s.raw_ext` (R44). -/
  rawExt : BitVec 16
  /-- `s.op` (R45). -/
  op : HostOp
  /-- `s.op_addr` (R45). -/
  opAddr : Word
  /-- `s.op_len` (R45). -/
  opLen : Word
  /-- `s.op_buf` (R45). -/
  opBuf : Word
  /-- `s.cur` (R46). -/
  cur : Nat
  /-- `s.rem` (R46). -/
  rem : Nat
  /-- `s.hoff` (R46). -/
  hoff : Nat
  /-- `s.sr` (R46). -/
  sr : Byte
  /-- `s.mask` (R46). -/
  mask : Byte
  /-- `s.first` (R46). -/
  first : Bool
  /-- `s.n` (R46): at most `s.op_len`, so within 32 bits. -/
  n : Nat
  /-- `s.pdesc` (R46). -/
  pdesc : Option Descriptor
  /-- `s.pparams` (R46). -/
  pparams : Derived
  /-- The pseudocode's `data` and `rx`: the bytes of the current frame between DMA and wire (R213, R217, R241). -/
  xfer : List Byte
  /-- `s.phase` (R47). -/
  phase : Phase
  /-- Host memory (R61, R62). -/
  mem : Memory
  /-- The flash device's hidden state as far as the spec fixes it (R50). -/
  flash : FlashView
  /-- The run's history, the latest event first (R80). -/
  history : List Event
  /-- The model's own: the answers still to come from the transport and the flash (R79, R82). -/
  answers : List Answer
  /-- The model's own: the registry rows given as data (R14). -/
  registry : List RegEntry
  /-- The model's own: the parameters of the block (R7, R8). -/
  par : Params
  /-- The model's own: the turns still to come (R84). -/
  script : List Turn
  /-- The model's own: the bytes the host's last bus read (R71), in lane order, or memory load (R87) returned. -/
  readData : List Byte
  /-- The model's own: the bytes of the current command's buffer that the host has stored to while it was in flight (R87,
  R309). -/
  raced : List Word
  /-- The model's own: the bytes of host memory that the current command's DMA writes have replaced, each with its value before
  (R87), the latest first. -/
  replaced : List (Word × Byte)
  /-- The model's own: how many free values have been drawn. -/
  draws : Nat
  deriving DecidableEq, Repr

/-- The state after reset (R52, R301). The working registers are unspecified there (R46, R52) and take 0 (DESIGN CHOICE,
unsafe). -/
def State.reset : State where
  addr := 0
  len := 0
  buf := 0
  busy := false
  done := false
  err := .ok
  statusCur := 0
  progress := 0
  probeState := .unprobed
  desc := none
  params := Derived.none
  rawId := 0
  rawExt := 0
  op := .illegal
  opAddr := 0
  opLen := 0
  opBuf := 0
  cur := 0
  rem := 0
  hoff := 0
  sr := 0
  mask := 0
  first := false
  n := 0
  pdesc := none
  pparams := Derived.none
  xfer := []
  phase := .idle
  mem := []
  flash := FlashView.unknown
  history := []
  answers := []
  registry := []
  par := Params.standard
  script := []
  readData := []
  raced := []
  replaced := []
  draws := 0

/-! ## How a step can stop -/

/-- Why the machine can be stuck. No run from reset reaches one. -/
inductive Fault
  /-- Raised by the sequencer at @E3b when `s.erase_op` is none of the four erase opcodes; safe: a successful probe always
  sets one of them (R196, R258), so no run reaches it. -/
  | eraseOpUnset
  deriving DecidableEq, Repr

/-- Why the model refuses to go on. -/
inductive Refusal
  /-- An instruction without a meaning; answered by `exec` alone; safe. -/
  | notModelled (mnemonic : String)
  /-- Answered by every step of a machine whose parameters break a premise (R171, 93 U12); safe. -/
  | parametersIllFormed
  /-- Answered by PROBE when `Lookup` returns a descriptor that breaks the registry premise (R14, 93 U11); safe. -/
  | descriptorIllFormed
  deriving DecidableEq, Repr

/-- The answer of a meaning and of a step. -/
abbrev Result := Host.Outcome State Fault Refusal

/-! ## What the sequencer does next, and what a step does -/

/-- The next atomic step of the sequencer (R13). -/
inductive Action
  /-- One transport operation: an SPI command. -/
  | frame (i : Instr)
  /-- One DMA read. -/
  | memRead (a : Word)
  /-- One DMA write. -/
  | memWrite (a : Word) (v : Byte)
  /-- The completion of the command with a code. -/
  | complete (e : ErrCode)
  /-- The command stops outside the registry premise. -/
  | refuse (r : Refusal)
  /-- The sequencer is stuck. -/
  | stuck (f : Fault)
  /-- The sequencer is IDLE. -/
  | none
  deriving DecidableEq, Repr

/-- The state with the internal computation before an atomic step done (R13), and that step. -/
structure Planned where
  state : State
  action : Action
  deriving DecidableEq, Repr

/-- What a step turns out to be: a command to execute at a state, or a step that executes none. -/
inductive Fetched
  | run (i : Instr) (s : State)
  | done (r : Result)
  deriving Repr

end Sys2Proof.Machine
end

