-- ==== Sys2Proof/Machine/Ops.lean ====
section
/-! DEFINITION. The shared operations: host memory and DMA (R62), the transport (R74 to R79), acceptance (R131), raising an
error and completing a command (R135, R278), and reset (R301, R302). -/

namespace Sys2Proof.Machine

/-! ## Host memory -/

/-- What an address reads as that no entry lists. The spec gives host memory no contents; 0 is a DESIGN CHOICE, unsafe. -/
def Memory.unlisted : Byte := 0

/-- The byte at an address. -/
def Memory.get : Memory → Nat → Byte
  | [], _ => Memory.unlisted
  | (k, v) :: m, a => if k = a then v else Memory.get m a

/-- An entry for address `a` before a list of entries above `a`; none for the value an unlisted address reads as. -/
def Memory.cell (a : Nat) (v : Byte) (m : Memory) : Memory := if v = Memory.unlisted then m else (a, v) :: m

/-- Store a byte, keeping the canonical form. -/
def Memory.set : Memory → Nat → Byte → Memory
  | [], a, v => Memory.cell a v []
  | (k, w) :: m, a, v =>
    if a < k then Memory.cell a v ((k, w) :: m)
    else if a = k then Memory.cell a v m
    else (k, w) :: Memory.set m a v

/-- Every entry lies above `lo`, addresses rise strictly, and no entry is what an unlisted address reads as. -/
def Memory.wfFrom : Nat → Memory → Bool
  | _, [] => true
  | lo, (k, v) :: m => decide (lo ≤ k) && decide (v ≠ Memory.unlisted) && Memory.wfFrom (k + 1) m

/-- Every address lies in the 32-bit space of R62. -/
def Memory.bounded (m : Memory) : Bool := m.all fun c => decide (c.1 < 4294967296)

/-- The canonical form of host memory. -/
def Memory.wf (m : Memory) : Bool := Memory.wfFrom 0 m && Memory.bounded m

/-- `MemRead(a, 1)` without its event (R62). -/
def State.byteAt (s : State) (a : Word) : Byte := s.mem.get a.toNat

/-- `MemWrite(a, 1, v)` without its event (R62). -/
def State.setByte (a : Word) (v : Byte) (s : State) : State := { s with mem := s.mem.set a.toNat v }

/-- Buffer byte `i` of the current command is at `(s.op_buf + i) mod 2^32` (R62). -/
def State.hostAddr (s : State) (i : Nat) : Word := s.opBuf + BitVec.ofNat 32 i

/-- A byte of host memory that the block and the host have both accessed while a command was in flight is a free value, and
`v` otherwise (R87, R309, 93 U10; log entry 28). -/
def State.unlessRaced (a : Word) (v : Byte) (s : State) : Byte :=
  if s.raced.contains a then Config.freeByte s.history s.draws 0 else v

/-- The draws after an access of address `a`. -/
def State.raceDraws (a : Word) (s : State) : Nat := if s.raced.contains a then s.draws + 1 else s.draws

/-- The byte that a DMA read at `a` gets. -/
def State.dmaByte (a : Word) (s : State) : Byte := s.unlessRaced a (s.byteAt a)

/-- One DMA read into the frame buffer, with its event (R80, R85). -/
def State.dmaRead (a : Word) (s : State) : State :=
  { s with
    xfer := s.xfer ++ [s.dmaByte a]
    history := .mem .read a (s.dmaByte a) :: s.history
    draws := s.raceDraws a }

/-- One DMA write of the next byte received, with its event (R80, R86). The value it replaces is kept for the host's loads
(R87). -/
def State.dmaWrite (a : Word) (v : Byte) (s : State) : State :=
  { s with
    mem := s.mem.set a.toNat (s.unlessRaced a v)
    xfer := s.xfer.tail
    replaced := (a, s.byteAt a) :: s.replaced
    history := .mem .write a v :: s.history
    draws := s.raceDraws a }

/-- Unspecified bytes `vs` from buffer byte `i` on: no DMA access, so no event (R86, R278). -/
def State.fillUnspecified (i : Nat) : List Byte → State → State
  | [], s => s
  | v :: vs, s => State.fillUnspecified (i + 1) vs (s.setByte (s.hostAddr i) v)

/-! ## The step pointer -/

/-- `phase <- (op, l)` (R12, R47). -/
def State.goto (op : HostOp) (l : Label) (s : State) : State := { s with phase := .run op l }

/-- The position after a frame that succeeded (R47): the next one of the pseudocode. -/
def Label.next : Label → Label
  | .start => .start
  | .raise e => .raise e
  | .enter k => .enter (k + 1)
  | .exit k => .exit (k + 1)
  | .q1 => .q2
  | .q2 => .q2
  | .u1w => .u1s
  | .u1s => .poll .u1
  | .u2 => .u3
  | .u3 => .u3
  | .u3w => .u3s
  | .u3s => .poll .u3
  | .r4 => .r4
  | .r4a => .r4b
  | .r4b => .r4b
  | .e3 => .e3
  | .e3a => .e3b
  | .e3b => .poll .e
  | .g1 => .g1
  | .g2 => .g2
  | .g3 => .g4
  | .g4 => .poll .g
  | .s1m => .s1m
  | .s1w => .s1p
  | .s1p => .poll .s1
  | .s2 => .s2d
  | .s2d => .s2d
  | .s3 => .s3
  | .s3m => .s3m
  | .s3f => .poll .s3
  | .s4 => .poll .s4
  | .s5m => .s5m
  | .s5w => .s5p
  | .s5p => .poll .s5
  | .s6 => .exit 0
  | .poll c => .polled c
  | .polled c => .polled c

/-- The phase after a frame that succeeded. -/
def Phase.next : Phase → Phase
  | .idle => .idle
  | .run op l => .run op l.next

/-- The phase after `raise E`: the completion step is next (R278). -/
def Phase.raised (e : ErrCode) : Phase → Phase
  | .idle => .idle
  | .run op _ => .run op (.raise e)

/-- The turns still to come are `rest` (R84). -/
def State.withScript (rest : List Turn) (s : State) : State := { s with script := rest }

/-- What the frames sent say of the flash device becomes `v` (R50). -/
def State.withFlash (v : FlashView) (s : State) : State := { s with flash := v }

/-- The frame buffer becomes `bs`. -/
def State.withBuffer (bs : List Byte) (s : State) : State := { s with xfer := bs }

/-- The length of the current chunk becomes `k` (R46). -/
def State.withChunk (k : Nat) (s : State) : State := { s with n := k }

/-- `s.first <- b` (R46, R217). -/
def State.withFirst (b : Bool) (s : State) : State := { s with first := b }

/-- Control passes the frame just sent. -/
def State.advance (s : State) : State := { s with phase := s.phase.next }

/-! ## Raising an error and completing a command -/

/-- `raise E(info)` (R278, 1): no further frame and no further DMA access; the completion step is next. -/
def State.raise (e : ErrCode) (s : State) : State := { s with phase := s.phase.raised e }

/-- `s.probe_state` after a completion: an error but PROBE_REJECTED makes a PROBE fail (R259, R278, 2). -/
def ProbeState.afterCompletion (ps : ProbeState) (ph : Phase) (e : ErrCode) : ProbeState :=
  match ph with
  | .run .probe _ => if e = .ok ∨ e = .probeRejected then ps else .failed
  | .run .read _ => ps
  | .run .erase _ => ps
  | .run .write _ => ps
  | .run .illegal _ => ps
  | .idle => ps

/-- The completion step, for `finish()` and for every error: it records the code, clears BUSY, sets DONE and returns to IDLE
(R135, R278). The working registers of the idle block keep their last values: the spec leaves them unspecified (R46, 93 U9),
and keeping them is a DESIGN CHOICE, unsafe (log entry 10). -/
def State.complete (e : ErrCode) (s : State) : State :=
  { s with
    probeState := s.probeState.afterCompletion s.phase e
    err := e
    busy := false
    done := true
    phase := .idle }

/-! ## Acceptance -/

/-- Acceptance of a command whose CMD value has bits [3:0] = `code` (R131). -/
def State.accept (op : HostOp) (code : BitVec 4) (s : State) : State :=
  { s with
    op := op
    opAddr := s.addr
    opLen := s.len
    opBuf := s.buf
    busy := true
    done := false
    err := .ok
    statusCur := code
    progress := 0
    phase := .run op .start
    raced := []
    replaced := [] }

/-- A command is accepted while BUSY = 0; while BUSY = 1 the CMD write is ignored entirely (R23, R131). -/
def State.issue (op : HostOp) (code : BitVec 4) (s : State) : State := if s.busy then s else s.accept op code

/-! ## The flash device's hidden state, as the SPI commands' "On the flash" clauses give it (R50) -/

/-- After a failed frame nothing is known of the flash's modes and registers, and of its array the unit of that frame, if it
has one, is in an unknown state; the units before it are done (R79, R280). -/
def FlashView.lost (unit : Option Span) (v : FlashView) : FlashView :=
  match unit with
  | some u => { FlashView.unknown with array := .disturbed u :: v.array }
  | none => { FlashView.unknown with array := v.array }
/-- After a reset while BUSY nothing is known of the flash (R302, 93 U8). -/
def FlashView.abandoned (v : FlashView) : FlashView := { FlashView.unknown with array := .unknown :: v.array }
/-- WREN sets the latch (R146). -/
def FlashView.latched (v : FlashView) : FlashView := { v with wel := some true }
/-- WRDI clears the latch and leaves AAI mode (R147). -/
def FlashView.released (v : FlashView) : FlashView := { v with wel := some false, aai := some false, pointer := none }
/-- An erase of `size` bytes at `addr` sets the busy bit (R201 to R204). -/
def FlashView.erasing (addr size : Nat) (v : FlashView) : FlashView :=
  { v with busy := some true, array := .erased addr size :: v.array }
/-- A page program sets the busy bit (R214). -/
def FlashView.programming (addr : Nat) (data : List Byte) (v : FlashView) : FlashView :=
  { v with busy := some true, array := .programmed addr data :: v.array }
/-- WRSR writes the status register and sets the busy bit (R149). The record holds the whole byte written in `sr` and the busy
bit in `busy`: what bit 0 of the register itself reads until the write completes the spec leaves open, and taking the byte
written for it is a DESIGN CHOICE, unsafe (log entry 13). -/
def FlashView.statusWritten (b : Byte) (v : FlashView) : FlashView := { v with sr := some b, busy := some true }
/-- AAI_WP enters AAI mode, programs its pair, and sets the busy bit (R218); the pointer moves on by 2 (R220). -/
def FlashView.aaiEntered (addr : Nat) (d0 d1 : Byte) (v : FlashView) : FlashView :=
  { v with busy := some true, aai := some true, pointer := some (addr + 2), array := .programmed addr [d0, d1] :: v.array }
/-- What an AAI continuation does to the array: it programs its pair at the flash's own pointer (R221). -/
def FlashView.pairDone (d0 d1 : Byte) (v : FlashView) : ArrayOp :=
  match v.pointer with
  | some p => .programmed p [d0, d1]
  | none => .unknown
/-- AAI_CONT sets the busy bit and moves the pointer on by 2 (R220, R221). -/
def FlashView.aaiContinued (d0 d1 : Byte) (v : FlashView) : FlashView :=
  { v with busy := some true, pointer := v.pointer.map (· + 2), array := v.pairDone d0 d1 :: v.array }

/-- The latch once the flash reports that it is idle: the completion of a mutating command clears it, but not within AAI
(R15, R50 (b), R153). -/
def FlashView.welWhenIdle (v : FlashView) : Option Bool :=
  if v.busy = some false ∨ v.wel = some false then v.wel
  else if v.aai = some true then v.wel
  else if v.busy = some true ∧ v.aai = some false then some false
  else none

/-- RDSR reports the status register, and with its bit 0 whether the flash is busy (R50 (a), R148, R150). -/
def FlashView.reported (b : Byte) (v : FlashView) : FlashView :=
  { v with
    sr := some b
    busy := some (b.getLsbD Config.busyBit)
    wel := if b.getLsbD Config.busyBit then v.wel else v.welWhenIdle }

/-! ## The unit of a frame (R280) -/

/-- The unit of the array that a `Poll` waits for: none after the unlock writes and after the WRDI that closes AAI (R152). -/
def State.polledUnit (s : State) : PollSite → Option Span
  | .u1 => none
  | .u3 => none
  | .e => some { addr := s.cur, size := s.params.eraseSize.toNat }
  | .g => some { addr := s.cur, size := s.n }
  | .s1 => some { addr := s.cur, size := 1 }
  | .s3 => some { addr := s.cur, size := 2 }
  | .s4 => none
  | .s5 => some { addr := s.cur, size := 1 }

/-- The sector, chunk, pair or byte that a position works on, if any: a frame of the bracket, of the unlock, of RDID,
of FAST_READ, and a WRDI of AAI have none (R280). The WREN of @S2 is counted to the first pair, if there is one. -/
def State.unitAt (s : State) : Label → Option Span
  | .start => none
  | .raise _ => none
  | .enter _ => none
  | .exit _ => none
  | .q1 => none
  | .q2 => none
  | .u1w => none
  | .u1s => none
  | .u2 => none
  | .u3 => none
  | .u3w => none
  | .u3s => none
  | .r4 => none
  | .r4a => none
  | .r4b => none
  | .e3 => s.polledUnit .e
  | .e3a => s.polledUnit .e
  | .e3b => s.polledUnit .e
  | .g1 => none
  | .g2 => s.polledUnit .g
  | .g3 => s.polledUnit .g
  | .g4 => s.polledUnit .g
  | .s1m => s.polledUnit .s1
  | .s1w => s.polledUnit .s1
  | .s1p => s.polledUnit .s1
  | .s2 => if 2 ≤ s.rem then s.polledUnit .s3 else none
  | .s2d => none
  | .s3 => none
  | .s3m => s.polledUnit .s3
  | .s3f => s.polledUnit .s3
  | .s4 => none
  | .s5m => s.polledUnit .s5
  | .s5w => s.polledUnit .s5
  | .s5p => s.polledUnit .s5
  | .s6 => none
  | .poll c => s.polledUnit c
  | .polled c => s.polledUnit c

/-- The unit of the frame at the step pointer. -/
def State.unitAtWork (s : State) : Option Span :=
  match s.phase with
  | .idle => none
  | .run _ l => s.unitAt l

/-- The unit of the array that a command's frame works on (R280): its own operands where it has an address, the cursor's pair
for an AAI continuation, and the unit at the step pointer for the WREN, WRDI and RDSR around them. -/
def State.unitOf (s : State) : Instr → Option Span
  | .pp a d => some { addr := a, size := d.length }
  | .aaiWp a _ _ => some { addr := a, size := 2 }
  | .aaiCont _ _ => some { addr := s.cur, size := 2 }
  | .se4k a => some { addr := a, size := 4096 }
  | .se4kPmc a => some { addr := a, size := 4096 }
  | .be32k a => some { addr := a, size := 32768 }
  | .be64k a => some { addr := a, size := s.params.eraseSize.toNat }
  | .wren => s.unitAtWork
  | .wrdi => s.unitAtWork
  | .rdsr => s.unitAtWork
  | .wrsr _ => none
  | .rdid => none
  | .fastRead _ _ => none
  | .en4b => none
  | .ex4b => none
  | .exhbl => none
  | .wrear => none
  | .brwr _ => none
  | .probe => none
  | .read => none
  | .erase => none
  | .write => none

/-! ## The transport -/

/-- The `ok` of the next transport call (R79). -/
def State.frameOk (s : State) : Bool :=
  match s.answers with
  | a :: _ => a.ok
  | [] => Config.transportOk s.history s.draws

/-- Byte `i` that the flash answers to the next transport call (R82). -/
def State.oracleByte (s : State) (i : Nat) : Byte :=
  match s.answers with
  | a :: _ => (a.rx[i]?).getD (Config.flashByte s.history s.draws i)
  | [] => Config.flashByte s.history s.draws i

/-- The bytes read back by the next transport call, if it succeeds: `len(rx) = n` (R78). -/
def State.oracleBytes (s : State) (n : Nat) : List Byte := (List.range n).map s.oracleByte

/-- How many bytes of a frame that fails reach the wire: any prefix of `a ++ b` (R77, R79). -/
def State.cutAt (s : State) (f : Frame) : Nat :=
  match s.answers with
  | a :: _ => min a.sent f.wire.length
  | [] => min (Config.sentBytes s.history s.draws) f.wire.length

/-- How many bytes of the next frame reach the wire (R70, R79). -/
def State.frameSent (s : State) (f : Frame) : Nat := if s.frameOk then f.wire.length else s.cutAt f

/-- `rx` of the next transport call: empty but for a `WriteThenRead` that succeeds (R80). -/
def State.frameRx (s : State) (f : Frame) : List Byte := if s.frameOk then s.oracleBytes f.n else []

/-- One transport call: it takes its answer and appends its event (R80). -/
def State.transport (f : Frame) (s : State) : State :=
  { s with
    history := .frame s.par.chipSelect f s.frameOk (s.frameSent f) (s.frameRx f) :: s.history
    answers := s.answers.tail
    draws := s.draws + 1 }

/-- `X(op)` (R12): the one frame `f` of command `i`, atomically. If it succeeds, the command's own effect follows and control
passes the frame. If it fails, TransportError is raised, and what the flash did with the frame is unknown (R79, R279, R280). -/
def State.send (i : Instr) (f : Frame) (onOk onFail : State → State) (s : State) : State :=
  if s.frameOk then (onOk (s.transport f)).advance
  else (onFail ((s.transport f).withFlash (s.flash.lost (s.unitOf i)))).raise .transport

/-! ## Reset -/

/-- Every piece of the block's state at its reset value; host memory, the flash and the world outside stay (R52, R301). -/
def State.cleared (s : State) : State :=
  { State.reset with
    mem := s.mem
    flash := s.flash
    history := s.history
    answers := s.answers
    registry := s.registry
    par := s.par
    script := s.script
    readData := s.readData
    draws := s.draws }

/-- A reset that cuts a frame short: an unspecified prefix of it was sent, and nothing is known of the flash (R302). -/
def State.cutFrame (f : Frame) (s : State) : State :=
  { s with
    history := .cut s.par.chipSelect f (s.cutAt f) :: s.history
    answers := s.answers.tail
    flash := s.flash.abandoned
    draws := s.draws + 1 }

/-- A reset while a byte is being written: that byte is unspecified (R302). That the access it cuts appends no event is a
DESIGN CHOICE, unsafe: R80 gives every DMA access one and R302 names none (log entry 17). -/
def State.cutWrite (a : Word) (s : State) : State :=
  { (s.setByte a (Config.freeByte s.history s.draws 0)).withFlash s.flash.abandoned with draws := s.draws + 1 }

end Sys2Proof.Machine
end

