-- ==== Sys2Proof/Machine/Operands.lean ====
section
/-! DEFINITION. The operands of the commands: granularity table (R196), derived parameters (R258), cursors and chunk lengths
(R198, R216, R242, R243), the registry lookup (R14), and the register map (R22). -/

namespace Sys2Proof.Machine

/-! ## Granularity (R196) -/

/-- The erase opcode of a granularity (R196). -/
def eraseOpOf (p : Params) : Granularity → Byte
  | .g4k => p.opSe4k
  | .g4kPmc => p.opSe4kPmc
  | .g32k => p.opBe32k
  | .g64k => p.opBe64k
  | .g256k => p.opBe64k

/-- The sector size of a granularity (R196). -/
def eraseSizeOf : Granularity → Nat
  | .g4k => 4096
  | .g4kPmc => 4096
  | .g32k => 32768
  | .g64k => 65536
  | .g256k => 262144

/-- The code of a granularity in INFO[10:8] (R38, R196). -/
def granularityCode : Granularity → BitVec 3
  | .g4k => 0
  | .g4kPmc => 1
  | .g32k => 2
  | .g64k => 3
  | .g256k => 4

/-! ## Descriptors (R14, R258) -/

/-- `size_bytes` as a number. -/
def descSize (d : Descriptor) : Nat := d.sizeBytes.toNat

/-- The registry premise: the chip has a byte, and its sector size divides its size (R14). -/
def descWf (d : Descriptor) : Bool :=
  decide (0 < descSize d) && decide (descSize d % eraseSizeOf d.granularity = 0)

/-- `addr_width` of a chip: 4 iff it is larger than 16 MiB (R6, R258). -/
def widthOf (size : Nat) : AddrWidth := if size > Config.addr4Threshold then .four else .three

/-- The derived parameters of a descriptor (R258). -/
def derive (p : Params) (d : Descriptor) : Derived :=
  { eraseOp := eraseOpOf p d.granularity
    eraseSize := BitVec.ofNat 32 (eraseSizeOf d.granularity)
    addrWidth := widthOf (descSize d)
    sstWrite := d.flags.sstAai }

/-- The registry rows given as data: the first that names the ID answers. -/
def lookupRows (id : BitVec 24) (ext : BitVec 16) : List RegEntry → Option (Option Descriptor)
  | [] => none
  | e :: es =>
    if e.jedecId = id ∧ (e.ext = none ∨ e.ext = some ext) then some e.result else lookupRows id ext es

/-- `Lookup(id, ext)` (R14). -/
def State.lookup (s : State) (id : BitVec 24) (ext : BitVec 16) : Option Descriptor :=
  match lookupRows id ext s.registry with
  | some r => r
  | none => Config.lookup id ext

/-- `s.desc.size_bytes`; 0 without a descriptor, which no probed state is (R48). -/
def State.size (s : State) : Nat :=
  match s.desc with
  | some d => descSize d
  | none => 0

/-- `s.desc.jedec_id`; 0 without a descriptor. -/
def State.chipId (s : State) : BitVec 24 :=
  match s.desc with
  | some d => d.jedecId
  | none => 0

/-- The manufacturer code of a JEDEC ID: its high byte (R15, R171). -/
def manufacturer (id : BitVec 24) : Byte := id.extractLsb' 16 8

/-! ## Cursors and lengths -/

/-- `s.erase_size` as a number. -/
def State.eraseUnit (s : State) : Nat := s.params.eraseSize.toNat

/-- The sectors of an ERASE (R197, @E2). -/
def State.sectorCount (s : State) : Nat := s.opLen.toNat / s.eraseUnit

/-- The start offset of a READ: only the start wraps (R242). -/
def State.readOffset (s : State) : Nat := s.opAddr.toNat % s.size

/-- The length of the next fast-read frame (R243). -/
def readChunkLen (rem : Nat) : Nat := min rem Config.readChunk

/-- The length of the next page-program chunk: it never crosses a page boundary (R216). -/
def pageChunkLen (page cur rem : Nat) : Nat := min rem (page - cur % page)

/-- The host address of the next DMA read of the current frame: the buffer byte after those already read (R85). -/
def State.fillAddr (s : State) : Word := s.hostAddr (s.hoff + s.xfer.length)

/-- The host address of the next DMA write of the current frame: the bytes still to write are the last ones (R86). -/
def State.drainAddr (s : State) : Word := s.hostAddr (s.hoff + (s.n - s.xfer.length))

/-! ## The register map (R22) -/

/-- The registers of the window. -/
inductive Reg
  | cmd
  | addr
  | len
  | buf
  | status
  | jedecId
  | extId
  | sizeLo
  | sizeHi
  | eraseSize
  | info
  | progress
  deriving DecidableEq, Repr

/-- The offset of a register (R22). -/
def Reg.offset : Reg → Nat
  | .cmd => 0x00
  | .addr => 0x04
  | .len => 0x08
  | .buf => 0x0C
  | .status => 0x10
  | .jedecId => 0x14
  | .extId => 0x18
  | .sizeLo => 0x1C
  | .sizeHi => 0x20
  | .eraseSize => 0x24
  | .info => 0x28
  | .progress => 0x2C

/-- The register at an offset; none at a reserved or unaligned offset (R22, R40). -/
def Reg.atOffset : Nat → Option Reg
  | 0x00 => some .cmd
  | 0x04 => some .addr
  | 0x08 => some .len
  | 0x0C => some .buf
  | 0x10 => some .status
  | 0x14 => some .jedecId
  | 0x18 => some .extId
  | 0x1C => some .sizeLo
  | 0x20 => some .sizeHi
  | 0x24 => some .eraseSize
  | 0x28 => some .info
  | 0x2C => some .progress
  | _ => none

/-- The offset of a bus address in the block's window; at 256 or above it lies outside (R22). The spec gives no width of bus
addresses: 32 bits, and a window at the top of them wraps to 0, are a DESIGN CHOICE, unsafe (log entry 27). -/
def windowOffset (p : Params) (a : Word) : Nat := (a - p.regBase).toNat

/-- The bus address of a register (R22, R107). -/
def Reg.address (p : Params) (r : Reg) : Word := p.regBase + BitVec.ofNat 32 r.offset

end Sys2Proof.Machine
end

