-- ==== Sys2Proof/Machine/Flags.lean ====
section
/-! DEFINITION. The status flags: the fields of STATUS and INFO and the other read-only registers (R27 to R39), and the bits of
the flash status register that the block reads (R100, R150, R182). -/

namespace Sys2Proof.Machine

/-- A field of a register at bit `k` (R10). -/
def place {n : Nat} (v : BitVec n) (k : Nat) : Word := v.setWidth 32 <<< k

/-- The encoding of STATUS.PSTATE (R30). -/
def ProbeState.bits : ProbeState → BitVec 2
  | .unprobed => 0
  | .probed => 1
  | .failed => 2

/-- The code of STATUS.ERR (R276). -/
def ErrCode.bits : ErrCode → BitVec 4
  | .ok => 0
  | .transport => 1
  | .noChip => 2
  | .unknownId => 3
  | .align => 4
  | .capacity => 5
  | .noBuffer => 6
  | .notProbed => 7
  | .illegalCommand => 8
  | .probeRejected => 9

/-- `s.probe_state = PROBED`. -/
def State.isProbed (s : State) : Bool := decide (s.probeState = .probed)

/-- STATUS.ADDR4 (R31). -/
def State.addr4Flag (s : State) : Bool := s.isProbed && decide (s.params.addrWidth = .four)

/-- STATUS.SST (R31). -/
def State.sstFlag (s : State) : Bool := s.isProbed && s.params.sstWrite

/-- STATUS: BUSY, DONE, PSTATE, ADDR4, SST, ERR and CUR in their places, the other bits 0 (R27). -/
def State.statusWord (s : State) : Word :=
  place (BitVec.ofBool s.busy) 0 ||| place (BitVec.ofBool s.done) 1 ||| place s.probeState.bits 2
    ||| place (BitVec.ofBool s.addr4Flag) 4 ||| place (BitVec.ofBool s.sstFlag) 5 ||| place s.err.bits 8
    ||| place s.statusCur 12

/-- `s.desc.size_bytes` while PROBED, 0 otherwise (R36). -/
def State.shownSize (s : State) : BitVec 64 :=
  match s.desc with
  | some d => if s.isProbed then d.sizeBytes else 0
  | none => 0

/-- INFO while PROBED (R38). -/
def infoWord (r : Derived) (d : Descriptor) : Word :=
  place r.eraseOp 0 ||| place (granularityCode d.granularity) 8 ||| place (BitVec.ofBool d.flags.initSr) 16
    ||| place (BitVec.ofBool d.flags.sstAai) 17 ||| place (BitVec.ofBool d.flags.bp02) 18
    ||| place (BitVec.ofBool d.flags.bp3) 19 ||| place (BitVec.ofBool d.flags.bp4) 20
    ||| place (BitVec.ofNat 3 r.addrWidth.bytes) 21

/-- INFO (R38): 0 while not PROBED. -/
def State.shownInfo (s : State) : Word :=
  match s.desc with
  | some d => if s.isProbed then infoWord s.params d else 0
  | none => 0

/-- What a 32-bit read of a register returns. A read has no side effect (R71). -/
def State.readReg (s : State) : Reg → Word
  | .cmd => 0
  | .addr => s.addr
  | .len => s.len
  | .buf => s.buf
  | .status => s.statusWord
  | .jedecId => place s.rawId 0
  | .extId => place s.rawExt 0
  | .sizeLo => s.shownSize.extractLsb' 0 32
  | .sizeHi => s.shownSize.extractLsb' 32 32
  | .eraseSize => if s.isProbed then s.params.eraseSize else 0
  | .info => s.shownInfo
  | .progress => s.progress

/-- What a read of the window at an offset returns: 0 at a reserved offset (R40). -/
def State.readOffsetWord (s : State) (off : Nat) : Word :=
  match Reg.atOffset off with
  | some r => s.readReg r
  | none => 0

/-! ## The flash status register as the block reads it -/

/-- The busy bit of a status value (R100, R150). -/
def statusBusy (sr : Byte) : Bool := sr.getLsbD Config.busyBit

/-- The block-protection mask of a flag set (R100). -/
def protectionMask (p : Params) (f : ChipFlags) : Byte :=
  (if f.bp02 then p.bp02Mask else 0) ||| (if f.bp3 then p.bp3Mask else 0) ||| (if f.bp4 then p.bp4Mask else 0)

/-- Whether a flag set asks for the block-protection unlock (R182). -/
def hasProtection (f : ChipFlags) : Bool := f.bp02 || f.bp3 || f.bp4

/-- The value the unlock writes back: the masked bits cleared, every other bit as read (R182). -/
def unlockValue (sr mask : Byte) : Byte := sr &&& ~~~mask

end Sys2Proof.Machine
end

