-- ==== Sys2Proof/Machine/StatusRegister.lean ====
section
/-! DEFINITION. The status-register controller (41_status_register.md): WREN, WRDI, RDSR and WRSR. -/

namespace Sys2Proof.Machine

/-- WREN (R146): on the flash, the latch is set. -/
def execWren (s : State) : Result :=
  .next (s.send .wren (frameF1 s.par.opWren) (fun t => t.withFlash t.flash.latched) id)

/-- WRDI (R147): on the flash, the latch is cleared and AAI mode left. -/
def execWrdi (s : State) : Result :=
  .next (s.send .wrdi (frameF1 s.par.opWrdi) (fun t => t.withFlash t.flash.released) id)

/-- RDSR (R148): the byte read back goes to `s.sr` (R151, R182). -/
def execRdsr (s : State) : Result :=
  .next (s.send .rdsr (frameF8 s.par.opRdsr 1)
    (fun t => { t.withFlash (t.flash.reported (s.oracleByte 0)) with sr := s.oracleByte 0 }) id)

/-- WRSR (R149): on the flash, the status register is written and the busy bit set. -/
def execWrsr (value : Byte) (s : State) : Result :=
  .next (s.send (.wrsr value) (frameF2 s.par.opWrsr value) (fun t => t.withFlash (t.flash.statusWritten value)) id)

end Sys2Proof.Machine
end

