-- ==== Sys2Proof/Machine/AddressMode.lean ====
section
/-! DEFINITION. The address-mode controller (42_address_mode.md): EN4B, EX4B, EXHBL, BRWR and WREAR, and the frames of
`SetAddressMode`. -/

namespace Sys2Proof.Machine

/-- EN4B (R173): on the flash, 4-byte mode is entered. -/
def execEn4b (s : State) : Result :=
  .next (s.send .en4b (frameF1 s.par.opEn4b) (fun t => t.withFlash { t.flash with fourByte := some true }) id)

/-- EX4B (R174): on the flash, 3-byte mode is entered. -/
def execEx4b (s : State) : Result :=
  .next (s.send .ex4b (frameF1 s.par.opEx4b) (fun t => t.withFlash { t.flash with fourByte := some false }) id)

/-- EXHBL (R175): on the flash, the high-bank latch is cleared. -/
def execExhbl (s : State) : Result :=
  .next (s.send .exhbl (frameF1 s.par.opExhbl) (fun t => t.withFlash { t.flash with highBank := some false }) id)

/-- BRWR (R176): one frame writes the bank register, and with it switches the mode. -/
def execBrwr (en : Bool) (s : State) : Result :=
  .next (s.send (.brwr en) (frameF2 s.par.opBrwr (bankByte en))
    (fun t => t.withFlash { t.flash with bank := some (bankByte en), fourByte := some en }) id)

/-- WREAR (R177): on the flash, the extended-address register becomes 0. -/
def execWrear (s : State) : Result :=
  .next (s.send .wrear (frameF2 s.par.opWrear 0) (fun t => t.withFlash { t.flash with ear := some 0 }) id)

/-! ## SetAddressMode -/

/-- How a manufacturer's chips switch the address mode (R171, R178). -/
inductive ToggleClass
  | micron
  | single
  | bank
  | none
  deriving DecidableEq, Repr

/-- How a manufacturer's chips clear the extended address (R171, R179). -/
inductive EarClass
  | exhbl
  | clearEar
  | macronix
  | none
  deriving DecidableEq, Repr

/-- The toggle class of a manufacturer code (R171). -/
def toggleClass (p : Params) (m : Byte) : ToggleClass :=
  if m = p.mfrMicron then .micron
  else if m = p.mfrEon ∨ m = p.mfrMacronix ∨ m = p.mfrWinbond ∨ m = p.mfrGigadevice then .single
  else if m = p.mfrIssi ∨ m = p.mfrSpansion then .bank
  else .none

/-- The EAR-clear class of a manufacturer code (R171). -/
def earClass (p : Params) (m : Byte) : EarClass :=
  if m = p.mfrEon then .exhbl
  else if m = p.mfrMacronix then .macronix
  else if m = p.mfrMicron ∨ m = p.mfrWinbond ∨ m = p.mfrGigadevice then .clearEar
  else .none

/-- The commands of `ToggleMode(en, m)` (R178). -/
def toggleMode (p : Params) (en : Bool) (m : Byte) : List Instr :=
  match toggleClass p m with
  | .micron => [.wren, if en then .en4b else .ex4b, .wrdi]
  | .single => [if en then .en4b else .ex4b]
  | .bank => [.brwr en]
  | .none => []

/-- The commands of `ClearEAR()` (R179). -/
def clearEar : List Instr := [.wren, .wrear, .wrdi]

/-- The commands of `ClearExtAddr(m, id)`; the Macronix test compares all 24 bits of the ID (R179). -/
def clearExtAddr (p : Params) (id : BitVec 24) : List Instr :=
  match earClass p (manufacturer id) with
  | .exhbl => [.exhbl]
  | .clearEar => clearEar
  | .macronix => if id = Config.mxNoEarId then [] else clearEar
  | .none => []

/-- The commands of `SetAddressMode(en)`: none unless the block sends 4 address bytes (R172). -/
def modeFrames (p : Params) (w : AddrWidth) (id : BitVec 24) (en : Bool) : List Instr :=
  if w = .four then toggleMode p en (manufacturer id) ++ (if en then [] else clearExtAddr p id) else []

/-- The commands of `SetAddressMode(en)` for the probed chip (R172). -/
def State.bracket (s : State) (en : Bool) : List Instr := modeFrames s.par s.params.addrWidth s.chipId en

/-- `finish()`. -/
def finish (s : State) : Planned := { state := s, action := .complete .ok }

/-- `SetAddressMode(false)` from its frame `k` on, then `finish()` (R180). -/
def exitFrom (op : HostOp) (k : Nat) (s : State) : Planned :=
  match (s.bracket false)[k]? with
  | some i => { state := s.goto op (.exit k), action := .frame i }
  | none => finish s

end Sys2Proof.Machine
end

