-- ==== Sys2Proof/Machine/EraseEngine.lean ====
section
/-! DEFINITION. The sector-erase engine (43_erase.md): ERASE and its procedure, and SE_4K, SE_4K_PMC, BE_32K and BE_64K. -/

namespace Sys2Proof.Machine

/-- ERASE (R197): the CMD write is accepted (R131); the procedure below runs from its first position. -/
def execErase (s : State) : Result := .next (s.issue .erase 3)

/-- SE_4K (R201). -/
def execSe4k (addr : Nat) (s : State) : Result :=
  .next (s.send (.se4k addr) (frameF3 s.par.opSe4k addr s.params.addrWidth)
    (fun t => t.withFlash (t.flash.erasing addr 4096)) id)

/-- SE_4K_PMC (R202). -/
def execSe4kPmc (addr : Nat) (s : State) : Result :=
  .next (s.send (.se4kPmc addr) (frameF3 s.par.opSe4kPmc addr s.params.addrWidth)
    (fun t => t.withFlash (t.flash.erasing addr 4096)) id)

/-- BE_32K (R203). -/
def execBe32k (addr : Nat) (s : State) : Result :=
  .next (s.send (.be32k addr) (frameF3 s.par.opBe32k addr s.params.addrWidth)
    (fun t => t.withFlash (t.flash.erasing addr 32768)) id)

/-- BE_64K (R204): one opcode for the granularities G64K and G256K; the flash erases the chip's own sector size. -/
def execBe64k (addr : Nat) (s : State) : Result :=
  .next (s.send (.be64k addr) (frameF3 s.par.opBe64k addr s.params.addrWidth)
    (fun t => t.withFlash (t.flash.erasing addr s.eraseUnit)) id)

/-- The checks of ERASE before its first frame: the probe-first gate (R134), then `Validate` in its order (R198, R283). A
code ends the command with that code. -/
def State.eraseCheck (s : State) : Option ErrCode :=
  if s.probeState ≠ .probed then some .notProbed
  else if s.opAddr.toNat % s.eraseUnit ≠ 0 then some .align
  else if (s.opAddr.toNat + s.opLen.toNat) % s.eraseUnit ≠ 0 then some .align
  else if s.opAddr.toNat + s.opLen.toNat > s.size then some .capacity
  else none

/-- @E2, after the bracket is entered. -/
def State.eraseInit (s : State) : State := { s with cur := s.opAddr.toNat, rem := s.sectorCount }

/-- The command that sends `[s.erase_op] ++ Encode(c, s.addr_width)` (R197, @E3b). Its unit is a sector, `s.erase_size` bytes
(R16, R196): of two commands with equal opcodes it is the one of that size. The last three cases, a size that is not the
opcode's, are of states no run reaches (log entry 22). -/
def State.eraseInstr (s : State) (c : Nat) : Option Instr :=
  if s.params.eraseOp = s.par.opSe4k ∧ s.eraseUnit = 4096 then some (.se4k c)
  else if s.params.eraseOp = s.par.opSe4kPmc ∧ s.eraseUnit = 4096 then some (.se4kPmc c)
  else if s.params.eraseOp = s.par.opBe32k ∧ s.eraseUnit = 32768 then some (.be32k c)
  else if s.params.eraseOp = s.par.opBe64k then some (.be64k c)
  else if s.params.eraseOp = s.par.opSe4k then some (.se4k c)
  else if s.params.eraseOp = s.par.opSe4kPmc then some (.se4kPmc c)
  else if s.params.eraseOp = s.par.opBe32k then some (.be32k c)
  else none

/-- @E3: the loop head. -/
def eraseHead (op : HostOp) (s : State) : Planned :=
  if s.rem > 0 then { state := s.goto op .e3a, action := .frame .wren } else exitFrom op 0 s

/-- @E3b: the erase frame. -/
def eraseFrame (op : HostOp) (s : State) : Planned :=
  match s.eraseInstr s.cur with
  | some i => { state := s.goto op .e3b, action := .frame i }
  | none => { state := s, action := .stuck .eraseOpUnset }

/-- @E3d: a sector is done. -/
def State.sectorDone (s : State) : State :=
  { s with progress := s.progress + s.params.eraseSize, cur := s.cur + s.eraseUnit, rem := s.rem - 1 }

end Sys2Proof.Machine
end

