-- ==== Sys2Proof/Machine/Probe.lean ====
section
/-! DEFINITION. The JEDEC ID probe FSM (46_probe.md) and the unlock sequence (R181 to R183): PROBE and its procedure, and
RDID. -/

namespace Sys2Proof.Machine

/-- PROBE (R259): the CMD write is accepted (R131); the procedure below runs from its first position. -/
def execProbe (s : State) : Result := .next (s.issue .probe 1)

/-- RDID (R256): the five bytes read back become `s.raw_id` and `s.raw_ext` (R44, R99, R257). -/
def execRdid (s : State) : Result :=
  .next (s.send .rdid (frameF8 s.par.opRdid 5)
    (fun t => { t with rawId := assembleId (s.oracleBytes 5), rawExt := assembleExt (s.oracleBytes 5) }) id)

/-- @Q0: PROBE only once (R260). -/
def probeStart (op : HostOp) (s : State) : Planned :=
  if s.probeState ≠ .unprobed then { state := s, action := .complete .probeRejected }
  else { state := s.goto op .q1, action := .frame .rdid }

/-- The two invalid IDs (R257). -/
def invalidId (id : BitVec 24) : Bool := decide (id = 0x000000) || decide (id = 0xFFFFFF)

/-- `s.pdesc` and `s.pparams` become what the probe found (R259, @Q4). -/
def State.identified (d : Option Descriptor) (r : Derived) (s : State) : State := { s with pdesc := d, pparams := r }

/-- `s.mask <- m` (R182). -/
def State.withMask (m : Byte) (s : State) : State := { s with mask := m }

/-- The descriptor and the derived parameters are committed (R42, R259, @Q6). -/
def State.commit (s : State) : State := { s with desc := s.pdesc, params := s.pparams, probeState := .probed }

/-- @Q6: the commit is part of the completion step (R259). -/
def probeDone (s : State) : Planned := { state := s.commit, action := .complete .ok }

/-- @Q5: the unlock of a descriptor (R181 to R183). -/
def unlock (op : HostOp) (d : Descriptor) (s : State) : Planned :=
  if d.flags.initSr then { state := s.goto op .u1w, action := .frame .wren }
  else if hasProtection d.flags then
    { state := (s.withMask (protectionMask s.par d.flags)).goto op .u2, action := .frame .rdsr }
  else probeDone s

/-- @Q2 to @Q4: the ID is tested, looked up, and the parameters derived (R257 to R259). A descriptor outside the registry
premise is refused (R14). -/
def probeIdentify (op : HostOp) (s : State) : Planned :=
  if invalidId s.rawId then { state := s, action := .complete .noChip }
  else
    match s.lookup s.rawId s.rawExt with
    | none => { state := s.identified none s.pparams, action := .complete .unknownId }
    | some d =>
      if descWf d then unlock op d (s.identified (some d) (derive s.par d))
      else { state := s, action := .refuse .descriptorIllFormed }

/-- @U2: write back only if a masked bit is set (R182). -/
def unlockTest (op : HostOp) (s : State) : Planned :=
  if s.sr &&& s.mask ≠ 0 then { state := s.goto op .u3w, action := .frame .wren } else probeDone s

end Sys2Proof.Machine
end

