-- ==== Sys2Proof/Machine/ProgramEngine.lean ====
section
/-! DEFINITION. The page-program and AAI word-program engines (44_program.md): WRITE and its two procedures, and PP, AAI_WP and
AAI_CONT. -/

namespace Sys2Proof.Machine

/-- WRITE (R211): the CMD write is accepted (R131); the procedure below runs from its first position. -/
def execWrite (s : State) : Result := .next (s.issue .write 4)

/-- PP (R214): the header and then the data in one `WriteTwo`. -/
def execPp (addr : Nat) (data : List Byte) (s : State) : Result :=
  .next (s.send (.pp addr data) (frameF4 s.par.opPp addr s.params.addrWidth data)
    (fun t => t.withFlash (t.flash.programming addr data)) id)

/-- AAI_WP (R218): `s.first` is cleared; the flash enters AAI mode. -/
def execAaiWp (addr : Nat) (d0 d1 : Byte) (s : State) : Result :=
  .next (s.send (.aaiWp addr d0 d1) (frameF5 s.par.opAai addr s.params.addrWidth d0 d1)
    (fun t => (t.withFirst false).withFlash (t.flash.aaiEntered addr d0 d1)) id)

/-- AAI_CONT (R221): no opcode and no address. -/
def execAaiCont (d0 d1 : Byte) (s : State) : Result :=
  .next (s.send (.aaiCont d0 d1) (frameF6 s.par.aaiContPrefix d0 d1)
    (fun t => t.withFlash (t.flash.aaiContinued d0 d1)) id)

/-- The checks of WRITE before its first frame (R134, R211, R212, R283): a code ends the command with that code, OK for
`n = 0`. -/
def State.writeCheck (s : State) : Option ErrCode :=
  if s.probeState ≠ .probed then some .notProbed
  else if s.opLen = 0 then some .ok
  else if s.opBuf = 0 then some .noBuffer
  else if s.opAddr.toNat + s.opLen.toNat > s.size then some .capacity
  else none

/-- @G0 and @S0, after the bracket is entered. -/
def State.programInit (s : State) : State := { s with cur := s.opAddr.toNat, rem := s.opLen.toNat, hoff := 0 }

/-- DMA reads at position `l` until `k` bytes are in the frame buffer, then `done` (R85). -/
def fillThen (op : HostOp) (l : Label) (k : Nat) (done : State → Planned) (s : State) : Planned :=
  if s.xfer.length < k then { state := s.goto op l, action := .memRead s.fillAddr } else done s

/-- `k` data bytes are programmed: PROGRESS and the cursors move on (R213, R217, R222). -/
def State.bytesDone (k : Nat) (s : State) : State :=
  { s with
    progress := s.progress + BitVec.ofNat 32 k
    cur := s.cur + k
    hoff := s.hoff + k
    rem := s.rem - k }

/-! ## Page program (R213) -/

/-- @G2: the chunk's bytes, then @G3. -/
def pageFill (op : HostOp) (s : State) : Planned :=
  fillThen op .g2 s.n (fun t => { state := t.goto op .g3, action := .frame .wren }) s

/-- @G1: the loop head. -/
def pageHead (op : HostOp) (s : State) : Planned :=
  if s.rem > 0 then pageFill op ((s.withChunk (pageChunkLen s.par.pageSize s.cur s.rem)).withBuffer []) else exitFrom op 0 s

/-! ## AAI word program (R217) -/

/-- @S6: the unconditional WRDI. -/
def aaiLast (op : HostOp) (s : State) : Planned := { state := s.goto op .s6, action := .frame .wrdi }

/-- @S5: the byte of the trailing `ProgramByte`, then its WREN. -/
def aaiTailFill (op : HostOp) (s : State) : Planned :=
  fillThen op .s5m 1 (fun t => { state := t.goto op .s5w, action := .frame .wren }) s

/-- @S5: an odd last byte. -/
def aaiTail (op : HostOp) (s : State) : Planned :=
  if s.rem = 1 then aaiTailFill op (s.withBuffer []) else aaiLast op s

/-- The frame of a pair: AAI_WP for the first one, AAI_CONT for the others (R217, @S3). -/
def State.pairInstr (s : State) : Instr :=
  if s.first then .aaiWp s.cur (s.xfer.getD 0 0) (s.xfer.getD 1 0) else .aaiCont (s.xfer.getD 0 0) (s.xfer.getD 1 0)

/-- @S3: the bytes of a pair, then its frame. -/
def aaiPairFill (op : HostOp) (s : State) : Planned :=
  fillThen op .s3m 2 (fun t => { state := t.goto op .s3f, action := .frame t.pairInstr }) s

/-- @S3: the loop head; when fewer than two bytes are left, @S4. -/
def aaiHead (op : HostOp) (s : State) : Planned :=
  if s.rem ≥ 2 then aaiPairFill op (s.withBuffer []) else { state := s.goto op .s4, action := .frame .wrdi }

/-- @S2: one WREN for all pairs. -/
def aaiLatch (op : HostOp) (s : State) : Planned := { state := s.goto op .s2, action := .frame .wren }

/-- @S1: the byte of the leading `ProgramByte`, then its WREN. -/
def aaiOddFill (op : HostOp) (s : State) : Planned :=
  fillThen op .s1m 1 (fun t => { state := t.goto op .s1w, action := .frame .wren }) s

/-- @S1: an odd start. -/
def aaiStart (op : HostOp) (s : State) : Planned :=
  if s.cur % 2 = 1 then aaiOddFill op (s.withBuffer []) else aaiLatch op s

/-- @W2: the algorithm depends only on `s.sst_write` (R211). -/
def programStart (op : HostOp) (s : State) : Planned :=
  if s.params.sstWrite then aaiStart op s.programInit else pageHead op s.programInit

end Sys2Proof.Machine
end

