-- ==== Sys2Proof/Machine/ReadEngine.lean ====
section
/-! DEFINITION. The fast-read chunker (45_read.md): READ and its procedure, and FAST_READ. -/

namespace Sys2Proof.Machine

/-- READ (R241): the CMD write is accepted (R131); the procedure below runs from its first position. -/
def execRead (s : State) : Result := .next (s.issue .read 2)

/-- The unconstrained bytes that a failed read of `k` bytes leaves in host memory (R86, U5). -/
def State.unspecifiedBytes (s : State) (k : Nat) : List Byte := (List.range k).map (Config.freeByte s.history s.draws)

/-- FAST_READ (R244): the bytes received wait for their DMA writes; if the frame fails, the host bytes it would have filled
become unspecified (R86). -/
def execFastRead (addr len : Nat) (s : State) : Result :=
  .next (s.send (.fastRead addr len) (frameF7 s.par.opFastRead addr s.params.addrWidth s.par.fastReadDummy len)
    (fun t => t.withBuffer (s.oracleBytes len))
    (fun t => State.fillUnspecified t.hoff (s.unspecifiedBytes len) t))

/-- The checks of READ before its first frame (R134, R241, R283): a code ends the command with that code, OK for `n = 0`. -/
def State.readCheck (s : State) : Option ErrCode :=
  if s.probeState ≠ .probed then some .notProbed
  else if s.opLen = 0 then some .ok
  else if s.opBuf = 0 then some .noBuffer
  else none

/-- @R2: the start offset, before the bracket. -/
def State.readPrepare (s : State) : State := { s with cur := s.readOffset }

/-- @R3, after the bracket is entered. -/
def State.readInit (s : State) : State := { s with rem := s.opLen.toNat, hoff := 0 }

/-- @R4: the loop head. -/
def readHead (op : HostOp) (s : State) : Planned :=
  if s.rem > 0 then
    { state := (s.withChunk (readChunkLen s.rem)).goto op .r4a, action := .frame (.fastRead s.cur (readChunkLen s.rem)) }
  else exitFrom op 0 s

/-- @R4b: a chunk is delivered. -/
def State.chunkDone (s : State) : State :=
  { s with
    progress := s.progress + BitVec.ofNat 32 s.n
    cur := s.cur + s.n
    hoff := s.hoff + s.n
    rem := s.rem - s.n }

/-- @R4b: DMA writes until every byte received is stored, then the next chunk. -/
def readDrain (op : HostOp) (s : State) : Planned :=
  match s.xfer with
  | v :: _ => { state := s.goto op .r4b, action := .memWrite s.drainAddr v }
  | [] => readHead op s.chunkDone

end Sys2Proof.Machine
end

