-- ==== Sys2Proof/Machine/Sequencer.lean ====
section
/-! DEFINITION. The sequencer: at every position of every procedure, the internal computation up to the next atomic step, and
that step (R13, R47, R132). -/

namespace Sys2Proof.Machine

/-- Where a bulk command continues once its bracket is entered (R180, R197, R213, R217, R241). PROBE and ILLEGAL have no
bracket (R259, R133); in a state no run reaches they finish. -/
def bulkStart (op : HostOp) (s : State) : Planned :=
  match op with
  | .read => readHead op s.readInit
  | .erase => eraseHead op s.eraseInit
  | .write => programStart op s
  | .probe => finish s
  | .illegal => finish s

/-- `SetAddressMode(true)` from its frame `k` on, then the command's loop (R172, R180). -/
def enterFrom (op : HostOp) (k : Nat) (s : State) : Planned :=
  match (s.bracket true)[k]? with
  | some i => { state := s.goto op (.enter k), action := .frame i }
  | none => bulkStart op s

/-- A command's checks, at `s`; when they pass, its bracket, at `t` (R283). -/
def afterCheck (c : Option ErrCode) (op : HostOp) (s t : State) : Planned :=
  match c with
  | some e => { state := s, action := .complete e }
  | none => enterFrom op 0 t

/-- The first position of every command (R132). -/
def commandStart (op : HostOp) (s : State) : Planned :=
  match op with
  | .probe => probeStart op s
  | .read => afterCheck s.readCheck op s s.readPrepare
  | .erase => afterCheck s.eraseCheck op s s
  | .write => afterCheck s.writeCheck op s s
  | .illegal => { state := s, action := .complete .illegalCommand }

/-- Where a command continues once its Poll has read bit 0 clear (R152). -/
def afterPoll (op : HostOp) (c : PollSite) (s : State) : Planned :=
  match c with
  | .u1 => probeDone s
  | .u3 => probeDone s
  | .e => eraseHead op s.sectorDone
  | .g => pageHead op (s.bytesDone s.n)
  | .s1 => aaiLatch op (s.bytesDone 1)
  | .s3 => aaiHead op (s.bytesDone 2)
  | .s4 => aaiTail op s
  | .s5 => aaiLast op (s.bytesDone 1)

/-- @P1: another RDSR while bit 0 is set, without a bound (R151). -/
def pollTest (op : HostOp) (c : PollSite) (s : State) : Planned :=
  if statusBusy s.sr then { state := s.goto op (.poll c), action := .frame .rdsr } else afterPoll op c s

/-- The next atomic step of the command `op` at position `l`. -/
def planAt (op : HostOp) (l : Label) (s : State) : Planned :=
  match l with
  | .start => commandStart op s
  | .raise e => { state := s, action := .complete e }
  | .enter k => enterFrom op k s
  | .exit k => exitFrom op k s
  | .q1 => { state := s, action := .frame .rdid }
  | .q2 => probeIdentify op s
  | .u1w => { state := s, action := .frame .wren }
  | .u1s => { state := s, action := .frame (.wrsr 0) }
  | .u2 => { state := s, action := .frame .rdsr }
  | .u3 => unlockTest op s
  | .u3w => { state := s, action := .frame .wren }
  | .u3s => { state := s, action := .frame (.wrsr (unlockValue s.sr s.mask)) }
  | .r4 => readHead op s
  | .r4a => { state := s, action := .frame (.fastRead s.cur s.n) }
  | .r4b => readDrain op s
  | .e3 => eraseHead op s
  | .e3a => { state := s, action := .frame .wren }
  | .e3b => eraseFrame op s
  | .g1 => pageHead op s
  | .g2 => pageFill op s
  | .g3 => { state := s, action := .frame .wren }
  | .g4 => { state := s, action := .frame (.pp s.cur s.xfer) }
  | .s1m => aaiOddFill op s
  | .s1w => { state := s, action := .frame .wren }
  | .s1p => { state := s, action := .frame (.pp s.cur s.xfer) }
  | .s2 => { state := s, action := .frame .wren }
  | .s2d => aaiHead op (s.withFirst true)
  | .s3 => aaiHead op s
  | .s3m => aaiPairFill op s
  | .s3f => { state := s, action := .frame s.pairInstr }
  | .s4 => { state := s, action := .frame .wrdi }
  | .s5m => aaiTailFill op s
  | .s5w => { state := s, action := .frame .wren }
  | .s5p => { state := s, action := .frame (.pp s.cur s.xfer) }
  | .s6 => { state := s, action := .frame .wrdi }
  | .poll _ => { state := s, action := .frame .rdsr }
  | .polled c => pollTest op c s

/-- The sequencer's next atomic step; none while it is IDLE (R304). -/
def plan (s : State) : Planned :=
  match s.phase with
  | .idle => { state := s, action := .none }
  | .run op l => planAt op l s

/-- An atomic step as a step of the machine: a frame is an SPI command to execute. -/
def act (q : Planned) : Fetched :=
  match q.action with
  | .frame i => .run i q.state
  | .memRead a => .done (.next (q.state.dmaRead a))
  | .memWrite a v => .done (.next (q.state.dmaWrite a v))
  | .complete e => .done (.next (q.state.complete e))
  | .refuse r => .done (.refused r)
  | .stuck f => .done (.fault f)
  | .none => .done (.next q.state)

end Sys2Proof.Machine
end

