-- ==== Sys2Proof/Machine/HostPort.lean ====
section
/-! DEFINITION. The host port: register accesses (R22 to R40, R65, R66, R71), reset (R301, R302), whose turn it is (R84), the
host program syntax (R107, R108), and the placing of one instruction where the next step takes it. -/

namespace Sys2Proof.Machine

/-! ## Register accesses -/

/-- A 32-bit write to a register other than CMD: ADDR, LEN and BUF take the value while BUSY = 0; every other write is ignored
(R24 to R26, R40, R71). -/
def State.writeReg (r : Reg) (v : Word) (s : State) : State :=
  match r with
  | .addr => if s.busy then s else { s with addr := v }
  | .len => if s.busy then s else { s with len := v }
  | .buf => if s.busy then s else { s with buf := v }
  | .cmd => s
  | .status => s
  | .jedecId => s
  | .extId => s
  | .sizeLo => s
  | .sizeHi => s
  | .eraseSize => s
  | .info => s
  | .progress => s

/-- A 32-bit write to CMD (R23, R131): ignored while BUSY; otherwise the command it encodes is executed, and an illegal value
is accepted as ILLEGAL (R133). -/
def writeCmd (v : Word) (s : State) : Fetched :=
  if s.busy then .done (.next s)
  else
    match decodeHostWord v with
    | .ok i => .run i s
    | .error _ => .done (.next (s.accept .illegal (v.extractLsb' 0 4)))

/-- A host bus write. Outside the window it is not the block's; in the window it counts only if it is 32 bits wide and
aligned (R66). -/
def busWrite (a : Word) (data : List Byte) (s : State) : Fetched :=
  if windowOffset s.par a ≥ 256 then .done (.next s)
  else
    match wordOfLanes data, Reg.atOffset (windowOffset s.par a) with
    | some v, some .cmd => writeCmd v s
    | some v, some r => .done (.next (s.writeReg r v))
    | some _, none => .done (.next s)
    | none, _ => .done (.next s)

/-- The bytes a host bus read of the window returns: the register of a 32-bit aligned read, zeros otherwise (R40, R66). -/
def State.busData (s : State) (off size : Nat) : List Byte :=
  if size = 4 then wordLanes (s.readOffsetWord off) else List.replicate size 0

/-- What the host's last bus read returned (R71). -/
def State.withReadData (bs : List Byte) (s : State) : State := { s with readData := bs }

/-- A host bus read. It changes nothing of the block (R71). -/
def State.busRead (a : Word) (size : Nat) (s : State) : State :=
  if windowOffset s.par a ≥ 256 then s else s.withReadData (s.busData (windowOffset s.par a) size)

/-- A byte of the buffer of a READ or WRITE in flight: there host and block race (R87, R309). A command whose checks fail makes
no DMA access, and has no such byte. Which accesses race is DEDUCED, safe (log entry 28). -/
def State.inBuffer (a : Word) (s : State) : Bool :=
  s.busy && decide ((a - s.opBuf).toNat < s.opLen.toNat) &&
    match s.op with
    | .read => decide (s.readCheck = none)
    | .write => decide (s.writeCheck = none)
    | .probe => false
    | .erase => false
    | .illegal => false

/-- A byte of the destination of a READ in flight: what the host stores there is undetermined, and what it loads is the value
before or after the block's write (R87, R309). -/
def State.inDestination (a : Word) (s : State) : Bool := s.inBuffer a && decide (s.op = .read)

/-- A byte of the source of a WRITE in flight: what the block sends of it is undetermined once the host stores there (R87,
R309). -/
def State.inSource (a : Word) (s : State) : Bool := s.inBuffer a && decide (s.op = .write)

/-- The bytes read for the next frame after a host store at `a`. Where the byte of `a` is one of them it becomes a free value,
since the frame, not sent yet, may carry the byte before or after the store (R87, R309, 93 U10; log entry 28). -/
def State.bufferAfterStore (a : Word) (s : State) : List Byte :=
  if s.inSource a && decide (s.hoff ≤ (a - s.opBuf).toNat) then
    s.xfer.set ((a - s.opBuf).toNat - s.hoff) (Config.freeByte s.history s.draws 0)
  else s.xfer

/-- A store of the host to its own memory (R87). In the buffer of a command in flight the byte is raced for from then on. In
the source of a WRITE the block's copy of it becomes a free value; in the destination of a READ the byte that the store leaves
is one, since the block's write may come after it (R309, 93 U10). -/
def State.hostStore (a : Word) (v : Byte) (s : State) : State :=
  { s with
    mem := s.mem.set a.toNat (if s.inDestination a then Config.freeByte s.history s.draws 0 else v)
    xfer := s.bufferAfterStore a
    raced := if s.inBuffer a then s.raced.insert a else s.raced
    draws := if s.inBuffer a then s.draws + 1 else s.draws }

/-- The byte received that waits to be written at `a` (R86, @R4b), if there is one. -/
def State.waitingByte (a : Word) (s : State) : Option Byte :=
  if s.phase = .run .read .r4b ∧ s.hoff + (s.n - s.xfer.length) ≤ (a - s.opBuf).toNat then
    s.xfer[(a - s.opBuf).toNat - (s.hoff + (s.n - s.xfer.length))]?
  else none

/-- Of the values before and after the block's write at `a`, the one that host memory does not hold: the byte that a DMA write
has replaced, or the byte received that waits for its DMA write. Where no byte is received yet, nothing but the byte in memory
is there to see (log entry 28). -/
def State.otherByte (a : Word) (s : State) : Byte :=
  match s.replaced.lookup a with
  | some v => v
  | none => (s.waitingByte a).getD (s.byteAt a)

/-- The byte that a host load at `a` sees: in the destination of a READ in flight the value before or after the block's write,
which of them is a free value (R87, R309); elsewhere the byte in memory. -/
def State.loadByte (a : Word) (s : State) : Byte :=
  if s.inDestination a && Config.loadsOther s.history s.draws then s.otherByte a else s.byteAt a

/-- A load of the host from its own memory (R87). -/
def State.hostLoad (a : Word) (s : State) : State :=
  { s with
    readData := [s.loadByte a]
    draws := if s.inDestination a then s.draws + 1 else s.draws }

/-- A host access, in one step (R84). -/
def hostTurn (a : HostAccess) (s : State) : Fetched :=
  match a with
  | .write addr data => busWrite addr data s
  | .read addr size => .done (.next (s.busRead addr size))
  | .store addr v => .done (.next (s.hostStore addr v))
  | .load addr => .done (.next (s.hostLoad addr))

/-! ## Reset -/

/-- What a reset does to the atomic step it cuts short: a frame is sent in part, a byte being written is unspecified, and the
flash's state is unknown (R302). -/
def State.cutShort (s : State) : State :=
  match (plan s).action with
  | .frame i =>
    match encode s.par s.params.addrWidth i with
    | .frame f => s.cutFrame f
    | .word _ => s.withFlash s.flash.abandoned
  | .memWrite a _ => s.cutWrite a
  | .memRead _ => s.withFlash s.flash.abandoned
  | .complete _ => s.withFlash s.flash.abandoned
  | .refuse _ => s.withFlash s.flash.abandoned
  | .stuck _ => s.withFlash s.flash.abandoned
  | .none => s.withFlash s.flash.abandoned

/-- Reset (R301, R302): it abandons the command in flight and sends no frame. -/
def State.resetBlock (s : State) : State := (if s.busy then s.cutShort else s).cleared

/-! ## Whose turn it is -/

/-- The host has seen BUSY = 0 and has read STATUS (R108). -/
def State.waited (s : State) : State := s.withReadData (wordLanes s.statusWord)

/-- The next turn. With no turn left the host is silent and the sequencer moves alone; while it is IDLE nothing happens
(R304). -/
def fetch (s : State) : Fetched :=
  match s.script with
  | [] => act (plan s)
  | .seq :: rest => act (plan (s.withScript rest))
  | .wait :: rest => if s.busy then act (plan s) else .done (.next (s.withScript rest).waited)
  | .host a :: rest => hostTurn a (s.withScript rest)
  | .reset :: rest => .done (.next (s.withScript rest).resetBlock)

/-! ## Host program syntax (R107, R108) -/

/-- `sw <REG>, <imm32>`. -/
def sw (p : Params) (r : Reg) (v : Word) : Turn := .host (.write (r.address p) (wordLanes v))

/-- `lw <REG>`. -/
def lw (p : Params) (r : Reg) : Turn := .host (.read (r.address p) 4)

/-- `probe`. -/
def hostProbe (p : Params) : List Turn := [sw p .cmd 1, .wait]

/-- `read a, n, b`. -/
def hostRead (p : Params) (a n b : Word) : List Turn := [sw p .addr a, sw p .len n, sw p .buf b, sw p .cmd 2, .wait]

/-- `erase a, n`. -/
def hostErase (p : Params) (a n : Word) : List Turn := [sw p .addr a, sw p .len n, sw p .cmd 3, .wait]

/-- `write a, n, b`. -/
def hostWrite (p : Params) (a n b : Word) : List Turn := [sw p .addr a, sw p .len n, sw p .buf b, sw p .cmd 4, .wait]

/-! ## One instruction as the next step -/

/-- The host's next turn is a write of `v` to CMD, and the block is IDLE. -/
def State.withHostWord (v : Word) (s : State) : State :=
  { s with busy := false, phase := .idle, script := sw s.par .cmd v :: s.script }

/-- The sequencer's next turn is at position `l` of `op`. -/
def State.atPosition (op : HostOp) (l : Label) (s : State) : State :=
  { s with busy := true, phase := .run op l, script := .seq :: s.script }

/-- A probed chip of a manufacturer above 16 MiB, for a position inside a bracket. -/
def State.withChip (m : Byte) (s : State) : State :=
  { s with
    desc := some { jedecId := m ++ (0 : BitVec 16), extId := 0, sizeBytes := 33554432, granularity := .g4k,
                   flags := { initSr := false, sstAai := false, bp02 := false, bp3 := false, bp4 := false } }
    params := { s.params with addrWidth := .four } }

/-- A block that sends three address bytes, unless it already sends three or four. -/
def State.withWidth (s : State) : State :=
  match s.params.addrWidth with
  | .unset => { s with params := { s.params with addrWidth := .three } }
  | .three => s
  | .four => s

/-- The erase opcode register and the cursor, at the position of the erase frame. -/
def State.atErase (op : Byte) (c : Nat) (s : State) : State :=
  let t := s.withWidth
  { t with params := { t.params with eraseOp := op }, cur := c }.atPosition .erase .e3b

/-- The machine whose sequencer sends the SPI command `i` next: the position that issues it, with the working registers, and
for a mode command the chip, that it takes. -/
def State.poised (i : Instr) (s : State) : State :=
  match i with
  | .probe => s
  | .read => s
  | .erase => s
  | .write => s
  | .wren => s.atPosition .write .g3
  | .wrdi => s.atPosition .write .s6
  | .rdsr => s.atPosition .erase (.poll .e)
  | .wrsr v => { s with sr := v, mask := 0 }.atPosition .probe .u3s
  | .rdid => s.atPosition .probe .q1
  | .pp a d => { s.withWidth with cur := a, xfer := d }.atPosition .write .g4
  | .aaiWp a d0 d1 => { s.withWidth with first := true, cur := a, xfer := [d0, d1] }.atPosition .write .s3f
  | .aaiCont d0 d1 => { s with first := false, xfer := [d0, d1] }.atPosition .write .s3f
  | .fastRead a n => { s.withWidth with cur := a, n := n }.atPosition .read .r4a
  | .se4k a => s.atErase s.par.opSe4k a
  | .se4kPmc a => s.atErase s.par.opSe4kPmc a
  | .be32k a => s.atErase s.par.opBe32k a
  | .be64k a => s.atErase s.par.opBe64k a
  | .en4b => (s.withChip s.par.mfrWinbond).atPosition .read (.enter 0)
  | .ex4b => (s.withChip s.par.mfrWinbond).atPosition .read (.exit 0)
  | .exhbl => (s.withChip s.par.mfrEon).atPosition .read (.exit 1)
  | .wrear => (s.withChip s.par.mfrWinbond).atPosition .read (.exit 2)
  | .brwr en => (s.withChip s.par.mfrSpansion).atPosition .read (if en then .enter 0 else .exit 0)

/-- One row of the opcode table as the next thing a step executes: a 32-bit word is written to CMD, an 8-bit word is a frame
the sequencer is about to send. -/
def State.placeWord (nbits w : Nat) (s : State) : State :=
  if nbits = 32 then s.withHostWord (BitVec.ofNat 32 w)
  else
    match decodeTableWord nbits w with
    | some i => s.poised i
    | none => s

end Sys2Proof.Machine
end

