-- ==== Sys2Proof/Machine/Dispatch.lean ====
section
/-! DEFINITION. The dispatch: one arm per constructor of Instr. -/

namespace Sys2Proof.Machine

def exec (i : Instr) (s : State) : Host.Outcome State Fault Refusal :=
  match i with
  | .probe => Sys2Proof.Machine.execProbe s
  | .read => Sys2Proof.Machine.execRead s
  | .erase => Sys2Proof.Machine.execErase s
  | .write => Sys2Proof.Machine.execWrite s
  | .wren => Sys2Proof.Machine.execWren s
  | .wrdi => Sys2Proof.Machine.execWrdi s
  | .rdsr => Sys2Proof.Machine.execRdsr s
  | .wrsr value => Sys2Proof.Machine.execWrsr value s
  | .rdid => Sys2Proof.Machine.execRdid s
  | .pp addr data => Sys2Proof.Machine.execPp addr data s
  | .aaiWp addr d0 d1 => Sys2Proof.Machine.execAaiWp addr d0 d1 s
  | .aaiCont d0 d1 => Sys2Proof.Machine.execAaiCont d0 d1 s
  | .fastRead addr len => Sys2Proof.Machine.execFastRead addr len s
  | .se4k addr => Sys2Proof.Machine.execSe4k addr s
  | .se4kPmc addr => Sys2Proof.Machine.execSe4kPmc addr s
  | .be32k addr => Sys2Proof.Machine.execBe32k addr s
  | .be64k addr => Sys2Proof.Machine.execBe64k addr s
  | .en4b => Sys2Proof.Machine.execEn4b s
  | .ex4b => Sys2Proof.Machine.execEx4b s
  | .exhbl => Sys2Proof.Machine.execExhbl s
  | .wrear => Sys2Proof.Machine.execWrear s
  | .brwr en => Sys2Proof.Machine.execBrwr en s

end Sys2Proof.Machine
end

