-- ==== Sys2Proof/Machine/Step.lean ====
section
/-! DEFINITION. One step of the machine, and the placing of one opcode-table row as the next step. -/

namespace Sys2Proof.Machine

/-- What was fetched takes place: a command is executed. -/
def perform (q : Fetched) : Result :=
  match q with
  | .run i t => exec i t
  | .done r => r

/-- One atomic step (R13). A machine whose parameters break a premise is refused (R171). -/
def step (s : State) : Host.Outcome State Fault Refusal :=
  if s.par.wf then perform (fetch s) else .refused .parametersIllFormed

/-- `s` with the opcode-table row's word where the next step takes its instruction: the host's next bus write to CMD for a
host command, the sequencer's next frame for an SPI command. -/
def State.withFetchWord (s : State) (nbits w : Nat) : State := s.placeWord nbits w

end Sys2Proof.Machine
end

