-- ==== Sys2Proof/Safety.lean ====
section
/-! DEFINITION. What claims about the machine are stated in: the invariant of R48 with the bookkeeping of the working registers,
what a command leaves unchanged, and what one frame records. -/

namespace Sys2Proof.Machine

/-! ## Positions -/

/-- READ, ERASE and WRITE: the commands that the probe-first gate guards and the bracket surrounds (R134, R180). -/
def bulkOp : HostOp → Bool
  | .probe => false
  | .read => true
  | .erase => true
  | .write => true
  | .illegal => false

/-- The command whose procedure calls `Poll` at a site (R152). -/
def PollSite.owner : PollSite → HostOp
  | .u1 => .probe
  | .u3 => .probe
  | .e => .erase
  | .g => .write
  | .s1 => .write
  | .s3 => .write
  | .s4 => .write
  | .s5 => .write

/-- The positions of each command's procedure (R47). Only TRANSPORT is raised at a position after the first (R283). -/
def Label.fits (op : HostOp) : Label → Bool
  | .start => true
  | .raise e => decide (e = .transport) && decide (op ≠ .illegal)
  | .enter _ => bulkOp op
  | .exit _ => bulkOp op
  | .q1 => decide (op = .probe)
  | .q2 => decide (op = .probe)
  | .u1w => decide (op = .probe)
  | .u1s => decide (op = .probe)
  | .u2 => decide (op = .probe)
  | .u3 => decide (op = .probe)
  | .u3w => decide (op = .probe)
  | .u3s => decide (op = .probe)
  | .r4 => decide (op = .read)
  | .r4a => decide (op = .read)
  | .r4b => decide (op = .read)
  | .e3 => decide (op = .erase)
  | .e3a => decide (op = .erase)
  | .e3b => decide (op = .erase)
  | .g1 => decide (op = .write)
  | .g2 => decide (op = .write)
  | .g3 => decide (op = .write)
  | .g4 => decide (op = .write)
  | .s1m => decide (op = .write)
  | .s1w => decide (op = .write)
  | .s1p => decide (op = .write)
  | .s2 => decide (op = .write)
  | .s2d => decide (op = .write)
  | .s3 => decide (op = .write)
  | .s3m => decide (op = .write)
  | .s3f => decide (op = .write)
  | .s4 => decide (op = .write)
  | .s5m => decide (op = .write)
  | .s5w => decide (op = .write)
  | .s5p => decide (op = .write)
  | .s6 => decide (op = .write)
  | .poll c => decide (op = c.owner)
  | .polled c => decide (op = c.owner)

/-! ## The working registers on the way -/

/-- The checks of a bulk command have passed (R198, R211, R241, R283). -/
def State.checked (op : HostOp) (s : State) : Prop :=
  match op with
  | .read => s.readCheck = none
  | .erase => s.eraseCheck = none
  | .write => s.writeCheck = none
  | .probe => True
  | .illegal => True

/-- A bulk command whose bracket is being entered: nothing is counted, and a READ has its start offset (R241, R242). -/
def State.enterCourse (s : State) : Prop := s.progress = 0 ∧ (s.op = .read → s.cur = s.readOffset)

/-- A READ on its way: `hoff` bytes are delivered and counted, `rem` are left (R39, R241). -/
def State.readCourse (s : State) : Prop :=
  s.cur = s.readOffset + s.hoff ∧ s.hoff + s.rem = s.opLen.toNat ∧ s.progress = BitVec.ofNat 32 s.hoff

/-- An ERASE on its way: the sectors below `cur` are done and counted, `rem` sectors are left (R39, R197, R199). -/
def State.eraseCourse (s : State) : Prop :=
  s.opAddr.toNat ≤ s.cur ∧ s.cur % s.eraseUnit = 0 ∧
    s.cur + s.rem * s.eraseUnit = s.opAddr.toNat + s.opLen.toNat ∧
    s.progress = BitVec.ofNat 32 (s.cur - s.opAddr.toNat)

/-- A WRITE on its way: `hoff` bytes are programmed and counted, `rem` are left (R39, R213, R217, R222). -/
def State.writeCourse (s : State) : Prop :=
  s.cur = s.opAddr.toNat + s.hoff ∧ s.hoff + s.rem = s.opLen.toNat ∧ s.progress = BitVec.ofNat 32 s.hoff

/-- A page program on its way (R213). -/
def State.pageCourse (s : State) : Prop := s.writeCourse ∧ s.params.sstWrite = false

/-- The chunk of a page program (R216). -/
def State.pageChunk (s : State) : Prop :=
  s.pageCourse ∧ 0 < s.rem ∧ s.n = pageChunkLen s.par.pageSize s.cur s.rem

/-- An AAI program on its way (R217). -/
def State.aaiCourse (s : State) : Prop := s.writeCourse ∧ s.params.sstWrite = true

/-- An AAI program whose cursor is even (R220). -/
def State.aaiEven (s : State) : Prop := s.aaiCourse ∧ s.cur % 2 = 0

/-- The odd first byte of an AAI program (R217, @S1). -/
def State.aaiOdd (s : State) : Prop := s.aaiCourse ∧ s.cur % 2 = 1 ∧ 1 ≤ s.rem

/-- The registers at the end of a bulk command's loop: every byte is counted (R222, R39). -/
def State.allDone (s : State) : Prop := s.progress = s.opLen

/-- The probed descriptor in the working registers is well formed and the working parameters are its own (R259, @Q4). -/
def State.probeCourse (s : State) : Prop :=
  s.progress = 0 ∧ ∃ d, s.pdesc = some d ∧ descWf d = true ∧ s.pparams = derive s.par d

/-- The working registers at a `Poll` (R152). -/
def State.pollCourse (s : State) : PollSite → Prop
  | .u1 => s.probeCourse
  | .u3 => s.probeCourse
  | .e => s.eraseCourse ∧ 0 < s.rem
  | .g => s.pageChunk
  | .s1 => s.aaiOdd
  | .s3 => s.aaiEven ∧ 2 ≤ s.rem ∧ s.first = false
  | .s4 => s.aaiEven ∧ s.rem ≤ 1
  | .s5 => s.aaiEven ∧ s.rem = 1

/-- The working registers at each position. -/
def State.course (s : State) : Label → Prop
  | .start => s.progress = 0
  | .raise _ => True
  | .enter _ => s.enterCourse
  | .exit _ => s.allDone
  | .q1 => s.progress = 0
  | .q2 => s.progress = 0
  | .u1w => s.probeCourse
  | .u1s => s.probeCourse
  | .u2 => s.probeCourse
  | .u3 => s.probeCourse
  | .u3w => s.probeCourse
  | .u3s => s.probeCourse
  | .r4 => s.readCourse
  | .r4a => s.readCourse ∧ 0 < s.rem ∧ s.n = readChunkLen s.rem
  | .r4b => s.readCourse ∧ 0 < s.rem ∧ s.n = readChunkLen s.rem ∧ s.xfer.length ≤ s.n
  | .e3 => s.eraseCourse
  | .e3a => s.eraseCourse ∧ 0 < s.rem
  | .e3b => s.eraseCourse ∧ 0 < s.rem
  | .g1 => s.pageCourse
  | .g2 => s.pageChunk ∧ s.xfer.length ≤ s.n
  | .g3 => s.pageChunk ∧ s.xfer.length = s.n
  | .g4 => s.pageChunk ∧ s.xfer.length = s.n
  | .s1m => s.aaiOdd ∧ s.xfer.length ≤ 1
  | .s1w => s.aaiOdd ∧ s.xfer.length = 1
  | .s1p => s.aaiOdd ∧ s.xfer.length = 1
  | .s2 => s.aaiEven
  | .s2d => s.aaiEven
  | .s3 => s.aaiEven
  | .s3m => s.aaiEven ∧ 2 ≤ s.rem ∧ s.xfer.length ≤ 2
  | .s3f => s.aaiEven ∧ 2 ≤ s.rem ∧ s.xfer.length = 2
  | .s4 => s.aaiEven ∧ s.rem ≤ 1
  | .s5m => s.aaiEven ∧ s.rem = 1 ∧ s.xfer.length ≤ 1
  | .s5w => s.aaiEven ∧ s.rem = 1 ∧ s.xfer.length = 1
  | .s5p => s.aaiEven ∧ s.rem = 1 ∧ s.xfer.length = 1
  | .s6 => s.aaiCourse ∧ s.rem = 0
  | .poll c => s.pollCourse c
  | .polled c => s.pollCourse c

/-- What holds at a position of a command (R47, R48 (e)): the position is one of its procedure; the latched operation is the
command; a bulk command past its first position has a probed chip and has passed its checks; a PROBE past its first position
runs in UNPROBED; and the working registers are on their way. -/
structure State.atCommand (s : State) (op : HostOp) (l : Label) : Prop where
  fits : l.fits op = true
  latched : s.op = op
  bulk : bulkOp op = true → l ≠ .start → s.probeState = .probed ∧ s.checked op
  probing : op = .probe → l ≠ .start → s.probeState = .unprobed
  course : s.course l

/-! ## The invariant -/

/-- The invariant of R48, with what R32, R42, R43 and R46 say beside it. -/
structure State.Inv (s : State) : Prop where
  /-- R48 (a), (b): a probed block holds a well-formed descriptor and the parameters derived from it. -/
  probed : s.probeState = .probed → ∃ d, s.desc = some d ∧ descWf d = true ∧ s.params = derive s.par d
  /-- R42, R43: the descriptor and the parameters are set only by a successful probe. -/
  unset : s.probeState ≠ .probed → s.desc = none ∧ s.params = Derived.none
  /-- R48 (c). -/
  busyIff : s.busy = true ↔ s.phase ≠ .idle
  /-- R32: ERR reads 0 while BUSY = 1; R131: DONE does too. -/
  busyClear : s.busy = true → s.err = .ok ∧ s.done = false
  /-- The canonical form of host memory. -/
  mem : s.mem.wf = true
  /-- The command in flight (R48 (d)): at most one, at a position of its procedure. -/
  command : ∀ op l, s.phase = .run op l → s.atCommand op l

/-! ## Frames of statements -/

/-- The registers of R23 to R45 but for the identification: a command that says nothing of them leaves them alone. -/
structure SameRegisters (s t : State) : Prop where
  addr : t.addr = s.addr
  len : t.len = s.len
  buf : t.buf = s.buf
  busy : t.busy = s.busy
  done : t.done = s.done
  err : t.err = s.err
  statusCur : t.statusCur = s.statusCur
  progress : t.progress = s.progress
  probeState : t.probeState = s.probeState
  desc : t.desc = s.desc
  params : t.params = s.params
  op : t.op = s.op
  opAddr : t.opAddr = s.opAddr
  opLen : t.opLen = s.opLen
  opBuf : t.opBuf = s.opBuf

/-- The identification registers (R34, R35, R44). -/
structure SameId (s t : State) : Prop where
  rawId : t.rawId = s.rawId
  rawExt : t.rawExt = s.rawExt

/-- The working registers but for `s.sr`, `s.first` and the frame buffer, which some frames write (R46). -/
structure SameWorking (s t : State) : Prop where
  cur : t.cur = s.cur
  rem : t.rem = s.rem
  hoff : t.hoff = s.hoff
  mask : t.mask = s.mask
  n : t.n = s.n
  pdesc : t.pdesc = s.pdesc
  pparams : t.pparams = s.pparams

/-- The working registers that some frames write: `s.sr`, `s.first` and the frame buffer (R46). -/
structure SameScratch (s t : State) : Prop where
  sr : t.sr = s.sr
  first : t.first = s.first
  xfer : t.xfer = s.xfer

/-- The world outside: registry, parameters, the host's turns, its last read and what it has stored meanwhile. -/
structure SameWorld (s t : State) : Prop where
  registry : t.registry = s.registry
  par : t.par = s.par
  script : t.script = s.script
  readData : t.readData = s.readData
  raced : t.raced = s.raced

/-- Every byte of host memory reads as before. -/
def SameMemory (s t : State) : Prop := ∀ a : Word, t.byteAt a = s.byteAt a

/-- One frame was sent, whole: its event with the bytes read back, its answer taken, and control past it (R80, R83). -/
structure SentWhole (f : Frame) (s t : State) : Prop where
  history : t.history = .frame s.par.chipSelect f true f.wire.length (s.oracleBytes f.n) :: s.history
  answers : t.answers = s.answers.tail
  draws : t.draws = s.draws + 1
  phase : t.phase = s.phase.next

/-- One frame `f` of command `i` failed: its event without bytes read back and at most its whole length on the wire, TRANSPORT
raised, nothing known of the flash's modes and registers, and of its array only the unit of that frame disturbed (R79, R80,
R278 to R280). -/
structure SentFailing (i : Instr) (f : Frame) (s t : State) : Prop where
  history : ∃ k, k ≤ f.wire.length ∧ t.history = .frame s.par.chipSelect f false k [] :: s.history
  answers : t.answers = s.answers.tail
  draws : t.draws = s.draws + 1
  phase : t.phase = s.phase.raised .transport
  flash : t.flash = s.flash.lost (s.unitOf i)

/-- What every SPI command leaves alone when its frame succeeds: every register but those of the identification, every
working register but `s.sr`, `s.first` and the frame buffer, the world outside, and host memory. -/
structure Quiet (s t : State) : Prop where
  registers : SameRegisters s t
  working : SameWorking s t
  world : SameWorld s t
  memory : SameMemory s t
  replaced : t.replaced = s.replaced

/-- What a failed frame leaves alone: every register and working register, and the world outside (R280). -/
structure Untouched (s t : State) : Prop where
  registers : SameRegisters s t
  id : SameId s t
  working : SameWorking s t
  scratch : SameScratch s t
  world : SameWorld s t
  replaced : t.replaced = s.replaced

/-- `exec i s` is the frame `f`, whole or failing, with `effect` after a success (R12: `X(op)`). -/
def FrameCommand (i : Instr) (f : Frame) (s : State) (effect : State → Prop) : Prop :=
  (s.frameOk = true → ∃ t, exec i s = .next t ∧ SentWhole f s t ∧ Quiet s t ∧ effect t) ∧
  (s.frameOk = false → ∃ t, exec i s = .next t ∧ SentFailing i f s t ∧ Untouched s t ∧ SameMemory s t)

/-- The effect of a command that writes no register of the block: the flash's hidden state becomes `v`. -/
def OnFlash (s : State) (v : FlashView) (t : State) : Prop := SameId s t ∧ SameScratch s t ∧ t.flash = v

/-! ## The sequencer's turn -/

/-- A step of the sequencer: the next atomic step of the command in flight (R13, R132). -/
def seqStep (s : State) : Result := perform (act (plan s))

/-- The sequencer's next atomic step is the frame of `i`, without computation before it, and if the frame succeeds the command
`op` stands at position `l` (R13, R47). -/
def State.SendsThen (s : State) (i : Instr) (op : HostOp) (l : Label) : Prop :=
  (plan s).action = .frame i ∧ (plan s).state = s ∧
    (s.frameOk = true → ∃ t, seqStep s = .next t ∧ t.phase = .run op l)

/-- A bulk command whose checks have passed and whose bracket is entered, or which has none: its loop is next (R180, R197, R211,
R241). -/
def State.AtLoop (s : State) (op : HostOp) : Prop :=
  s.phase = .run op .start ∧ s.checked op ∧ s.bracket true = [] ∨
    ∃ k, s.phase = .run op (.enter k) ∧ (s.bracket true).length ≤ k

/-- The command is over with code `e`, in one step that sends no frame and makes no DMA access (R135): ERR, BUSY, DONE and
IDLE, and the registers, the identification, host memory and the world outside as before. -/
structure CompletedWith (e : ErrCode) (s t : State) : Prop where
  err : t.err = e
  busy : t.busy = false
  done : t.done = true
  phase : t.phase = .idle
  addr : t.addr = s.addr
  len : t.len = s.len
  buf : t.buf = s.buf
  statusCur : t.statusCur = s.statusCur
  op : t.op = s.op
  opAddr : t.opAddr = s.opAddr
  opLen : t.opLen = s.opLen
  opBuf : t.opBuf = s.opBuf
  id : SameId s t
  mem : t.mem = s.mem
  flash : t.flash = s.flash
  history : t.history = s.history
  answers : t.answers = s.answers
  draws : t.draws = s.draws
  world : SameWorld s t
  replaced : t.replaced = s.replaced

/-- The probe results as before (R36 to R38, R41 to R43). -/
structure SameSession (s t : State) : Prop where
  probeState : t.probeState = s.probeState
  desc : t.desc = s.desc
  params : t.params = s.params

/-! ## Acceptance -/

/-- The operation that a CMD value encodes; ILLEGAL where the decoder refuses it (R131). -/
def opOfWord (v : Word) : HostOp :=
  match decodeHostWord v with
  | .ok .probe => .probe
  | .ok .read => .read
  | .ok .erase => .erase
  | .ok .write => .write
  | _ => .illegal

/-- A command was accepted (R131): the latches, STATUS, PROGRESS and the step pointer are written, and nothing else of the
block, of host memory, of the flash or of the history. The host's turns are not named here. -/
structure Accepted (o : HostOp) (code : BitVec 4) (s t : State) : Prop where
  op : t.op = o
  opAddr : t.opAddr = s.addr
  opLen : t.opLen = s.len
  opBuf : t.opBuf = s.buf
  busy : t.busy = true
  done : t.done = false
  err : t.err = .ok
  statusCur : t.statusCur = code
  progress : t.progress = 0
  phase : t.phase = .run o .start
  addr : t.addr = s.addr
  len : t.len = s.len
  buf : t.buf = s.buf
  session : SameSession s t
  id : SameId s t
  working : SameWorking s t
  scratch : SameScratch s t
  mem : t.mem = s.mem
  flash : t.flash = s.flash
  history : t.history = s.history
  answers : t.answers = s.answers
  draws : t.draws = s.draws
  registry : t.registry = s.registry
  par : t.par = s.par
  readData : t.readData = s.readData
  raced : t.raced = []
  replaced : t.replaced = []

/-! ## A whole ERASE (R197, R199) -/

/-- The answers of a flash that accepts every frame of one sector and reports that it is idle at once. -/
def idleSector (k : Nat) : List Answer :=
  [{ ok := true, sent := k, rx := [] }, { ok := true, sent := k, rx := [] }, { ok := true, sent := k, rx := [0x00] }]

/-- The frames of the sectors from `c` on, in issue order (R197, R199). -/
def sectorFrames (s : State) (c : Nat) : Nat → List Event
  | 0 => []
  | r + 1 =>
    [.frame s.par.chipSelect (frameF1 s.par.opWren) true 1 [],
     .frame s.par.chipSelect (frameF3 s.par.opSe4k c s.params.addrWidth) true (commandLength s.params.addrWidth) [],
     .frame s.par.chipSelect (frameF8 s.par.opRdsr 1) true 1 [0x00]]
      ++ sectorFrames s (c + s.params.eraseSize.toNat) r

/-! ## The write-enable latch (R153, R310) -/

/-- The latest frame of a history, with its `ok` (DMA accesses and cut frames passed over). -/
def lastFrame : List Event → Option (Frame × Bool)
  | [] => none
  | .frame _ f ok _ _ :: _ => some (f, ok)
  | .mem _ _ _ :: h => lastFrame h
  | .cut _ _ _ :: h => lastFrame h

/-- The commands that change the flash array or its status register, but for AAI_CONT, which runs under the latch of its
sequence (R16, R153). -/
def needsLatch : Instr → Bool
  | .wrsr _ => true
  | .pp _ _ => true
  | .aaiWp _ _ _ => true
  | .se4k _ => true
  | .se4kPmc _ => true
  | .be32k _ => true
  | .be64k _ => true
  | .aaiCont _ _ => false
  | .probe => false
  | .read => false
  | .erase => false
  | .write => false
  | .wren => false
  | .wrdi => false
  | .rdsr => false
  | .rdid => false
  | .fastRead _ _ => false
  | .en4b => false
  | .ex4b => false
  | .exhbl => false
  | .wrear => false
  | .brwr _ => false

/-- The positions between a WREN frame and the mutating command it is for. -/
def State.latchDue (s : State) : Label → Bool
  | .u1s => true
  | .u3s => true
  | .e3b => true
  | .g4 => true
  | .s1p => true
  | .s5p => true
  | .s2d => true
  | .s3 => s.first
  | .s3m => s.first
  | .s3f => s.first
  | .start => false
  | .raise _ => false
  | .enter _ => false
  | .exit _ => false
  | .q1 => false
  | .q2 => false
  | .u1w => false
  | .u2 => false
  | .u3 => false
  | .u3w => false
  | .r4 => false
  | .r4a => false
  | .r4b => false
  | .e3 => false
  | .e3a => false
  | .g1 => false
  | .g2 => false
  | .g3 => false
  | .s1m => false
  | .s1w => false
  | .s2 => false
  | .s4 => false
  | .s5m => false
  | .s5w => false
  | .s6 => false
  | .poll _ => false
  | .polled _ => false

/-- At such a position the latest frame is a WREN that succeeded. -/
def State.Latched (s : State) : Prop :=
  ∀ op l, s.phase = .run op l → s.latchDue l = true → lastFrame s.history = some (frameF1 s.par.opWren, true)

end Sys2Proof.Machine
end

