-- ==== Sys2Proof/Certificates/Slice0/Obligations.lean ====
section
/-! DEFINITION. The statements about the machine. -/

open Sys2Proof Sys2Proof.Machine

/-! ## Encoding (30_encoding.md) -/

/-- Decoding what a well-formed command is encoded as gives the command back, with every operand, for every choice of
parameters whose opcodes differ and for both address widths. -/
def Obligations.DecodeOfEncodeIsTheInstruction : Prop :=
  ∀ (p : Params) (w : AddrWidth) (i : Instr), p.opcodesDistinct = true → i.wf p w = true →
    decode p w i.isContinuation (encode p w i) = .ok i

/-- R92, R93: a host word with a reserved bit set is refused for that reason whatever its OP field holds; the four codes are
the four commands; and no other word is a command. -/
def Obligations.HostWordsDecodeExactly : Prop :=
  (∀ v : Word, v.extractLsb' 4 28 ≠ 0 → decodeHostWord v = .error .reservedBits) ∧
  ∀ (v : Word) (i : Instr), decodeHostWord v = .ok i ↔
    (v = 0x00000001 ∧ i = .probe) ∨ (v = 0x00000002 ∧ i = .read) ∨ (v = 0x00000003 ∧ i = .erase) ∨
      (v = 0x00000004 ∧ i = .write)

/-- R97: the address field has `w` bytes, byte `i` is bits [8(w-i)-1 : 8(w-i)-8] of the address truncated to 32 bits, and
reading the field back gives the address less the bits above it. -/
def Obligations.AddressFieldsAreBigEndian : Prop :=
  ∀ (a : Nat) (w : AddrWidth),
    (encodeAddr a w).length = w.bytes ∧
    (∀ i, i < w.bytes →
      (encodeAddr a w)[i]? = some ((BitVec.ofNat 32 a).extractLsb' (8 * (w.bytes - 1 - i)) 8)) ∧
    decodeAddr (encodeAddr a w) = a % 2 ^ (8 * w.bytes)

/-- Words written out from R93 and R101: each decodes to the command it stands for. -/
def Obligations.KnownWordsDecode : Prop :=
  decodeTableWord 32 0x00000001 = some .probe ∧ decodeTableWord 32 0x00000011 = none ∧
  decodeTableWord 8 0x06 = some .wren ∧ decodeTableWord 8 0x9F = some .rdid ∧
  decodeFrame Params.standard .three false { kind := .w, tx := [0x20, 0x00, 0x10, 0x00], tx2 := [], n := 0 }
    = .ok (.se4k 0x1000) ∧
  decodeFrame Params.standard .four false { kind := .wr, tx := [0x0B, 0x01, 0x00, 0x00, 0x00, 0x00], tx2 := [], n := 2 }
    = .ok (.fastRead 0x01000000 2) ∧
  decodeFrame Params.standard .three false { kind := .w2, tx := [0x02, 0x00, 0x00, 0x01], tx2 := [0xAA], n := 0 }
    = .ok (.pp 1 [0xAA]) ∧
  decodeFrame Params.standard .three true { kind := .w, tx := [0xDD, 0xEE], tx2 := [], n := 0 }
    = .ok (.aaiCont 0xDD 0xEE)

/-- R72, R95, R98, R102: transport operation, first byte and lengths of the frame of every SPI command, by its format. -/
def Obligations.FramesHaveTheirFormat : Prop :=
  ∀ (p : Params) (w : AddrWidth) (i : Instr) (f : Frame), encode p w i = .frame f → i.wf p w = true →
    (i.format ≠ .f6 → ∃ op rest, f.tx = op :: rest ∧ op ∈ p.opcodes) ∧
    (match i.format with
      | .hostCmd => False
      | .f1 => f.kind = .w ∧ f.tx.length = 1 ∧ f.tx2 = [] ∧ f.n = 0
      | .f2 => f.kind = .w ∧ f.tx.length = 2 ∧ f.tx2 = [] ∧ f.n = 0
      | .f3 => f.kind = .w ∧ f.tx.length = commandLength w ∧ f.tx2 = [] ∧ f.n = 0
      | .f4 => f.kind = .w2 ∧ f.tx.length = commandLength w ∧ 1 ≤ f.tx2.length ∧ f.tx2.length ≤ p.pageSize ∧ f.n = 0
      | .f5 => f.kind = .w ∧ f.tx.length = commandLength w + 2 ∧ f.tx2 = [] ∧ f.n = 0
      | .f6 => f.kind = .w ∧ f.tx.length = p.aaiContPrefix.length + 2 ∧ f.tx2 = [] ∧ f.n = 0
      | .f7 => f.kind = .wr ∧ f.tx.length = commandLength w + 1 ∧ f.tx2 = [] ∧ 1 ≤ f.n ∧ f.n ≤ Config.readChunk
      | .f8 => f.kind = .wr ∧ f.tx.length = 1 ∧ f.tx2 = [] ∧ (f.n = 1 ∨ f.n = 5))

/-- R104: a trace decoder that tracks the AAI context reads a whole AAI sequence right, whatever its data bytes are: the first
pair, any number of continuations, each with its DMA reads and its polls, and the closing WRDI. A frame that failed or was cut
by a reset ends the context, and so does every command but a pair and RDSR; outside the context, and right after a pair, no
frame is read as a continuation. (That a failed frame is decoded as the frame that was handed over is log entry 20.) -/
def Obligations.TraceDecoderReadsAaiSequences : Prop :=
  (∀ (p : Params) (w : AddrWidth) (a : Nat) (b0 b1 : Byte) (pairs : List (Byte × Byte)) (cs : ChipSelect) (m : Nat)
      (rx : List Byte) (x : Word), p.opcodesDistinct = true → (Instr.aaiWp a b0 b1).wf p w = true →
    let ev := fun f : Frame => Event.frame cs f true f.wire.length rx
    let polls := List.replicate (m + 1) (ev (frameF8 p.opRdsr 1))
    decodeTrace p w .outside
      (ev (frameF5 p.opAai a w b0 b1) :: polls ++
        (pairs.flatMap fun q =>
          .mem .read x q.1 :: .mem .read x q.2 :: ev (frameF6 p.aaiContPrefix q.1 q.2) :: polls) ++
        ev (frameF1 p.opWrdi) :: polls ++ [ev (frameF1 p.opWrdi)])
      = .ok (.aaiWp a b0 b1) :: List.replicate (m + 1) (.ok .rdsr) ++
        (pairs.flatMap fun q => .ok (.aaiCont q.1 q.2) :: List.replicate (m + 1) (.ok .rdsr)) ++
        .ok .wrdi :: List.replicate (m + 1) (.ok .rdsr) ++ [.ok .wrdi]) ∧
  (∀ (p : Params) (w : AddrWidth) (c : AaiContext) (cs : ChipSelect) (f : Frame) (k : Nat) (rx : List Byte) (es : List Event),
    decodeTrace p w c (.frame cs f false k rx :: es) = decodeFrame p w c.continues f :: decodeTrace p w .outside es ∧
    decodeTrace p w c (.cut cs f k :: es) = decodeFrame p w c.continues f :: decodeTrace p w .outside es ∧
    (∀ i, decodeFrame p w c.continues f = .ok i → i ≠ .rdsr → (∀ a d0 d1, i ≠ .aaiWp a d0 d1) →
      (∀ d0 d1, i ≠ .aaiCont d0 d1) →
      decodeTrace p w c (.frame cs f true k rx :: es) = .ok i :: decodeTrace p w .outside es) ∧
    (c ≠ .polled → ∀ d0 d1, decodeFrame p w c.continues f ≠ .ok (.aaiCont d0 d1)))

/-! ## How a command comes to run -/

/-- R13, R84, R131, R132: a step runs the decoded command. A host's 32-bit write of a command word to CMD, while the block is
idle, runs the command it decodes to. The sequencer's turn is the next atomic step of the command in flight, and when that
atomic step is a frame, the step runs the SPI command of the frame. Whose turn it is, is the model's script: that the
sequencer moves alone when no turn is left is the model's choice (DESIGN CHOICE, log entry 2), and so is the turn `wait`,
which stays while BUSY = 1 and is used up by one read of STATUS once BUSY = 0 (DEDUCED, log entry 25). -/
def Obligations.StepRunsTheDecodedCommand : Prop :=
  ∀ s : State, s.par.wf = true →
    (∀ a data rest v i, s.script = .host (.write a data) :: rest → windowOffset s.par a = 0 → wordOfLanes data = some v →
      decodeHostWord v = .ok i → s.busy = false → step s = exec i (s.withScript rest)) ∧
    (s.script = [] → step s = seqStep s) ∧
    (∀ rest, s.script = .seq :: rest → step s = seqStep (s.withScript rest)) ∧
    (∀ rest, s.script = .wait :: rest → s.busy = true → step s = seqStep s) ∧
    (∀ rest, s.script = .wait :: rest → s.busy = false →
      step s = .next ((s.withScript rest).withReadData (wordLanes (s.readReg .status)))) ∧
    (∀ i, (plan s).action = .frame i → seqStep s = exec i (plan s).state)

/-- A word of the opcode table placed as the next instruction runs as that instruction (how it is placed is log entry 3): a
host word as the command, from a block made idle; a frame word as the SPI command, from a state with the same host memory,
history, answers and turns. -/
def Obligations.PlacedWordsRun : Prop :=
  (∀ (s : State) (w : Nat) (i : Instr), s.par.wf = true → decodeTableWord 32 w = some i →
    step (s.withFetchWord 32 w) = exec i { s with busy := false, phase := .idle }) ∧
  (∀ (s : State) (w : Nat) (i : Instr), s.par = Params.standard → decodeTableWord 8 w = some i →
    ∃ t, step (s.withFetchWord 8 w) = exec i t ∧ t.mem = s.mem ∧ t.history = s.history ∧ t.answers = s.answers ∧
      t.script = s.script)

/-! ## Host commands (40_host_commands.md) -/

/-- R131, R23: a 32-bit write of `v` to CMD while BUSY = 0 is accepted in one step, legal or not, with CUR = v[3:0]; while
BUSY = 1 it is ignored and only the host's turn is used up. -/
def Obligations.CmdWriteIsAcceptedOrIgnored : Prop :=
  ∀ (s : State) (a : Word) (data : List Byte) (rest : List Turn) (v : Word),
    s.par.wf = true → s.script = .host (.write a data) :: rest → windowOffset s.par a = 0 → wordOfLanes data = some v →
    (s.busy = false → ∃ t, step s = .next t ∧ Accepted (opOfWord v) (v.extractLsb' 0 4) s t ∧ t.script = rest) ∧
    (s.busy = true → step s = .next (s.withScript rest))

/-- PROBE, READ, ERASE and WRITE, each executed while BUSY = 0: the command is accepted, its operands latched, and its
procedure stands at its first position. -/
def Obligations.HostCommandsAreAccepted : Prop :=
  ∀ s : State, s.busy = false →
    (∃ t, exec .probe s = .next t ∧ Accepted .probe 1 s t ∧ t.script = s.script) ∧
    (∃ t, exec .read s = .next t ∧ Accepted .read 2 s t ∧ t.script = s.script) ∧
    (∃ t, exec .erase s = .next t ∧ Accepted .erase 3 s t ∧ t.script = s.script) ∧
    (∃ t, exec .write s = .next t ∧ Accepted .write 4 s t ∧ t.script = s.script)

/-- R133: a command word that is no command is accepted, even before PROBE, and the sequencer's next step completes it with
ILLEGAL_COMMAND: no frame is sent, and PSTATE, the descriptor and PROGRESS (0) do not change. -/
def Obligations.IllegalCommandsComplete : Prop :=
  ∀ (s : State) (a : Word) (data : List Byte) (rest : List Turn) (v : Word) (e : DecodeError),
    s.par.wf = true → s.script = .host (.write a data) :: rest → windowOffset s.par a = 0 → wordOfLanes data = some v →
    decodeHostWord v = .error e → s.busy = false →
    ∃ t u, step s = .next t ∧ t.op = .illegal ∧ t.statusCur = v.extractLsb' 0 4 ∧ t.script = rest ∧
      seqStep t = .next u ∧ CompletedWith .illegalCommand t u ∧ SameSession s u ∧ u.progress = 0 ∧
      u.history = s.history ∧ u.mem = s.mem

/-- R135: whenever the next atomic step is the completion of a command with a code, that step records the code, clears BUSY,
sets DONE and returns to IDLE, sends no frame and undoes none. -/
def Obligations.CompletionRecordsTheCode : Prop :=
  ∀ (s : State) (e : ErrCode), (plan s).action = .complete e → ∃ t, seqStep s = .next t ∧ CompletedWith e s t

/-- R134: READ, ERASE and WRITE complete with NOT_PROBED before a successful PROBE, before any operand check, frame or DMA
access. -/
def Obligations.ProbeComesFirst : Prop :=
  ∀ (s : State) (op : HostOp), bulkOp op = true → s.phase = .run op .start → s.probeState ≠ .probed →
    ∃ t, seqStep s = .next t ∧ CompletedWith .notProbed s t ∧ SameSession s t ∧ t.progress = s.progress

/-! ## Host registers (10_state.md, 20_memory.md) -/

/-- R27 to R33, R276: a read of offset 0x10 gives STATUS: its fields stand in their places and show what they are said to, the
reserved bits read 0, PSTATE 0b11 and the error codes 10 to 15 do not occur; a write changes nothing; and it resets to 0. -/
def Obligations.StatusHasItsFields : Prop :=
  State.reset.readOffsetWord 0x10 = 0 ∧ ∀ s : State, let v := s.readOffsetWord 0x10
    (∀ x, s.writeReg .status x = s) ∧ v.getLsbD 0 = s.busy ∧ v.getLsbD 1 = s.done ∧
    v.extractLsb' 2 2 = (match s.probeState with | .unprobed => 0 | .probed => 1 | .failed => 2) ∧
    (v.getLsbD 4 = true ↔ s.probeState = .probed ∧ s.params.addrWidth = .four) ∧
    (v.getLsbD 5 = true ↔ s.probeState = .probed ∧ s.params.sstWrite = true) ∧
    v.extractLsb' 6 2 = 0 ∧
    v.extractLsb' 8 4 = (match s.err with
      | .ok => 0 | .transport => 1 | .noChip => 2 | .unknownId => 3 | .align => 4 | .capacity => 5 | .noBuffer => 6
      | .notProbed => 7 | .illegalCommand => 8 | .probeRejected => 9) ∧
    v.extractLsb' 12 4 = s.statusCur ∧
    v.extractLsb' 16 16 = 0 ∧ (v.extractLsb' 8 4).toNat ≤ 9 ∧ v.extractLsb' 2 2 ≠ 3

/-- R36, R37, R38: SIZE_LO, SIZE_HI, ERASE_SIZE and INFO, at offsets 0x1C to 0x28, show the probed chip in their fields, read 0
while the block is not PROBED and after reset, and are not changed by a write. -/
def Obligations.ProbeRegistersShowTheChip : Prop :=
  (∀ off ∈ [0x1C, 0x20, 0x24, 0x28], State.reset.readOffsetWord off = 0) ∧
  ∀ s : State,
    (∀ r ∈ [Reg.sizeLo, .sizeHi, .eraseSize, .info], ∀ x, s.writeReg r x = s) ∧
    (s.probeState ≠ .probed →
      s.readOffsetWord 0x28 = 0 ∧ s.readOffsetWord 0x1C = 0 ∧ s.readOffsetWord 0x20 = 0 ∧ s.readOffsetWord 0x24 = 0) ∧
    (∀ d, s.probeState = .probed → s.desc = some d → let v := s.readOffsetWord 0x28
      s.readOffsetWord 0x1C = d.sizeBytes.extractLsb' 0 32 ∧ s.readOffsetWord 0x20 = d.sizeBytes.extractLsb' 32 32 ∧
      s.readOffsetWord 0x24 = s.params.eraseSize ∧
      v.extractLsb' 0 8 = s.params.eraseOp ∧
      v.extractLsb' 8 3 = (match d.granularity with | .g4k => 0 | .g4kPmc => 1 | .g32k => 2 | .g64k => 3 | .g256k => 4) ∧
      v.extractLsb' 11 5 = 0 ∧ v.getLsbD 16 = d.flags.initSr ∧ v.getLsbD 17 = d.flags.sstAai ∧
      v.getLsbD 18 = d.flags.bp02 ∧ v.getLsbD 19 = d.flags.bp3 ∧ v.getLsbD 20 = d.flags.bp4 ∧
      (v.extractLsb' 21 3).toNat = s.params.addrWidth.bytes ∧ v.extractLsb' 24 8 = 0)

/-- R24 to R26, R40, R71: a 32-bit write to a register other than CMD stores into ADDR, LEN or BUF while BUSY = 0, and changes
nothing otherwise, the read-only registers and the reserved offsets included. That a bus write outside the window, at an
offset of 256 or above, changes nothing is the model's choice (DESIGN CHOICE, log entry 21). -/
def Obligations.RegisterWritesStoreOrAreIgnored : Prop :=
  ∀ (s : State) (a : Word) (data : List Byte) (rest : List Turn) (v : Word),
    s.par.wf = true → s.script = .host (.write a data) :: rest → wordOfLanes data = some v → windowOffset s.par a ≠ 0 →
    (s.busy = false → windowOffset s.par a = 0x04 → step s = .next { s.withScript rest with addr := v }) ∧
    (s.busy = false → windowOffset s.par a = 0x08 → step s = .next { s.withScript rest with len := v }) ∧
    (s.busy = false → windowOffset s.par a = 0x0C → step s = .next { s.withScript rest with buf := v }) ∧
    (s.busy = true ∨ (windowOffset s.par a ≠ 0x04 ∧ windowOffset s.par a ≠ 0x08 ∧ windowOffset s.par a ≠ 0x0C) →
      step s = .next (s.withScript rest))

/-- R22 to R26, R34, R35, R39, R40, R65, R71: a 32-bit read of the window returns the register at its offset, the byte at
offset +0 first and holding bits [7:0], and has no side effect on the block: CMD (0x00) reads 0, ADDR (0x04), LEN (0x08), BUF
(0x0C) and PROGRESS (0x2C) their value, JEDEC_ID (0x14) and EXT_ID (0x18) the raw ID zero-extended, and a reserved offset 0.
(STATUS and the registers of the probed chip, 0x10 and 0x1C to 0x28, have statements of their own.) -/
def Obligations.RegisterReadsReturnTheRegister : Prop :=
  ∀ (s : State) (a : Word) (rest : List Turn), s.par.wf = true → s.script = .host (.read a 4) :: rest →
    windowOffset s.par a < 0x100 → let off := windowOffset s.par a
    ∃ v : Word, step s = .next ((s.withScript rest).withReadData
        [v.extractLsb' 0 8, v.extractLsb' 8 8, v.extractLsb' 16 8, v.extractLsb' 24 8]) ∧
      (off = 0x00 → v = 0) ∧ (off = 0x04 → v = s.addr) ∧ (off = 0x08 → v = s.len) ∧ (off = 0x0C → v = s.buf) ∧
      (off = 0x14 → v.toNat = s.rawId.toNat) ∧ (off = 0x18 → v.toNat = s.rawExt.toNat) ∧ (off = 0x2C → v = s.progress) ∧
      (off ∈ [0x10, 0x1C, 0x20, 0x24, 0x28] → v = s.readOffsetWord off) ∧ (0x30 ≤ off → v = 0)

/-- R66: an access of the window that is not a 32-bit access at a multiple of 4 is ignored if it writes and returns 0 if it
reads; nothing of the block records it. -/
def Obligations.IllFormedAccessesHaveNoEffect : Prop :=
  ∀ (s : State) (a : Word) (rest : List Turn), s.par.wf = true → windowOffset s.par a < 256 →
    (∀ data, s.script = .host (.write a data) :: rest → data.length ≠ 4 ∨ windowOffset s.par a % 4 ≠ 0 →
      step s = .next (s.withScript rest)) ∧
    (∀ n, s.script = .host (.read a n) :: rest → n ≠ 4 ∨ windowOffset s.par a % 4 ≠ 0 →
      step s = .next ((s.withScript rest).withReadData (List.replicate n 0)))

/-- R87, R309: a store of the host to its own memory changes that byte and no other, and a load returns a byte and changes
none. A store into the source buffer of a WRITE in flight is remembered, so that a later DMA read of the byte gets a free
value; and where the byte has been read for the frame that is next, the byte the frame carries becomes a free value, and no
other byte of the frame. In the destination of a READ in flight the byte stored is a free value, and the store is remembered;
a load there sees the value before or after the block's write, and which of the two is a free value: the byte in memory or, if
the block has written there, the byte it replaced, or, if the byte received waits for its write, that byte. Everywhere else a
load sees the byte in memory. (The free values for raced bytes are 93 U10; which accesses race is DEDUCED, log entry 28.) -/
def Obligations.HostStoresChangeOneByte : Prop :=
  ∀ (s : State) (a : Word) (v : Byte) (rest : List Turn), s.par.wf = true → s.mem.wf = true →
    let inside : Prop := s.busy = true ∧ (a - s.opBuf).toNat < s.opLen.toNat
    let source : Prop := inside ∧ s.op = .write ∧ s.writeCheck = none
    let destination : Prop := inside ∧ s.op = .read ∧ s.readCheck = none
    (s.script = .host (.store a v) :: rest →
      ∃ t, step s = .next t ∧ (∀ b, b ≠ a → t.byteAt b = s.byteAt b) ∧
        (¬ destination → t.byteAt a = v) ∧ (destination → t.byteAt a = Config.freeByte s.history s.draws 0) ∧
        (¬ source → ¬ destination → t = { s.withScript rest with mem := t.mem }) ∧
        (source → t = { s.withScript rest with mem := t.mem, raced := t.raced, xfer := t.xfer, draws := s.draws + 1 } ∧
          t.xfer.length = s.xfer.length ∧
          ∀ j, j < s.xfer.length → t.xfer[j]? =
            if s.hoff + j = (a - s.opBuf).toNat then some (Config.freeByte s.history s.draws 0) else s.xfer[j]?) ∧
        (destination → t = { s.withScript rest with mem := t.mem, raced := t.raced, draws := s.draws + 1 }) ∧
        (source ∨ destination → ∀ b, b ∈ t.raced ↔ b = a ∨ b ∈ s.raced)) ∧
    (s.script = .host (.load a) :: rest →
      (¬ destination → step s = .next { s.withScript rest with readData := [s.byteAt a] }) ∧
      (destination → ∃ w, step s = .next { s.withScript rest with readData := [w], draws := s.draws + 1 } ∧
        (Config.loadsOther s.history s.draws = false → w = s.byteAt a) ∧
        (Config.loadsOther s.history s.draws = true → ∀ v, s.replaced.lookup a = some v → w = v) ∧
        (Config.loadsOther s.history s.draws = true → s.replaced.lookup a = none →
          (∀ j v, s.phase = .run .read .r4b → s.xfer[j]? = some v →
            (a - s.opBuf).toNat = s.hoff + (s.n - s.xfer.length) + j → w = v) ∧
          ((s.phase ≠ .run .read .r4b ∨ ∀ j, j < s.xfer.length → (a - s.opBuf).toNat ≠ s.hoff + (s.n - s.xfer.length) + j) →
            w = s.byteAt a))))

/-! ## SPI commands: their frame, their effect, and everything they leave alone -/

/-- R146, R147, R149: WREN, WRDI and WRSR complete: exactly one frame is sent and recorded, `W[OP_WREN]`, `W[OP_WRDI]` or
`W[OP_WRSR, v]`, no byte is read back, and every register, every working register not named here, and every byte of host
memory are as before. The flash has its latch set; its latch cleared and AAI mode left; or the status register written and its
busy bit set (the model's record of the flash's hidden state, log entries 12 and 13). If the transport fails, the failing
frame is recorded, TRANSPORT is raised, and every register, working register and byte of host memory is as before (R279,
R280). -/
def Obligations.LatchAndStatusCommandsSendTheirFrame : Prop :=
  ∀ (s : State) (v : Byte),
    FrameCommand .wren (frameF1 s.par.opWren) s (OnFlash s { s.flash with wel := some true }) ∧
    FrameCommand .wrdi (frameF1 s.par.opWrdi) s
      (OnFlash s { s.flash with wel := some false, aai := some false, pointer := none }) ∧
    FrameCommand (.wrsr v) (frameF2 s.par.opWrsr v) s (OnFlash s { s.flash with sr := some v, busy := some true })

/-- R148: RDSR completes: the frame `WR[OP_RDSR]` with one byte read back is sent and recorded, `s.sr` takes the byte the
flash answers, and every register, every working register not named here, and every byte of host memory are as before. The
status register and the busy bit of the flash are known from it (the model's record of the flash's hidden state, log entries
12 and 13). If the transport fails, the failing frame is recorded, TRANSPORT is raised, and every register, working register
and byte of host memory is as before (R279, R280). -/
def Obligations.RdsrReadsOneStatusByte : Prop :=
  ∀ s : State, FrameCommand .rdsr (frameF8 s.par.opRdsr 1) s fun t =>
    SameId s t ∧ t.first = s.first ∧ t.xfer = s.xfer ∧ t.sr = s.oracleByte 0 ∧ t.flash.sr = some (s.oracleByte 0) ∧
      t.flash.busy = some ((s.oracleByte 0).getLsbD 0)

/-- R99, R256, R257: RDID completes: the frame `WR[OP_RDID]` with five bytes read back is sent and recorded, the first three
bytes become `s.raw_id` and the last two `s.raw_ext`, the first byte of each the high one, and every register, every working
register not named here, and every byte of host memory are as before. If the transport fails, the failing frame is recorded,
TRANSPORT is raised, and every register, working register and byte of host memory is as before (R279, R280). -/
def Obligations.RdidCapturesTheId : Prop :=
  ∀ s : State, FrameCommand .rdid (frameF8 s.par.opRdid 5) s fun t =>
    SameScratch s t ∧ t.flash = s.flash ∧
      t.rawId.toNat = (s.oracleByte 0).toNat * 65536 + (s.oracleByte 1).toNat * 256 + (s.oracleByte 2).toNat ∧
      t.rawExt.toNat = (s.oracleByte 3).toNat * 256 + (s.oracleByte 4).toNat

/-- R201 to R204: SE_4K, SE_4K_PMC, BE_32K and BE_64K complete: one frame of the opcode and the encoded address is sent and
recorded, no byte is read back, and every register, every working register not named here, and every byte of host memory are
as before. The flash is busy and erases 4096, 4096, 32768 and `s.erase_size` bytes at the address (the model's record of the
flash's hidden state, log entries 12 and 13). If the transport fails, the failing frame is recorded, TRANSPORT is raised, and
every register, working register and byte of host memory is as before (R279, R280). -/
def Obligations.EraseCommandsSendTheAddress : Prop :=
  ∀ (s : State) (c : Nat),
    FrameCommand (.se4k c) (frameF3 s.par.opSe4k c s.params.addrWidth) s
      (OnFlash s { s.flash with busy := some true, array := .erased c 4096 :: s.flash.array }) ∧
    FrameCommand (.se4kPmc c) (frameF3 s.par.opSe4kPmc c s.params.addrWidth) s
      (OnFlash s { s.flash with busy := some true, array := .erased c 4096 :: s.flash.array }) ∧
    FrameCommand (.be32k c) (frameF3 s.par.opBe32k c s.params.addrWidth) s
      (OnFlash s { s.flash with busy := some true, array := .erased c 32768 :: s.flash.array }) ∧
    FrameCommand (.be64k c) (frameF3 s.par.opBe64k c s.params.addrWidth) s
      (OnFlash s { s.flash with busy := some true, array := .erased c s.params.eraseSize.toNat :: s.flash.array })

/-- R214: PP completes: one `WriteTwo` of the header (opcode and address) and the data is sent and recorded, and every
register, every working register not named here, and every byte of host memory are as before. The flash is busy and programs
the data at the address (the model's record of the flash's hidden state, log entries 12 and 13). If the transport fails, the
failing frame is recorded, TRANSPORT is raised, and every register, working register and byte of host memory is as before
(R279, R280). -/
def Obligations.PageProgramSendsHeaderThenData : Prop :=
  ∀ (s : State) (c : Nat) (d : List Byte), FrameCommand (.pp c d) (frameF4 s.par.opPp c s.params.addrWidth d) s
    (OnFlash s { s.flash with busy := some true, array := .programmed c d :: s.flash.array })

/-- R218: AAI_WP completes: one `Write` of opcode, address and two data bytes is sent and recorded, `s.first` is cleared, and
every register, every working register not named here, and every byte of host memory are as before. The flash enters AAI mode,
is busy and programs the pair at the address (the model's record of the flash's hidden state, log entries 12 and 13). If the
transport fails, the failing frame is recorded, TRANSPORT is raised, and every register, working register and byte of host
memory is as before (R279, R280). -/
def Obligations.FirstPairSendsAddressAndData : Prop :=
  ∀ (s : State) (c : Nat) (d0 d1 : Byte),
    FrameCommand (.aaiWp c d0 d1) (frameF5 s.par.opAai c s.params.addrWidth d0 d1) s fun t =>
      SameId s t ∧ t.sr = s.sr ∧ t.xfer = s.xfer ∧ t.first = false ∧ t.flash.aai = some true ∧
        t.flash.busy = some true ∧ t.flash.array = .programmed c [d0, d1] :: s.flash.array

/-- R221: AAI_CONT completes: one `Write` of the prefix and two data bytes, without opcode and address, is sent and recorded,
and every register, every working register not named here, and every byte of host memory are as before. The flash is busy and,
where its pointer is known, programs the pair there and moves it on by two (the model's record of the flash's hidden state,
log entries 12 and 13). If the transport fails, the failing frame is recorded, TRANSPORT is raised, and every register,
working register and byte of host memory is as before (R279, R280). -/
def Obligations.LaterPairsSendDataOnly : Prop :=
  ∀ (s : State) (d0 d1 : Byte),
    FrameCommand (.aaiCont d0 d1) (frameF6 s.par.aaiContPrefix d0 d1) s fun t =>
      SameId s t ∧ SameScratch s t ∧ t.flash.busy = some true ∧
        (∀ c, s.flash.pointer = some c →
          t.flash.pointer = some (c + 2) ∧ t.flash.array = .programmed c [d0, d1] :: s.flash.array)

/-- R244: FAST_READ completes when the transport does: the frame of opcode, address and dummy byte, with `k` bytes read back,
is sent and recorded, the `k` bytes the flash answers wait in order for their DMA writes, and every register, other working
register and byte of host memory is as before. (Its failure is a statement of its own.) -/
def Obligations.FastReadReceivesTheBytes : Prop :=
  ∀ (s : State) (c k : Nat), s.frameOk = true →
    ∃ t, exec (.fastRead c k) s = .next t ∧
      SentWhole (frameF7 s.par.opFastRead c s.params.addrWidth s.par.fastReadDummy k) s t ∧ Quiet s t ∧ SameId s t ∧
      t.sr = s.sr ∧ t.first = s.first ∧ t.flash = s.flash ∧
      t.xfer.length = k ∧ ∀ i, i < k → t.xfer[i]? = some (s.oracleByte i)

/-- R86, R279: a fast-read frame that fails is recorded and raises TRANSPORT; each host byte it would have filled takes a free
value, and every other byte of host memory, every register and every working register keep their value. That these bytes take
their free values in the frame's own step, and that the history gets no `Mem` event for them, is the model's choice (DEDUCED,
log entry 16). -/
def Obligations.FailedReadFrameSpoilsItsDestination : Prop :=
  ∀ (s : State) (c k : Nat), s.frameOk = false → s.mem.wf = true → k ≤ 4294967296 →
    ∃ t, exec (.fastRead c k) s = .next t ∧
      SentFailing (.fastRead c k) (frameF7 s.par.opFastRead c s.params.addrWidth s.par.fastReadDummy k) s t ∧ Untouched s t ∧
      (∀ i, i < k → t.byteAt (s.hostAddr (s.hoff + i)) = Config.freeByte s.history s.draws i) ∧
      (∀ a, (∀ i, i < k → a ≠ s.hostAddr (s.hoff + i)) → t.byteAt a = s.byteAt a)

/-- R173 to R177, R103: EN4B, EX4B, EXHBL, WREAR and BRWR complete: one frame is sent and recorded, of the opcode alone, of
the opcode and 0x00 (WREAR), or of the opcode and 0x80 or 0x00 (BRWR), and every register, every working register not named
here, and every byte of host memory are as before. The flash is in 4-byte or 3-byte mode; its high-bank latch or its
extended-address register is cleared; or its bank register is written, and the mode with it (the model's record of the flash's
hidden state, log entries 12 and 13). If the transport fails, the failing frame is recorded, TRANSPORT is raised, and every
register, working register and byte of host memory is as before (R279, R280). -/
def Obligations.ModeCommandsSendTheirFrame : Prop :=
  ∀ s : State,
    FrameCommand .en4b (frameF1 s.par.opEn4b) s (OnFlash s { s.flash with fourByte := some true }) ∧
    FrameCommand .ex4b (frameF1 s.par.opEx4b) s (OnFlash s { s.flash with fourByte := some false }) ∧
    FrameCommand .exhbl (frameF1 s.par.opExhbl) s (OnFlash s { s.flash with highBank := some false }) ∧
    FrameCommand .wrear (frameF2 s.par.opWrear 0x00) s (OnFlash s { s.flash with ear := some 0x00 }) ∧
    FrameCommand (.brwr true) (frameF2 s.par.opBrwr 0x80) s
      (OnFlash s { s.flash with bank := some 0x80, fourByte := some true }) ∧
    FrameCommand (.brwr false) (frameF2 s.par.opBrwr 0x00) s
      (OnFlash s { s.flash with bank := some 0x00, fourByte := some false })

/-- R278, R279, R280: every SPI command sends exactly the frame that the encoder gives it: if the transport fails, one event
is recorded, for that frame, every register is left alone, and the next step of the command in flight is its completion with
TRANSPORT, which sends no frame; PROGRESS, the descriptor and the derived parameters stay, and PSTATE becomes FAILED for a
PROBE and stays otherwise. On the flash array everything done before stands, and only the unit of the failing frame is in an
unknown state: the sector at the cursor for the WREN and the RDSR of an ERASE, the chunk at the cursor for those of a page
program, the pair at the cursor for the RDSR of an AAI pair, and nothing for a frame of `SetAddressMode`. (That the completion
is a step of its own is log entry 18; the record of the array is log entry 12.) -/
def Obligations.FailedFramesAbortTheCommand : Prop :=
  ∀ (s : State) (i : Instr) (f : Frame) (op : HostOp) (l : Label),
    encode s.par s.params.addrWidth i = .frame f → s.frameOk = false → s.phase = .run op l →
    ∃ t u, exec i s = .next t ∧ SentFailing i f s t ∧ Untouched s t ∧
      seqStep t = .next u ∧ CompletedWith .transport t u ∧ u.progress = s.progress ∧ u.desc = s.desc ∧
      u.params = s.params ∧ u.probeState = (if op = .probe then .failed else s.probeState) ∧
      (l = .e3a ∧ i = .wren ∨ l = .poll .e ∧ i = .rdsr →
        t.flash.array = .disturbed { addr := s.cur, size := s.params.eraseSize.toNat } :: s.flash.array) ∧
      (l = .g3 ∧ i = .wren ∨ l = .poll .g ∧ i = .rdsr →
        t.flash.array = .disturbed { addr := s.cur, size := s.n } :: s.flash.array) ∧
      (l = .poll .s3 ∧ i = .rdsr → t.flash.array = .disturbed { addr := s.cur, size := 2 } :: s.flash.array) ∧
      (∀ k en, l = .enter k ∨ l = .exit k → i ∈ s.bracket en → t.flash.array = s.flash.array)

/-! ## PROBE (46_probe.md, 42_address_mode.md) -/

/-- R260: a PROBE accepted while the block is not UNPROBED completes with PROBE_REJECTED in its next step. -/
def Obligations.ProbeRunsOnlyOnce : Prop :=
  ∀ s : State, s.busy = false → s.probeState ≠ .unprobed →
    ∃ t u, exec .probe s = .next t ∧ seqStep t = .next u ∧ u.err = .probeRejected ∧ u.done = true ∧ u.busy = false ∧
      u.phase = .idle ∧ u.statusCur = 1 ∧ u.progress = 0 ∧ SameSession s u ∧ SameId s u ∧ u.addr = s.addr ∧
      u.len = s.len ∧ u.buf = s.buf ∧ u.history = s.history ∧ u.mem = s.mem ∧ u.flash = s.flash ∧ u.answers = s.answers

/-- R196, R257, R258, R259: a PROBE of a chip that the registry knows and whose descriptor asks for no unlock sends the RDID
frame alone and commits the descriptor and the parameters derived from it: the erase opcode and sector size of each of the
five granularities, four address bytes above 16 MiB and three otherwise, and the AAI flag. (The answers given as data are log
entry 4.) -/
def Obligations.ProbeOfAKnownChip : Prop :=
  ∀ (s : State) (d : Descriptor) (k : Nat) (b0 b1 b2 b3 b4 : Byte) (rest : List Answer),
    s.busy = false → s.probeState = .unprobed → s.answers = { ok := true, sent := k, rx := [b0, b1, b2, b3, b4] } :: rest →
    invalidId (b0 ++ b1 ++ b2) = false → s.lookup (b0 ++ b1 ++ b2) (b3 ++ b4) = some d → descWf d = true →
    d.flags.initSr = false → hasProtection d.flags = false →
    ∃ t u v, exec .probe s = .next t ∧ seqStep t = .next u ∧ seqStep u = .next v ∧
      v.err = .ok ∧ v.done = true ∧ v.busy = false ∧ v.phase = .idle ∧ v.probeState = .probed ∧ v.desc = some d ∧
      v.params = { eraseOp := (match d.granularity with
                     | .g4k => s.par.opSe4k | .g4kPmc => s.par.opSe4kPmc | .g32k => s.par.opBe32k
                     | .g64k => s.par.opBe64k | .g256k => s.par.opBe64k),
                   eraseSize := (match d.granularity with
                     | .g4k => 4096 | .g4kPmc => 4096 | .g32k => 32768 | .g64k => 65536 | .g256k => 262144),
                   addrWidth := if d.sizeBytes.toNat > 16777216 then .four else .three, sstWrite := d.flags.sstAai } ∧
      v.rawId = b0 ++ b1 ++ b2 ∧ v.rawExt = b3 ++ b4 ∧ v.progress = 0 ∧ v.mem = s.mem ∧ v.answers = rest ∧
      v.history = .frame s.par.chipSelect (frameF8 s.par.opRdid 5) true 1 [b0, b1, b2, b3, b4] :: s.history

/-- R257, R259, R281: after the RDID frame, an invalid ID completes the PROBE with NO_CHIP and an ID without a descriptor with
UNKNOWN_ID, in one step that sends no frame, and the block is FAILED. -/
def Obligations.ProbeFailsClosed : Prop :=
  ∀ s : State, s.phase = .run .probe .q2 →
    (s.rawId = 0x000000 ∨ s.rawId = 0xFFFFFF →
      ∃ t, seqStep s = .next t ∧ CompletedWith .noChip s t ∧ t.probeState = .failed ∧ t.desc = s.desc ∧ t.params = s.params) ∧
    (s.rawId ≠ 0x000000 → s.rawId ≠ 0xFFFFFF → s.lookup s.rawId s.rawExt = none →
      ∃ t, seqStep s = .next t ∧ CompletedWith .unknownId s t ∧ t.probeState = .failed ∧ t.desc = s.desc ∧
        t.params = s.params)

/-- R181 to R183: which frame follows the lookup. With INIT_SR a WREN, after it a WRSR that carries 0, and after that a Poll;
with a protection flag and no INIT_SR an RDSR; with neither, none: the PROBE completes. When the Poll has read bit 0 clear,
the PROBE completes with OK. -/
def Obligations.UnlockFollowsTheFlags : Prop :=
  ∀ (s : State) (d : Descriptor), s.phase = .run .probe .q2 → invalidId s.rawId = false →
    s.lookup s.rawId s.rawExt = some d → descWf d = true →
    (d.flags.initSr = true → (plan s).action = .frame .wren ∧ (plan s).state.phase = .run .probe .u1w) ∧
    (d.flags.initSr = false → (d.flags.bp02 || d.flags.bp3 || d.flags.bp4) = true →
      (plan s).action = .frame .rdsr ∧ (plan s).state.phase = .run .probe .u2 ∧
      (plan s).state.mask = (if d.flags.bp02 then s.par.bp02Mask else 0) ||| (if d.flags.bp3 then s.par.bp3Mask else 0) |||
        (if d.flags.bp4 then s.par.bp4Mask else 0)) ∧
    (d.flags.initSr = false → (d.flags.bp02 || d.flags.bp3 || d.flags.bp4) = false → (plan s).action = .complete .ok) ∧
    (∀ t : State,
      (t.phase = .run .probe .u1w → t.SendsThen .wren .probe .u1s) ∧
      (t.phase = .run .probe .u1s → t.SendsThen (.wrsr 0x00) .probe (.poll .u1)) ∧
      (t.phase = .run .probe (.polled .u1) → t.sr.getLsbD 0 = false → (plan t).action = .complete .ok))

/-- R182: the RDSR of the unlock reads the status register and keeps the mask; after it a set protection bit leads to WREN,
which keeps the value read and the mask, then to a WRSR whose value has exactly the masked bits cleared and every other bit as
read, then to a Poll, and when that has read bit 0 clear the PROBE completes with OK. With none set, the PROBE completes
without a write. -/
def Obligations.UnlockClearsExactlyTheMask : Prop :=
  ∀ s : State,
    (s.phase = .run .probe .u2 → s.SendsThen .rdsr .probe .u3 ∧
      (s.frameOk = true → ∃ t, seqStep s = .next t ∧ t.sr = s.oracleByte 0 ∧ t.mask = s.mask)) ∧
    (s.phase = .run .probe .u3 → s.sr &&& s.mask ≠ 0 → (plan s).action = .frame .wren ∧
      (plan s).state.phase = .run .probe .u3w ∧ (plan s).state.sr = s.sr ∧ (plan s).state.mask = s.mask) ∧
    (s.phase = .run .probe .u3 → s.sr &&& s.mask = 0 → (plan s).action = .complete .ok) ∧
    (s.phase = .run .probe .u3w → s.SendsThen .wren .probe .u3s ∧
      (s.frameOk = true → ∃ t, seqStep s = .next t ∧ t.sr = s.sr ∧ t.mask = s.mask)) ∧
    (s.phase = .run .probe .u3s → ∃ v, s.SendsThen (.wrsr v) .probe (.poll .u3) ∧
      ∀ i, i < 8 → v.getLsbD i = (if s.mask.getLsbD i then false else s.sr.getLsbD i)) ∧
    (s.phase = .run .probe (.polled .u3) → s.sr.getLsbD 0 = false → (plan s).action = .complete .ok)

/-- R172, R178, R179: the frames of `SetAddressMode` for every manufacturer of R171, in both directions; none for a chip of
three address bytes and for any other manufacturer. The bracket sends them one after the other: at its position `k` the frame
`k` of the list is sent, and if it succeeds the position becomes `k + 1`; and past the last frame of the exit the command
completes with OK. -/
def Obligations.AddressModeSequences : Prop :=
  (∀ (p : Params) (id : BitVec 24), p.wf = true → let m := id.extractLsb' 16 8
    (∀ en, modeFrames p .three id en = []) ∧
    (m = p.mfrMicron → modeFrames p .four id true = [.wren, .en4b, .wrdi] ∧
      modeFrames p .four id false = [.wren, .ex4b, .wrdi, .wren, .wrear, .wrdi]) ∧
    (m = p.mfrWinbond ∨ m = p.mfrGigadevice → modeFrames p .four id true = [.en4b] ∧
      modeFrames p .four id false = [.ex4b, .wren, .wrear, .wrdi]) ∧
    (m = p.mfrMacronix → modeFrames p .four id true = [.en4b] ∧
      modeFrames p .four id false = (if id = 0xC22619 then [.ex4b] else [.ex4b, .wren, .wrear, .wrdi])) ∧
    (m = p.mfrEon → modeFrames p .four id true = [.en4b] ∧ modeFrames p .four id false = [.ex4b, .exhbl]) ∧
    (m = p.mfrIssi ∨ m = p.mfrSpansion → modeFrames p .four id true = [.brwr true] ∧
      modeFrames p .four id false = [.brwr false]) ∧
    (m ∉ p.manufacturers → ∀ en, modeFrames p .four id en = [])) ∧
  ∀ (s : State) (d : Descriptor) (op : HostOp) (k : Nat), s.desc = some d →
    (∀ i, s.phase = .run op (.enter k) → (modeFrames s.par s.params.addrWidth d.jedecId true)[k]? = some i →
      s.SendsThen i op (.enter (k + 1))) ∧
    (∀ i, s.phase = .run op (.exit k) → (modeFrames s.par s.params.addrWidth d.jedecId false)[k]? = some i →
      s.SendsThen i op (.exit (k + 1))) ∧
    (s.phase = .run op (.exit k) → (modeFrames s.par s.params.addrWidth d.jedecId false).length ≤ k →
      (plan s).action = .complete .ok)

/-! ## Poll (41_status_register.md) -/

/-- R151: at the test of a Poll, bit 0 of the status set leads to another RDSR of the same Poll, whatever the other bits are;
bit 0 clear ends the Poll, and the next atomic step is no RDSR of it. -/
def Obligations.PollRepeatsWhileBusy : Prop :=
  ∀ (s : State) (op : HostOp) (c : PollSite),
    (s.phase = .run op (.poll c) → (plan s).action = .frame .rdsr ∧ (plan s).state = s) ∧
    (s.phase = .run op (.polled c) → s.sr.getLsbD 0 = true →
      (plan s).action = .frame .rdsr ∧ (plan s).state = { s with phase := .run op (.poll c) }) ∧
    (s.phase = .run op (.polled c) → s.sr.getLsbD 0 = false → (plan s).action ≠ .frame .rdsr)

/-- R136, R151, R277: a Poll has no bound. If the host is silent and every answer of the flash has bit 0 set, then after any
number of steps the command is still in flight: BUSY = 1, DONE = 0, ERR = 0, at the same Poll. (The silent host is the empty
script of log entry 2, the answers given as data are log entry 4: both DESIGN CHOICE.) -/
def Obligations.BusyFlashHangsTheCommand : Prop :=
  ∀ (k : Nat) (s : State) (op : HostOp) (c : PollSite),
    s.par.wf = true → s.script = [] → s.busy = true → s.done = false → s.err = .ok → s.phase = .run op (.poll c) →
    k ≤ s.answers.length → (∀ a ∈ s.answers, a.ok = true ∧ ∃ b bs, a.rx = b :: bs ∧ b.getLsbD 0 = true) →
    ∃ t, Host.Core.run core k s = .next t ∧ t.busy = true ∧ t.done = false ∧ t.err = .ok ∧
      (t.phase = .run op (.poll c) ∨ t.phase = .run op (.polled c)) ∧ t.progress = s.progress ∧ t.mem = s.mem

/-! ## ERASE (43_erase.md) -/

/-- R198, R180, R197: the checks of ERASE, in their order; each violation completes the command with its code and no frame. When
all pass, the next atomic step is the first frame of the bracket, if the chip has one; without a bracket it is the WREN of the
first sector, with the cursor at ADDR and as many sectors to do as fit the length. The command completes at once only with OK,
and only for a length of 0 of a chip without a bracket. -/
def Obligations.EraseValidatesBeforeAnyFrame : Prop :=
  ∀ s : State, s.phase = .run .erase .start → s.probeState = .probed →
    let a := s.opAddr.toNat; let n := s.opLen.toNat; let es := s.params.eraseSize.toNat
    (a % es ≠ 0 → ∃ t, seqStep s = .next t ∧ CompletedWith .align s t ∧ SameSession s t ∧ t.progress = s.progress) ∧
    (a % es = 0 → (a + n) % es ≠ 0 →
      ∃ t, seqStep s = .next t ∧ CompletedWith .align s t ∧ SameSession s t ∧ t.progress = s.progress) ∧
    (a % es = 0 → (a + n) % es = 0 → a + n > s.size →
      ∃ t, seqStep s = .next t ∧ CompletedWith .capacity s t ∧ SameSession s t ∧ t.progress = s.progress) ∧
    (a % es = 0 → (a + n) % es = 0 → a + n ≤ s.size →
      (∀ i is, s.bracket true = i :: is →
        (plan s).action = .frame i ∧ (plan s).state = { s with phase := .run .erase (.enter 0) }) ∧
      (s.bracket true = [] → 0 < es → es ≤ n → (plan s).action = .frame .wren ∧
        (plan s).state = { s with cur := a, rem := n / es, phase := .run .erase .e3a }) ∧
      (∀ e, (plan s).action = .complete e ↔ e = .ok ∧ n = 0 ∧ s.bracket true = [] ∧ s.bracket false = []))

/-- R197, R199: once the bracket is entered, or when the checks have passed and there is none, the cursor is ADDR, LEN divided by
the sector size sectors are left, and the next frame is the WREN of the first one; with none to do the bracket is left. Once
the Poll of a sector has read bit 0 clear, the sector is counted and the cursor moves on by one sector;
if sectors are left the next frame is a WREN, after which the command stands at its erase frame with the cursor unchanged, and
otherwise the bracket is left. -/
def Obligations.EraseGoesSectorBySector : Prop :=
  (∀ s : State, s.AtLoop .erase → let r := s.opLen.toNat / s.params.eraseSize.toNat
    (plan s).state.cur = s.opAddr.toNat ∧ (plan s).state.rem = r ∧ (plan s).state.progress = s.progress ∧
    (0 < r → (plan s).action = .frame .wren ∧ (plan s).state.phase = .run .erase .e3a) ∧
    (r = 0 → s.bracket false = [] → (plan s).action = .complete .ok) ∧
    (r = 0 → ∀ i is, s.bracket false = i :: is → (plan s).action = .frame i ∧ (plan s).state.phase = .run .erase (.exit 0))) ∧
  (∀ s : State, s.phase = .run .erase (.polled .e) → s.sr.getLsbD 0 = false →
    (plan s).state.progress = s.progress + s.params.eraseSize ∧
    (plan s).state.cur = s.cur + s.params.eraseSize.toNat ∧ (plan s).state.rem = s.rem - 1 ∧
    (2 ≤ s.rem → (plan s).action = .frame .wren ∧ (plan s).state.phase = .run .erase .e3a) ∧
    (s.rem = 1 → s.bracket false = [] → (plan s).action = .complete .ok) ∧
    (s.rem = 1 → ∀ i is, s.bracket false = i :: is → (plan s).action = .frame i)) ∧
  ∀ s : State, s.phase = .run .erase .e3a → s.SendsThen .wren .erase .e3b ∧
    (s.frameOk = true → ∃ t, seqStep s = .next t ∧ t.cur = s.cur ∧ t.rem = s.rem)

/-- R197, R201 to R204: at the erase frame, the command sent is the one whose frame is `[s.erase_op] ++ Encode(s.cur, w)`, for
each of the four erase opcodes. In a state that meets the invariant, whichever opcodes are equal, the flash erases the sector
of `s.erase_size` bytes at the cursor if the frame succeeds, and if it fails that sector alone is in an unknown state (R16,
R280; the record of the array is log entry 12). That a machine whose erase opcode register is none of them, which no run reaches, is stuck is
the model's choice (DESIGN CHOICE, log entry 22). -/
def Obligations.EraseFrameUsesTheEraseOpcode : Prop :=
  ∀ (s : State) (op : HostOp), s.phase = .run op .e3b →
    (s.params.eraseOp ∈ [s.par.opSe4k, s.par.opSe4kPmc, s.par.opBe32k, s.par.opBe64k] →
      ∃ i, (plan s).action = .frame i ∧ (plan s).state = s ∧
        encode s.par s.params.addrWidth i =
          .frame { kind := .w, tx := s.params.eraseOp :: encodeAddr s.cur s.params.addrWidth, tx2 := [], n := 0 }) ∧
    (s.Inv → let es := s.params.eraseSize.toNat
      ∃ t, seqStep s = .next t ∧ t.flash.array =
        (if s.frameOk then .erased s.cur es else .disturbed { addr := s.cur, size := es }) :: s.flash.array) ∧
    (s.params.eraseOp ∉ [s.par.opSe4k, s.par.opSe4kPmc, s.par.opBe32k, s.par.opBe64k] →
      seqStep s = .fault .eraseOpUnset)

/-- R197, R199, R39: an accepted ERASE of `r` sectors of a 4-KiB-sector chip of three address bytes, whose checks pass, ends
after `3 r + 1` steps if the host is silent, every frame succeeds and every Poll reads 0x00: with OK, PROGRESS = LEN, and
exactly the frames WREN, SE_4K and RDSR of each sector, in ascending order; host memory is as before. (The silent host is the
empty script of log entry 2, the answers given as data are log entry 4: both DESIGN CHOICE.) -/
def Obligations.EraseRunsToCompletion : Prop :=
  ∀ (s : State) (r k : Nat) (more : List Answer),
    s.par.wf = true → s.script = [] → s.phase = .run .erase .start → s.eraseCheck = none →
    s.params.eraseSize = 0x1000 → s.params.eraseOp = s.par.opSe4k → s.params.addrWidth = .three → s.progress = 0 →
    s.opLen.toNat = r * 4096 → s.answers = (List.replicate r (idleSector k)).flatten ++ more →
    ∃ t, Host.Core.run core (3 * r + 1) s = .next t ∧ t.phase = .idle ∧ t.busy = false ∧ t.done = true ∧ t.err = .ok ∧
      t.progress = s.opLen ∧ t.mem = s.mem ∧ t.answers = more ∧
      t.history.reverse = s.history.reverse ++ sectorFrames s s.opAddr.toNat r

/-! ## WRITE (44_program.md) -/

/-- R211, R212, R180: the checks of WRITE in their order, before any frame and any DMA access; a length of 0 completes with OK
whatever ADDR and BUF are. When they pass the command does not complete, and the next atomic step is the first frame of the
bracket, if the chip has one, before any DMA access. (Without a bracket it is the first step of the program loop, which has
statements of its own.) -/
def Obligations.WriteChecksBeforeAnyFrame : Prop :=
  ∀ s : State, s.phase = .run .write .start → s.probeState = .probed →
    (s.opLen = 0 → ∃ t, seqStep s = .next t ∧ CompletedWith .ok s t ∧ SameSession s t ∧ t.progress = s.progress) ∧
    (s.opLen ≠ 0 → s.opBuf = 0 →
      ∃ t, seqStep s = .next t ∧ CompletedWith .noBuffer s t ∧ SameSession s t ∧ t.progress = s.progress) ∧
    (s.opLen ≠ 0 → s.opBuf ≠ 0 → s.opAddr.toNat + s.opLen.toNat > s.size →
      ∃ t, seqStep s = .next t ∧ CompletedWith .capacity s t ∧ SameSession s t ∧ t.progress = s.progress) ∧
    (s.opLen ≠ 0 → s.opBuf ≠ 0 → s.opAddr.toNat + s.opLen.toNat ≤ s.size →
      (∀ e, (plan s).action ≠ .complete e) ∧
      (∀ i is, s.bracket true = i :: is →
        (plan s).action = .frame i ∧ (plan s).state = { s with phase := .run .write (.enter 0) }))

/-- R213, R216: the page program. A chunk has the length `min(rem, PAGE_SIZE - cur % PAGE_SIZE)`: the first one, with or
without a bracket, and the one after the Poll of another. A chunk has 1 byte or more and lies in one page; unless it is the
last one the next chunk starts on a boundary; and a chunk that starts on a boundary is a whole page, or what remains. 300
bytes from address 200 give chunks of 56 and 244 bytes. Once all bytes of a chunk are read a WREN is sent, then the PP frame
with the cursor and exactly the bytes read, then its Poll; after that Poll, PROGRESS, cursor and offset move on by the chunk
and what is left shrinks by it, and when nothing is left the bracket is left or the command completes. -/
def Obligations.ChunksStayInTheirPage : Prop :=
  (∀ page cur rem : Nat, 0 < page → 0 < rem →
    let n := pageChunkLen page cur rem
    n = min rem (page - cur % page) ∧ 1 ≤ n ∧ n ≤ page ∧ n ≤ rem ∧ cur / page = (cur + n - 1) / page ∧
    (n < rem → (cur + n) % page = 0) ∧ (cur % page = 0 → n = min rem page)) ∧
  (∀ s : State, 0 < s.par.pageSize →
    (s.AtLoop .write → s.params.sstWrite = false → s.opLen ≠ 0 →
      (plan s).action = .memRead s.opBuf ∧ (plan s).state.phase = .run .write .g2 ∧
      (plan s).state.n = pageChunkLen s.par.pageSize s.opAddr.toNat s.opLen.toNat ∧
      (plan s).state.cur = s.opAddr.toNat ∧ (plan s).state.rem = s.opLen.toNat ∧ (plan s).state.hoff = 0 ∧
      (plan s).state.xfer = []) ∧
    (s.phase = .run .write .g2 → s.n ≤ s.xfer.length →
      (plan s).action = .frame .wren ∧ (plan s).state = { s with phase := .run .write .g3 }) ∧
    (s.phase = .run .write .g3 → s.SendsThen .wren .write .g4) ∧
    (s.phase = .run .write .g4 → s.SendsThen (.pp s.cur s.xfer) .write (.poll .g)) ∧
    (s.phase = .run .write (.polled .g) → s.sr.getLsbD 0 = false →
      (plan s).state.progress = s.progress + BitVec.ofNat 32 s.n ∧ (plan s).state.cur = s.cur + s.n ∧
      (plan s).state.hoff = s.hoff + s.n ∧ (plan s).state.rem = s.rem - s.n ∧
      (s.n < s.rem →
        (plan s).state.n = pageChunkLen s.par.pageSize (s.cur + s.n) (s.rem - s.n) ∧ (plan s).state.xfer = [] ∧
        (plan s).action = .memRead (s.opBuf + BitVec.ofNat 32 (s.hoff + s.n))) ∧
      (s.rem ≤ s.n → s.bracket false = [] → (plan s).action = .complete .ok) ∧
      (s.rem ≤ s.n → ∀ i is, s.bracket false = i :: is → (plan s).action = .frame i))) ∧
  pageChunkLen 256 200 300 = 56 ∧ pageChunkLen 256 (200 + 56) (300 - 56) = 244

/-- R217, R219: the steps of the AAI program in their order. An odd start leads to the DMA read of one byte, a WREN, a PP of
that byte at the cursor and its Poll, and an even one to the WREN of step 2 at once; after that WREN the first pair is marked.
At the loop head two bytes or more lead to the DMA reads of a pair and fewer to WRDI; a pair with both bytes read goes out as
AAI_WP with the cursor when it is the first and as AAI_CONT otherwise, then its Poll. The WRDI is followed by a Poll; after it
exactly one byte left leads to its DMA read, a WREN, a PP of that byte at the cursor and its Poll, and none to the last WRDI;
after that WRDI the bracket is left. -/
def Obligations.AaiStepsFollowTheirOrder : Prop :=
  ∀ s : State,
    (s.AtLoop .write → s.params.sstWrite = true →
      (plan s).state.cur = s.opAddr.toNat ∧ (plan s).state.rem = s.opLen.toNat ∧ (plan s).state.hoff = 0 ∧
      (s.opAddr.toNat % 2 = 1 → (plan s).action = .memRead s.opBuf ∧ (plan s).state.phase = .run .write .s1m) ∧
      (s.opAddr.toNat % 2 = 0 → (plan s).action = .frame .wren ∧ (plan s).state.phase = .run .write .s2)) ∧
    (∀ d, s.phase = .run .write .s1m → s.xfer = [d] →
      (plan s).action = .frame .wren ∧ (plan s).state = { s with phase := .run .write .s1w }) ∧
    (s.phase = .run .write .s1w → s.SendsThen .wren .write .s1p) ∧
    (s.phase = .run .write .s1p → s.SendsThen (.pp s.cur s.xfer) .write (.poll .s1)) ∧
    (s.phase = .run .write (.polled .s1) → s.sr.getLsbD 0 = false →
      (plan s).action = .frame .wren ∧ (plan s).state = { s with
        progress := s.progress + 1#32, cur := s.cur + 1, hoff := s.hoff + 1, rem := s.rem - 1, phase := .run .write .s2 }) ∧
    (s.phase = .run .write .s2 → s.SendsThen .wren .write .s2d) ∧
    (s.phase = .run .write .s2d → (plan s).state.first = true ∧ (plan s).state.cur = s.cur ∧
      (2 ≤ s.rem → (plan s).action = .memRead (s.opBuf + BitVec.ofNat 32 s.hoff) ∧
        (plan s).state.phase = .run .write .s3m ∧ (plan s).state.xfer = []) ∧
      (s.rem < 2 → (plan s).action = .frame .wrdi ∧ (plan s).state.phase = .run .write .s4)) ∧
    (∀ d0 d1, s.phase = .run .write .s3m → s.xfer = [d0, d1] →
      (plan s).action = .frame (if s.first then .aaiWp s.cur d0 d1 else .aaiCont d0 d1) ∧
      (plan s).state = { s with phase := .run .write .s3f }) ∧
    (∀ d0 d1, s.phase = .run .write .s3f → s.xfer = [d0, d1] →
      s.SendsThen (if s.first then .aaiWp s.cur d0 d1 else .aaiCont d0 d1) .write (.poll .s3)) ∧
    (s.phase = .run .write (.polled .s3) → s.sr.getLsbD 0 = false →
      (plan s).state.progress = s.progress + 2#32 ∧ (plan s).state.cur = s.cur + 2 ∧ (plan s).state.hoff = s.hoff + 2 ∧
      (plan s).state.rem = s.rem - 2 ∧ (plan s).state.first = s.first ∧
      (4 ≤ s.rem → (plan s).action = .memRead (s.opBuf + BitVec.ofNat 32 (s.hoff + 2)) ∧
        (plan s).state.phase = .run .write .s3m ∧ (plan s).state.xfer = []) ∧
      (s.rem < 4 → (plan s).action = .frame .wrdi ∧ (plan s).state.phase = .run .write .s4)) ∧
    (s.phase = .run .write .s4 → s.SendsThen .wrdi .write (.poll .s4)) ∧
    (s.phase = .run .write (.polled .s4) → s.sr.getLsbD 0 = false →
      (s.rem = 1 → (plan s).action = .memRead (s.opBuf + BitVec.ofNat 32 s.hoff) ∧
        (plan s).state.phase = .run .write .s5m ∧ (plan s).state.xfer = [] ∧ (plan s).state.cur = s.cur) ∧
      (s.rem ≠ 1 → (plan s).action = .frame .wrdi ∧ (plan s).state.phase = .run .write .s6)) ∧
    (∀ d, s.phase = .run .write .s5m → s.xfer = [d] →
      (plan s).action = .frame .wren ∧ (plan s).state = { s with phase := .run .write .s5w }) ∧
    (s.phase = .run .write .s5w → s.SendsThen .wren .write .s5p) ∧
    (s.phase = .run .write .s5p → s.SendsThen (.pp s.cur s.xfer) .write (.poll .s5)) ∧
    (s.phase = .run .write (.polled .s5) → s.sr.getLsbD 0 = false →
      (plan s).action = .frame .wrdi ∧ (plan s).state = { s with
        progress := s.progress + 1#32, cur := s.cur + 1, hoff := s.hoff + 1, rem := s.rem - 1, phase := .run .write .s6 }) ∧
    (s.phase = .run .write .s6 → s.SendsThen .wrdi .write (.exit 0))

/-! ## READ (45_read.md) -/

/-- R241, R242, R243, R283: the checks of READ in their order; a length of 0 completes with OK whether or not BUF is 0. When
they pass, the cursor holds the start offset, ADDR modulo the chip's size, before the first frame, which is the bracket's, or
without a bracket the FAST_READ of the first chunk. -/
def Obligations.ReadChecksBeforeAnyFrame : Prop :=
  ∀ s : State, s.phase = .run .read .start → s.probeState = .probed →
    (s.opLen = 0 → ∃ t, seqStep s = .next t ∧ CompletedWith .ok s t ∧ SameSession s t ∧ t.progress = s.progress) ∧
    (s.opLen ≠ 0 → s.opBuf = 0 →
      ∃ t, seqStep s = .next t ∧ CompletedWith .noBuffer s t ∧ SameSession s t ∧ t.progress = s.progress) ∧
    (s.opLen ≠ 0 → s.opBuf ≠ 0 → s.bracket true = [] →
      (plan s).action = .frame (.fastRead (s.opAddr.toNat % s.size) (min s.opLen.toNat 131072))) ∧
    (s.opLen ≠ 0 → s.opBuf ≠ 0 → ∀ i is, s.bracket true = i :: is →
      (plan s).action = .frame i ∧ (plan s).state.phase = .run .read (.enter 0)) ∧
    (s.opLen ≠ 0 → s.opBuf ≠ 0 → (plan s).state.cur = s.opAddr.toNat % s.size)

/-- R62, R80, R85, R86, R87: DMA. While bytes of a page chunk, of an AAI pair, or of a single byte programmed before or after
the pairs are missing, the sequencer reads one byte of host memory, at the next buffer address modulo 2^32, and appends it to
the frame's data; while bytes received wait, it writes the first of them to the next buffer address and changes no other byte.
A byte that the host has stored to meanwhile is a free value (93 U10; which accesses race is DEDUCED, log entry 28). -/
def Obligations.DmaMovesOneByte : Prop :=
  ∀ s : State,
    (∀ l k, (l, k) ∈ [(Label.g2, s.n), (.s1m, 1), (.s3m, 2), (.s5m, 1)] → s.phase = .run .write l → s.xfer.length < k →
      let a := s.opBuf + BitVec.ofNat 32 (s.hoff + s.xfer.length)
      let v := if a ∈ s.raced then Config.freeByte s.history s.draws 0 else s.byteAt a
      ∃ t, seqStep s = .next t ∧ t.xfer = s.xfer ++ [v] ∧ t.history = .mem .read a v :: s.history ∧
        t.mem = s.mem ∧ t.replaced = s.replaced ∧ t.phase = s.phase ∧
        SameRegisters s t ∧ SameId s t ∧ SameWorking s t ∧ SameWorld s t) ∧
    (∀ v vs, s.phase = .run .read .r4b → s.xfer = v :: vs → s.mem.wf = true →
      let a := s.opBuf + BitVec.ofNat 32 (s.hoff + (s.n - (vs.length + 1)))
      ∃ t, seqStep s = .next t ∧ t.xfer = vs ∧ t.history = .mem .write a v :: s.history ∧
        t.replaced = (a, s.byteAt a) :: s.replaced ∧
        t.byteAt a = (if a ∈ s.raced then Config.freeByte s.history s.draws 0 else v) ∧
        (∀ b, b ≠ a → t.byteAt b = s.byteAt b) ∧
        t.phase = s.phase ∧ SameRegisters s t ∧ SameId s t ∧ SameWorking s t ∧ SameWorld s t)

/-- R241 to R243: once the bracket is entered, or when the checks have passed and there is none, LEN bytes are left, the offset
is 0, and the next frame reads the first chunk, of at most 131072 bytes: at the start offset without a bracket, and at the
cursor, which holds it, after one. A FAST_READ that succeeds leads to the DMA writes of its bytes. Once every byte of a chunk
is stored, PROGRESS, cursor and offset move on by the chunk, and while bytes are left the next frame reads the next chunk at
the cursor, which is not reduced again. -/
def Obligations.ReadGoesChunkByChunk : Prop :=
  (∀ s : State, s.AtLoop .read → s.opLen ≠ 0 → let c := if s.phase = .run .read .start then s.opAddr.toNat % s.size else s.cur
    (plan s).action = .frame (.fastRead c (min s.opLen.toNat 131072)) ∧
    (plan s).state = { s with
      cur := c, rem := s.opLen.toNat, hoff := 0, n := min s.opLen.toNat 131072, phase := .run .read .r4a }) ∧
  (∀ s : State, s.phase = .run .read .r4a → s.SendsThen (.fastRead s.cur s.n) .read .r4b) ∧
  ∀ s : State, s.phase = .run .read .r4b → s.xfer = [] →
    (plan s).state.progress = s.progress + BitVec.ofNat 32 s.n ∧ (plan s).state.cur = s.cur + s.n ∧
    (plan s).state.hoff = s.hoff + s.n ∧ (plan s).state.rem = s.rem - s.n ∧
    (s.n < s.rem → (plan s).action = .frame (.fastRead (s.cur + s.n) (min (s.rem - s.n) 131072)) ∧
      (plan s).state.n = min (s.rem - s.n) 131072) ∧
    (s.rem ≤ s.n → s.bracket false = [] → (plan s).action = .complete .ok) ∧
    (s.rem ≤ s.n → ∀ i is, s.bracket false = i :: is → (plan s).action = .frame i)

/-! ## Reset (70_reset_and_hazards.md) -/

/-- R52, R304: after reset every register reads 0, the block is UNPROBED without a descriptor, IDLE, with `s.op` ILLEGAL, and
stays as it is while the host is silent. (That host memory reads 0 is the model's choice, log entry 9.) -/
def Obligations.ResetStateReadsZero : Prop :=
  (∀ r : Reg, State.reset.readReg r = 0) ∧ State.reset.probeState = .unprobed ∧ State.reset.desc = none ∧
  State.reset.phase = .idle ∧ State.reset.op = .illegal ∧ (∀ a, State.reset.byteAt a = 0) ∧
  (∀ rest, seqStep (State.reset.withScript rest) = .next (State.reset.withScript rest))

/-- R301, R302: a reset, at any moment, abandons the command in flight, sets every register and the probe results and latches
to their reset values and sends no frame; while idle it leaves the flash, host memory and the history alone. While busy it
leaves nothing known of the flash, every byte of host memory but one that was being written is as before, and the frame in
progress, if there is one, is cut short: that it is the frame of the next atomic step, and the event that records it, are the
model's choice (DEDUCED, log entry 17). -/
def Obligations.ResetClearsTheBlock : Prop :=
  ∀ (s : State) (rest : List Turn), s.par.wf = true → s.script = .reset :: rest →
    ∃ t, step s = .next t ∧ (∀ r : Reg, t.readReg r = 0) ∧ t.probeState = .unprobed ∧ t.desc = none ∧
      t.params = Derived.none ∧ t.rawId = 0 ∧ t.rawExt = 0 ∧ t.op = .illegal ∧ t.opAddr = 0 ∧ t.opLen = 0 ∧ t.opBuf = 0 ∧
      t.phase = .idle ∧ t.busy = false ∧ t.script = rest ∧ t.par = s.par ∧ t.registry = s.registry ∧
      (t.history = s.history ∨ ∃ i f k, s.busy = true ∧ (plan (s.withScript rest)).action = .frame i ∧
        encode s.par s.params.addrWidth i = .frame f ∧ k ≤ f.wire.length ∧
        t.history = .cut s.par.chipSelect f k :: s.history) ∧
      (∀ i f, s.busy = true → (plan (s.withScript rest)).action = .frame i → encode s.par s.params.addrWidth i = .frame f →
        ∃ k, k ≤ f.wire.length ∧ t.history = .cut s.par.chipSelect f k :: s.history) ∧
      (s.busy = true → t.flash = { FlashView.unknown with array := .unknown :: s.flash.array }) ∧
      (s.busy = false → t.mem = s.mem ∧ t.flash = s.flash ∧ t.history = s.history) ∧
      (∀ b, (∀ v, (plan (s.withScript rest)).action ≠ .memWrite b v) → t.byteAt b = s.byteAt b)

/-! ## The invariant and whole-machine rules -/

/-- The reset state meets the invariant. -/
def Obligations.InvariantHoldsAtReset : Prop := State.reset.Inv ∧ State.reset.Latched

/-- R48: every step keeps the invariant, whichever agent moves and whatever the transport and the flash answer: a probed block
holds a well-formed descriptor and the parameters derived from it, BUSY is 1 exactly while a command is in flight, the command
is at a position of its own procedure with its checks passed, and host memory keeps its canonical form. -/
def Obligations.EveryStepKeepsTheInvariant : Prop :=
  ∀ s t : State, s.Inv → step s = .next t → t.Inv

/-- R41, R42, R43: the probe state is UNPROBED after reset; its only transitions are from UNPROBED, by a PROBE that succeeds (to
PROBED) or fails (to FAILED); PROBED and FAILED are left only by reset; and the descriptor and the derived parameters change
only with the probe state. That a PROBE changes it in the step that clears BUSY, to PROBED exactly if ERR is OK, is the model's
choice (FAILED: DESIGN CHOICE, log entry 18; PROBED and the descriptor: DEDUCED, log entry 26). -/
def Obligations.ProbeStateIsLeftOnlyByReset : Prop :=
  State.reset.probeState = .unprobed ∧
  (∀ (s t : State) rest, s.script = .reset :: rest → step s = .next t → t.probeState = .unprobed) ∧
  ∀ s t : State, s.Inv → step s = .next t → (∀ rest, s.script ≠ .reset :: rest) →
    (s.probeState ≠ .unprobed → t.probeState = s.probeState ∧ t.desc = s.desc ∧ t.params = s.params) ∧
    (t.probeState = s.probeState → t.desc = s.desc ∧ t.params = s.params) ∧
    (t.probeState ≠ s.probeState → s.busy = true ∧ s.op = .probe ∧ t.busy = false ∧
      t.probeState ≠ .unprobed ∧
      (t.probeState = .probed ↔ t.err = .ok))

/-- R48 (e): no READ, ERASE or WRITE sends a frame unless the block is PROBED. -/
def Obligations.NoFrameBeforeProbe : Prop :=
  ∀ (s : State) (i : Instr), s.Inv → (plan s).action = .frame i → s.probeState = .probed ∨ s.op = .probe

/-- R39, R222, R24: a READ, ERASE or WRITE that completes with OK has PROGRESS equal to the length it was issued with. -/
def Obligations.OkMeansEveryByteIsDone : Prop :=
  ∀ s t : State, s.Inv → s.par.wf = true → seqStep s = .next t → s.busy = true → t.busy = false → t.err = .ok →
    bulkOp s.op = true → t.progress = s.opLen

/-- R72, R102, R201 to R204, R214, R218, R244: every frame that the sequencer issues is well formed. A page program never
crosses its page, an AAI first pair has an even address, an erase address is a multiple of the chip's sector size (for BE_64K
65536 or 262144), with the sector inside the chip (R199), and a fast read has 1 to `READ_CHUNK` bytes. For a READ only the
address may exceed its field (R242); for the others the premise is a chip of at most 4 GiB. -/
def Obligations.IssuedFramesAreWellFormed : Prop :=
  ∀ (s : State) (i : Instr), s.Inv → s.par.wf = true → (plan s).action = .frame i →
    (∀ a n, i = .fastRead a n → 1 ≤ n ∧ n ≤ Config.readChunk) ∧
    (∀ a, i ∈ [Instr.se4k a, .se4kPmc a, .be32k a, .be64k a] →
      a % s.params.eraseSize.toNat = 0 ∧ a + s.params.eraseSize.toNat ≤ s.size) ∧
    ((∀ a n, i ≠ .fastRead a n) → s.size ≤ 4294967296 → i.wf s.par s.params.addrWidth = true)

/-- R153, R310: after every step, at every position between a WREN and the mutating command it is for, the latest frame is a
WREN that succeeded. -/
def Obligations.EveryStepKeepsTheLatchRule : Prop :=
  ∀ s t : State, s.Inv → s.Latched → step s = .next t → t.Latched

/-- R152, R153, R310: WREN precedes every mutating command but an AAI continuation: when the sequencer is about to issue one,
the latest frame of the history is a WREN that succeeded. And a Poll follows every mutating command, the AAI continuation
included: when its frame succeeds, the command stands at a Poll, whose next frame is an RDSR. -/
def Obligations.WrenPrecedesEveryMutatingCommand : Prop :=
  (∀ (s : State) (i : Instr), s.Inv → s.Latched → (plan s).action = .frame i → needsLatch i = true →
    lastFrame s.history = some (frameF1 s.par.opWren, true)) ∧
  ∀ (s : State) (i : Instr), s.Inv → (plan s).action = .frame i → (needsLatch i = true ∨ ∃ d0 d1, i = .aaiCont d0 d1) →
    (plan s).state.frameOk = true →
    ∃ t op c, seqStep s = .next t ∧ t.phase = .run op (.poll c) ∧ (plan t).action = .frame .rdsr

/-- R45: a command reads only its latches. Two states that differ only in the live registers ADDR, LEN and BUF take the same
sequencer step, up to those registers. -/
def Obligations.CommandsReadOnlyTheirLatches : Prop :=
  ∀ (s : State) (a l b : Word),
    (∀ t, seqStep s = .next t →
      seqStep { s with addr := a, len := l, buf := b } = .next { t with addr := a, len := l, buf := b }) ∧
    (∀ e, seqStep s = .fault e → seqStep { s with addr := a, len := l, buf := b } = .fault e) ∧
    (∀ e, seqStep s = .refused e → seqStep { s with addr := a, len := l, buf := b } = .refused e)

/-- R14, R171: where the model stops. Parameters that break a premise stop every step (equal manufacturer codes, as R171 asks;
that a PAGE_SIZE of 0 is refused too is the model's inference, DEDUCED, log entry 8); a descriptor that breaks the registry
premise stops the PROBE that looked it up; no other step is refused; and from a state that meets the invariant no step
faults. -/
def Obligations.StopsAreThePremises : Prop :=
  (∀ s : State, s.par.wf = false → step s = .refused .parametersIllFormed) ∧
  (∀ (s : State) (d : Descriptor), s.phase = .run .probe .q2 → invalidId s.rawId = false →
    s.lookup s.rawId s.rawExt = some d → descWf d = false → seqStep s = .refused .descriptorIllFormed) ∧
  (∀ (s : State) (r : Refusal), s.par.wf = true → step s = .refused r →
    r = .descriptorIllFormed ∧ ∃ op d, s.phase = .run op .q2 ∧ s.lookup s.rawId s.rawExt = some d ∧ descWf d = false) ∧
  (∀ (s : State) (e : Fault), s.Inv → step s ≠ .fault e)
end

