-- ==== Sys2Proof/Laws/Memory.lean ====
section
/-! SUPPORT. Host memory: read after write, and every operation keeps the canonical form. -/

namespace Sys2Proof.Machine

@[simp] theorem Memory.get_nil (a : Nat) : Memory.get [] a = Memory.unlisted := rfl

theorem Memory.get_cell (a b : Nat) (v : Byte) (m : Memory) :
    Memory.get (Memory.cell a v m) b =
      if v = Memory.unlisted then Memory.get m b else if a = b then v else Memory.get m b := by
  unfold Memory.cell
  split <;> simp [Memory.get]

/-- An address below every entry reads as unlisted. -/
theorem Memory.get_below {lo a : Nat} {m : Memory} (h : Memory.wfFrom lo m = true) (ha : a < lo) :
    Memory.get m a = Memory.unlisted := by
  induction m generalizing lo with
  | nil => rfl
  | cons c m ih =>
    obtain ⟨k, v⟩ := c
    simp only [Memory.wfFrom, Bool.and_eq_true, decide_eq_true_eq] at h
    have hk : k ≠ a := by omega
    simp only [Memory.get, hk, if_false]
    exact ih h.2 (by omega)

/-- Reading the address written gives the byte written. -/
theorem Memory.get_set_same {lo : Nat} {m : Memory} (h : Memory.wfFrom lo m = true) (a : Nat) (v : Byte) :
    Memory.get (Memory.set m a v) a = v := by
  induction m generalizing lo with
  | nil => simp only [Memory.set, Memory.get_cell, Memory.get_nil]; split <;> simp_all
  | cons c m ih =>
    obtain ⟨k, w⟩ := c
    simp only [Memory.wfFrom, Bool.and_eq_true, decide_eq_true_eq] at h
    simp only [Memory.set]
    split
    · rename_i hlt
      have hb : Memory.get ((k, w) :: m) a = Memory.unlisted :=
        Memory.get_below (lo := a + 1) (by simp [Memory.wfFrom, h.1.2, h.2]; omega) (by omega)
      rw [Memory.get_cell, hb]; split <;> simp_all
    · split
      · rename_i heq
        have hb : Memory.get m a = Memory.unlisted := Memory.get_below h.2 (by omega)
        rw [Memory.get_cell, hb]; split <;> simp_all
      · rename_i hne
        have : k ≠ a := fun e => hne e.symm
        simp only [Memory.get, this, if_false]
        exact ih h.2

/-- A write leaves every other address alone. -/
theorem Memory.get_set_other (m : Memory) (a : Nat) (v : Byte) {b : Nat} (hb : b ≠ a) :
    Memory.get (Memory.set m a v) b = Memory.get m b := by
  induction m with
  | nil => simp [Memory.set, Memory.get_cell, Ne.symm hb]
  | cons c m ih =>
    obtain ⟨k, w⟩ := c
    simp only [Memory.set]
    split
    · simp [Memory.get_cell, Ne.symm hb]
    · split
      · rename_i h; subst h
        simp [Memory.get_cell, Ne.symm hb, Memory.get]
      · simp only [Memory.get, ih]

theorem Memory.wfFrom_mono {lo lo' : Nat} {m : Memory} (h : Memory.wfFrom lo m = true) (hl : lo' ≤ lo) :
    Memory.wfFrom lo' m = true := by
  cases m with
  | nil => rfl
  | cons c m =>
    simp only [Memory.wfFrom, Bool.and_eq_true, decide_eq_true_eq] at h ⊢
    exact ⟨⟨by omega, h.1.2⟩, h.2⟩

theorem Memory.wfFrom_cell {lo a : Nat} (v : Byte) {m : Memory} (hl : lo ≤ a) (h : Memory.wfFrom (a + 1) m = true) :
    Memory.wfFrom lo (Memory.cell a v m) = true := by
  unfold Memory.cell
  split
  · exact Memory.wfFrom_mono h (by omega)
  · simp_all [Memory.wfFrom]

theorem Memory.wfFrom_set {lo a : Nat} (v : Byte) {m : Memory} (hl : lo ≤ a) (h : Memory.wfFrom lo m = true) :
    Memory.wfFrom lo (Memory.set m a v) = true := by
  induction m generalizing lo with
  | nil => exact Memory.wfFrom_cell v hl rfl
  | cons c m ih =>
    obtain ⟨k, w⟩ := c
    simp only [Memory.wfFrom, Bool.and_eq_true, decide_eq_true_eq] at h
    simp only [Memory.set]
    split
    · exact Memory.wfFrom_cell v hl (by simp only [Memory.wfFrom, Bool.and_eq_true, decide_eq_true_eq]; exact ⟨⟨by omega, h.1.2⟩, h.2⟩)
    · split
      · rename_i e; subst e
        exact Memory.wfFrom_cell v hl h.2
      · simp only [Memory.wfFrom, Bool.and_eq_true, decide_eq_true_eq]
        exact ⟨h.1, ih (by omega) h.2⟩

theorem Memory.bounded_cons (c : Host.Cell) (m : Memory) :
    Memory.bounded (c :: m) = (decide (c.1 < 4294967296) && Memory.bounded m) := rfl

theorem Memory.bounded_cell {a : Nat} (v : Byte) {m : Memory} (ha : a < 4294967296) (h : Memory.bounded m = true) :
    Memory.bounded (Memory.cell a v m) = true := by
  unfold Memory.cell
  split
  · exact h
  · rw [Memory.bounded_cons, h, Bool.and_true, decide_eq_true_eq]; exact ha

theorem Memory.bounded_set {a : Nat} (v : Byte) {m : Memory} (ha : a < 4294967296) (h : Memory.bounded m = true) :
    Memory.bounded (Memory.set m a v) = true := by
  induction m with
  | nil => exact Memory.bounded_cell v ha h
  | cons c m ih =>
    obtain ⟨k, w⟩ := c
    have h' := h
    rw [Memory.bounded_cons, Bool.and_eq_true] at h'
    simp only [Memory.set]
    split
    · exact Memory.bounded_cell v ha h
    · split
      · exact Memory.bounded_cell v ha h'.2
      · rw [Memory.bounded_cons, Bool.and_eq_true]; exact ⟨h'.1, ih h'.2⟩

/-- A store keeps the canonical form. -/
theorem Memory.wf_set (a : Word) (v : Byte) {m : Memory} (h : m.wf = true) : (m.set a.toNat v).wf = true := by
  simp only [Memory.wf, Bool.and_eq_true] at h ⊢
  exact ⟨Memory.wfFrom_set v (Nat.zero_le _) h.1, Memory.bounded_set v a.isLt h.2⟩

/-- The canonical form is canonical: memories that read alike are equal. -/
theorem Memory.ext_of_wfFrom {lo : Nat} {m m' : Memory} (h : Memory.wfFrom lo m = true) (h' : Memory.wfFrom lo m' = true)
    (e : ∀ a, Memory.get m a = Memory.get m' a) : m = m' := by
  induction m generalizing lo m' with
  | nil =>
    cases m' with
    | nil => rfl
    | cons c m' =>
      obtain ⟨k, v⟩ := c
      simp only [Memory.wfFrom, Bool.and_eq_true, decide_eq_true_eq] at h'
      exact absurd (by simpa [Memory.get] using (e k).symm) h'.1.2
  | cons c m ih =>
    obtain ⟨k, v⟩ := c
    simp only [Memory.wfFrom, Bool.and_eq_true, decide_eq_true_eq] at h
    cases m' with
    | nil => exact absurd (by simpa [Memory.get] using e k) h.1.2
    | cons c' m' =>
      obtain ⟨k', v'⟩ := c'
      simp only [Memory.wfFrom, Bool.and_eq_true, decide_eq_true_eq] at h'
      have hk : k = k' := by
        rcases Nat.lt_trichotomy k k' with hlt | heq | hgt
        · have h1 := e k
          have : Memory.get ((k', v') :: m') k = Memory.unlisted :=
            Memory.get_below (lo := k') (by simp only [Memory.wfFrom, Bool.and_eq_true, decide_eq_true_eq]; exact ⟨⟨Nat.le_refl _, h'.1.2⟩, h'.2⟩) hlt
          rw [this] at h1
          exact absurd (by simpa [Memory.get] using h1) h.1.2
        · exact heq
        · have h1 := e k'
          have : Memory.get ((k, v) :: m) k' = Memory.unlisted :=
            Memory.get_below (lo := k) (by simp only [Memory.wfFrom, Bool.and_eq_true, decide_eq_true_eq]; exact ⟨⟨Nat.le_refl _, h.1.2⟩, h.2⟩) hgt
          rw [this] at h1
          exact absurd (by simpa [Memory.get] using h1.symm) h'.1.2
      subst hk
      have hv : v = v' := by simpa [Memory.get] using e k
      subst hv
      have : m = m' := by
        refine ih h.2 h'.2 fun a => ?_
        by_cases ha : k = a
        · subst ha
          rw [Memory.get_below h.2 (by omega), Memory.get_below h'.2 (by omega)]
        · simpa [Memory.get, ha] using e a
      rw [this]

/-- A byte stored is read back. -/
theorem State.byteAt_setByte_same {s : State} (h : s.mem.wf = true) (a : Word) (v : Byte) :
    (s.setByte a v).byteAt a = v := by
  simp only [Memory.wf, Bool.and_eq_true] at h
  exact Memory.get_set_same h.1 a.toNat v

/-- A byte stored leaves every other byte alone. -/
theorem State.byteAt_setByte_other (s : State) (a : Word) (v : Byte) {b : Word} (hb : b ≠ a) :
    (s.setByte a v).byteAt b = s.byteAt b :=
  Memory.get_set_other _ _ _ fun e => hb (BitVec.eq_of_toNat_eq e)

theorem State.wf_setByte {s : State} (h : s.mem.wf = true) (a : Word) (v : Byte) : (s.setByte a v).mem.wf = true :=
  Memory.wf_set a v h

theorem State.wf_dmaWrite {s : State} (h : s.mem.wf = true) (a : Word) (v : Byte) : (s.dmaWrite a v).mem.wf = true :=
  Memory.wf_set a _ h

/-- A byte that the host has not stored to meanwhile is read as it stands (R85). -/
theorem State.unlessRaced_of_not_mem {s : State} {a : Word} (h : a ∉ s.raced) (v : Byte) : s.unlessRaced a v = v := by
  simp [State.unlessRaced, h]

/-- A byte that the host has stored to meanwhile is a free value (R87, 93 U10). -/
theorem State.unlessRaced_of_mem {s : State} {a : Word} (h : a ∈ s.raced) (v : Byte) :
    s.unlessRaced a v = Config.freeByte s.history s.draws 0 := by simp [State.unlessRaced, h]

theorem State.wf_fillUnspecified (i : Nat) (vs : List Byte) {s : State} (h : s.mem.wf = true) :
    (State.fillUnspecified i vs s).mem.wf = true := by
  induction vs generalizing i s with
  | nil => exact h
  | cons v vs ih => exact ih (i + 1) (State.wf_setByte h _ _)

/-- Unspecified bytes change host memory alone. -/
theorem State.fillUnspecified_eq (i : Nat) (vs : List Byte) (s : State) :
    State.fillUnspecified i vs s = { s with mem := (State.fillUnspecified i vs s).mem } := by
  induction vs generalizing i s with
  | nil => rfl
  | cons v vs ih => exact ih (i + 1) (s.setByte (s.hostAddr i) v)

/-- Bytes outside the destination keep their values. -/
theorem State.byteAt_fillUnspecified_other (i : Nat) (vs : List Byte) (s : State) {b : Word}
    (hb : ∀ j, j < vs.length → b ≠ s.hostAddr (i + j)) : (State.fillUnspecified i vs s).byteAt b = s.byteAt b := by
  induction vs generalizing i s with
  | nil => rfl
  | cons v vs ih =>
    have h0 : b ≠ s.hostAddr i := by simpa using hb 0 (by simp)
    rw [State.fillUnspecified, ih, State.byteAt_setByte_other _ _ _ h0]
    intro j hj
    have := hb (j + 1) (by simpa using hj)
    rwa [show i + (j + 1) = i + 1 + j by omega] at this

end Sys2Proof.Machine
end

