-- ==== Sys2Proof/Laws/State.lean ====
section
/-! SUPPORT. One lemma per field per named update of the state. -/

namespace Sys2Proof.Machine

/-! `State.goto` -/

@[simp] theorem State.goto_addr (o : HostOp) (l : Label) (s : State) : (s.goto o l).addr = s.addr := rfl
@[simp] theorem State.goto_len (o : HostOp) (l : Label) (s : State) : (s.goto o l).len = s.len := rfl
@[simp] theorem State.goto_buf (o : HostOp) (l : Label) (s : State) : (s.goto o l).buf = s.buf := rfl
@[simp] theorem State.goto_busy (o : HostOp) (l : Label) (s : State) : (s.goto o l).busy = s.busy := rfl
@[simp] theorem State.goto_done (o : HostOp) (l : Label) (s : State) : (s.goto o l).done = s.done := rfl
@[simp] theorem State.goto_err (o : HostOp) (l : Label) (s : State) : (s.goto o l).err = s.err := rfl
@[simp] theorem State.goto_statusCur (o : HostOp) (l : Label) (s : State) : (s.goto o l).statusCur = s.statusCur := rfl
@[simp] theorem State.goto_progress (o : HostOp) (l : Label) (s : State) : (s.goto o l).progress = s.progress := rfl
@[simp] theorem State.goto_probeState (o : HostOp) (l : Label) (s : State) : (s.goto o l).probeState = s.probeState := rfl
@[simp] theorem State.goto_desc (o : HostOp) (l : Label) (s : State) : (s.goto o l).desc = s.desc := rfl
@[simp] theorem State.goto_params (o : HostOp) (l : Label) (s : State) : (s.goto o l).params = s.params := rfl
@[simp] theorem State.goto_rawId (o : HostOp) (l : Label) (s : State) : (s.goto o l).rawId = s.rawId := rfl
@[simp] theorem State.goto_rawExt (o : HostOp) (l : Label) (s : State) : (s.goto o l).rawExt = s.rawExt := rfl
@[simp] theorem State.goto_op (o : HostOp) (l : Label) (s : State) : (s.goto o l).op = s.op := rfl
@[simp] theorem State.goto_opAddr (o : HostOp) (l : Label) (s : State) : (s.goto o l).opAddr = s.opAddr := rfl
@[simp] theorem State.goto_opLen (o : HostOp) (l : Label) (s : State) : (s.goto o l).opLen = s.opLen := rfl
@[simp] theorem State.goto_opBuf (o : HostOp) (l : Label) (s : State) : (s.goto o l).opBuf = s.opBuf := rfl
@[simp] theorem State.goto_cur (o : HostOp) (l : Label) (s : State) : (s.goto o l).cur = s.cur := rfl
@[simp] theorem State.goto_rem (o : HostOp) (l : Label) (s : State) : (s.goto o l).rem = s.rem := rfl
@[simp] theorem State.goto_hoff (o : HostOp) (l : Label) (s : State) : (s.goto o l).hoff = s.hoff := rfl
@[simp] theorem State.goto_sr (o : HostOp) (l : Label) (s : State) : (s.goto o l).sr = s.sr := rfl
@[simp] theorem State.goto_mask (o : HostOp) (l : Label) (s : State) : (s.goto o l).mask = s.mask := rfl
@[simp] theorem State.goto_first (o : HostOp) (l : Label) (s : State) : (s.goto o l).first = s.first := rfl
@[simp] theorem State.goto_n (o : HostOp) (l : Label) (s : State) : (s.goto o l).n = s.n := rfl
@[simp] theorem State.goto_pdesc (o : HostOp) (l : Label) (s : State) : (s.goto o l).pdesc = s.pdesc := rfl
@[simp] theorem State.goto_pparams (o : HostOp) (l : Label) (s : State) : (s.goto o l).pparams = s.pparams := rfl
@[simp] theorem State.goto_xfer (o : HostOp) (l : Label) (s : State) : (s.goto o l).xfer = s.xfer := rfl
@[simp] theorem State.goto_phase (o : HostOp) (l : Label) (s : State) : (s.goto o l).phase = .run o l := rfl
@[simp] theorem State.goto_mem (o : HostOp) (l : Label) (s : State) : (s.goto o l).mem = s.mem := rfl
@[simp] theorem State.goto_flash (o : HostOp) (l : Label) (s : State) : (s.goto o l).flash = s.flash := rfl
@[simp] theorem State.goto_history (o : HostOp) (l : Label) (s : State) : (s.goto o l).history = s.history := rfl
@[simp] theorem State.goto_answers (o : HostOp) (l : Label) (s : State) : (s.goto o l).answers = s.answers := rfl
@[simp] theorem State.goto_registry (o : HostOp) (l : Label) (s : State) : (s.goto o l).registry = s.registry := rfl
@[simp] theorem State.goto_par (o : HostOp) (l : Label) (s : State) : (s.goto o l).par = s.par := rfl
@[simp] theorem State.goto_script (o : HostOp) (l : Label) (s : State) : (s.goto o l).script = s.script := rfl
@[simp] theorem State.goto_readData (o : HostOp) (l : Label) (s : State) : (s.goto o l).readData = s.readData := rfl
@[simp] theorem State.goto_raced (o : HostOp) (l : Label) (s : State) : (s.goto o l).raced = s.raced := rfl
@[simp] theorem State.goto_replaced (o : HostOp) (l : Label) (s : State) : (s.goto o l).replaced = s.replaced := rfl
@[simp] theorem State.goto_draws (o : HostOp) (l : Label) (s : State) : (s.goto o l).draws = s.draws := rfl

/-! `State.advance` -/

@[simp] theorem State.advance_addr (s : State) : (s.advance).addr = s.addr := rfl
@[simp] theorem State.advance_len (s : State) : (s.advance).len = s.len := rfl
@[simp] theorem State.advance_buf (s : State) : (s.advance).buf = s.buf := rfl
@[simp] theorem State.advance_busy (s : State) : (s.advance).busy = s.busy := rfl
@[simp] theorem State.advance_done (s : State) : (s.advance).done = s.done := rfl
@[simp] theorem State.advance_err (s : State) : (s.advance).err = s.err := rfl
@[simp] theorem State.advance_statusCur (s : State) : (s.advance).statusCur = s.statusCur := rfl
@[simp] theorem State.advance_progress (s : State) : (s.advance).progress = s.progress := rfl
@[simp] theorem State.advance_probeState (s : State) : (s.advance).probeState = s.probeState := rfl
@[simp] theorem State.advance_desc (s : State) : (s.advance).desc = s.desc := rfl
@[simp] theorem State.advance_params (s : State) : (s.advance).params = s.params := rfl
@[simp] theorem State.advance_rawId (s : State) : (s.advance).rawId = s.rawId := rfl
@[simp] theorem State.advance_rawExt (s : State) : (s.advance).rawExt = s.rawExt := rfl
@[simp] theorem State.advance_op (s : State) : (s.advance).op = s.op := rfl
@[simp] theorem State.advance_opAddr (s : State) : (s.advance).opAddr = s.opAddr := rfl
@[simp] theorem State.advance_opLen (s : State) : (s.advance).opLen = s.opLen := rfl
@[simp] theorem State.advance_opBuf (s : State) : (s.advance).opBuf = s.opBuf := rfl
@[simp] theorem State.advance_cur (s : State) : (s.advance).cur = s.cur := rfl
@[simp] theorem State.advance_rem (s : State) : (s.advance).rem = s.rem := rfl
@[simp] theorem State.advance_hoff (s : State) : (s.advance).hoff = s.hoff := rfl
@[simp] theorem State.advance_sr (s : State) : (s.advance).sr = s.sr := rfl
@[simp] theorem State.advance_mask (s : State) : (s.advance).mask = s.mask := rfl
@[simp] theorem State.advance_first (s : State) : (s.advance).first = s.first := rfl
@[simp] theorem State.advance_n (s : State) : (s.advance).n = s.n := rfl
@[simp] theorem State.advance_pdesc (s : State) : (s.advance).pdesc = s.pdesc := rfl
@[simp] theorem State.advance_pparams (s : State) : (s.advance).pparams = s.pparams := rfl
@[simp] theorem State.advance_xfer (s : State) : (s.advance).xfer = s.xfer := rfl
@[simp] theorem State.advance_phase (s : State) : (s.advance).phase = s.phase.next := rfl
@[simp] theorem State.advance_mem (s : State) : (s.advance).mem = s.mem := rfl
@[simp] theorem State.advance_flash (s : State) : (s.advance).flash = s.flash := rfl
@[simp] theorem State.advance_history (s : State) : (s.advance).history = s.history := rfl
@[simp] theorem State.advance_answers (s : State) : (s.advance).answers = s.answers := rfl
@[simp] theorem State.advance_registry (s : State) : (s.advance).registry = s.registry := rfl
@[simp] theorem State.advance_par (s : State) : (s.advance).par = s.par := rfl
@[simp] theorem State.advance_script (s : State) : (s.advance).script = s.script := rfl
@[simp] theorem State.advance_readData (s : State) : (s.advance).readData = s.readData := rfl
@[simp] theorem State.advance_raced (s : State) : (s.advance).raced = s.raced := rfl
@[simp] theorem State.advance_replaced (s : State) : (s.advance).replaced = s.replaced := rfl
@[simp] theorem State.advance_draws (s : State) : (s.advance).draws = s.draws := rfl

/-! `State.raise` -/

@[simp] theorem State.raise_addr (e : ErrCode) (s : State) : (s.raise e).addr = s.addr := rfl
@[simp] theorem State.raise_len (e : ErrCode) (s : State) : (s.raise e).len = s.len := rfl
@[simp] theorem State.raise_buf (e : ErrCode) (s : State) : (s.raise e).buf = s.buf := rfl
@[simp] theorem State.raise_busy (e : ErrCode) (s : State) : (s.raise e).busy = s.busy := rfl
@[simp] theorem State.raise_done (e : ErrCode) (s : State) : (s.raise e).done = s.done := rfl
@[simp] theorem State.raise_err (e : ErrCode) (s : State) : (s.raise e).err = s.err := rfl
@[simp] theorem State.raise_statusCur (e : ErrCode) (s : State) : (s.raise e).statusCur = s.statusCur := rfl
@[simp] theorem State.raise_progress (e : ErrCode) (s : State) : (s.raise e).progress = s.progress := rfl
@[simp] theorem State.raise_probeState (e : ErrCode) (s : State) : (s.raise e).probeState = s.probeState := rfl
@[simp] theorem State.raise_desc (e : ErrCode) (s : State) : (s.raise e).desc = s.desc := rfl
@[simp] theorem State.raise_params (e : ErrCode) (s : State) : (s.raise e).params = s.params := rfl
@[simp] theorem State.raise_rawId (e : ErrCode) (s : State) : (s.raise e).rawId = s.rawId := rfl
@[simp] theorem State.raise_rawExt (e : ErrCode) (s : State) : (s.raise e).rawExt = s.rawExt := rfl
@[simp] theorem State.raise_op (e : ErrCode) (s : State) : (s.raise e).op = s.op := rfl
@[simp] theorem State.raise_opAddr (e : ErrCode) (s : State) : (s.raise e).opAddr = s.opAddr := rfl
@[simp] theorem State.raise_opLen (e : ErrCode) (s : State) : (s.raise e).opLen = s.opLen := rfl
@[simp] theorem State.raise_opBuf (e : ErrCode) (s : State) : (s.raise e).opBuf = s.opBuf := rfl
@[simp] theorem State.raise_cur (e : ErrCode) (s : State) : (s.raise e).cur = s.cur := rfl
@[simp] theorem State.raise_rem (e : ErrCode) (s : State) : (s.raise e).rem = s.rem := rfl
@[simp] theorem State.raise_hoff (e : ErrCode) (s : State) : (s.raise e).hoff = s.hoff := rfl
@[simp] theorem State.raise_sr (e : ErrCode) (s : State) : (s.raise e).sr = s.sr := rfl
@[simp] theorem State.raise_mask (e : ErrCode) (s : State) : (s.raise e).mask = s.mask := rfl
@[simp] theorem State.raise_first (e : ErrCode) (s : State) : (s.raise e).first = s.first := rfl
@[simp] theorem State.raise_n (e : ErrCode) (s : State) : (s.raise e).n = s.n := rfl
@[simp] theorem State.raise_pdesc (e : ErrCode) (s : State) : (s.raise e).pdesc = s.pdesc := rfl
@[simp] theorem State.raise_pparams (e : ErrCode) (s : State) : (s.raise e).pparams = s.pparams := rfl
@[simp] theorem State.raise_xfer (e : ErrCode) (s : State) : (s.raise e).xfer = s.xfer := rfl
@[simp] theorem State.raise_phase (e : ErrCode) (s : State) : (s.raise e).phase = s.phase.raised e := rfl
@[simp] theorem State.raise_mem (e : ErrCode) (s : State) : (s.raise e).mem = s.mem := rfl
@[simp] theorem State.raise_flash (e : ErrCode) (s : State) : (s.raise e).flash = s.flash := rfl
@[simp] theorem State.raise_history (e : ErrCode) (s : State) : (s.raise e).history = s.history := rfl
@[simp] theorem State.raise_answers (e : ErrCode) (s : State) : (s.raise e).answers = s.answers := rfl
@[simp] theorem State.raise_registry (e : ErrCode) (s : State) : (s.raise e).registry = s.registry := rfl
@[simp] theorem State.raise_par (e : ErrCode) (s : State) : (s.raise e).par = s.par := rfl
@[simp] theorem State.raise_script (e : ErrCode) (s : State) : (s.raise e).script = s.script := rfl
@[simp] theorem State.raise_readData (e : ErrCode) (s : State) : (s.raise e).readData = s.readData := rfl
@[simp] theorem State.raise_raced (e : ErrCode) (s : State) : (s.raise e).raced = s.raced := rfl
@[simp] theorem State.raise_replaced (e : ErrCode) (s : State) : (s.raise e).replaced = s.replaced := rfl
@[simp] theorem State.raise_draws (e : ErrCode) (s : State) : (s.raise e).draws = s.draws := rfl

/-! `State.complete` -/

@[simp] theorem State.complete_addr (e : ErrCode) (s : State) : (s.complete e).addr = s.addr := rfl
@[simp] theorem State.complete_len (e : ErrCode) (s : State) : (s.complete e).len = s.len := rfl
@[simp] theorem State.complete_buf (e : ErrCode) (s : State) : (s.complete e).buf = s.buf := rfl
@[simp] theorem State.complete_busy (e : ErrCode) (s : State) : (s.complete e).busy = false := rfl
@[simp] theorem State.complete_done (e : ErrCode) (s : State) : (s.complete e).done = true := rfl
@[simp] theorem State.complete_err (e : ErrCode) (s : State) : (s.complete e).err = e := rfl
@[simp] theorem State.complete_statusCur (e : ErrCode) (s : State) : (s.complete e).statusCur = s.statusCur := rfl
@[simp] theorem State.complete_progress (e : ErrCode) (s : State) : (s.complete e).progress = s.progress := rfl
@[simp] theorem State.complete_probeState (e : ErrCode) (s : State) : (s.complete e).probeState = s.probeState.afterCompletion s.phase e := rfl
@[simp] theorem State.complete_desc (e : ErrCode) (s : State) : (s.complete e).desc = s.desc := rfl
@[simp] theorem State.complete_params (e : ErrCode) (s : State) : (s.complete e).params = s.params := rfl
@[simp] theorem State.complete_rawId (e : ErrCode) (s : State) : (s.complete e).rawId = s.rawId := rfl
@[simp] theorem State.complete_rawExt (e : ErrCode) (s : State) : (s.complete e).rawExt = s.rawExt := rfl
@[simp] theorem State.complete_op (e : ErrCode) (s : State) : (s.complete e).op = s.op := rfl
@[simp] theorem State.complete_opAddr (e : ErrCode) (s : State) : (s.complete e).opAddr = s.opAddr := rfl
@[simp] theorem State.complete_opLen (e : ErrCode) (s : State) : (s.complete e).opLen = s.opLen := rfl
@[simp] theorem State.complete_opBuf (e : ErrCode) (s : State) : (s.complete e).opBuf = s.opBuf := rfl
@[simp] theorem State.complete_cur (e : ErrCode) (s : State) : (s.complete e).cur = s.cur := rfl
@[simp] theorem State.complete_rem (e : ErrCode) (s : State) : (s.complete e).rem = s.rem := rfl
@[simp] theorem State.complete_hoff (e : ErrCode) (s : State) : (s.complete e).hoff = s.hoff := rfl
@[simp] theorem State.complete_sr (e : ErrCode) (s : State) : (s.complete e).sr = s.sr := rfl
@[simp] theorem State.complete_mask (e : ErrCode) (s : State) : (s.complete e).mask = s.mask := rfl
@[simp] theorem State.complete_first (e : ErrCode) (s : State) : (s.complete e).first = s.first := rfl
@[simp] theorem State.complete_n (e : ErrCode) (s : State) : (s.complete e).n = s.n := rfl
@[simp] theorem State.complete_pdesc (e : ErrCode) (s : State) : (s.complete e).pdesc = s.pdesc := rfl
@[simp] theorem State.complete_pparams (e : ErrCode) (s : State) : (s.complete e).pparams = s.pparams := rfl
@[simp] theorem State.complete_xfer (e : ErrCode) (s : State) : (s.complete e).xfer = s.xfer := rfl
@[simp] theorem State.complete_phase (e : ErrCode) (s : State) : (s.complete e).phase = .idle := rfl
@[simp] theorem State.complete_mem (e : ErrCode) (s : State) : (s.complete e).mem = s.mem := rfl
@[simp] theorem State.complete_flash (e : ErrCode) (s : State) : (s.complete e).flash = s.flash := rfl
@[simp] theorem State.complete_history (e : ErrCode) (s : State) : (s.complete e).history = s.history := rfl
@[simp] theorem State.complete_answers (e : ErrCode) (s : State) : (s.complete e).answers = s.answers := rfl
@[simp] theorem State.complete_registry (e : ErrCode) (s : State) : (s.complete e).registry = s.registry := rfl
@[simp] theorem State.complete_par (e : ErrCode) (s : State) : (s.complete e).par = s.par := rfl
@[simp] theorem State.complete_script (e : ErrCode) (s : State) : (s.complete e).script = s.script := rfl
@[simp] theorem State.complete_readData (e : ErrCode) (s : State) : (s.complete e).readData = s.readData := rfl
@[simp] theorem State.complete_raced (e : ErrCode) (s : State) : (s.complete e).raced = s.raced := rfl
@[simp] theorem State.complete_replaced (e : ErrCode) (s : State) : (s.complete e).replaced = s.replaced := rfl
@[simp] theorem State.complete_draws (e : ErrCode) (s : State) : (s.complete e).draws = s.draws := rfl

/-! `State.accept` -/

@[simp] theorem State.accept_addr (o : HostOp) (c : BitVec 4) (s : State) : (s.accept o c).addr = s.addr := rfl
@[simp] theorem State.accept_len (o : HostOp) (c : BitVec 4) (s : State) : (s.accept o c).len = s.len := rfl
@[simp] theorem State.accept_buf (o : HostOp) (c : BitVec 4) (s : State) : (s.accept o c).buf = s.buf := rfl
@[simp] theorem State.accept_busy (o : HostOp) (c : BitVec 4) (s : State) : (s.accept o c).busy = true := rfl
@[simp] theorem State.accept_done (o : HostOp) (c : BitVec 4) (s : State) : (s.accept o c).done = false := rfl
@[simp] theorem State.accept_err (o : HostOp) (c : BitVec 4) (s : State) : (s.accept o c).err = .ok := rfl
@[simp] theorem State.accept_statusCur (o : HostOp) (c : BitVec 4) (s : State) : (s.accept o c).statusCur = c := rfl
@[simp] theorem State.accept_progress (o : HostOp) (c : BitVec 4) (s : State) : (s.accept o c).progress = 0 := rfl
@[simp] theorem State.accept_probeState (o : HostOp) (c : BitVec 4) (s : State) : (s.accept o c).probeState = s.probeState := rfl
@[simp] theorem State.accept_desc (o : HostOp) (c : BitVec 4) (s : State) : (s.accept o c).desc = s.desc := rfl
@[simp] theorem State.accept_params (o : HostOp) (c : BitVec 4) (s : State) : (s.accept o c).params = s.params := rfl
@[simp] theorem State.accept_rawId (o : HostOp) (c : BitVec 4) (s : State) : (s.accept o c).rawId = s.rawId := rfl
@[simp] theorem State.accept_rawExt (o : HostOp) (c : BitVec 4) (s : State) : (s.accept o c).rawExt = s.rawExt := rfl
@[simp] theorem State.accept_op (o : HostOp) (c : BitVec 4) (s : State) : (s.accept o c).op = o := rfl
@[simp] theorem State.accept_opAddr (o : HostOp) (c : BitVec 4) (s : State) : (s.accept o c).opAddr = s.addr := rfl
@[simp] theorem State.accept_opLen (o : HostOp) (c : BitVec 4) (s : State) : (s.accept o c).opLen = s.len := rfl
@[simp] theorem State.accept_opBuf (o : HostOp) (c : BitVec 4) (s : State) : (s.accept o c).opBuf = s.buf := rfl
@[simp] theorem State.accept_cur (o : HostOp) (c : BitVec 4) (s : State) : (s.accept o c).cur = s.cur := rfl
@[simp] theorem State.accept_rem (o : HostOp) (c : BitVec 4) (s : State) : (s.accept o c).rem = s.rem := rfl
@[simp] theorem State.accept_hoff (o : HostOp) (c : BitVec 4) (s : State) : (s.accept o c).hoff = s.hoff := rfl
@[simp] theorem State.accept_sr (o : HostOp) (c : BitVec 4) (s : State) : (s.accept o c).sr = s.sr := rfl
@[simp] theorem State.accept_mask (o : HostOp) (c : BitVec 4) (s : State) : (s.accept o c).mask = s.mask := rfl
@[simp] theorem State.accept_first (o : HostOp) (c : BitVec 4) (s : State) : (s.accept o c).first = s.first := rfl
@[simp] theorem State.accept_n (o : HostOp) (c : BitVec 4) (s : State) : (s.accept o c).n = s.n := rfl
@[simp] theorem State.accept_pdesc (o : HostOp) (c : BitVec 4) (s : State) : (s.accept o c).pdesc = s.pdesc := rfl
@[simp] theorem State.accept_pparams (o : HostOp) (c : BitVec 4) (s : State) : (s.accept o c).pparams = s.pparams := rfl
@[simp] theorem State.accept_xfer (o : HostOp) (c : BitVec 4) (s : State) : (s.accept o c).xfer = s.xfer := rfl
@[simp] theorem State.accept_phase (o : HostOp) (c : BitVec 4) (s : State) : (s.accept o c).phase = .run o .start := rfl
@[simp] theorem State.accept_mem (o : HostOp) (c : BitVec 4) (s : State) : (s.accept o c).mem = s.mem := rfl
@[simp] theorem State.accept_flash (o : HostOp) (c : BitVec 4) (s : State) : (s.accept o c).flash = s.flash := rfl
@[simp] theorem State.accept_history (o : HostOp) (c : BitVec 4) (s : State) : (s.accept o c).history = s.history := rfl
@[simp] theorem State.accept_answers (o : HostOp) (c : BitVec 4) (s : State) : (s.accept o c).answers = s.answers := rfl
@[simp] theorem State.accept_registry (o : HostOp) (c : BitVec 4) (s : State) : (s.accept o c).registry = s.registry := rfl
@[simp] theorem State.accept_par (o : HostOp) (c : BitVec 4) (s : State) : (s.accept o c).par = s.par := rfl
@[simp] theorem State.accept_script (o : HostOp) (c : BitVec 4) (s : State) : (s.accept o c).script = s.script := rfl
@[simp] theorem State.accept_readData (o : HostOp) (c : BitVec 4) (s : State) : (s.accept o c).readData = s.readData := rfl
@[simp] theorem State.accept_raced (o : HostOp) (c : BitVec 4) (s : State) : (s.accept o c).raced = [] := rfl
@[simp] theorem State.accept_replaced (o : HostOp) (c : BitVec 4) (s : State) : (s.accept o c).replaced = [] := rfl
@[simp] theorem State.accept_draws (o : HostOp) (c : BitVec 4) (s : State) : (s.accept o c).draws = s.draws := rfl

/-! `State.transport` -/

@[simp] theorem State.transport_addr (f : Frame) (s : State) : (s.transport f).addr = s.addr := rfl
@[simp] theorem State.transport_len (f : Frame) (s : State) : (s.transport f).len = s.len := rfl
@[simp] theorem State.transport_buf (f : Frame) (s : State) : (s.transport f).buf = s.buf := rfl
@[simp] theorem State.transport_busy (f : Frame) (s : State) : (s.transport f).busy = s.busy := rfl
@[simp] theorem State.transport_done (f : Frame) (s : State) : (s.transport f).done = s.done := rfl
@[simp] theorem State.transport_err (f : Frame) (s : State) : (s.transport f).err = s.err := rfl
@[simp] theorem State.transport_statusCur (f : Frame) (s : State) : (s.transport f).statusCur = s.statusCur := rfl
@[simp] theorem State.transport_progress (f : Frame) (s : State) : (s.transport f).progress = s.progress := rfl
@[simp] theorem State.transport_probeState (f : Frame) (s : State) : (s.transport f).probeState = s.probeState := rfl
@[simp] theorem State.transport_desc (f : Frame) (s : State) : (s.transport f).desc = s.desc := rfl
@[simp] theorem State.transport_params (f : Frame) (s : State) : (s.transport f).params = s.params := rfl
@[simp] theorem State.transport_rawId (f : Frame) (s : State) : (s.transport f).rawId = s.rawId := rfl
@[simp] theorem State.transport_rawExt (f : Frame) (s : State) : (s.transport f).rawExt = s.rawExt := rfl
@[simp] theorem State.transport_op (f : Frame) (s : State) : (s.transport f).op = s.op := rfl
@[simp] theorem State.transport_opAddr (f : Frame) (s : State) : (s.transport f).opAddr = s.opAddr := rfl
@[simp] theorem State.transport_opLen (f : Frame) (s : State) : (s.transport f).opLen = s.opLen := rfl
@[simp] theorem State.transport_opBuf (f : Frame) (s : State) : (s.transport f).opBuf = s.opBuf := rfl
@[simp] theorem State.transport_cur (f : Frame) (s : State) : (s.transport f).cur = s.cur := rfl
@[simp] theorem State.transport_rem (f : Frame) (s : State) : (s.transport f).rem = s.rem := rfl
@[simp] theorem State.transport_hoff (f : Frame) (s : State) : (s.transport f).hoff = s.hoff := rfl
@[simp] theorem State.transport_sr (f : Frame) (s : State) : (s.transport f).sr = s.sr := rfl
@[simp] theorem State.transport_mask (f : Frame) (s : State) : (s.transport f).mask = s.mask := rfl
@[simp] theorem State.transport_first (f : Frame) (s : State) : (s.transport f).first = s.first := rfl
@[simp] theorem State.transport_n (f : Frame) (s : State) : (s.transport f).n = s.n := rfl
@[simp] theorem State.transport_pdesc (f : Frame) (s : State) : (s.transport f).pdesc = s.pdesc := rfl
@[simp] theorem State.transport_pparams (f : Frame) (s : State) : (s.transport f).pparams = s.pparams := rfl
@[simp] theorem State.transport_xfer (f : Frame) (s : State) : (s.transport f).xfer = s.xfer := rfl
@[simp] theorem State.transport_phase (f : Frame) (s : State) : (s.transport f).phase = s.phase := rfl
@[simp] theorem State.transport_mem (f : Frame) (s : State) : (s.transport f).mem = s.mem := rfl
@[simp] theorem State.transport_flash (f : Frame) (s : State) : (s.transport f).flash = s.flash := rfl
@[simp] theorem State.transport_history (f : Frame) (s : State) : (s.transport f).history = .frame s.par.chipSelect f s.frameOk (s.frameSent f) (s.frameRx f) :: s.history := rfl
@[simp] theorem State.transport_answers (f : Frame) (s : State) : (s.transport f).answers = s.answers.tail := rfl
@[simp] theorem State.transport_registry (f : Frame) (s : State) : (s.transport f).registry = s.registry := rfl
@[simp] theorem State.transport_par (f : Frame) (s : State) : (s.transport f).par = s.par := rfl
@[simp] theorem State.transport_script (f : Frame) (s : State) : (s.transport f).script = s.script := rfl
@[simp] theorem State.transport_readData (f : Frame) (s : State) : (s.transport f).readData = s.readData := rfl
@[simp] theorem State.transport_raced (f : Frame) (s : State) : (s.transport f).raced = s.raced := rfl
@[simp] theorem State.transport_replaced (f : Frame) (s : State) : (s.transport f).replaced = s.replaced := rfl
@[simp] theorem State.transport_draws (f : Frame) (s : State) : (s.transport f).draws = s.draws + 1 := rfl

/-! `State.withScript` -/

@[simp] theorem State.withScript_addr (r : List Turn) (s : State) : (s.withScript r).addr = s.addr := rfl
@[simp] theorem State.withScript_len (r : List Turn) (s : State) : (s.withScript r).len = s.len := rfl
@[simp] theorem State.withScript_buf (r : List Turn) (s : State) : (s.withScript r).buf = s.buf := rfl
@[simp] theorem State.withScript_busy (r : List Turn) (s : State) : (s.withScript r).busy = s.busy := rfl
@[simp] theorem State.withScript_done (r : List Turn) (s : State) : (s.withScript r).done = s.done := rfl
@[simp] theorem State.withScript_err (r : List Turn) (s : State) : (s.withScript r).err = s.err := rfl
@[simp] theorem State.withScript_statusCur (r : List Turn) (s : State) : (s.withScript r).statusCur = s.statusCur := rfl
@[simp] theorem State.withScript_progress (r : List Turn) (s : State) : (s.withScript r).progress = s.progress := rfl
@[simp] theorem State.withScript_probeState (r : List Turn) (s : State) : (s.withScript r).probeState = s.probeState := rfl
@[simp] theorem State.withScript_desc (r : List Turn) (s : State) : (s.withScript r).desc = s.desc := rfl
@[simp] theorem State.withScript_params (r : List Turn) (s : State) : (s.withScript r).params = s.params := rfl
@[simp] theorem State.withScript_rawId (r : List Turn) (s : State) : (s.withScript r).rawId = s.rawId := rfl
@[simp] theorem State.withScript_rawExt (r : List Turn) (s : State) : (s.withScript r).rawExt = s.rawExt := rfl
@[simp] theorem State.withScript_op (r : List Turn) (s : State) : (s.withScript r).op = s.op := rfl
@[simp] theorem State.withScript_opAddr (r : List Turn) (s : State) : (s.withScript r).opAddr = s.opAddr := rfl
@[simp] theorem State.withScript_opLen (r : List Turn) (s : State) : (s.withScript r).opLen = s.opLen := rfl
@[simp] theorem State.withScript_opBuf (r : List Turn) (s : State) : (s.withScript r).opBuf = s.opBuf := rfl
@[simp] theorem State.withScript_cur (r : List Turn) (s : State) : (s.withScript r).cur = s.cur := rfl
@[simp] theorem State.withScript_rem (r : List Turn) (s : State) : (s.withScript r).rem = s.rem := rfl
@[simp] theorem State.withScript_hoff (r : List Turn) (s : State) : (s.withScript r).hoff = s.hoff := rfl
@[simp] theorem State.withScript_sr (r : List Turn) (s : State) : (s.withScript r).sr = s.sr := rfl
@[simp] theorem State.withScript_mask (r : List Turn) (s : State) : (s.withScript r).mask = s.mask := rfl
@[simp] theorem State.withScript_first (r : List Turn) (s : State) : (s.withScript r).first = s.first := rfl
@[simp] theorem State.withScript_n (r : List Turn) (s : State) : (s.withScript r).n = s.n := rfl
@[simp] theorem State.withScript_pdesc (r : List Turn) (s : State) : (s.withScript r).pdesc = s.pdesc := rfl
@[simp] theorem State.withScript_pparams (r : List Turn) (s : State) : (s.withScript r).pparams = s.pparams := rfl
@[simp] theorem State.withScript_xfer (r : List Turn) (s : State) : (s.withScript r).xfer = s.xfer := rfl
@[simp] theorem State.withScript_phase (r : List Turn) (s : State) : (s.withScript r).phase = s.phase := rfl
@[simp] theorem State.withScript_mem (r : List Turn) (s : State) : (s.withScript r).mem = s.mem := rfl
@[simp] theorem State.withScript_flash (r : List Turn) (s : State) : (s.withScript r).flash = s.flash := rfl
@[simp] theorem State.withScript_history (r : List Turn) (s : State) : (s.withScript r).history = s.history := rfl
@[simp] theorem State.withScript_answers (r : List Turn) (s : State) : (s.withScript r).answers = s.answers := rfl
@[simp] theorem State.withScript_registry (r : List Turn) (s : State) : (s.withScript r).registry = s.registry := rfl
@[simp] theorem State.withScript_par (r : List Turn) (s : State) : (s.withScript r).par = s.par := rfl
@[simp] theorem State.withScript_script (r : List Turn) (s : State) : (s.withScript r).script = r := rfl
@[simp] theorem State.withScript_readData (r : List Turn) (s : State) : (s.withScript r).readData = s.readData := rfl
@[simp] theorem State.withScript_raced (r : List Turn) (s : State) : (s.withScript r).raced = s.raced := rfl
@[simp] theorem State.withScript_replaced (r : List Turn) (s : State) : (s.withScript r).replaced = s.replaced := rfl
@[simp] theorem State.withScript_draws (r : List Turn) (s : State) : (s.withScript r).draws = s.draws := rfl

/-! `State.withFlash` -/

@[simp] theorem State.withFlash_addr (v : FlashView) (s : State) : (s.withFlash v).addr = s.addr := rfl
@[simp] theorem State.withFlash_len (v : FlashView) (s : State) : (s.withFlash v).len = s.len := rfl
@[simp] theorem State.withFlash_buf (v : FlashView) (s : State) : (s.withFlash v).buf = s.buf := rfl
@[simp] theorem State.withFlash_busy (v : FlashView) (s : State) : (s.withFlash v).busy = s.busy := rfl
@[simp] theorem State.withFlash_done (v : FlashView) (s : State) : (s.withFlash v).done = s.done := rfl
@[simp] theorem State.withFlash_err (v : FlashView) (s : State) : (s.withFlash v).err = s.err := rfl
@[simp] theorem State.withFlash_statusCur (v : FlashView) (s : State) : (s.withFlash v).statusCur = s.statusCur := rfl
@[simp] theorem State.withFlash_progress (v : FlashView) (s : State) : (s.withFlash v).progress = s.progress := rfl
@[simp] theorem State.withFlash_probeState (v : FlashView) (s : State) : (s.withFlash v).probeState = s.probeState := rfl
@[simp] theorem State.withFlash_desc (v : FlashView) (s : State) : (s.withFlash v).desc = s.desc := rfl
@[simp] theorem State.withFlash_params (v : FlashView) (s : State) : (s.withFlash v).params = s.params := rfl
@[simp] theorem State.withFlash_rawId (v : FlashView) (s : State) : (s.withFlash v).rawId = s.rawId := rfl
@[simp] theorem State.withFlash_rawExt (v : FlashView) (s : State) : (s.withFlash v).rawExt = s.rawExt := rfl
@[simp] theorem State.withFlash_op (v : FlashView) (s : State) : (s.withFlash v).op = s.op := rfl
@[simp] theorem State.withFlash_opAddr (v : FlashView) (s : State) : (s.withFlash v).opAddr = s.opAddr := rfl
@[simp] theorem State.withFlash_opLen (v : FlashView) (s : State) : (s.withFlash v).opLen = s.opLen := rfl
@[simp] theorem State.withFlash_opBuf (v : FlashView) (s : State) : (s.withFlash v).opBuf = s.opBuf := rfl
@[simp] theorem State.withFlash_cur (v : FlashView) (s : State) : (s.withFlash v).cur = s.cur := rfl
@[simp] theorem State.withFlash_rem (v : FlashView) (s : State) : (s.withFlash v).rem = s.rem := rfl
@[simp] theorem State.withFlash_hoff (v : FlashView) (s : State) : (s.withFlash v).hoff = s.hoff := rfl
@[simp] theorem State.withFlash_sr (v : FlashView) (s : State) : (s.withFlash v).sr = s.sr := rfl
@[simp] theorem State.withFlash_mask (v : FlashView) (s : State) : (s.withFlash v).mask = s.mask := rfl
@[simp] theorem State.withFlash_first (v : FlashView) (s : State) : (s.withFlash v).first = s.first := rfl
@[simp] theorem State.withFlash_n (v : FlashView) (s : State) : (s.withFlash v).n = s.n := rfl
@[simp] theorem State.withFlash_pdesc (v : FlashView) (s : State) : (s.withFlash v).pdesc = s.pdesc := rfl
@[simp] theorem State.withFlash_pparams (v : FlashView) (s : State) : (s.withFlash v).pparams = s.pparams := rfl
@[simp] theorem State.withFlash_xfer (v : FlashView) (s : State) : (s.withFlash v).xfer = s.xfer := rfl
@[simp] theorem State.withFlash_phase (v : FlashView) (s : State) : (s.withFlash v).phase = s.phase := rfl
@[simp] theorem State.withFlash_mem (v : FlashView) (s : State) : (s.withFlash v).mem = s.mem := rfl
@[simp] theorem State.withFlash_flash (v : FlashView) (s : State) : (s.withFlash v).flash = v := rfl
@[simp] theorem State.withFlash_history (v : FlashView) (s : State) : (s.withFlash v).history = s.history := rfl
@[simp] theorem State.withFlash_answers (v : FlashView) (s : State) : (s.withFlash v).answers = s.answers := rfl
@[simp] theorem State.withFlash_registry (v : FlashView) (s : State) : (s.withFlash v).registry = s.registry := rfl
@[simp] theorem State.withFlash_par (v : FlashView) (s : State) : (s.withFlash v).par = s.par := rfl
@[simp] theorem State.withFlash_script (v : FlashView) (s : State) : (s.withFlash v).script = s.script := rfl
@[simp] theorem State.withFlash_readData (v : FlashView) (s : State) : (s.withFlash v).readData = s.readData := rfl
@[simp] theorem State.withFlash_raced (v : FlashView) (s : State) : (s.withFlash v).raced = s.raced := rfl
@[simp] theorem State.withFlash_replaced (v : FlashView) (s : State) : (s.withFlash v).replaced = s.replaced := rfl
@[simp] theorem State.withFlash_draws (v : FlashView) (s : State) : (s.withFlash v).draws = s.draws := rfl

/-! `State.withBuffer` -/

@[simp] theorem State.withBuffer_addr (bs : List Byte) (s : State) : (s.withBuffer bs).addr = s.addr := rfl
@[simp] theorem State.withBuffer_len (bs : List Byte) (s : State) : (s.withBuffer bs).len = s.len := rfl
@[simp] theorem State.withBuffer_buf (bs : List Byte) (s : State) : (s.withBuffer bs).buf = s.buf := rfl
@[simp] theorem State.withBuffer_busy (bs : List Byte) (s : State) : (s.withBuffer bs).busy = s.busy := rfl
@[simp] theorem State.withBuffer_done (bs : List Byte) (s : State) : (s.withBuffer bs).done = s.done := rfl
@[simp] theorem State.withBuffer_err (bs : List Byte) (s : State) : (s.withBuffer bs).err = s.err := rfl
@[simp] theorem State.withBuffer_statusCur (bs : List Byte) (s : State) : (s.withBuffer bs).statusCur = s.statusCur := rfl
@[simp] theorem State.withBuffer_progress (bs : List Byte) (s : State) : (s.withBuffer bs).progress = s.progress := rfl
@[simp] theorem State.withBuffer_probeState (bs : List Byte) (s : State) : (s.withBuffer bs).probeState = s.probeState := rfl
@[simp] theorem State.withBuffer_desc (bs : List Byte) (s : State) : (s.withBuffer bs).desc = s.desc := rfl
@[simp] theorem State.withBuffer_params (bs : List Byte) (s : State) : (s.withBuffer bs).params = s.params := rfl
@[simp] theorem State.withBuffer_rawId (bs : List Byte) (s : State) : (s.withBuffer bs).rawId = s.rawId := rfl
@[simp] theorem State.withBuffer_rawExt (bs : List Byte) (s : State) : (s.withBuffer bs).rawExt = s.rawExt := rfl
@[simp] theorem State.withBuffer_op (bs : List Byte) (s : State) : (s.withBuffer bs).op = s.op := rfl
@[simp] theorem State.withBuffer_opAddr (bs : List Byte) (s : State) : (s.withBuffer bs).opAddr = s.opAddr := rfl
@[simp] theorem State.withBuffer_opLen (bs : List Byte) (s : State) : (s.withBuffer bs).opLen = s.opLen := rfl
@[simp] theorem State.withBuffer_opBuf (bs : List Byte) (s : State) : (s.withBuffer bs).opBuf = s.opBuf := rfl
@[simp] theorem State.withBuffer_cur (bs : List Byte) (s : State) : (s.withBuffer bs).cur = s.cur := rfl
@[simp] theorem State.withBuffer_rem (bs : List Byte) (s : State) : (s.withBuffer bs).rem = s.rem := rfl
@[simp] theorem State.withBuffer_hoff (bs : List Byte) (s : State) : (s.withBuffer bs).hoff = s.hoff := rfl
@[simp] theorem State.withBuffer_sr (bs : List Byte) (s : State) : (s.withBuffer bs).sr = s.sr := rfl
@[simp] theorem State.withBuffer_mask (bs : List Byte) (s : State) : (s.withBuffer bs).mask = s.mask := rfl
@[simp] theorem State.withBuffer_first (bs : List Byte) (s : State) : (s.withBuffer bs).first = s.first := rfl
@[simp] theorem State.withBuffer_n (bs : List Byte) (s : State) : (s.withBuffer bs).n = s.n := rfl
@[simp] theorem State.withBuffer_pdesc (bs : List Byte) (s : State) : (s.withBuffer bs).pdesc = s.pdesc := rfl
@[simp] theorem State.withBuffer_pparams (bs : List Byte) (s : State) : (s.withBuffer bs).pparams = s.pparams := rfl
@[simp] theorem State.withBuffer_xfer (bs : List Byte) (s : State) : (s.withBuffer bs).xfer = bs := rfl
@[simp] theorem State.withBuffer_phase (bs : List Byte) (s : State) : (s.withBuffer bs).phase = s.phase := rfl
@[simp] theorem State.withBuffer_mem (bs : List Byte) (s : State) : (s.withBuffer bs).mem = s.mem := rfl
@[simp] theorem State.withBuffer_flash (bs : List Byte) (s : State) : (s.withBuffer bs).flash = s.flash := rfl
@[simp] theorem State.withBuffer_history (bs : List Byte) (s : State) : (s.withBuffer bs).history = s.history := rfl
@[simp] theorem State.withBuffer_answers (bs : List Byte) (s : State) : (s.withBuffer bs).answers = s.answers := rfl
@[simp] theorem State.withBuffer_registry (bs : List Byte) (s : State) : (s.withBuffer bs).registry = s.registry := rfl
@[simp] theorem State.withBuffer_par (bs : List Byte) (s : State) : (s.withBuffer bs).par = s.par := rfl
@[simp] theorem State.withBuffer_script (bs : List Byte) (s : State) : (s.withBuffer bs).script = s.script := rfl
@[simp] theorem State.withBuffer_readData (bs : List Byte) (s : State) : (s.withBuffer bs).readData = s.readData := rfl
@[simp] theorem State.withBuffer_raced (bs : List Byte) (s : State) : (s.withBuffer bs).raced = s.raced := rfl
@[simp] theorem State.withBuffer_replaced (bs : List Byte) (s : State) : (s.withBuffer bs).replaced = s.replaced := rfl
@[simp] theorem State.withBuffer_draws (bs : List Byte) (s : State) : (s.withBuffer bs).draws = s.draws := rfl

/-! `State.withChunk` -/

@[simp] theorem State.withChunk_addr (k : Nat) (s : State) : (s.withChunk k).addr = s.addr := rfl
@[simp] theorem State.withChunk_len (k : Nat) (s : State) : (s.withChunk k).len = s.len := rfl
@[simp] theorem State.withChunk_buf (k : Nat) (s : State) : (s.withChunk k).buf = s.buf := rfl
@[simp] theorem State.withChunk_busy (k : Nat) (s : State) : (s.withChunk k).busy = s.busy := rfl
@[simp] theorem State.withChunk_done (k : Nat) (s : State) : (s.withChunk k).done = s.done := rfl
@[simp] theorem State.withChunk_err (k : Nat) (s : State) : (s.withChunk k).err = s.err := rfl
@[simp] theorem State.withChunk_statusCur (k : Nat) (s : State) : (s.withChunk k).statusCur = s.statusCur := rfl
@[simp] theorem State.withChunk_progress (k : Nat) (s : State) : (s.withChunk k).progress = s.progress := rfl
@[simp] theorem State.withChunk_probeState (k : Nat) (s : State) : (s.withChunk k).probeState = s.probeState := rfl
@[simp] theorem State.withChunk_desc (k : Nat) (s : State) : (s.withChunk k).desc = s.desc := rfl
@[simp] theorem State.withChunk_params (k : Nat) (s : State) : (s.withChunk k).params = s.params := rfl
@[simp] theorem State.withChunk_rawId (k : Nat) (s : State) : (s.withChunk k).rawId = s.rawId := rfl
@[simp] theorem State.withChunk_rawExt (k : Nat) (s : State) : (s.withChunk k).rawExt = s.rawExt := rfl
@[simp] theorem State.withChunk_op (k : Nat) (s : State) : (s.withChunk k).op = s.op := rfl
@[simp] theorem State.withChunk_opAddr (k : Nat) (s : State) : (s.withChunk k).opAddr = s.opAddr := rfl
@[simp] theorem State.withChunk_opLen (k : Nat) (s : State) : (s.withChunk k).opLen = s.opLen := rfl
@[simp] theorem State.withChunk_opBuf (k : Nat) (s : State) : (s.withChunk k).opBuf = s.opBuf := rfl
@[simp] theorem State.withChunk_cur (k : Nat) (s : State) : (s.withChunk k).cur = s.cur := rfl
@[simp] theorem State.withChunk_rem (k : Nat) (s : State) : (s.withChunk k).rem = s.rem := rfl
@[simp] theorem State.withChunk_hoff (k : Nat) (s : State) : (s.withChunk k).hoff = s.hoff := rfl
@[simp] theorem State.withChunk_sr (k : Nat) (s : State) : (s.withChunk k).sr = s.sr := rfl
@[simp] theorem State.withChunk_mask (k : Nat) (s : State) : (s.withChunk k).mask = s.mask := rfl
@[simp] theorem State.withChunk_first (k : Nat) (s : State) : (s.withChunk k).first = s.first := rfl
@[simp] theorem State.withChunk_n (k : Nat) (s : State) : (s.withChunk k).n = k := rfl
@[simp] theorem State.withChunk_pdesc (k : Nat) (s : State) : (s.withChunk k).pdesc = s.pdesc := rfl
@[simp] theorem State.withChunk_pparams (k : Nat) (s : State) : (s.withChunk k).pparams = s.pparams := rfl
@[simp] theorem State.withChunk_xfer (k : Nat) (s : State) : (s.withChunk k).xfer = s.xfer := rfl
@[simp] theorem State.withChunk_phase (k : Nat) (s : State) : (s.withChunk k).phase = s.phase := rfl
@[simp] theorem State.withChunk_mem (k : Nat) (s : State) : (s.withChunk k).mem = s.mem := rfl
@[simp] theorem State.withChunk_flash (k : Nat) (s : State) : (s.withChunk k).flash = s.flash := rfl
@[simp] theorem State.withChunk_history (k : Nat) (s : State) : (s.withChunk k).history = s.history := rfl
@[simp] theorem State.withChunk_answers (k : Nat) (s : State) : (s.withChunk k).answers = s.answers := rfl
@[simp] theorem State.withChunk_registry (k : Nat) (s : State) : (s.withChunk k).registry = s.registry := rfl
@[simp] theorem State.withChunk_par (k : Nat) (s : State) : (s.withChunk k).par = s.par := rfl
@[simp] theorem State.withChunk_script (k : Nat) (s : State) : (s.withChunk k).script = s.script := rfl
@[simp] theorem State.withChunk_readData (k : Nat) (s : State) : (s.withChunk k).readData = s.readData := rfl
@[simp] theorem State.withChunk_raced (k : Nat) (s : State) : (s.withChunk k).raced = s.raced := rfl
@[simp] theorem State.withChunk_replaced (k : Nat) (s : State) : (s.withChunk k).replaced = s.replaced := rfl
@[simp] theorem State.withChunk_draws (k : Nat) (s : State) : (s.withChunk k).draws = s.draws := rfl

/-! `State.withFirst` -/

@[simp] theorem State.withFirst_addr (b : Bool) (s : State) : (s.withFirst b).addr = s.addr := rfl
@[simp] theorem State.withFirst_len (b : Bool) (s : State) : (s.withFirst b).len = s.len := rfl
@[simp] theorem State.withFirst_buf (b : Bool) (s : State) : (s.withFirst b).buf = s.buf := rfl
@[simp] theorem State.withFirst_busy (b : Bool) (s : State) : (s.withFirst b).busy = s.busy := rfl
@[simp] theorem State.withFirst_done (b : Bool) (s : State) : (s.withFirst b).done = s.done := rfl
@[simp] theorem State.withFirst_err (b : Bool) (s : State) : (s.withFirst b).err = s.err := rfl
@[simp] theorem State.withFirst_statusCur (b : Bool) (s : State) : (s.withFirst b).statusCur = s.statusCur := rfl
@[simp] theorem State.withFirst_progress (b : Bool) (s : State) : (s.withFirst b).progress = s.progress := rfl
@[simp] theorem State.withFirst_probeState (b : Bool) (s : State) : (s.withFirst b).probeState = s.probeState := rfl
@[simp] theorem State.withFirst_desc (b : Bool) (s : State) : (s.withFirst b).desc = s.desc := rfl
@[simp] theorem State.withFirst_params (b : Bool) (s : State) : (s.withFirst b).params = s.params := rfl
@[simp] theorem State.withFirst_rawId (b : Bool) (s : State) : (s.withFirst b).rawId = s.rawId := rfl
@[simp] theorem State.withFirst_rawExt (b : Bool) (s : State) : (s.withFirst b).rawExt = s.rawExt := rfl
@[simp] theorem State.withFirst_op (b : Bool) (s : State) : (s.withFirst b).op = s.op := rfl
@[simp] theorem State.withFirst_opAddr (b : Bool) (s : State) : (s.withFirst b).opAddr = s.opAddr := rfl
@[simp] theorem State.withFirst_opLen (b : Bool) (s : State) : (s.withFirst b).opLen = s.opLen := rfl
@[simp] theorem State.withFirst_opBuf (b : Bool) (s : State) : (s.withFirst b).opBuf = s.opBuf := rfl
@[simp] theorem State.withFirst_cur (b : Bool) (s : State) : (s.withFirst b).cur = s.cur := rfl
@[simp] theorem State.withFirst_rem (b : Bool) (s : State) : (s.withFirst b).rem = s.rem := rfl
@[simp] theorem State.withFirst_hoff (b : Bool) (s : State) : (s.withFirst b).hoff = s.hoff := rfl
@[simp] theorem State.withFirst_sr (b : Bool) (s : State) : (s.withFirst b).sr = s.sr := rfl
@[simp] theorem State.withFirst_mask (b : Bool) (s : State) : (s.withFirst b).mask = s.mask := rfl
@[simp] theorem State.withFirst_first (b : Bool) (s : State) : (s.withFirst b).first = b := rfl
@[simp] theorem State.withFirst_n (b : Bool) (s : State) : (s.withFirst b).n = s.n := rfl
@[simp] theorem State.withFirst_pdesc (b : Bool) (s : State) : (s.withFirst b).pdesc = s.pdesc := rfl
@[simp] theorem State.withFirst_pparams (b : Bool) (s : State) : (s.withFirst b).pparams = s.pparams := rfl
@[simp] theorem State.withFirst_xfer (b : Bool) (s : State) : (s.withFirst b).xfer = s.xfer := rfl
@[simp] theorem State.withFirst_phase (b : Bool) (s : State) : (s.withFirst b).phase = s.phase := rfl
@[simp] theorem State.withFirst_mem (b : Bool) (s : State) : (s.withFirst b).mem = s.mem := rfl
@[simp] theorem State.withFirst_flash (b : Bool) (s : State) : (s.withFirst b).flash = s.flash := rfl
@[simp] theorem State.withFirst_history (b : Bool) (s : State) : (s.withFirst b).history = s.history := rfl
@[simp] theorem State.withFirst_answers (b : Bool) (s : State) : (s.withFirst b).answers = s.answers := rfl
@[simp] theorem State.withFirst_registry (b : Bool) (s : State) : (s.withFirst b).registry = s.registry := rfl
@[simp] theorem State.withFirst_par (b : Bool) (s : State) : (s.withFirst b).par = s.par := rfl
@[simp] theorem State.withFirst_script (b : Bool) (s : State) : (s.withFirst b).script = s.script := rfl
@[simp] theorem State.withFirst_readData (b : Bool) (s : State) : (s.withFirst b).readData = s.readData := rfl
@[simp] theorem State.withFirst_raced (b : Bool) (s : State) : (s.withFirst b).raced = s.raced := rfl
@[simp] theorem State.withFirst_replaced (b : Bool) (s : State) : (s.withFirst b).replaced = s.replaced := rfl
@[simp] theorem State.withFirst_draws (b : Bool) (s : State) : (s.withFirst b).draws = s.draws := rfl

/-! `State.withMask` -/

@[simp] theorem State.withMask_addr (m : Byte) (s : State) : (s.withMask m).addr = s.addr := rfl
@[simp] theorem State.withMask_len (m : Byte) (s : State) : (s.withMask m).len = s.len := rfl
@[simp] theorem State.withMask_buf (m : Byte) (s : State) : (s.withMask m).buf = s.buf := rfl
@[simp] theorem State.withMask_busy (m : Byte) (s : State) : (s.withMask m).busy = s.busy := rfl
@[simp] theorem State.withMask_done (m : Byte) (s : State) : (s.withMask m).done = s.done := rfl
@[simp] theorem State.withMask_err (m : Byte) (s : State) : (s.withMask m).err = s.err := rfl
@[simp] theorem State.withMask_statusCur (m : Byte) (s : State) : (s.withMask m).statusCur = s.statusCur := rfl
@[simp] theorem State.withMask_progress (m : Byte) (s : State) : (s.withMask m).progress = s.progress := rfl
@[simp] theorem State.withMask_probeState (m : Byte) (s : State) : (s.withMask m).probeState = s.probeState := rfl
@[simp] theorem State.withMask_desc (m : Byte) (s : State) : (s.withMask m).desc = s.desc := rfl
@[simp] theorem State.withMask_params (m : Byte) (s : State) : (s.withMask m).params = s.params := rfl
@[simp] theorem State.withMask_rawId (m : Byte) (s : State) : (s.withMask m).rawId = s.rawId := rfl
@[simp] theorem State.withMask_rawExt (m : Byte) (s : State) : (s.withMask m).rawExt = s.rawExt := rfl
@[simp] theorem State.withMask_op (m : Byte) (s : State) : (s.withMask m).op = s.op := rfl
@[simp] theorem State.withMask_opAddr (m : Byte) (s : State) : (s.withMask m).opAddr = s.opAddr := rfl
@[simp] theorem State.withMask_opLen (m : Byte) (s : State) : (s.withMask m).opLen = s.opLen := rfl
@[simp] theorem State.withMask_opBuf (m : Byte) (s : State) : (s.withMask m).opBuf = s.opBuf := rfl
@[simp] theorem State.withMask_cur (m : Byte) (s : State) : (s.withMask m).cur = s.cur := rfl
@[simp] theorem State.withMask_rem (m : Byte) (s : State) : (s.withMask m).rem = s.rem := rfl
@[simp] theorem State.withMask_hoff (m : Byte) (s : State) : (s.withMask m).hoff = s.hoff := rfl
@[simp] theorem State.withMask_sr (m : Byte) (s : State) : (s.withMask m).sr = s.sr := rfl
@[simp] theorem State.withMask_mask (m : Byte) (s : State) : (s.withMask m).mask = m := rfl
@[simp] theorem State.withMask_first (m : Byte) (s : State) : (s.withMask m).first = s.first := rfl
@[simp] theorem State.withMask_n (m : Byte) (s : State) : (s.withMask m).n = s.n := rfl
@[simp] theorem State.withMask_pdesc (m : Byte) (s : State) : (s.withMask m).pdesc = s.pdesc := rfl
@[simp] theorem State.withMask_pparams (m : Byte) (s : State) : (s.withMask m).pparams = s.pparams := rfl
@[simp] theorem State.withMask_xfer (m : Byte) (s : State) : (s.withMask m).xfer = s.xfer := rfl
@[simp] theorem State.withMask_phase (m : Byte) (s : State) : (s.withMask m).phase = s.phase := rfl
@[simp] theorem State.withMask_mem (m : Byte) (s : State) : (s.withMask m).mem = s.mem := rfl
@[simp] theorem State.withMask_flash (m : Byte) (s : State) : (s.withMask m).flash = s.flash := rfl
@[simp] theorem State.withMask_history (m : Byte) (s : State) : (s.withMask m).history = s.history := rfl
@[simp] theorem State.withMask_answers (m : Byte) (s : State) : (s.withMask m).answers = s.answers := rfl
@[simp] theorem State.withMask_registry (m : Byte) (s : State) : (s.withMask m).registry = s.registry := rfl
@[simp] theorem State.withMask_par (m : Byte) (s : State) : (s.withMask m).par = s.par := rfl
@[simp] theorem State.withMask_script (m : Byte) (s : State) : (s.withMask m).script = s.script := rfl
@[simp] theorem State.withMask_readData (m : Byte) (s : State) : (s.withMask m).readData = s.readData := rfl
@[simp] theorem State.withMask_raced (m : Byte) (s : State) : (s.withMask m).raced = s.raced := rfl
@[simp] theorem State.withMask_replaced (m : Byte) (s : State) : (s.withMask m).replaced = s.replaced := rfl
@[simp] theorem State.withMask_draws (m : Byte) (s : State) : (s.withMask m).draws = s.draws := rfl

/-! `State.identified` -/

@[simp] theorem State.identified_addr (d : Option Descriptor) (r : Derived) (s : State) : (s.identified d r).addr = s.addr := rfl
@[simp] theorem State.identified_len (d : Option Descriptor) (r : Derived) (s : State) : (s.identified d r).len = s.len := rfl
@[simp] theorem State.identified_buf (d : Option Descriptor) (r : Derived) (s : State) : (s.identified d r).buf = s.buf := rfl
@[simp] theorem State.identified_busy (d : Option Descriptor) (r : Derived) (s : State) : (s.identified d r).busy = s.busy := rfl
@[simp] theorem State.identified_done (d : Option Descriptor) (r : Derived) (s : State) : (s.identified d r).done = s.done := rfl
@[simp] theorem State.identified_err (d : Option Descriptor) (r : Derived) (s : State) : (s.identified d r).err = s.err := rfl
@[simp] theorem State.identified_statusCur (d : Option Descriptor) (r : Derived) (s : State) : (s.identified d r).statusCur = s.statusCur := rfl
@[simp] theorem State.identified_progress (d : Option Descriptor) (r : Derived) (s : State) : (s.identified d r).progress = s.progress := rfl
@[simp] theorem State.identified_probeState (d : Option Descriptor) (r : Derived) (s : State) : (s.identified d r).probeState = s.probeState := rfl
@[simp] theorem State.identified_desc (d : Option Descriptor) (r : Derived) (s : State) : (s.identified d r).desc = s.desc := rfl
@[simp] theorem State.identified_params (d : Option Descriptor) (r : Derived) (s : State) : (s.identified d r).params = s.params := rfl
@[simp] theorem State.identified_rawId (d : Option Descriptor) (r : Derived) (s : State) : (s.identified d r).rawId = s.rawId := rfl
@[simp] theorem State.identified_rawExt (d : Option Descriptor) (r : Derived) (s : State) : (s.identified d r).rawExt = s.rawExt := rfl
@[simp] theorem State.identified_op (d : Option Descriptor) (r : Derived) (s : State) : (s.identified d r).op = s.op := rfl
@[simp] theorem State.identified_opAddr (d : Option Descriptor) (r : Derived) (s : State) : (s.identified d r).opAddr = s.opAddr := rfl
@[simp] theorem State.identified_opLen (d : Option Descriptor) (r : Derived) (s : State) : (s.identified d r).opLen = s.opLen := rfl
@[simp] theorem State.identified_opBuf (d : Option Descriptor) (r : Derived) (s : State) : (s.identified d r).opBuf = s.opBuf := rfl
@[simp] theorem State.identified_cur (d : Option Descriptor) (r : Derived) (s : State) : (s.identified d r).cur = s.cur := rfl
@[simp] theorem State.identified_rem (d : Option Descriptor) (r : Derived) (s : State) : (s.identified d r).rem = s.rem := rfl
@[simp] theorem State.identified_hoff (d : Option Descriptor) (r : Derived) (s : State) : (s.identified d r).hoff = s.hoff := rfl
@[simp] theorem State.identified_sr (d : Option Descriptor) (r : Derived) (s : State) : (s.identified d r).sr = s.sr := rfl
@[simp] theorem State.identified_mask (d : Option Descriptor) (r : Derived) (s : State) : (s.identified d r).mask = s.mask := rfl
@[simp] theorem State.identified_first (d : Option Descriptor) (r : Derived) (s : State) : (s.identified d r).first = s.first := rfl
@[simp] theorem State.identified_n (d : Option Descriptor) (r : Derived) (s : State) : (s.identified d r).n = s.n := rfl
@[simp] theorem State.identified_pdesc (d : Option Descriptor) (r : Derived) (s : State) : (s.identified d r).pdesc = d := rfl
@[simp] theorem State.identified_pparams (d : Option Descriptor) (r : Derived) (s : State) : (s.identified d r).pparams = r := rfl
@[simp] theorem State.identified_xfer (d : Option Descriptor) (r : Derived) (s : State) : (s.identified d r).xfer = s.xfer := rfl
@[simp] theorem State.identified_phase (d : Option Descriptor) (r : Derived) (s : State) : (s.identified d r).phase = s.phase := rfl
@[simp] theorem State.identified_mem (d : Option Descriptor) (r : Derived) (s : State) : (s.identified d r).mem = s.mem := rfl
@[simp] theorem State.identified_flash (d : Option Descriptor) (r : Derived) (s : State) : (s.identified d r).flash = s.flash := rfl
@[simp] theorem State.identified_history (d : Option Descriptor) (r : Derived) (s : State) : (s.identified d r).history = s.history := rfl
@[simp] theorem State.identified_answers (d : Option Descriptor) (r : Derived) (s : State) : (s.identified d r).answers = s.answers := rfl
@[simp] theorem State.identified_registry (d : Option Descriptor) (r : Derived) (s : State) : (s.identified d r).registry = s.registry := rfl
@[simp] theorem State.identified_par (d : Option Descriptor) (r : Derived) (s : State) : (s.identified d r).par = s.par := rfl
@[simp] theorem State.identified_script (d : Option Descriptor) (r : Derived) (s : State) : (s.identified d r).script = s.script := rfl
@[simp] theorem State.identified_readData (d : Option Descriptor) (r : Derived) (s : State) : (s.identified d r).readData = s.readData := rfl
@[simp] theorem State.identified_raced (d : Option Descriptor) (r : Derived) (s : State) : (s.identified d r).raced = s.raced := rfl
@[simp] theorem State.identified_replaced (d : Option Descriptor) (r : Derived) (s : State) : (s.identified d r).replaced = s.replaced := rfl
@[simp] theorem State.identified_draws (d : Option Descriptor) (r : Derived) (s : State) : (s.identified d r).draws = s.draws := rfl

/-! `State.commit` -/

@[simp] theorem State.commit_addr (s : State) : (s.commit).addr = s.addr := rfl
@[simp] theorem State.commit_len (s : State) : (s.commit).len = s.len := rfl
@[simp] theorem State.commit_buf (s : State) : (s.commit).buf = s.buf := rfl
@[simp] theorem State.commit_busy (s : State) : (s.commit).busy = s.busy := rfl
@[simp] theorem State.commit_done (s : State) : (s.commit).done = s.done := rfl
@[simp] theorem State.commit_err (s : State) : (s.commit).err = s.err := rfl
@[simp] theorem State.commit_statusCur (s : State) : (s.commit).statusCur = s.statusCur := rfl
@[simp] theorem State.commit_progress (s : State) : (s.commit).progress = s.progress := rfl
@[simp] theorem State.commit_probeState (s : State) : (s.commit).probeState = .probed := rfl
@[simp] theorem State.commit_desc (s : State) : (s.commit).desc = s.pdesc := rfl
@[simp] theorem State.commit_params (s : State) : (s.commit).params = s.pparams := rfl
@[simp] theorem State.commit_rawId (s : State) : (s.commit).rawId = s.rawId := rfl
@[simp] theorem State.commit_rawExt (s : State) : (s.commit).rawExt = s.rawExt := rfl
@[simp] theorem State.commit_op (s : State) : (s.commit).op = s.op := rfl
@[simp] theorem State.commit_opAddr (s : State) : (s.commit).opAddr = s.opAddr := rfl
@[simp] theorem State.commit_opLen (s : State) : (s.commit).opLen = s.opLen := rfl
@[simp] theorem State.commit_opBuf (s : State) : (s.commit).opBuf = s.opBuf := rfl
@[simp] theorem State.commit_cur (s : State) : (s.commit).cur = s.cur := rfl
@[simp] theorem State.commit_rem (s : State) : (s.commit).rem = s.rem := rfl
@[simp] theorem State.commit_hoff (s : State) : (s.commit).hoff = s.hoff := rfl
@[simp] theorem State.commit_sr (s : State) : (s.commit).sr = s.sr := rfl
@[simp] theorem State.commit_mask (s : State) : (s.commit).mask = s.mask := rfl
@[simp] theorem State.commit_first (s : State) : (s.commit).first = s.first := rfl
@[simp] theorem State.commit_n (s : State) : (s.commit).n = s.n := rfl
@[simp] theorem State.commit_pdesc (s : State) : (s.commit).pdesc = s.pdesc := rfl
@[simp] theorem State.commit_pparams (s : State) : (s.commit).pparams = s.pparams := rfl
@[simp] theorem State.commit_xfer (s : State) : (s.commit).xfer = s.xfer := rfl
@[simp] theorem State.commit_phase (s : State) : (s.commit).phase = s.phase := rfl
@[simp] theorem State.commit_mem (s : State) : (s.commit).mem = s.mem := rfl
@[simp] theorem State.commit_flash (s : State) : (s.commit).flash = s.flash := rfl
@[simp] theorem State.commit_history (s : State) : (s.commit).history = s.history := rfl
@[simp] theorem State.commit_answers (s : State) : (s.commit).answers = s.answers := rfl
@[simp] theorem State.commit_registry (s : State) : (s.commit).registry = s.registry := rfl
@[simp] theorem State.commit_par (s : State) : (s.commit).par = s.par := rfl
@[simp] theorem State.commit_script (s : State) : (s.commit).script = s.script := rfl
@[simp] theorem State.commit_readData (s : State) : (s.commit).readData = s.readData := rfl
@[simp] theorem State.commit_raced (s : State) : (s.commit).raced = s.raced := rfl
@[simp] theorem State.commit_replaced (s : State) : (s.commit).replaced = s.replaced := rfl
@[simp] theorem State.commit_draws (s : State) : (s.commit).draws = s.draws := rfl

/-! `State.withReadData` -/

@[simp] theorem State.withReadData_addr (bs : List Byte) (s : State) : (s.withReadData bs).addr = s.addr := rfl
@[simp] theorem State.withReadData_len (bs : List Byte) (s : State) : (s.withReadData bs).len = s.len := rfl
@[simp] theorem State.withReadData_buf (bs : List Byte) (s : State) : (s.withReadData bs).buf = s.buf := rfl
@[simp] theorem State.withReadData_busy (bs : List Byte) (s : State) : (s.withReadData bs).busy = s.busy := rfl
@[simp] theorem State.withReadData_done (bs : List Byte) (s : State) : (s.withReadData bs).done = s.done := rfl
@[simp] theorem State.withReadData_err (bs : List Byte) (s : State) : (s.withReadData bs).err = s.err := rfl
@[simp] theorem State.withReadData_statusCur (bs : List Byte) (s : State) : (s.withReadData bs).statusCur = s.statusCur := rfl
@[simp] theorem State.withReadData_progress (bs : List Byte) (s : State) : (s.withReadData bs).progress = s.progress := rfl
@[simp] theorem State.withReadData_probeState (bs : List Byte) (s : State) : (s.withReadData bs).probeState = s.probeState := rfl
@[simp] theorem State.withReadData_desc (bs : List Byte) (s : State) : (s.withReadData bs).desc = s.desc := rfl
@[simp] theorem State.withReadData_params (bs : List Byte) (s : State) : (s.withReadData bs).params = s.params := rfl
@[simp] theorem State.withReadData_rawId (bs : List Byte) (s : State) : (s.withReadData bs).rawId = s.rawId := rfl
@[simp] theorem State.withReadData_rawExt (bs : List Byte) (s : State) : (s.withReadData bs).rawExt = s.rawExt := rfl
@[simp] theorem State.withReadData_op (bs : List Byte) (s : State) : (s.withReadData bs).op = s.op := rfl
@[simp] theorem State.withReadData_opAddr (bs : List Byte) (s : State) : (s.withReadData bs).opAddr = s.opAddr := rfl
@[simp] theorem State.withReadData_opLen (bs : List Byte) (s : State) : (s.withReadData bs).opLen = s.opLen := rfl
@[simp] theorem State.withReadData_opBuf (bs : List Byte) (s : State) : (s.withReadData bs).opBuf = s.opBuf := rfl
@[simp] theorem State.withReadData_cur (bs : List Byte) (s : State) : (s.withReadData bs).cur = s.cur := rfl
@[simp] theorem State.withReadData_rem (bs : List Byte) (s : State) : (s.withReadData bs).rem = s.rem := rfl
@[simp] theorem State.withReadData_hoff (bs : List Byte) (s : State) : (s.withReadData bs).hoff = s.hoff := rfl
@[simp] theorem State.withReadData_sr (bs : List Byte) (s : State) : (s.withReadData bs).sr = s.sr := rfl
@[simp] theorem State.withReadData_mask (bs : List Byte) (s : State) : (s.withReadData bs).mask = s.mask := rfl
@[simp] theorem State.withReadData_first (bs : List Byte) (s : State) : (s.withReadData bs).first = s.first := rfl
@[simp] theorem State.withReadData_n (bs : List Byte) (s : State) : (s.withReadData bs).n = s.n := rfl
@[simp] theorem State.withReadData_pdesc (bs : List Byte) (s : State) : (s.withReadData bs).pdesc = s.pdesc := rfl
@[simp] theorem State.withReadData_pparams (bs : List Byte) (s : State) : (s.withReadData bs).pparams = s.pparams := rfl
@[simp] theorem State.withReadData_xfer (bs : List Byte) (s : State) : (s.withReadData bs).xfer = s.xfer := rfl
@[simp] theorem State.withReadData_phase (bs : List Byte) (s : State) : (s.withReadData bs).phase = s.phase := rfl
@[simp] theorem State.withReadData_mem (bs : List Byte) (s : State) : (s.withReadData bs).mem = s.mem := rfl
@[simp] theorem State.withReadData_flash (bs : List Byte) (s : State) : (s.withReadData bs).flash = s.flash := rfl
@[simp] theorem State.withReadData_history (bs : List Byte) (s : State) : (s.withReadData bs).history = s.history := rfl
@[simp] theorem State.withReadData_answers (bs : List Byte) (s : State) : (s.withReadData bs).answers = s.answers := rfl
@[simp] theorem State.withReadData_registry (bs : List Byte) (s : State) : (s.withReadData bs).registry = s.registry := rfl
@[simp] theorem State.withReadData_par (bs : List Byte) (s : State) : (s.withReadData bs).par = s.par := rfl
@[simp] theorem State.withReadData_script (bs : List Byte) (s : State) : (s.withReadData bs).script = s.script := rfl
@[simp] theorem State.withReadData_readData (bs : List Byte) (s : State) : (s.withReadData bs).readData = bs := rfl
@[simp] theorem State.withReadData_raced (bs : List Byte) (s : State) : (s.withReadData bs).raced = s.raced := rfl
@[simp] theorem State.withReadData_replaced (bs : List Byte) (s : State) : (s.withReadData bs).replaced = s.replaced := rfl
@[simp] theorem State.withReadData_draws (bs : List Byte) (s : State) : (s.withReadData bs).draws = s.draws := rfl

/-! `State.cutWrite` -/

@[simp] theorem State.cutWrite_addr (a : Word) (s : State) : (s.cutWrite a).addr = s.addr := rfl
@[simp] theorem State.cutWrite_len (a : Word) (s : State) : (s.cutWrite a).len = s.len := rfl
@[simp] theorem State.cutWrite_buf (a : Word) (s : State) : (s.cutWrite a).buf = s.buf := rfl
@[simp] theorem State.cutWrite_busy (a : Word) (s : State) : (s.cutWrite a).busy = s.busy := rfl
@[simp] theorem State.cutWrite_done (a : Word) (s : State) : (s.cutWrite a).done = s.done := rfl
@[simp] theorem State.cutWrite_err (a : Word) (s : State) : (s.cutWrite a).err = s.err := rfl
@[simp] theorem State.cutWrite_statusCur (a : Word) (s : State) : (s.cutWrite a).statusCur = s.statusCur := rfl
@[simp] theorem State.cutWrite_progress (a : Word) (s : State) : (s.cutWrite a).progress = s.progress := rfl
@[simp] theorem State.cutWrite_probeState (a : Word) (s : State) : (s.cutWrite a).probeState = s.probeState := rfl
@[simp] theorem State.cutWrite_desc (a : Word) (s : State) : (s.cutWrite a).desc = s.desc := rfl
@[simp] theorem State.cutWrite_params (a : Word) (s : State) : (s.cutWrite a).params = s.params := rfl
@[simp] theorem State.cutWrite_rawId (a : Word) (s : State) : (s.cutWrite a).rawId = s.rawId := rfl
@[simp] theorem State.cutWrite_rawExt (a : Word) (s : State) : (s.cutWrite a).rawExt = s.rawExt := rfl
@[simp] theorem State.cutWrite_op (a : Word) (s : State) : (s.cutWrite a).op = s.op := rfl
@[simp] theorem State.cutWrite_opAddr (a : Word) (s : State) : (s.cutWrite a).opAddr = s.opAddr := rfl
@[simp] theorem State.cutWrite_opLen (a : Word) (s : State) : (s.cutWrite a).opLen = s.opLen := rfl
@[simp] theorem State.cutWrite_opBuf (a : Word) (s : State) : (s.cutWrite a).opBuf = s.opBuf := rfl
@[simp] theorem State.cutWrite_cur (a : Word) (s : State) : (s.cutWrite a).cur = s.cur := rfl
@[simp] theorem State.cutWrite_rem (a : Word) (s : State) : (s.cutWrite a).rem = s.rem := rfl
@[simp] theorem State.cutWrite_hoff (a : Word) (s : State) : (s.cutWrite a).hoff = s.hoff := rfl
@[simp] theorem State.cutWrite_sr (a : Word) (s : State) : (s.cutWrite a).sr = s.sr := rfl
@[simp] theorem State.cutWrite_mask (a : Word) (s : State) : (s.cutWrite a).mask = s.mask := rfl
@[simp] theorem State.cutWrite_first (a : Word) (s : State) : (s.cutWrite a).first = s.first := rfl
@[simp] theorem State.cutWrite_n (a : Word) (s : State) : (s.cutWrite a).n = s.n := rfl
@[simp] theorem State.cutWrite_pdesc (a : Word) (s : State) : (s.cutWrite a).pdesc = s.pdesc := rfl
@[simp] theorem State.cutWrite_pparams (a : Word) (s : State) : (s.cutWrite a).pparams = s.pparams := rfl
@[simp] theorem State.cutWrite_xfer (a : Word) (s : State) : (s.cutWrite a).xfer = s.xfer := rfl
@[simp] theorem State.cutWrite_phase (a : Word) (s : State) : (s.cutWrite a).phase = s.phase := rfl
@[simp] theorem State.cutWrite_mem (a : Word) (s : State) : (s.cutWrite a).mem = s.mem.set a.toNat (Config.freeByte s.history s.draws 0) := rfl
@[simp] theorem State.cutWrite_flash (a : Word) (s : State) : (s.cutWrite a).flash = s.flash.abandoned := rfl
@[simp] theorem State.cutWrite_history (a : Word) (s : State) : (s.cutWrite a).history = s.history := rfl
@[simp] theorem State.cutWrite_answers (a : Word) (s : State) : (s.cutWrite a).answers = s.answers := rfl
@[simp] theorem State.cutWrite_registry (a : Word) (s : State) : (s.cutWrite a).registry = s.registry := rfl
@[simp] theorem State.cutWrite_par (a : Word) (s : State) : (s.cutWrite a).par = s.par := rfl
@[simp] theorem State.cutWrite_script (a : Word) (s : State) : (s.cutWrite a).script = s.script := rfl
@[simp] theorem State.cutWrite_readData (a : Word) (s : State) : (s.cutWrite a).readData = s.readData := rfl
@[simp] theorem State.cutWrite_raced (a : Word) (s : State) : (s.cutWrite a).raced = s.raced := rfl
@[simp] theorem State.cutWrite_replaced (a : Word) (s : State) : (s.cutWrite a).replaced = s.replaced := rfl
@[simp] theorem State.cutWrite_draws (a : Word) (s : State) : (s.cutWrite a).draws = s.draws + 1 := rfl

/-! `State.setByte` -/

@[simp] theorem State.setByte_addr (a : Word) (v : Byte) (s : State) : (s.setByte a v).addr = s.addr := rfl
@[simp] theorem State.setByte_len (a : Word) (v : Byte) (s : State) : (s.setByte a v).len = s.len := rfl
@[simp] theorem State.setByte_buf (a : Word) (v : Byte) (s : State) : (s.setByte a v).buf = s.buf := rfl
@[simp] theorem State.setByte_busy (a : Word) (v : Byte) (s : State) : (s.setByte a v).busy = s.busy := rfl
@[simp] theorem State.setByte_done (a : Word) (v : Byte) (s : State) : (s.setByte a v).done = s.done := rfl
@[simp] theorem State.setByte_err (a : Word) (v : Byte) (s : State) : (s.setByte a v).err = s.err := rfl
@[simp] theorem State.setByte_statusCur (a : Word) (v : Byte) (s : State) : (s.setByte a v).statusCur = s.statusCur := rfl
@[simp] theorem State.setByte_progress (a : Word) (v : Byte) (s : State) : (s.setByte a v).progress = s.progress := rfl
@[simp] theorem State.setByte_probeState (a : Word) (v : Byte) (s : State) : (s.setByte a v).probeState = s.probeState := rfl
@[simp] theorem State.setByte_desc (a : Word) (v : Byte) (s : State) : (s.setByte a v).desc = s.desc := rfl
@[simp] theorem State.setByte_params (a : Word) (v : Byte) (s : State) : (s.setByte a v).params = s.params := rfl
@[simp] theorem State.setByte_rawId (a : Word) (v : Byte) (s : State) : (s.setByte a v).rawId = s.rawId := rfl
@[simp] theorem State.setByte_rawExt (a : Word) (v : Byte) (s : State) : (s.setByte a v).rawExt = s.rawExt := rfl
@[simp] theorem State.setByte_op (a : Word) (v : Byte) (s : State) : (s.setByte a v).op = s.op := rfl
@[simp] theorem State.setByte_opAddr (a : Word) (v : Byte) (s : State) : (s.setByte a v).opAddr = s.opAddr := rfl
@[simp] theorem State.setByte_opLen (a : Word) (v : Byte) (s : State) : (s.setByte a v).opLen = s.opLen := rfl
@[simp] theorem State.setByte_opBuf (a : Word) (v : Byte) (s : State) : (s.setByte a v).opBuf = s.opBuf := rfl
@[simp] theorem State.setByte_cur (a : Word) (v : Byte) (s : State) : (s.setByte a v).cur = s.cur := rfl
@[simp] theorem State.setByte_rem (a : Word) (v : Byte) (s : State) : (s.setByte a v).rem = s.rem := rfl
@[simp] theorem State.setByte_hoff (a : Word) (v : Byte) (s : State) : (s.setByte a v).hoff = s.hoff := rfl
@[simp] theorem State.setByte_sr (a : Word) (v : Byte) (s : State) : (s.setByte a v).sr = s.sr := rfl
@[simp] theorem State.setByte_mask (a : Word) (v : Byte) (s : State) : (s.setByte a v).mask = s.mask := rfl
@[simp] theorem State.setByte_first (a : Word) (v : Byte) (s : State) : (s.setByte a v).first = s.first := rfl
@[simp] theorem State.setByte_n (a : Word) (v : Byte) (s : State) : (s.setByte a v).n = s.n := rfl
@[simp] theorem State.setByte_pdesc (a : Word) (v : Byte) (s : State) : (s.setByte a v).pdesc = s.pdesc := rfl
@[simp] theorem State.setByte_pparams (a : Word) (v : Byte) (s : State) : (s.setByte a v).pparams = s.pparams := rfl
@[simp] theorem State.setByte_xfer (a : Word) (v : Byte) (s : State) : (s.setByte a v).xfer = s.xfer := rfl
@[simp] theorem State.setByte_phase (a : Word) (v : Byte) (s : State) : (s.setByte a v).phase = s.phase := rfl
@[simp] theorem State.setByte_mem (a : Word) (v : Byte) (s : State) : (s.setByte a v).mem = s.mem.set a.toNat v := rfl
@[simp] theorem State.setByte_flash (a : Word) (v : Byte) (s : State) : (s.setByte a v).flash = s.flash := rfl
@[simp] theorem State.setByte_history (a : Word) (v : Byte) (s : State) : (s.setByte a v).history = s.history := rfl
@[simp] theorem State.setByte_answers (a : Word) (v : Byte) (s : State) : (s.setByte a v).answers = s.answers := rfl
@[simp] theorem State.setByte_registry (a : Word) (v : Byte) (s : State) : (s.setByte a v).registry = s.registry := rfl
@[simp] theorem State.setByte_par (a : Word) (v : Byte) (s : State) : (s.setByte a v).par = s.par := rfl
@[simp] theorem State.setByte_script (a : Word) (v : Byte) (s : State) : (s.setByte a v).script = s.script := rfl
@[simp] theorem State.setByte_readData (a : Word) (v : Byte) (s : State) : (s.setByte a v).readData = s.readData := rfl
@[simp] theorem State.setByte_raced (a : Word) (v : Byte) (s : State) : (s.setByte a v).raced = s.raced := rfl
@[simp] theorem State.setByte_replaced (a : Word) (v : Byte) (s : State) : (s.setByte a v).replaced = s.replaced := rfl
@[simp] theorem State.setByte_draws (a : Word) (v : Byte) (s : State) : (s.setByte a v).draws = s.draws := rfl

/-! `State.dmaRead` -/

@[simp] theorem State.dmaRead_addr (a : Word) (s : State) : (s.dmaRead a).addr = s.addr := rfl
@[simp] theorem State.dmaRead_len (a : Word) (s : State) : (s.dmaRead a).len = s.len := rfl
@[simp] theorem State.dmaRead_buf (a : Word) (s : State) : (s.dmaRead a).buf = s.buf := rfl
@[simp] theorem State.dmaRead_busy (a : Word) (s : State) : (s.dmaRead a).busy = s.busy := rfl
@[simp] theorem State.dmaRead_done (a : Word) (s : State) : (s.dmaRead a).done = s.done := rfl
@[simp] theorem State.dmaRead_err (a : Word) (s : State) : (s.dmaRead a).err = s.err := rfl
@[simp] theorem State.dmaRead_statusCur (a : Word) (s : State) : (s.dmaRead a).statusCur = s.statusCur := rfl
@[simp] theorem State.dmaRead_progress (a : Word) (s : State) : (s.dmaRead a).progress = s.progress := rfl
@[simp] theorem State.dmaRead_probeState (a : Word) (s : State) : (s.dmaRead a).probeState = s.probeState := rfl
@[simp] theorem State.dmaRead_desc (a : Word) (s : State) : (s.dmaRead a).desc = s.desc := rfl
@[simp] theorem State.dmaRead_params (a : Word) (s : State) : (s.dmaRead a).params = s.params := rfl
@[simp] theorem State.dmaRead_rawId (a : Word) (s : State) : (s.dmaRead a).rawId = s.rawId := rfl
@[simp] theorem State.dmaRead_rawExt (a : Word) (s : State) : (s.dmaRead a).rawExt = s.rawExt := rfl
@[simp] theorem State.dmaRead_op (a : Word) (s : State) : (s.dmaRead a).op = s.op := rfl
@[simp] theorem State.dmaRead_opAddr (a : Word) (s : State) : (s.dmaRead a).opAddr = s.opAddr := rfl
@[simp] theorem State.dmaRead_opLen (a : Word) (s : State) : (s.dmaRead a).opLen = s.opLen := rfl
@[simp] theorem State.dmaRead_opBuf (a : Word) (s : State) : (s.dmaRead a).opBuf = s.opBuf := rfl
@[simp] theorem State.dmaRead_cur (a : Word) (s : State) : (s.dmaRead a).cur = s.cur := rfl
@[simp] theorem State.dmaRead_rem (a : Word) (s : State) : (s.dmaRead a).rem = s.rem := rfl
@[simp] theorem State.dmaRead_hoff (a : Word) (s : State) : (s.dmaRead a).hoff = s.hoff := rfl
@[simp] theorem State.dmaRead_sr (a : Word) (s : State) : (s.dmaRead a).sr = s.sr := rfl
@[simp] theorem State.dmaRead_mask (a : Word) (s : State) : (s.dmaRead a).mask = s.mask := rfl
@[simp] theorem State.dmaRead_first (a : Word) (s : State) : (s.dmaRead a).first = s.first := rfl
@[simp] theorem State.dmaRead_n (a : Word) (s : State) : (s.dmaRead a).n = s.n := rfl
@[simp] theorem State.dmaRead_pdesc (a : Word) (s : State) : (s.dmaRead a).pdesc = s.pdesc := rfl
@[simp] theorem State.dmaRead_pparams (a : Word) (s : State) : (s.dmaRead a).pparams = s.pparams := rfl
@[simp] theorem State.dmaRead_xfer (a : Word) (s : State) : (s.dmaRead a).xfer = s.xfer ++ [s.dmaByte a] := rfl
@[simp] theorem State.dmaRead_phase (a : Word) (s : State) : (s.dmaRead a).phase = s.phase := rfl
@[simp] theorem State.dmaRead_mem (a : Word) (s : State) : (s.dmaRead a).mem = s.mem := rfl
@[simp] theorem State.dmaRead_flash (a : Word) (s : State) : (s.dmaRead a).flash = s.flash := rfl
@[simp] theorem State.dmaRead_history (a : Word) (s : State) : (s.dmaRead a).history = .mem .read a (s.dmaByte a) :: s.history := rfl
@[simp] theorem State.dmaRead_answers (a : Word) (s : State) : (s.dmaRead a).answers = s.answers := rfl
@[simp] theorem State.dmaRead_registry (a : Word) (s : State) : (s.dmaRead a).registry = s.registry := rfl
@[simp] theorem State.dmaRead_par (a : Word) (s : State) : (s.dmaRead a).par = s.par := rfl
@[simp] theorem State.dmaRead_script (a : Word) (s : State) : (s.dmaRead a).script = s.script := rfl
@[simp] theorem State.dmaRead_readData (a : Word) (s : State) : (s.dmaRead a).readData = s.readData := rfl
@[simp] theorem State.dmaRead_raced (a : Word) (s : State) : (s.dmaRead a).raced = s.raced := rfl
@[simp] theorem State.dmaRead_replaced (a : Word) (s : State) : (s.dmaRead a).replaced = s.replaced := rfl
@[simp] theorem State.dmaRead_draws (a : Word) (s : State) : (s.dmaRead a).draws = s.raceDraws a := rfl

/-! `State.dmaWrite` -/

@[simp] theorem State.dmaWrite_addr (a : Word) (v : Byte) (s : State) : (s.dmaWrite a v).addr = s.addr := rfl
@[simp] theorem State.dmaWrite_len (a : Word) (v : Byte) (s : State) : (s.dmaWrite a v).len = s.len := rfl
@[simp] theorem State.dmaWrite_buf (a : Word) (v : Byte) (s : State) : (s.dmaWrite a v).buf = s.buf := rfl
@[simp] theorem State.dmaWrite_busy (a : Word) (v : Byte) (s : State) : (s.dmaWrite a v).busy = s.busy := rfl
@[simp] theorem State.dmaWrite_done (a : Word) (v : Byte) (s : State) : (s.dmaWrite a v).done = s.done := rfl
@[simp] theorem State.dmaWrite_err (a : Word) (v : Byte) (s : State) : (s.dmaWrite a v).err = s.err := rfl
@[simp] theorem State.dmaWrite_statusCur (a : Word) (v : Byte) (s : State) : (s.dmaWrite a v).statusCur = s.statusCur := rfl
@[simp] theorem State.dmaWrite_progress (a : Word) (v : Byte) (s : State) : (s.dmaWrite a v).progress = s.progress := rfl
@[simp] theorem State.dmaWrite_probeState (a : Word) (v : Byte) (s : State) : (s.dmaWrite a v).probeState = s.probeState := rfl
@[simp] theorem State.dmaWrite_desc (a : Word) (v : Byte) (s : State) : (s.dmaWrite a v).desc = s.desc := rfl
@[simp] theorem State.dmaWrite_params (a : Word) (v : Byte) (s : State) : (s.dmaWrite a v).params = s.params := rfl
@[simp] theorem State.dmaWrite_rawId (a : Word) (v : Byte) (s : State) : (s.dmaWrite a v).rawId = s.rawId := rfl
@[simp] theorem State.dmaWrite_rawExt (a : Word) (v : Byte) (s : State) : (s.dmaWrite a v).rawExt = s.rawExt := rfl
@[simp] theorem State.dmaWrite_op (a : Word) (v : Byte) (s : State) : (s.dmaWrite a v).op = s.op := rfl
@[simp] theorem State.dmaWrite_opAddr (a : Word) (v : Byte) (s : State) : (s.dmaWrite a v).opAddr = s.opAddr := rfl
@[simp] theorem State.dmaWrite_opLen (a : Word) (v : Byte) (s : State) : (s.dmaWrite a v).opLen = s.opLen := rfl
@[simp] theorem State.dmaWrite_opBuf (a : Word) (v : Byte) (s : State) : (s.dmaWrite a v).opBuf = s.opBuf := rfl
@[simp] theorem State.dmaWrite_cur (a : Word) (v : Byte) (s : State) : (s.dmaWrite a v).cur = s.cur := rfl
@[simp] theorem State.dmaWrite_rem (a : Word) (v : Byte) (s : State) : (s.dmaWrite a v).rem = s.rem := rfl
@[simp] theorem State.dmaWrite_hoff (a : Word) (v : Byte) (s : State) : (s.dmaWrite a v).hoff = s.hoff := rfl
@[simp] theorem State.dmaWrite_sr (a : Word) (v : Byte) (s : State) : (s.dmaWrite a v).sr = s.sr := rfl
@[simp] theorem State.dmaWrite_mask (a : Word) (v : Byte) (s : State) : (s.dmaWrite a v).mask = s.mask := rfl
@[simp] theorem State.dmaWrite_first (a : Word) (v : Byte) (s : State) : (s.dmaWrite a v).first = s.first := rfl
@[simp] theorem State.dmaWrite_n (a : Word) (v : Byte) (s : State) : (s.dmaWrite a v).n = s.n := rfl
@[simp] theorem State.dmaWrite_pdesc (a : Word) (v : Byte) (s : State) : (s.dmaWrite a v).pdesc = s.pdesc := rfl
@[simp] theorem State.dmaWrite_pparams (a : Word) (v : Byte) (s : State) : (s.dmaWrite a v).pparams = s.pparams := rfl
@[simp] theorem State.dmaWrite_xfer (a : Word) (v : Byte) (s : State) : (s.dmaWrite a v).xfer = s.xfer.tail := rfl
@[simp] theorem State.dmaWrite_phase (a : Word) (v : Byte) (s : State) : (s.dmaWrite a v).phase = s.phase := rfl
@[simp] theorem State.dmaWrite_mem (a : Word) (v : Byte) (s : State) : (s.dmaWrite a v).mem = s.mem.set a.toNat (s.unlessRaced a v) := rfl
@[simp] theorem State.dmaWrite_flash (a : Word) (v : Byte) (s : State) : (s.dmaWrite a v).flash = s.flash := rfl
@[simp] theorem State.dmaWrite_history (a : Word) (v : Byte) (s : State) : (s.dmaWrite a v).history = .mem .write a v :: s.history := rfl
@[simp] theorem State.dmaWrite_answers (a : Word) (v : Byte) (s : State) : (s.dmaWrite a v).answers = s.answers := rfl
@[simp] theorem State.dmaWrite_registry (a : Word) (v : Byte) (s : State) : (s.dmaWrite a v).registry = s.registry := rfl
@[simp] theorem State.dmaWrite_par (a : Word) (v : Byte) (s : State) : (s.dmaWrite a v).par = s.par := rfl
@[simp] theorem State.dmaWrite_script (a : Word) (v : Byte) (s : State) : (s.dmaWrite a v).script = s.script := rfl
@[simp] theorem State.dmaWrite_readData (a : Word) (v : Byte) (s : State) : (s.dmaWrite a v).readData = s.readData := rfl
@[simp] theorem State.dmaWrite_raced (a : Word) (v : Byte) (s : State) : (s.dmaWrite a v).raced = s.raced := rfl
@[simp] theorem State.dmaWrite_replaced (a : Word) (v : Byte) (s : State) : (s.dmaWrite a v).replaced = (a, s.byteAt a) :: s.replaced := rfl
@[simp] theorem State.dmaWrite_draws (a : Word) (v : Byte) (s : State) : (s.dmaWrite a v).draws = s.raceDraws a := rfl

/-! `State.hostStore` -/

@[simp] theorem State.hostStore_addr (a : Word) (v : Byte) (s : State) : (s.hostStore a v).addr = s.addr := rfl
@[simp] theorem State.hostStore_len (a : Word) (v : Byte) (s : State) : (s.hostStore a v).len = s.len := rfl
@[simp] theorem State.hostStore_buf (a : Word) (v : Byte) (s : State) : (s.hostStore a v).buf = s.buf := rfl
@[simp] theorem State.hostStore_busy (a : Word) (v : Byte) (s : State) : (s.hostStore a v).busy = s.busy := rfl
@[simp] theorem State.hostStore_done (a : Word) (v : Byte) (s : State) : (s.hostStore a v).done = s.done := rfl
@[simp] theorem State.hostStore_err (a : Word) (v : Byte) (s : State) : (s.hostStore a v).err = s.err := rfl
@[simp] theorem State.hostStore_statusCur (a : Word) (v : Byte) (s : State) : (s.hostStore a v).statusCur = s.statusCur := rfl
@[simp] theorem State.hostStore_progress (a : Word) (v : Byte) (s : State) : (s.hostStore a v).progress = s.progress := rfl
@[simp] theorem State.hostStore_probeState (a : Word) (v : Byte) (s : State) : (s.hostStore a v).probeState = s.probeState := rfl
@[simp] theorem State.hostStore_desc (a : Word) (v : Byte) (s : State) : (s.hostStore a v).desc = s.desc := rfl
@[simp] theorem State.hostStore_params (a : Word) (v : Byte) (s : State) : (s.hostStore a v).params = s.params := rfl
@[simp] theorem State.hostStore_rawId (a : Word) (v : Byte) (s : State) : (s.hostStore a v).rawId = s.rawId := rfl
@[simp] theorem State.hostStore_rawExt (a : Word) (v : Byte) (s : State) : (s.hostStore a v).rawExt = s.rawExt := rfl
@[simp] theorem State.hostStore_op (a : Word) (v : Byte) (s : State) : (s.hostStore a v).op = s.op := rfl
@[simp] theorem State.hostStore_opAddr (a : Word) (v : Byte) (s : State) : (s.hostStore a v).opAddr = s.opAddr := rfl
@[simp] theorem State.hostStore_opLen (a : Word) (v : Byte) (s : State) : (s.hostStore a v).opLen = s.opLen := rfl
@[simp] theorem State.hostStore_opBuf (a : Word) (v : Byte) (s : State) : (s.hostStore a v).opBuf = s.opBuf := rfl
@[simp] theorem State.hostStore_cur (a : Word) (v : Byte) (s : State) : (s.hostStore a v).cur = s.cur := rfl
@[simp] theorem State.hostStore_rem (a : Word) (v : Byte) (s : State) : (s.hostStore a v).rem = s.rem := rfl
@[simp] theorem State.hostStore_hoff (a : Word) (v : Byte) (s : State) : (s.hostStore a v).hoff = s.hoff := rfl
@[simp] theorem State.hostStore_sr (a : Word) (v : Byte) (s : State) : (s.hostStore a v).sr = s.sr := rfl
@[simp] theorem State.hostStore_mask (a : Word) (v : Byte) (s : State) : (s.hostStore a v).mask = s.mask := rfl
@[simp] theorem State.hostStore_first (a : Word) (v : Byte) (s : State) : (s.hostStore a v).first = s.first := rfl
@[simp] theorem State.hostStore_n (a : Word) (v : Byte) (s : State) : (s.hostStore a v).n = s.n := rfl
@[simp] theorem State.hostStore_pdesc (a : Word) (v : Byte) (s : State) : (s.hostStore a v).pdesc = s.pdesc := rfl
@[simp] theorem State.hostStore_pparams (a : Word) (v : Byte) (s : State) : (s.hostStore a v).pparams = s.pparams := rfl
@[simp] theorem State.hostStore_xfer (a : Word) (v : Byte) (s : State) : (s.hostStore a v).xfer = s.bufferAfterStore a := rfl
@[simp] theorem State.hostStore_phase (a : Word) (v : Byte) (s : State) : (s.hostStore a v).phase = s.phase := rfl
@[simp] theorem State.hostStore_mem (a : Word) (v : Byte) (s : State) : (s.hostStore a v).mem = s.mem.set a.toNat (if s.inDestination a then Config.freeByte s.history s.draws 0 else v) := rfl
@[simp] theorem State.hostStore_flash (a : Word) (v : Byte) (s : State) : (s.hostStore a v).flash = s.flash := rfl
@[simp] theorem State.hostStore_history (a : Word) (v : Byte) (s : State) : (s.hostStore a v).history = s.history := rfl
@[simp] theorem State.hostStore_answers (a : Word) (v : Byte) (s : State) : (s.hostStore a v).answers = s.answers := rfl
@[simp] theorem State.hostStore_registry (a : Word) (v : Byte) (s : State) : (s.hostStore a v).registry = s.registry := rfl
@[simp] theorem State.hostStore_par (a : Word) (v : Byte) (s : State) : (s.hostStore a v).par = s.par := rfl
@[simp] theorem State.hostStore_script (a : Word) (v : Byte) (s : State) : (s.hostStore a v).script = s.script := rfl
@[simp] theorem State.hostStore_readData (a : Word) (v : Byte) (s : State) : (s.hostStore a v).readData = s.readData := rfl
@[simp] theorem State.hostStore_raced (a : Word) (v : Byte) (s : State) : (s.hostStore a v).raced = if s.inBuffer a then s.raced.insert a else s.raced := rfl
@[simp] theorem State.hostStore_replaced (a : Word) (v : Byte) (s : State) : (s.hostStore a v).replaced = s.replaced := rfl
@[simp] theorem State.hostStore_draws (a : Word) (v : Byte) (s : State) : (s.hostStore a v).draws = if s.inBuffer a then s.draws + 1 else s.draws := rfl

/-! `State.hostLoad` -/

@[simp] theorem State.hostLoad_addr (a : Word) (s : State) : (s.hostLoad a).addr = s.addr := rfl
@[simp] theorem State.hostLoad_len (a : Word) (s : State) : (s.hostLoad a).len = s.len := rfl
@[simp] theorem State.hostLoad_buf (a : Word) (s : State) : (s.hostLoad a).buf = s.buf := rfl
@[simp] theorem State.hostLoad_busy (a : Word) (s : State) : (s.hostLoad a).busy = s.busy := rfl
@[simp] theorem State.hostLoad_done (a : Word) (s : State) : (s.hostLoad a).done = s.done := rfl
@[simp] theorem State.hostLoad_err (a : Word) (s : State) : (s.hostLoad a).err = s.err := rfl
@[simp] theorem State.hostLoad_statusCur (a : Word) (s : State) : (s.hostLoad a).statusCur = s.statusCur := rfl
@[simp] theorem State.hostLoad_progress (a : Word) (s : State) : (s.hostLoad a).progress = s.progress := rfl
@[simp] theorem State.hostLoad_probeState (a : Word) (s : State) : (s.hostLoad a).probeState = s.probeState := rfl
@[simp] theorem State.hostLoad_desc (a : Word) (s : State) : (s.hostLoad a).desc = s.desc := rfl
@[simp] theorem State.hostLoad_params (a : Word) (s : State) : (s.hostLoad a).params = s.params := rfl
@[simp] theorem State.hostLoad_rawId (a : Word) (s : State) : (s.hostLoad a).rawId = s.rawId := rfl
@[simp] theorem State.hostLoad_rawExt (a : Word) (s : State) : (s.hostLoad a).rawExt = s.rawExt := rfl
@[simp] theorem State.hostLoad_op (a : Word) (s : State) : (s.hostLoad a).op = s.op := rfl
@[simp] theorem State.hostLoad_opAddr (a : Word) (s : State) : (s.hostLoad a).opAddr = s.opAddr := rfl
@[simp] theorem State.hostLoad_opLen (a : Word) (s : State) : (s.hostLoad a).opLen = s.opLen := rfl
@[simp] theorem State.hostLoad_opBuf (a : Word) (s : State) : (s.hostLoad a).opBuf = s.opBuf := rfl
@[simp] theorem State.hostLoad_cur (a : Word) (s : State) : (s.hostLoad a).cur = s.cur := rfl
@[simp] theorem State.hostLoad_rem (a : Word) (s : State) : (s.hostLoad a).rem = s.rem := rfl
@[simp] theorem State.hostLoad_hoff (a : Word) (s : State) : (s.hostLoad a).hoff = s.hoff := rfl
@[simp] theorem State.hostLoad_sr (a : Word) (s : State) : (s.hostLoad a).sr = s.sr := rfl
@[simp] theorem State.hostLoad_mask (a : Word) (s : State) : (s.hostLoad a).mask = s.mask := rfl
@[simp] theorem State.hostLoad_first (a : Word) (s : State) : (s.hostLoad a).first = s.first := rfl
@[simp] theorem State.hostLoad_n (a : Word) (s : State) : (s.hostLoad a).n = s.n := rfl
@[simp] theorem State.hostLoad_pdesc (a : Word) (s : State) : (s.hostLoad a).pdesc = s.pdesc := rfl
@[simp] theorem State.hostLoad_pparams (a : Word) (s : State) : (s.hostLoad a).pparams = s.pparams := rfl
@[simp] theorem State.hostLoad_xfer (a : Word) (s : State) : (s.hostLoad a).xfer = s.xfer := rfl
@[simp] theorem State.hostLoad_phase (a : Word) (s : State) : (s.hostLoad a).phase = s.phase := rfl
@[simp] theorem State.hostLoad_mem (a : Word) (s : State) : (s.hostLoad a).mem = s.mem := rfl
@[simp] theorem State.hostLoad_flash (a : Word) (s : State) : (s.hostLoad a).flash = s.flash := rfl
@[simp] theorem State.hostLoad_history (a : Word) (s : State) : (s.hostLoad a).history = s.history := rfl
@[simp] theorem State.hostLoad_answers (a : Word) (s : State) : (s.hostLoad a).answers = s.answers := rfl
@[simp] theorem State.hostLoad_registry (a : Word) (s : State) : (s.hostLoad a).registry = s.registry := rfl
@[simp] theorem State.hostLoad_par (a : Word) (s : State) : (s.hostLoad a).par = s.par := rfl
@[simp] theorem State.hostLoad_script (a : Word) (s : State) : (s.hostLoad a).script = s.script := rfl
@[simp] theorem State.hostLoad_readData (a : Word) (s : State) : (s.hostLoad a).readData = [s.loadByte a] := rfl
@[simp] theorem State.hostLoad_raced (a : Word) (s : State) : (s.hostLoad a).raced = s.raced := rfl
@[simp] theorem State.hostLoad_replaced (a : Word) (s : State) : (s.hostLoad a).replaced = s.replaced := rfl
@[simp] theorem State.hostLoad_draws (a : Word) (s : State) : (s.hostLoad a).draws = if s.inDestination a then s.draws + 1 else s.draws := rfl

/-! `State.cutFrame` -/

@[simp] theorem State.cutFrame_addr (f : Frame) (s : State) : (s.cutFrame f).addr = s.addr := rfl
@[simp] theorem State.cutFrame_len (f : Frame) (s : State) : (s.cutFrame f).len = s.len := rfl
@[simp] theorem State.cutFrame_buf (f : Frame) (s : State) : (s.cutFrame f).buf = s.buf := rfl
@[simp] theorem State.cutFrame_busy (f : Frame) (s : State) : (s.cutFrame f).busy = s.busy := rfl
@[simp] theorem State.cutFrame_done (f : Frame) (s : State) : (s.cutFrame f).done = s.done := rfl
@[simp] theorem State.cutFrame_err (f : Frame) (s : State) : (s.cutFrame f).err = s.err := rfl
@[simp] theorem State.cutFrame_statusCur (f : Frame) (s : State) : (s.cutFrame f).statusCur = s.statusCur := rfl
@[simp] theorem State.cutFrame_progress (f : Frame) (s : State) : (s.cutFrame f).progress = s.progress := rfl
@[simp] theorem State.cutFrame_probeState (f : Frame) (s : State) : (s.cutFrame f).probeState = s.probeState := rfl
@[simp] theorem State.cutFrame_desc (f : Frame) (s : State) : (s.cutFrame f).desc = s.desc := rfl
@[simp] theorem State.cutFrame_params (f : Frame) (s : State) : (s.cutFrame f).params = s.params := rfl
@[simp] theorem State.cutFrame_rawId (f : Frame) (s : State) : (s.cutFrame f).rawId = s.rawId := rfl
@[simp] theorem State.cutFrame_rawExt (f : Frame) (s : State) : (s.cutFrame f).rawExt = s.rawExt := rfl
@[simp] theorem State.cutFrame_op (f : Frame) (s : State) : (s.cutFrame f).op = s.op := rfl
@[simp] theorem State.cutFrame_opAddr (f : Frame) (s : State) : (s.cutFrame f).opAddr = s.opAddr := rfl
@[simp] theorem State.cutFrame_opLen (f : Frame) (s : State) : (s.cutFrame f).opLen = s.opLen := rfl
@[simp] theorem State.cutFrame_opBuf (f : Frame) (s : State) : (s.cutFrame f).opBuf = s.opBuf := rfl
@[simp] theorem State.cutFrame_cur (f : Frame) (s : State) : (s.cutFrame f).cur = s.cur := rfl
@[simp] theorem State.cutFrame_rem (f : Frame) (s : State) : (s.cutFrame f).rem = s.rem := rfl
@[simp] theorem State.cutFrame_hoff (f : Frame) (s : State) : (s.cutFrame f).hoff = s.hoff := rfl
@[simp] theorem State.cutFrame_sr (f : Frame) (s : State) : (s.cutFrame f).sr = s.sr := rfl
@[simp] theorem State.cutFrame_mask (f : Frame) (s : State) : (s.cutFrame f).mask = s.mask := rfl
@[simp] theorem State.cutFrame_first (f : Frame) (s : State) : (s.cutFrame f).first = s.first := rfl
@[simp] theorem State.cutFrame_n (f : Frame) (s : State) : (s.cutFrame f).n = s.n := rfl
@[simp] theorem State.cutFrame_pdesc (f : Frame) (s : State) : (s.cutFrame f).pdesc = s.pdesc := rfl
@[simp] theorem State.cutFrame_pparams (f : Frame) (s : State) : (s.cutFrame f).pparams = s.pparams := rfl
@[simp] theorem State.cutFrame_xfer (f : Frame) (s : State) : (s.cutFrame f).xfer = s.xfer := rfl
@[simp] theorem State.cutFrame_phase (f : Frame) (s : State) : (s.cutFrame f).phase = s.phase := rfl
@[simp] theorem State.cutFrame_mem (f : Frame) (s : State) : (s.cutFrame f).mem = s.mem := rfl
@[simp] theorem State.cutFrame_flash (f : Frame) (s : State) : (s.cutFrame f).flash = s.flash.abandoned := rfl
@[simp] theorem State.cutFrame_history (f : Frame) (s : State) : (s.cutFrame f).history = .cut s.par.chipSelect f (s.cutAt f) :: s.history := rfl
@[simp] theorem State.cutFrame_answers (f : Frame) (s : State) : (s.cutFrame f).answers = s.answers.tail := rfl
@[simp] theorem State.cutFrame_registry (f : Frame) (s : State) : (s.cutFrame f).registry = s.registry := rfl
@[simp] theorem State.cutFrame_par (f : Frame) (s : State) : (s.cutFrame f).par = s.par := rfl
@[simp] theorem State.cutFrame_script (f : Frame) (s : State) : (s.cutFrame f).script = s.script := rfl
@[simp] theorem State.cutFrame_readData (f : Frame) (s : State) : (s.cutFrame f).readData = s.readData := rfl
@[simp] theorem State.cutFrame_raced (f : Frame) (s : State) : (s.cutFrame f).raced = s.raced := rfl
@[simp] theorem State.cutFrame_replaced (f : Frame) (s : State) : (s.cutFrame f).replaced = s.replaced := rfl
@[simp] theorem State.cutFrame_draws (f : Frame) (s : State) : (s.cutFrame f).draws = s.draws + 1 := rfl

/-! `State.eraseInit` -/

@[simp] theorem State.eraseInit_addr (s : State) : (s.eraseInit).addr = s.addr := rfl
@[simp] theorem State.eraseInit_len (s : State) : (s.eraseInit).len = s.len := rfl
@[simp] theorem State.eraseInit_buf (s : State) : (s.eraseInit).buf = s.buf := rfl
@[simp] theorem State.eraseInit_busy (s : State) : (s.eraseInit).busy = s.busy := rfl
@[simp] theorem State.eraseInit_done (s : State) : (s.eraseInit).done = s.done := rfl
@[simp] theorem State.eraseInit_err (s : State) : (s.eraseInit).err = s.err := rfl
@[simp] theorem State.eraseInit_statusCur (s : State) : (s.eraseInit).statusCur = s.statusCur := rfl
@[simp] theorem State.eraseInit_progress (s : State) : (s.eraseInit).progress = s.progress := rfl
@[simp] theorem State.eraseInit_probeState (s : State) : (s.eraseInit).probeState = s.probeState := rfl
@[simp] theorem State.eraseInit_desc (s : State) : (s.eraseInit).desc = s.desc := rfl
@[simp] theorem State.eraseInit_params (s : State) : (s.eraseInit).params = s.params := rfl
@[simp] theorem State.eraseInit_rawId (s : State) : (s.eraseInit).rawId = s.rawId := rfl
@[simp] theorem State.eraseInit_rawExt (s : State) : (s.eraseInit).rawExt = s.rawExt := rfl
@[simp] theorem State.eraseInit_op (s : State) : (s.eraseInit).op = s.op := rfl
@[simp] theorem State.eraseInit_opAddr (s : State) : (s.eraseInit).opAddr = s.opAddr := rfl
@[simp] theorem State.eraseInit_opLen (s : State) : (s.eraseInit).opLen = s.opLen := rfl
@[simp] theorem State.eraseInit_opBuf (s : State) : (s.eraseInit).opBuf = s.opBuf := rfl
@[simp] theorem State.eraseInit_cur (s : State) : (s.eraseInit).cur = s.opAddr.toNat := rfl
@[simp] theorem State.eraseInit_rem (s : State) : (s.eraseInit).rem = s.sectorCount := rfl
@[simp] theorem State.eraseInit_hoff (s : State) : (s.eraseInit).hoff = s.hoff := rfl
@[simp] theorem State.eraseInit_sr (s : State) : (s.eraseInit).sr = s.sr := rfl
@[simp] theorem State.eraseInit_mask (s : State) : (s.eraseInit).mask = s.mask := rfl
@[simp] theorem State.eraseInit_first (s : State) : (s.eraseInit).first = s.first := rfl
@[simp] theorem State.eraseInit_n (s : State) : (s.eraseInit).n = s.n := rfl
@[simp] theorem State.eraseInit_pdesc (s : State) : (s.eraseInit).pdesc = s.pdesc := rfl
@[simp] theorem State.eraseInit_pparams (s : State) : (s.eraseInit).pparams = s.pparams := rfl
@[simp] theorem State.eraseInit_xfer (s : State) : (s.eraseInit).xfer = s.xfer := rfl
@[simp] theorem State.eraseInit_phase (s : State) : (s.eraseInit).phase = s.phase := rfl
@[simp] theorem State.eraseInit_mem (s : State) : (s.eraseInit).mem = s.mem := rfl
@[simp] theorem State.eraseInit_flash (s : State) : (s.eraseInit).flash = s.flash := rfl
@[simp] theorem State.eraseInit_history (s : State) : (s.eraseInit).history = s.history := rfl
@[simp] theorem State.eraseInit_answers (s : State) : (s.eraseInit).answers = s.answers := rfl
@[simp] theorem State.eraseInit_registry (s : State) : (s.eraseInit).registry = s.registry := rfl
@[simp] theorem State.eraseInit_par (s : State) : (s.eraseInit).par = s.par := rfl
@[simp] theorem State.eraseInit_script (s : State) : (s.eraseInit).script = s.script := rfl
@[simp] theorem State.eraseInit_readData (s : State) : (s.eraseInit).readData = s.readData := rfl
@[simp] theorem State.eraseInit_raced (s : State) : (s.eraseInit).raced = s.raced := rfl
@[simp] theorem State.eraseInit_replaced (s : State) : (s.eraseInit).replaced = s.replaced := rfl
@[simp] theorem State.eraseInit_draws (s : State) : (s.eraseInit).draws = s.draws := rfl

/-! `State.sectorDone` -/

@[simp] theorem State.sectorDone_addr (s : State) : (s.sectorDone).addr = s.addr := rfl
@[simp] theorem State.sectorDone_len (s : State) : (s.sectorDone).len = s.len := rfl
@[simp] theorem State.sectorDone_buf (s : State) : (s.sectorDone).buf = s.buf := rfl
@[simp] theorem State.sectorDone_busy (s : State) : (s.sectorDone).busy = s.busy := rfl
@[simp] theorem State.sectorDone_done (s : State) : (s.sectorDone).done = s.done := rfl
@[simp] theorem State.sectorDone_err (s : State) : (s.sectorDone).err = s.err := rfl
@[simp] theorem State.sectorDone_statusCur (s : State) : (s.sectorDone).statusCur = s.statusCur := rfl
@[simp] theorem State.sectorDone_progress (s : State) : (s.sectorDone).progress = s.progress + s.params.eraseSize := rfl
@[simp] theorem State.sectorDone_probeState (s : State) : (s.sectorDone).probeState = s.probeState := rfl
@[simp] theorem State.sectorDone_desc (s : State) : (s.sectorDone).desc = s.desc := rfl
@[simp] theorem State.sectorDone_params (s : State) : (s.sectorDone).params = s.params := rfl
@[simp] theorem State.sectorDone_rawId (s : State) : (s.sectorDone).rawId = s.rawId := rfl
@[simp] theorem State.sectorDone_rawExt (s : State) : (s.sectorDone).rawExt = s.rawExt := rfl
@[simp] theorem State.sectorDone_op (s : State) : (s.sectorDone).op = s.op := rfl
@[simp] theorem State.sectorDone_opAddr (s : State) : (s.sectorDone).opAddr = s.opAddr := rfl
@[simp] theorem State.sectorDone_opLen (s : State) : (s.sectorDone).opLen = s.opLen := rfl
@[simp] theorem State.sectorDone_opBuf (s : State) : (s.sectorDone).opBuf = s.opBuf := rfl
@[simp] theorem State.sectorDone_cur (s : State) : (s.sectorDone).cur = s.cur + s.eraseUnit := rfl
@[simp] theorem State.sectorDone_rem (s : State) : (s.sectorDone).rem = s.rem - 1 := rfl
@[simp] theorem State.sectorDone_hoff (s : State) : (s.sectorDone).hoff = s.hoff := rfl
@[simp] theorem State.sectorDone_sr (s : State) : (s.sectorDone).sr = s.sr := rfl
@[simp] theorem State.sectorDone_mask (s : State) : (s.sectorDone).mask = s.mask := rfl
@[simp] theorem State.sectorDone_first (s : State) : (s.sectorDone).first = s.first := rfl
@[simp] theorem State.sectorDone_n (s : State) : (s.sectorDone).n = s.n := rfl
@[simp] theorem State.sectorDone_pdesc (s : State) : (s.sectorDone).pdesc = s.pdesc := rfl
@[simp] theorem State.sectorDone_pparams (s : State) : (s.sectorDone).pparams = s.pparams := rfl
@[simp] theorem State.sectorDone_xfer (s : State) : (s.sectorDone).xfer = s.xfer := rfl
@[simp] theorem State.sectorDone_phase (s : State) : (s.sectorDone).phase = s.phase := rfl
@[simp] theorem State.sectorDone_mem (s : State) : (s.sectorDone).mem = s.mem := rfl
@[simp] theorem State.sectorDone_flash (s : State) : (s.sectorDone).flash = s.flash := rfl
@[simp] theorem State.sectorDone_history (s : State) : (s.sectorDone).history = s.history := rfl
@[simp] theorem State.sectorDone_answers (s : State) : (s.sectorDone).answers = s.answers := rfl
@[simp] theorem State.sectorDone_registry (s : State) : (s.sectorDone).registry = s.registry := rfl
@[simp] theorem State.sectorDone_par (s : State) : (s.sectorDone).par = s.par := rfl
@[simp] theorem State.sectorDone_script (s : State) : (s.sectorDone).script = s.script := rfl
@[simp] theorem State.sectorDone_readData (s : State) : (s.sectorDone).readData = s.readData := rfl
@[simp] theorem State.sectorDone_raced (s : State) : (s.sectorDone).raced = s.raced := rfl
@[simp] theorem State.sectorDone_replaced (s : State) : (s.sectorDone).replaced = s.replaced := rfl
@[simp] theorem State.sectorDone_draws (s : State) : (s.sectorDone).draws = s.draws := rfl

/-! `State.programInit` -/

@[simp] theorem State.programInit_addr (s : State) : (s.programInit).addr = s.addr := rfl
@[simp] theorem State.programInit_len (s : State) : (s.programInit).len = s.len := rfl
@[simp] theorem State.programInit_buf (s : State) : (s.programInit).buf = s.buf := rfl
@[simp] theorem State.programInit_busy (s : State) : (s.programInit).busy = s.busy := rfl
@[simp] theorem State.programInit_done (s : State) : (s.programInit).done = s.done := rfl
@[simp] theorem State.programInit_err (s : State) : (s.programInit).err = s.err := rfl
@[simp] theorem State.programInit_statusCur (s : State) : (s.programInit).statusCur = s.statusCur := rfl
@[simp] theorem State.programInit_progress (s : State) : (s.programInit).progress = s.progress := rfl
@[simp] theorem State.programInit_probeState (s : State) : (s.programInit).probeState = s.probeState := rfl
@[simp] theorem State.programInit_desc (s : State) : (s.programInit).desc = s.desc := rfl
@[simp] theorem State.programInit_params (s : State) : (s.programInit).params = s.params := rfl
@[simp] theorem State.programInit_rawId (s : State) : (s.programInit).rawId = s.rawId := rfl
@[simp] theorem State.programInit_rawExt (s : State) : (s.programInit).rawExt = s.rawExt := rfl
@[simp] theorem State.programInit_op (s : State) : (s.programInit).op = s.op := rfl
@[simp] theorem State.programInit_opAddr (s : State) : (s.programInit).opAddr = s.opAddr := rfl
@[simp] theorem State.programInit_opLen (s : State) : (s.programInit).opLen = s.opLen := rfl
@[simp] theorem State.programInit_opBuf (s : State) : (s.programInit).opBuf = s.opBuf := rfl
@[simp] theorem State.programInit_cur (s : State) : (s.programInit).cur = s.opAddr.toNat := rfl
@[simp] theorem State.programInit_rem (s : State) : (s.programInit).rem = s.opLen.toNat := rfl
@[simp] theorem State.programInit_hoff (s : State) : (s.programInit).hoff = 0 := rfl
@[simp] theorem State.programInit_sr (s : State) : (s.programInit).sr = s.sr := rfl
@[simp] theorem State.programInit_mask (s : State) : (s.programInit).mask = s.mask := rfl
@[simp] theorem State.programInit_first (s : State) : (s.programInit).first = s.first := rfl
@[simp] theorem State.programInit_n (s : State) : (s.programInit).n = s.n := rfl
@[simp] theorem State.programInit_pdesc (s : State) : (s.programInit).pdesc = s.pdesc := rfl
@[simp] theorem State.programInit_pparams (s : State) : (s.programInit).pparams = s.pparams := rfl
@[simp] theorem State.programInit_xfer (s : State) : (s.programInit).xfer = s.xfer := rfl
@[simp] theorem State.programInit_phase (s : State) : (s.programInit).phase = s.phase := rfl
@[simp] theorem State.programInit_mem (s : State) : (s.programInit).mem = s.mem := rfl
@[simp] theorem State.programInit_flash (s : State) : (s.programInit).flash = s.flash := rfl
@[simp] theorem State.programInit_history (s : State) : (s.programInit).history = s.history := rfl
@[simp] theorem State.programInit_answers (s : State) : (s.programInit).answers = s.answers := rfl
@[simp] theorem State.programInit_registry (s : State) : (s.programInit).registry = s.registry := rfl
@[simp] theorem State.programInit_par (s : State) : (s.programInit).par = s.par := rfl
@[simp] theorem State.programInit_script (s : State) : (s.programInit).script = s.script := rfl
@[simp] theorem State.programInit_readData (s : State) : (s.programInit).readData = s.readData := rfl
@[simp] theorem State.programInit_raced (s : State) : (s.programInit).raced = s.raced := rfl
@[simp] theorem State.programInit_replaced (s : State) : (s.programInit).replaced = s.replaced := rfl
@[simp] theorem State.programInit_draws (s : State) : (s.programInit).draws = s.draws := rfl

/-! `State.bytesDone` -/

@[simp] theorem State.bytesDone_addr (k : Nat) (s : State) : (s.bytesDone k).addr = s.addr := rfl
@[simp] theorem State.bytesDone_len (k : Nat) (s : State) : (s.bytesDone k).len = s.len := rfl
@[simp] theorem State.bytesDone_buf (k : Nat) (s : State) : (s.bytesDone k).buf = s.buf := rfl
@[simp] theorem State.bytesDone_busy (k : Nat) (s : State) : (s.bytesDone k).busy = s.busy := rfl
@[simp] theorem State.bytesDone_done (k : Nat) (s : State) : (s.bytesDone k).done = s.done := rfl
@[simp] theorem State.bytesDone_err (k : Nat) (s : State) : (s.bytesDone k).err = s.err := rfl
@[simp] theorem State.bytesDone_statusCur (k : Nat) (s : State) : (s.bytesDone k).statusCur = s.statusCur := rfl
@[simp] theorem State.bytesDone_progress (k : Nat) (s : State) : (s.bytesDone k).progress = s.progress + BitVec.ofNat 32 k := rfl
@[simp] theorem State.bytesDone_probeState (k : Nat) (s : State) : (s.bytesDone k).probeState = s.probeState := rfl
@[simp] theorem State.bytesDone_desc (k : Nat) (s : State) : (s.bytesDone k).desc = s.desc := rfl
@[simp] theorem State.bytesDone_params (k : Nat) (s : State) : (s.bytesDone k).params = s.params := rfl
@[simp] theorem State.bytesDone_rawId (k : Nat) (s : State) : (s.bytesDone k).rawId = s.rawId := rfl
@[simp] theorem State.bytesDone_rawExt (k : Nat) (s : State) : (s.bytesDone k).rawExt = s.rawExt := rfl
@[simp] theorem State.bytesDone_op (k : Nat) (s : State) : (s.bytesDone k).op = s.op := rfl
@[simp] theorem State.bytesDone_opAddr (k : Nat) (s : State) : (s.bytesDone k).opAddr = s.opAddr := rfl
@[simp] theorem State.bytesDone_opLen (k : Nat) (s : State) : (s.bytesDone k).opLen = s.opLen := rfl
@[simp] theorem State.bytesDone_opBuf (k : Nat) (s : State) : (s.bytesDone k).opBuf = s.opBuf := rfl
@[simp] theorem State.bytesDone_cur (k : Nat) (s : State) : (s.bytesDone k).cur = s.cur + k := rfl
@[simp] theorem State.bytesDone_rem (k : Nat) (s : State) : (s.bytesDone k).rem = s.rem - k := rfl
@[simp] theorem State.bytesDone_hoff (k : Nat) (s : State) : (s.bytesDone k).hoff = s.hoff + k := rfl
@[simp] theorem State.bytesDone_sr (k : Nat) (s : State) : (s.bytesDone k).sr = s.sr := rfl
@[simp] theorem State.bytesDone_mask (k : Nat) (s : State) : (s.bytesDone k).mask = s.mask := rfl
@[simp] theorem State.bytesDone_first (k : Nat) (s : State) : (s.bytesDone k).first = s.first := rfl
@[simp] theorem State.bytesDone_n (k : Nat) (s : State) : (s.bytesDone k).n = s.n := rfl
@[simp] theorem State.bytesDone_pdesc (k : Nat) (s : State) : (s.bytesDone k).pdesc = s.pdesc := rfl
@[simp] theorem State.bytesDone_pparams (k : Nat) (s : State) : (s.bytesDone k).pparams = s.pparams := rfl
@[simp] theorem State.bytesDone_xfer (k : Nat) (s : State) : (s.bytesDone k).xfer = s.xfer := rfl
@[simp] theorem State.bytesDone_phase (k : Nat) (s : State) : (s.bytesDone k).phase = s.phase := rfl
@[simp] theorem State.bytesDone_mem (k : Nat) (s : State) : (s.bytesDone k).mem = s.mem := rfl
@[simp] theorem State.bytesDone_flash (k : Nat) (s : State) : (s.bytesDone k).flash = s.flash := rfl
@[simp] theorem State.bytesDone_history (k : Nat) (s : State) : (s.bytesDone k).history = s.history := rfl
@[simp] theorem State.bytesDone_answers (k : Nat) (s : State) : (s.bytesDone k).answers = s.answers := rfl
@[simp] theorem State.bytesDone_registry (k : Nat) (s : State) : (s.bytesDone k).registry = s.registry := rfl
@[simp] theorem State.bytesDone_par (k : Nat) (s : State) : (s.bytesDone k).par = s.par := rfl
@[simp] theorem State.bytesDone_script (k : Nat) (s : State) : (s.bytesDone k).script = s.script := rfl
@[simp] theorem State.bytesDone_readData (k : Nat) (s : State) : (s.bytesDone k).readData = s.readData := rfl
@[simp] theorem State.bytesDone_raced (k : Nat) (s : State) : (s.bytesDone k).raced = s.raced := rfl
@[simp] theorem State.bytesDone_replaced (k : Nat) (s : State) : (s.bytesDone k).replaced = s.replaced := rfl
@[simp] theorem State.bytesDone_draws (k : Nat) (s : State) : (s.bytesDone k).draws = s.draws := rfl

/-! `State.readPrepare` -/

@[simp] theorem State.readPrepare_addr (s : State) : (s.readPrepare).addr = s.addr := rfl
@[simp] theorem State.readPrepare_len (s : State) : (s.readPrepare).len = s.len := rfl
@[simp] theorem State.readPrepare_buf (s : State) : (s.readPrepare).buf = s.buf := rfl
@[simp] theorem State.readPrepare_busy (s : State) : (s.readPrepare).busy = s.busy := rfl
@[simp] theorem State.readPrepare_done (s : State) : (s.readPrepare).done = s.done := rfl
@[simp] theorem State.readPrepare_err (s : State) : (s.readPrepare).err = s.err := rfl
@[simp] theorem State.readPrepare_statusCur (s : State) : (s.readPrepare).statusCur = s.statusCur := rfl
@[simp] theorem State.readPrepare_progress (s : State) : (s.readPrepare).progress = s.progress := rfl
@[simp] theorem State.readPrepare_probeState (s : State) : (s.readPrepare).probeState = s.probeState := rfl
@[simp] theorem State.readPrepare_desc (s : State) : (s.readPrepare).desc = s.desc := rfl
@[simp] theorem State.readPrepare_params (s : State) : (s.readPrepare).params = s.params := rfl
@[simp] theorem State.readPrepare_rawId (s : State) : (s.readPrepare).rawId = s.rawId := rfl
@[simp] theorem State.readPrepare_rawExt (s : State) : (s.readPrepare).rawExt = s.rawExt := rfl
@[simp] theorem State.readPrepare_op (s : State) : (s.readPrepare).op = s.op := rfl
@[simp] theorem State.readPrepare_opAddr (s : State) : (s.readPrepare).opAddr = s.opAddr := rfl
@[simp] theorem State.readPrepare_opLen (s : State) : (s.readPrepare).opLen = s.opLen := rfl
@[simp] theorem State.readPrepare_opBuf (s : State) : (s.readPrepare).opBuf = s.opBuf := rfl
@[simp] theorem State.readPrepare_cur (s : State) : (s.readPrepare).cur = s.readOffset := rfl
@[simp] theorem State.readPrepare_rem (s : State) : (s.readPrepare).rem = s.rem := rfl
@[simp] theorem State.readPrepare_hoff (s : State) : (s.readPrepare).hoff = s.hoff := rfl
@[simp] theorem State.readPrepare_sr (s : State) : (s.readPrepare).sr = s.sr := rfl
@[simp] theorem State.readPrepare_mask (s : State) : (s.readPrepare).mask = s.mask := rfl
@[simp] theorem State.readPrepare_first (s : State) : (s.readPrepare).first = s.first := rfl
@[simp] theorem State.readPrepare_n (s : State) : (s.readPrepare).n = s.n := rfl
@[simp] theorem State.readPrepare_pdesc (s : State) : (s.readPrepare).pdesc = s.pdesc := rfl
@[simp] theorem State.readPrepare_pparams (s : State) : (s.readPrepare).pparams = s.pparams := rfl
@[simp] theorem State.readPrepare_xfer (s : State) : (s.readPrepare).xfer = s.xfer := rfl
@[simp] theorem State.readPrepare_phase (s : State) : (s.readPrepare).phase = s.phase := rfl
@[simp] theorem State.readPrepare_mem (s : State) : (s.readPrepare).mem = s.mem := rfl
@[simp] theorem State.readPrepare_flash (s : State) : (s.readPrepare).flash = s.flash := rfl
@[simp] theorem State.readPrepare_history (s : State) : (s.readPrepare).history = s.history := rfl
@[simp] theorem State.readPrepare_answers (s : State) : (s.readPrepare).answers = s.answers := rfl
@[simp] theorem State.readPrepare_registry (s : State) : (s.readPrepare).registry = s.registry := rfl
@[simp] theorem State.readPrepare_par (s : State) : (s.readPrepare).par = s.par := rfl
@[simp] theorem State.readPrepare_script (s : State) : (s.readPrepare).script = s.script := rfl
@[simp] theorem State.readPrepare_readData (s : State) : (s.readPrepare).readData = s.readData := rfl
@[simp] theorem State.readPrepare_raced (s : State) : (s.readPrepare).raced = s.raced := rfl
@[simp] theorem State.readPrepare_replaced (s : State) : (s.readPrepare).replaced = s.replaced := rfl
@[simp] theorem State.readPrepare_draws (s : State) : (s.readPrepare).draws = s.draws := rfl

/-! `State.readInit` -/

@[simp] theorem State.readInit_addr (s : State) : (s.readInit).addr = s.addr := rfl
@[simp] theorem State.readInit_len (s : State) : (s.readInit).len = s.len := rfl
@[simp] theorem State.readInit_buf (s : State) : (s.readInit).buf = s.buf := rfl
@[simp] theorem State.readInit_busy (s : State) : (s.readInit).busy = s.busy := rfl
@[simp] theorem State.readInit_done (s : State) : (s.readInit).done = s.done := rfl
@[simp] theorem State.readInit_err (s : State) : (s.readInit).err = s.err := rfl
@[simp] theorem State.readInit_statusCur (s : State) : (s.readInit).statusCur = s.statusCur := rfl
@[simp] theorem State.readInit_progress (s : State) : (s.readInit).progress = s.progress := rfl
@[simp] theorem State.readInit_probeState (s : State) : (s.readInit).probeState = s.probeState := rfl
@[simp] theorem State.readInit_desc (s : State) : (s.readInit).desc = s.desc := rfl
@[simp] theorem State.readInit_params (s : State) : (s.readInit).params = s.params := rfl
@[simp] theorem State.readInit_rawId (s : State) : (s.readInit).rawId = s.rawId := rfl
@[simp] theorem State.readInit_rawExt (s : State) : (s.readInit).rawExt = s.rawExt := rfl
@[simp] theorem State.readInit_op (s : State) : (s.readInit).op = s.op := rfl
@[simp] theorem State.readInit_opAddr (s : State) : (s.readInit).opAddr = s.opAddr := rfl
@[simp] theorem State.readInit_opLen (s : State) : (s.readInit).opLen = s.opLen := rfl
@[simp] theorem State.readInit_opBuf (s : State) : (s.readInit).opBuf = s.opBuf := rfl
@[simp] theorem State.readInit_cur (s : State) : (s.readInit).cur = s.cur := rfl
@[simp] theorem State.readInit_rem (s : State) : (s.readInit).rem = s.opLen.toNat := rfl
@[simp] theorem State.readInit_hoff (s : State) : (s.readInit).hoff = 0 := rfl
@[simp] theorem State.readInit_sr (s : State) : (s.readInit).sr = s.sr := rfl
@[simp] theorem State.readInit_mask (s : State) : (s.readInit).mask = s.mask := rfl
@[simp] theorem State.readInit_first (s : State) : (s.readInit).first = s.first := rfl
@[simp] theorem State.readInit_n (s : State) : (s.readInit).n = s.n := rfl
@[simp] theorem State.readInit_pdesc (s : State) : (s.readInit).pdesc = s.pdesc := rfl
@[simp] theorem State.readInit_pparams (s : State) : (s.readInit).pparams = s.pparams := rfl
@[simp] theorem State.readInit_xfer (s : State) : (s.readInit).xfer = s.xfer := rfl
@[simp] theorem State.readInit_phase (s : State) : (s.readInit).phase = s.phase := rfl
@[simp] theorem State.readInit_mem (s : State) : (s.readInit).mem = s.mem := rfl
@[simp] theorem State.readInit_flash (s : State) : (s.readInit).flash = s.flash := rfl
@[simp] theorem State.readInit_history (s : State) : (s.readInit).history = s.history := rfl
@[simp] theorem State.readInit_answers (s : State) : (s.readInit).answers = s.answers := rfl
@[simp] theorem State.readInit_registry (s : State) : (s.readInit).registry = s.registry := rfl
@[simp] theorem State.readInit_par (s : State) : (s.readInit).par = s.par := rfl
@[simp] theorem State.readInit_script (s : State) : (s.readInit).script = s.script := rfl
@[simp] theorem State.readInit_readData (s : State) : (s.readInit).readData = s.readData := rfl
@[simp] theorem State.readInit_raced (s : State) : (s.readInit).raced = s.raced := rfl
@[simp] theorem State.readInit_replaced (s : State) : (s.readInit).replaced = s.replaced := rfl
@[simp] theorem State.readInit_draws (s : State) : (s.readInit).draws = s.draws := rfl

/-! `State.chunkDone` -/

@[simp] theorem State.chunkDone_addr (s : State) : (s.chunkDone).addr = s.addr := rfl
@[simp] theorem State.chunkDone_len (s : State) : (s.chunkDone).len = s.len := rfl
@[simp] theorem State.chunkDone_buf (s : State) : (s.chunkDone).buf = s.buf := rfl
@[simp] theorem State.chunkDone_busy (s : State) : (s.chunkDone).busy = s.busy := rfl
@[simp] theorem State.chunkDone_done (s : State) : (s.chunkDone).done = s.done := rfl
@[simp] theorem State.chunkDone_err (s : State) : (s.chunkDone).err = s.err := rfl
@[simp] theorem State.chunkDone_statusCur (s : State) : (s.chunkDone).statusCur = s.statusCur := rfl
@[simp] theorem State.chunkDone_progress (s : State) : (s.chunkDone).progress = s.progress + BitVec.ofNat 32 s.n := rfl
@[simp] theorem State.chunkDone_probeState (s : State) : (s.chunkDone).probeState = s.probeState := rfl
@[simp] theorem State.chunkDone_desc (s : State) : (s.chunkDone).desc = s.desc := rfl
@[simp] theorem State.chunkDone_params (s : State) : (s.chunkDone).params = s.params := rfl
@[simp] theorem State.chunkDone_rawId (s : State) : (s.chunkDone).rawId = s.rawId := rfl
@[simp] theorem State.chunkDone_rawExt (s : State) : (s.chunkDone).rawExt = s.rawExt := rfl
@[simp] theorem State.chunkDone_op (s : State) : (s.chunkDone).op = s.op := rfl
@[simp] theorem State.chunkDone_opAddr (s : State) : (s.chunkDone).opAddr = s.opAddr := rfl
@[simp] theorem State.chunkDone_opLen (s : State) : (s.chunkDone).opLen = s.opLen := rfl
@[simp] theorem State.chunkDone_opBuf (s : State) : (s.chunkDone).opBuf = s.opBuf := rfl
@[simp] theorem State.chunkDone_cur (s : State) : (s.chunkDone).cur = s.cur + s.n := rfl
@[simp] theorem State.chunkDone_rem (s : State) : (s.chunkDone).rem = s.rem - s.n := rfl
@[simp] theorem State.chunkDone_hoff (s : State) : (s.chunkDone).hoff = s.hoff + s.n := rfl
@[simp] theorem State.chunkDone_sr (s : State) : (s.chunkDone).sr = s.sr := rfl
@[simp] theorem State.chunkDone_mask (s : State) : (s.chunkDone).mask = s.mask := rfl
@[simp] theorem State.chunkDone_first (s : State) : (s.chunkDone).first = s.first := rfl
@[simp] theorem State.chunkDone_n (s : State) : (s.chunkDone).n = s.n := rfl
@[simp] theorem State.chunkDone_pdesc (s : State) : (s.chunkDone).pdesc = s.pdesc := rfl
@[simp] theorem State.chunkDone_pparams (s : State) : (s.chunkDone).pparams = s.pparams := rfl
@[simp] theorem State.chunkDone_xfer (s : State) : (s.chunkDone).xfer = s.xfer := rfl
@[simp] theorem State.chunkDone_phase (s : State) : (s.chunkDone).phase = s.phase := rfl
@[simp] theorem State.chunkDone_mem (s : State) : (s.chunkDone).mem = s.mem := rfl
@[simp] theorem State.chunkDone_flash (s : State) : (s.chunkDone).flash = s.flash := rfl
@[simp] theorem State.chunkDone_history (s : State) : (s.chunkDone).history = s.history := rfl
@[simp] theorem State.chunkDone_answers (s : State) : (s.chunkDone).answers = s.answers := rfl
@[simp] theorem State.chunkDone_registry (s : State) : (s.chunkDone).registry = s.registry := rfl
@[simp] theorem State.chunkDone_par (s : State) : (s.chunkDone).par = s.par := rfl
@[simp] theorem State.chunkDone_script (s : State) : (s.chunkDone).script = s.script := rfl
@[simp] theorem State.chunkDone_readData (s : State) : (s.chunkDone).readData = s.readData := rfl
@[simp] theorem State.chunkDone_raced (s : State) : (s.chunkDone).raced = s.raced := rfl
@[simp] theorem State.chunkDone_replaced (s : State) : (s.chunkDone).replaced = s.replaced := rfl
@[simp] theorem State.chunkDone_draws (s : State) : (s.chunkDone).draws = s.draws := rfl

end Sys2Proof.Machine
end

