-- ==== Sys2Proof/Laws/Ops.lean ====
section
/-! SUPPORT. What the shared operations can do: a transport call, whole or failing; one SPI command; acceptance; a completion. -/

namespace Sys2Proof.Machine

/-! ## One transport call -/

theorem State.send_ok {s : State} (i : Instr) (f : Frame) (onOk onFail : State → State) (h : s.frameOk = true) :
    s.send i f onOk onFail = (onOk (s.transport f)).advance := by simp [State.send, h]

theorem State.send_fail {s : State} (i : Instr) (f : Frame) (onOk onFail : State → State) (h : s.frameOk = false) :
    s.send i f onOk onFail = (onFail ((s.transport f).withFlash (s.flash.lost (s.unitOf i)))).raise .transport := by
  simp [State.send, h]

theorem State.frameSent_ok {s : State} (f : Frame) (h : s.frameOk = true) : s.frameSent f = f.wire.length := by
  simp [State.frameSent, h]

theorem State.frameRx_ok {s : State} (f : Frame) (h : s.frameOk = true) : s.frameRx f = s.oracleBytes f.n := by
  simp [State.frameRx, h]

theorem State.frameRx_fail {s : State} (f : Frame) (h : s.frameOk = false) : s.frameRx f = [] := by
  simp [State.frameRx, h]

theorem State.cutAt_le (s : State) (f : Frame) : s.cutAt f ≤ f.wire.length := by
  unfold State.cutAt; split <;> exact Nat.min_le_right _ _

theorem State.frameSent_le (s : State) (f : Frame) : s.frameSent f ≤ f.wire.length := by
  unfold State.frameSent; split
  · exact Nat.le_refl _
  · exact s.cutAt_le f

@[simp] theorem State.oracleBytes_length (s : State) (n : Nat) : (s.oracleBytes n).length = n := by
  simp [State.oracleBytes]

/-- Byte `i` of the bytes read back. -/
theorem State.oracleBytes_get {s : State} {n i : Nat} (h : i < n) : (s.oracleBytes n)[i]? = some (s.oracleByte i) := by
  simp [State.oracleBytes, h]

/-- The event of a transport call that succeeds. -/
theorem State.transport_history_ok {s : State} (f : Frame) (h : s.frameOk = true) :
    (s.transport f).history = .frame s.par.chipSelect f true f.wire.length (s.oracleBytes f.n) :: s.history := by
  rw [State.transport_history, h, State.frameSent_ok f h, State.frameRx_ok f h]

/-- The event of a transport call that fails. -/
theorem State.transport_history_fail {s : State} (f : Frame) (h : s.frameOk = false) :
    (s.transport f).history = .frame s.par.chipSelect f false (s.frameSent f) [] :: s.history := by
  rw [State.transport_history, h, State.frameRx_fail f h]

/-- Of the array, a failed frame disturbs its own unit alone (R280). -/
@[simp] theorem FlashView.lost_array (u : Option Span) (v : FlashView) :
    (v.lost u).array = u.toList.map .disturbed ++ v.array := by cases u <;> rfl

/-- A reset while BUSY leaves the array in any state (R302). -/
@[simp] theorem FlashView.abandoned_array (v : FlashView) : v.abandoned.array = .unknown :: v.array := rfl

/-! ## What agrees -/

theorem SameRegisters.refl (s : State) : SameRegisters s s := by constructor <;> rfl
theorem SameId.refl (s : State) : SameId s s := by constructor <;> rfl
theorem SameWorking.refl (s : State) : SameWorking s s := by constructor <;> rfl
theorem SameScratch.refl (s : State) : SameScratch s s := by constructor <;> rfl
theorem SameWorld.refl (s : State) : SameWorld s s := by constructor <;> rfl
theorem SameMemory.refl (s : State) : SameMemory s s := fun _ => rfl

/-! ## One SPI command (R12: `X(op)`) -/

/-- What every SPI command does to the state, whether its frame succeeds or fails. -/
structure FrameStep (i : Instr) (f : Frame) (s t : State) : Prop where
  history : t.history = .frame s.par.chipSelect f s.frameOk (s.frameSent f) (s.frameRx f) :: s.history
  answers : t.answers = s.answers.tail
  draws : t.draws = s.draws + 1
  phase : t.phase = if s.frameOk then s.phase.next else s.phase.raised .transport
  registers : SameRegisters s t
  working : SameWorking s t
  world : SameWorld s t
  replaced : t.replaced = s.replaced
  memOk : s.frameOk = true → t.mem = s.mem
  memWf : s.mem.wf = true → t.mem.wf = true
  idFail : s.frameOk = false → SameId s t
  scratchFail : s.frameOk = false → SameScratch s t
  flashFail : s.frameOk = false → t.flash = s.flash.lost (s.unitOf i)

/-- A command whose effects on success stay within the identification, `s.sr`, `s.first`, the frame buffer and the flash. -/
theorem frameStep_send {s : State} {i : Instr} {f : Frame} {onOk : State → State}
    (hr : ∀ t, SameRegisters t (onOk t)) (hw : ∀ t, SameWorking t (onOk t)) (ho : ∀ t, SameWorld t (onOk t))
    (hm : ∀ t, (onOk t).mem = t.mem) (hh : ∀ t, (onOk t).history = t.history) (ha : ∀ t, (onOk t).answers = t.answers)
    (hd : ∀ t, (onOk t).draws = t.draws) (hl : ∀ t, (onOk t).replaced = t.replaced) (hp : ∀ t, (onOk t).phase = t.phase) : FrameStep i f s (s.send i f onOk id) := by
  cases h : s.frameOk with
  | true =>
    rw [State.send_ok i f onOk id h]
    have r := hr (s.transport f); have w := hw (s.transport f); have o := ho (s.transport f)
    exact {
      history := by rw [State.advance_history, hh]; rfl
      answers := by rw [State.advance_answers, ha]; rfl
      draws := by rw [State.advance_draws, hd]; rfl
      phase := by rw [State.advance_phase, hp, h]; rfl
      registers := ⟨r.1, r.2, r.3, r.4, r.5, r.6, r.7, r.8, r.9, r.10, r.11, r.12, r.13, r.14, r.15⟩
      working := ⟨w.1, w.2, w.3, w.4, w.5, w.6, w.7⟩
      world := ⟨o.1, o.2, o.3, o.4, o.5⟩
      replaced := by rw [State.advance_replaced, hl]; rfl
      memOk := fun _ => by rw [State.advance_mem, hm]; rfl
      memWf := fun hwf => by rw [State.advance_mem, hm]; exact hwf
      idFail := fun hf => by rw [h] at hf; cases hf
      scratchFail := fun hf => by rw [h] at hf; cases hf
      flashFail := fun hf => by rw [h] at hf; cases hf }
  | false =>
    rw [State.send_fail i f onOk id h]
    exact {
      history := rfl, answers := rfl, draws := rfl, phase := by rw [h]; rfl
      registers := by constructor <;> rfl
      working := by constructor <;> rfl
      world := by constructor <;> rfl
      replaced := rfl
      memOk := fun hf => by rw [h] at hf; cases hf
      memWf := id
      idFail := fun _ => by constructor <;> rfl
      scratchFail := fun _ => by constructor <;> rfl
      flashFail := fun _ => rfl }

/-- Unspecified bytes written after a failed frame change host memory alone. -/
theorem frameStep_fastRead (a k : Nat) (s : State) :
    ∃ t, exec (.fastRead a k) s = .next t ∧
      FrameStep (.fastRead a k) (frameF7 s.par.opFastRead a s.params.addrWidth s.par.fastReadDummy k) s t := by
  refine ⟨_, rfl, ?_⟩
  cases h : s.frameOk with
  | true =>
    rw [State.send_ok _ _ _ _ h]
    exact {
      history := rfl, answers := rfl, draws := rfl, phase := by rw [h]; rfl
      registers := by constructor <;> rfl
      working := by constructor <;> rfl
      world := by constructor <;> rfl
      replaced := rfl
      memOk := fun _ => rfl
      memWf := id
      idFail := fun hf => by rw [h] at hf; cases hf
      scratchFail := fun hf => by rw [h] at hf; cases hf
      flashFail := fun hf => by rw [h] at hf; cases hf }
  | false =>
    rw [State.send_fail _ _ _ _ h, State.fillUnspecified_eq]
    exact {
      history := rfl, answers := rfl, draws := rfl, phase := by rw [h]; rfl
      registers := by constructor <;> rfl
      working := by constructor <;> rfl
      world := by constructor <;> rfl
      replaced := rfl
      memOk := fun hf => by rw [h] at hf; cases hf
      memWf := fun hwf => State.wf_fillUnspecified (s := (s.transport _).withFlash (s.flash.lost none)) _ _ hwf
      idFail := fun _ => by constructor <;> rfl
      scratchFail := fun _ => by constructor <;> rfl
      flashFail := fun _ => rfl }

/-- Every SPI command answers a next state, and says so: its own frame is sent (R102, R103). -/
theorem exec_frame {i : Instr} {f : Frame} {s : State} (h : encode s.par s.params.addrWidth i = .frame f) :
    ∃ t, exec i s = .next t ∧ FrameStep i f s t := by
  cases i <;> simp only [encode, Encoded.frame.injEq, reduceCtorEq] at h <;> subst h
  case fastRead a k => exact frameStep_fastRead a k s
  all_goals
    refine ⟨_, rfl, frameStep_send ?_ ?_ ?_ ?_ ?_ ?_ ?_ ?_ ?_⟩ <;> intro t <;> first | rfl | (constructor <;> rfl)

/-! ## Acceptance and completion -/

/-- Acceptance writes the latches, STATUS, PROGRESS and the step pointer (R131). -/
theorem State.accepted_accept (o : HostOp) (c : BitVec 4) (s : State) : Accepted o c s (s.accept o c) := by
  constructor <;> first | rfl | (constructor <;> rfl)

theorem State.issue_idle {s : State} (o : HostOp) (c : BitVec 4) (h : s.busy = false) : s.issue o c = s.accept o c := by
  simp [State.issue, h]

theorem State.issue_busy {s : State} (o : HostOp) (c : BitVec 4) (h : s.busy = true) : s.issue o c = s := by
  simp [State.issue, h]

/-- A completion writes ERR, BUSY, DONE, the step pointer and the probe state (R135). -/
theorem State.completedWith_complete (e : ErrCode) (s : State) : CompletedWith e s (s.complete e) := by
  constructor <;> first | rfl | (constructor <;> rfl)

/-- A completion of a command other than PROBE leaves the probe state alone (R278). -/
theorem ProbeState.afterCompletion_of_ne {ps : ProbeState} {op : HostOp} {l : Label} {e : ErrCode} (h : op ≠ .probe) :
    ps.afterCompletion (.run op l) e = ps := by
  cases op <;> first | rfl | exact absurd rfl h

/-- The four host commands have no frame. -/
theorem exec_host {i : Instr} {v : Word} {s : State} (h : encode s.par s.params.addrWidth i = .word v) :
    ∃ o c, o ≠ .illegal ∧ exec i s = .next (s.issue o c) := by
  cases i <;> simp only [encode, Encoded.word.injEq, reduceCtorEq] at h
  · exact ⟨.probe, 1, by decide, rfl⟩
  · exact ⟨.read, 2, by decide, rfl⟩
  · exact ⟨.erase, 3, by decide, rfl⟩
  · exact ⟨.write, 4, by decide, rfl⟩

/-! ## The sequencer's turn -/

theorem seqStep_frame {s : State} {i : Instr} (h : (plan s).action = .frame i) : seqStep s = exec i (plan s).state := by
  simp only [seqStep, perform, act, h]

theorem seqStep_memRead {s : State} {a : Word} (h : (plan s).action = .memRead a) :
    seqStep s = .next ((plan s).state.dmaRead a) := by simp only [seqStep, perform, act, h]

theorem seqStep_memWrite {s : State} {a : Word} {v : Byte} (h : (plan s).action = .memWrite a v) :
    seqStep s = .next ((plan s).state.dmaWrite a v) := by simp only [seqStep, perform, act, h]

theorem seqStep_complete {s : State} {e : ErrCode} (h : (plan s).action = .complete e) :
    seqStep s = .next ((plan s).state.complete e) := by simp only [seqStep, perform, act, h]

theorem seqStep_refuse {s : State} {r : Refusal} (h : (plan s).action = .refuse r) : seqStep s = .refused r := by
  simp only [seqStep, perform, act, h]

theorem seqStep_stuck {s : State} {e : Fault} (h : (plan s).action = .stuck e) : seqStep s = .fault e := by
  simp only [seqStep, perform, act, h]

theorem seqStep_none {s : State} (h : (plan s).action = .none) : seqStep s = .next (plan s).state := by
  simp only [seqStep, perform, act, h]

/-- A position whose plan is a frame at once sends it, and goes on to its next position (R13, R47). -/
theorem State.sendsThen_of_plan {s : State} {i : Instr} {f : Frame} {op op' : HostOp} {l l' : Label}
    (hp : s.phase = .run op l) (ha : plan s = { state := s, action := .frame i })
    (he : encode s.par s.params.addrWidth i = .frame f) (hl : (Phase.run op l).next = .run op' l') : s.SendsThen i op' l' := by
  refine ⟨by rw [ha], by rw [ha], fun hok => ?_⟩
  obtain ⟨t, ht, hf⟩ := exec_frame he
  refine ⟨t, by rw [seqStep_frame (by rw [ha]), ha]; exact ht, ?_⟩
  rw [hf.phase, hok, hp]; exact hl

end Sys2Proof.Machine
end

