-- ==== Sys2Proof/Laws/Sequencer.lean ====
section
/-! SUPPORT. What the sequencer's plan can do: the fields it never writes, and, by the kind of the next atomic step, the
position it stands at. -/

namespace Sys2Proof.Machine

/-! ## What no plan writes -/

/-- The fields that the internal computation before an atomic step leaves alone (R13). -/
structure PlanSame (s t : State) : Prop where
  addr : t.addr = s.addr
  len : t.len = s.len
  buf : t.buf = s.buf
  busy : t.busy = s.busy
  done : t.done = s.done
  err : t.err = s.err
  statusCur : t.statusCur = s.statusCur
  rawId : t.rawId = s.rawId
  rawExt : t.rawExt = s.rawExt
  op : t.op = s.op
  opAddr : t.opAddr = s.opAddr
  opLen : t.opLen = s.opLen
  opBuf : t.opBuf = s.opBuf
  sr : t.sr = s.sr
  mem : t.mem = s.mem
  flash : t.flash = s.flash
  history : t.history = s.history
  answers : t.answers = s.answers
  registry : t.registry = s.registry
  par : t.par = s.par
  script : t.script = s.script
  readData : t.readData = s.readData
  raced : t.raced = s.raced
  replaced : t.replaced = s.replaced
  draws : t.draws = s.draws

theorem PlanSame.refl (s : State) : PlanSame s s := by constructor <;> rfl

/-- The same with the probe results: every plan but the last one of a successful PROBE. -/
structure PlanHeld (s t : State) : Prop extends PlanSame s t where
  probeState : t.probeState = s.probeState
  desc : t.desc = s.desc
  params : t.params = s.params

theorem PlanHeld.refl (s : State) : PlanHeld s s := by constructor <;> first | rfl | exact PlanSame.refl s

/-- A plan that leaves the probe results alone, or commits them (R259). -/
def PlanHeldOr (s : State) (q : Planned) : Prop := PlanHeld s q.state ∨ ∃ u, PlanHeld s u ∧ q = probeDone u


theorem PlanSame.trans {s t u : State} (h : PlanSame s t) (k : PlanSame t u) : PlanSame s u where
  addr := k.addr.trans h.addr
  len := k.len.trans h.len
  buf := k.buf.trans h.buf
  busy := k.busy.trans h.busy
  done := k.done.trans h.done
  err := k.err.trans h.err
  statusCur := k.statusCur.trans h.statusCur
  rawId := k.rawId.trans h.rawId
  rawExt := k.rawExt.trans h.rawExt
  op := k.op.trans h.op
  opAddr := k.opAddr.trans h.opAddr
  opLen := k.opLen.trans h.opLen
  opBuf := k.opBuf.trans h.opBuf
  sr := k.sr.trans h.sr
  mem := k.mem.trans h.mem
  flash := k.flash.trans h.flash
  history := k.history.trans h.history
  answers := k.answers.trans h.answers
  registry := k.registry.trans h.registry
  par := k.par.trans h.par
  script := k.script.trans h.script
  readData := k.readData.trans h.readData
  raced := k.raced.trans h.raced
  replaced := k.replaced.trans h.replaced
  draws := k.draws.trans h.draws

theorem PlanHeld.trans {s t u : State} (h : PlanHeld s t) (k : PlanHeld t u) : PlanHeld s u where
  toPlanSame := h.toPlanSame.trans k.toPlanSame
  probeState := k.probeState.trans h.probeState
  desc := k.desc.trans h.desc
  params := k.params.trans h.params

theorem planHeld_goto (o : HostOp) (l : Label) (s : State) : PlanHeld s (s.goto o l) := by constructor <;> first | rfl | (constructor <;> rfl)
theorem planHeld_withBuffer (b : List Byte) (s : State) : PlanHeld s (s.withBuffer b) := by constructor <;> first | rfl | (constructor <;> rfl)
theorem planHeld_withChunk (k : Nat) (s : State) : PlanHeld s (s.withChunk k) := by constructor <;> first | rfl | (constructor <;> rfl)
theorem planHeld_withFirst (b : Bool) (s : State) : PlanHeld s (s.withFirst b) := by constructor <;> first | rfl | (constructor <;> rfl)
theorem planHeld_withMask (b : Byte) (s : State) : PlanHeld s (s.withMask b) := by constructor <;> first | rfl | (constructor <;> rfl)
theorem planHeld_identified (d : Option Descriptor) (r : Derived) (s : State) : PlanHeld s (s.identified d r) := by
  constructor <;> first | rfl | (constructor <;> rfl)
theorem planSame_commit (s : State) : PlanSame s s.commit := by constructor <;> rfl
theorem planHeld_readPrepare (s : State) : PlanHeld s s.readPrepare := by constructor <;> first | rfl | (constructor <;> rfl)
theorem planHeld_readInit (s : State) : PlanHeld s s.readInit := by constructor <;> first | rfl | (constructor <;> rfl)
theorem planHeld_eraseInit (s : State) : PlanHeld s s.eraseInit := by constructor <;> first | rfl | (constructor <;> rfl)
theorem planHeld_programInit (s : State) : PlanHeld s s.programInit := by constructor <;> first | rfl | (constructor <;> rfl)
theorem planHeld_sectorDone (s : State) : PlanHeld s s.sectorDone := by constructor <;> first | rfl | (constructor <;> rfl)
theorem planHeld_bytesDone (k : Nat) (s : State) : PlanHeld s (s.bytesDone k) := by constructor <;> first | rfl | (constructor <;> rfl)
theorem planHeld_chunkDone (s : State) : PlanHeld s s.chunkDone := by constructor <;> first | rfl | (constructor <;> rfl)

theorem planHeld_exitFrom (op : HostOp) (k : Nat) (s : State) : PlanHeld s (exitFrom op k s).state := by
  unfold exitFrom; split
  · exact planHeld_goto _ _ _
  · exact PlanHeld.refl s

theorem planHeld_eraseHead (op : HostOp) (s : State) : PlanHeld s (eraseHead op s).state := by
  unfold eraseHead; split
  · exact planHeld_goto _ _ _
  · exact planHeld_exitFrom _ _ _

theorem planHeld_eraseFrame (op : HostOp) (s : State) : PlanHeld s (eraseFrame op s).state := by
  unfold eraseFrame; split
  · exact planHeld_goto _ _ _
  · exact PlanHeld.refl s

theorem planHeld_fillThen {op : HostOp} {l : Label} {k : Nat} {done : State → Planned} {s : State}
    (h : PlanHeld s (done s).state) : PlanHeld s (fillThen op l k done s).state := by
  unfold fillThen; split
  · exact planHeld_goto _ _ _
  · exact h

theorem planHeld_pageFill (op : HostOp) (s : State) : PlanHeld s (pageFill op s).state :=
  planHeld_fillThen (planHeld_goto _ _ _)

theorem planHeld_pageHead (op : HostOp) (s : State) : PlanHeld s (pageHead op s).state := by
  unfold pageHead; split
  · exact ((planHeld_withChunk _ s).trans (planHeld_withBuffer _ _)).trans (planHeld_pageFill _ _)
  · exact planHeld_exitFrom _ _ _

theorem planHeld_aaiLast (op : HostOp) (s : State) : PlanHeld s (aaiLast op s).state := planHeld_goto _ _ _

theorem planHeld_aaiTailFill (op : HostOp) (s : State) : PlanHeld s (aaiTailFill op s).state :=
  planHeld_fillThen (planHeld_goto _ _ _)

theorem planHeld_aaiTail (op : HostOp) (s : State) : PlanHeld s (aaiTail op s).state := by
  unfold aaiTail; split
  · exact (planHeld_withBuffer _ s).trans (planHeld_aaiTailFill _ _)
  · exact planHeld_aaiLast _ _

theorem planHeld_aaiPairFill (op : HostOp) (s : State) : PlanHeld s (aaiPairFill op s).state :=
  planHeld_fillThen (planHeld_goto _ _ _)

theorem planHeld_aaiHead (op : HostOp) (s : State) : PlanHeld s (aaiHead op s).state := by
  unfold aaiHead; split
  · exact (planHeld_withBuffer _ s).trans (planHeld_aaiPairFill _ _)
  · exact planHeld_goto _ _ _

theorem planHeld_aaiLatch (op : HostOp) (s : State) : PlanHeld s (aaiLatch op s).state := planHeld_goto _ _ _

theorem planHeld_aaiOddFill (op : HostOp) (s : State) : PlanHeld s (aaiOddFill op s).state :=
  planHeld_fillThen (planHeld_goto _ _ _)

theorem planHeld_aaiStart (op : HostOp) (s : State) : PlanHeld s (aaiStart op s).state := by
  unfold aaiStart; split
  · exact (planHeld_withBuffer _ s).trans (planHeld_aaiOddFill _ _)
  · exact planHeld_aaiLatch _ _

theorem planHeld_programStart (op : HostOp) (s : State) : PlanHeld s (programStart op s).state := by
  unfold programStart; split
  · exact (planHeld_programInit s).trans (planHeld_aaiStart _ _)
  · exact (planHeld_programInit s).trans (planHeld_pageHead _ _)

theorem planHeld_readHead (op : HostOp) (s : State) : PlanHeld s (readHead op s).state := by
  unfold readHead; split
  · exact (planHeld_withChunk _ s).trans (planHeld_goto _ _ _)
  · exact planHeld_exitFrom _ _ _

theorem planHeld_readDrain (op : HostOp) (s : State) : PlanHeld s (readDrain op s).state := by
  unfold readDrain; split
  · exact planHeld_goto _ _ _
  · exact (planHeld_chunkDone s).trans (planHeld_readHead _ _)

theorem planHeld_bulkStart (op : HostOp) (s : State) : PlanHeld s (bulkStart op s).state := by
  cases op
  · exact PlanHeld.refl s
  · exact (planHeld_readInit s).trans (planHeld_readHead _ _)
  · exact (planHeld_eraseInit s).trans (planHeld_eraseHead _ _)
  · exact planHeld_programStart _ s
  · exact PlanHeld.refl s

theorem planHeld_enterFrom (op : HostOp) (k : Nat) (s : State) : PlanHeld s (enterFrom op k s).state := by
  unfold enterFrom; split
  · exact planHeld_goto _ _ _
  · exact planHeld_bulkStart _ _

theorem planHeld_afterCheck {c : Option ErrCode} {op : HostOp} {s t : State} (h : PlanHeld s t) :
    PlanHeld s (afterCheck c op s t).state := by
  unfold afterCheck; split
  · exact PlanHeld.refl s
  · exact h.trans (planHeld_enterFrom _ _ _)

theorem heldOr_unlock {op : HostOp} {d : Descriptor} {s u : State} (h : PlanHeld u s) : PlanHeldOr u (unlock op d s) := by
  unfold unlock; split
  · exact .inl (h.trans (planHeld_goto _ _ _))
  · split
    · exact .inl (h.trans ((planHeld_withMask _ s).trans (planHeld_goto _ _ _)))
    · exact .inr ⟨s, h, rfl⟩

theorem planHeld_probeStart (op : HostOp) (s : State) : PlanHeld s (probeStart op s).state := by
  unfold probeStart; split
  · exact PlanHeld.refl s
  · exact planHeld_goto _ _ _

theorem heldOr_probeIdentify (op : HostOp) (s : State) : PlanHeldOr s (probeIdentify op s) := by
  unfold probeIdentify; split
  · exact .inl (PlanHeld.refl s)
  · split
    · exact .inl (planHeld_identified _ _ _)
    · split
      · exact heldOr_unlock (planHeld_identified _ _ s)
      · exact .inl (PlanHeld.refl s)

theorem heldOr_unlockTest (op : HostOp) (s : State) : PlanHeldOr s (unlockTest op s) := by
  unfold unlockTest; split
  · exact .inl (planHeld_goto _ _ _)
  · exact .inr ⟨s, PlanHeld.refl s, rfl⟩

theorem planHeld_commandStart (op : HostOp) (s : State) : PlanHeld s (commandStart op s).state := by
  cases op
  · exact planHeld_probeStart _ s
  · exact planHeld_afterCheck (planHeld_readPrepare s)
  · exact planHeld_afterCheck (PlanHeld.refl s)
  · exact planHeld_afterCheck (PlanHeld.refl s)
  · exact PlanHeld.refl s

theorem heldOr_afterPoll (op : HostOp) (c : PollSite) (s : State) : PlanHeldOr s (afterPoll op c s) := by
  cases c
  · exact .inr ⟨s, PlanHeld.refl s, rfl⟩
  · exact .inr ⟨s, PlanHeld.refl s, rfl⟩
  · exact .inl ((planHeld_sectorDone s).trans (planHeld_eraseHead _ _))
  · exact .inl ((planHeld_bytesDone _ s).trans (planHeld_pageHead _ _))
  · exact .inl ((planHeld_bytesDone _ s).trans (planHeld_aaiLatch _ _))
  · exact .inl ((planHeld_bytesDone _ s).trans (planHeld_aaiHead _ _))
  · exact .inl (planHeld_aaiTail _ s)
  · exact .inl ((planHeld_bytesDone _ s).trans (planHeld_aaiLast _ _))

theorem heldOr_pollTest (op : HostOp) (c : PollSite) (s : State) : PlanHeldOr s (pollTest op c s) := by
  unfold pollTest; split
  · exact .inl (planHeld_goto _ _ _)
  · exact heldOr_afterPoll _ _ _

theorem heldOr_planAt (op : HostOp) (l : Label) (s : State) : PlanHeldOr s (planAt op l s) := by
  cases l
  case start => exact .inl (planHeld_commandStart _ s)
  case enter => exact .inl (planHeld_enterFrom _ _ s)
  case exit => exact .inl (planHeld_exitFrom _ _ s)
  case q2 => exact heldOr_probeIdentify _ s
  case u3 => exact heldOr_unlockTest _ s
  case r4 => exact .inl (planHeld_readHead _ s)
  case r4b => exact .inl (planHeld_readDrain _ s)
  case e3 => exact .inl (planHeld_eraseHead _ s)
  case e3b => exact .inl (planHeld_eraseFrame _ s)
  case g1 => exact .inl (planHeld_pageHead _ s)
  case g2 => exact .inl (planHeld_pageFill _ s)
  case s1m => exact .inl (planHeld_aaiOddFill _ s)
  case s2d => exact .inl ((planHeld_withFirst _ s).trans (planHeld_aaiHead _ _))
  case s3 => exact .inl (planHeld_aaiHead _ s)
  case s3m => exact .inl (planHeld_aaiPairFill _ s)
  case s5m => exact .inl (planHeld_aaiTailFill _ s)
  case polled c => exact heldOr_pollTest _ c s
  all_goals exact .inl (PlanHeld.refl s)

/-- Every plan leaves the probe results alone, or commits them in a completion with OK. -/
theorem plan_heldOr (s : State) : PlanHeldOr s (plan s) := by
  unfold plan; split
  · exact .inl (PlanHeld.refl s)
  · exact heldOr_planAt _ _ s

/-- The internal computation before an atomic step writes none of these fields. -/
theorem planSame (s : State) : PlanSame s (plan s).state := by
  rcases plan_heldOr s with h | ⟨u, h, e⟩
  · exact h.toPlanSame
  · rw [e]; exact h.toPlanSame.trans (planSame_commit u)

/-- The probe results stay unless the command completes with OK. -/
theorem plan_held {s : State} (h : (plan s).action ≠ .complete .ok) : PlanHeld s (plan s).state := by
  rcases plan_heldOr s with k | ⟨u, -, e⟩
  · exact k
  · rw [e] at h; exact absurd rfl h

/-! ## The head of a bulk command's loop -/

/-- An ERASE or WRITE whose checks have passed and whose bracket is entered, or which has none, starts its loop (R197, R211). -/
theorem plan_atLoop {s : State} {op : HostOp} (h : s.AtLoop op) (ho : op = .erase ∨ op = .write) : plan s = bulkStart op s := by
  rcases h with ⟨hp, hc, hb⟩ | ⟨k, hp, hk⟩
  · rcases ho with rfl | rfl <;> unfold State.checked at hc <;>
      simp only [plan, hp, planAt, commandStart, hc, afterCheck, enterFrom, hb, List.getElem?_nil]
  · simp only [plan, hp, planAt, enterFrom, List.getElem?_eq_none hk]

/-- A READ there starts its loop at its start offset, or after a bracket at the cursor (R241). -/
theorem plan_atLoop_read {s : State} (h : s.AtLoop .read) :
    plan s = readHead .read (if s.phase = .run .read .start then s.readPrepare.readInit else s.readInit) := by
  rcases h with ⟨hp, hc, hb⟩ | ⟨k, hp, hk⟩
  · have hb : s.readPrepare.bracket true = [] := hb
    unfold State.checked at hc
    simp only [plan, hp, planAt, commandStart, hc, afterCheck, enterFrom, hb, List.getElem?_nil, bulkStart, if_true]
  · rw [if_neg (by rw [hp]; simp)]
    simp only [plan, hp, planAt, enterFrom, List.getElem?_eq_none hk, bulkStart]

end Sys2Proof.Machine
end

