-- ==== Sys2Proof/Laws/Course.lean ====
section
/-! SUPPORT. From a state that meets the invariant, the plan stands at a position whose working registers are on their way, and
its atomic step is one the position can take. -/

namespace Sys2Proof.Machine

/-! ## A command in flight -/

/-- What holds of a command in flight past its first position, whatever the position. -/
def State.Flying (op : HostOp) (s : State) : Prop :=
  s.busy = true ∧ s.op = op ∧ s.err = .ok ∧ s.done = false ∧ s.mem.wf = true ∧
  (s.probeState = .probed → ∃ d, s.desc = some d ∧ descWf d = true ∧ s.params = derive s.par d) ∧
  (s.probeState ≠ .probed → s.desc = none ∧ s.params = Derived.none) ∧
  (bulkOp op = true → s.probeState = .probed ∧ s.checked op) ∧
  (op = .probe → s.probeState = .unprobed)

theorem flying_of_inv {s : State} {op : HostOp} {l : Label} (h : s.Inv) (hp : s.phase = .run op l) (hl : l ≠ .start) :
    s.Flying op := by
  have hb : s.busy = true := h.busyIff.2 (by rw [hp]; exact fun e => by cases e)
  have hc := h.command op l hp
  exact ⟨hb, hc.latched, (h.busyClear hb).1, (h.busyClear hb).2, h.mem, h.probed, h.unset, fun hbulk => hc.bulk hbulk hl,
    fun hpr => hc.probing hpr hl⟩

theorem State.Flying.inv {s : State} {op : HostOp} {l : Label} (h : s.Flying op) (hp : s.phase = .run op l)
    (hf : l.fits op = true) (hc : s.course l) : s.Inv := by
  obtain ⟨hb, hop, he, hd, hm, hpr, hun, hbulk, hprobe⟩ := h
  refine ⟨hpr, hun, ?_, fun _ => ⟨he, hd⟩, hm, ?_⟩
  · rw [hb, hp]; exact ⟨fun _ e => (by cases e), fun _ => rfl⟩
  · intro op' l' hp'
    rw [hp] at hp'
    cases hp'
    exact ⟨hf, hop, fun hb' _ => hbulk hb', fun hp' _ => hprobe hp', hc⟩

/-! ## What an atomic step can be -/

/-- The SPI command that a position issues (R47). -/
def State.issues (s : State) (i : Instr) : Label → Prop
  | .enter k => (s.bracket true)[k]? = some i
  | .exit k => (s.bracket false)[k]? = some i
  | .q1 => i = .rdid
  | .u1w => i = .wren
  | .u1s => i = .wrsr 0
  | .u2 => i = .rdsr
  | .u3w => i = .wren
  | .u3s => i = .wrsr (unlockValue s.sr s.mask)
  | .r4a => i = .fastRead s.cur s.n
  | .e3a => i = .wren
  | .e3b => s.eraseInstr s.cur = some i
  | .g3 => i = .wren
  | .g4 => i = .pp s.cur s.xfer
  | .s1w => i = .wren
  | .s1p => i = .pp s.cur s.xfer
  | .s2 => i = .wren
  | .s3f => i = s.pairInstr
  | .s4 => i = .wrdi
  | .s5w => i = .wren
  | .s5p => i = .pp s.cur s.xfer
  | .s6 => i = .wrdi
  | .poll _ => i = .rdsr
  | .start => False
  | .raise _ => False
  | .q2 => False
  | .u3 => False
  | .r4 => False
  | .r4b => False
  | .e3 => False
  | .g1 => False
  | .g2 => False
  | .s1m => False
  | .s2d => False
  | .s3 => False
  | .s3m => False
  | .s5m => False
  | .polled _ => False

/-- A position that still waits for DMA reads. -/
def State.fills (s : State) : Label → Prop
  | .g2 => s.xfer.length < s.n
  | .s1m => s.xfer.length < 1
  | .s3m => s.xfer.length < 2
  | .s5m => s.xfer.length < 1
  | _ => False

/-- A completion that the command `op` can take, at the state `s`. -/
structure Ending (op : HostOp) (e : ErrCode) (s : State) : Prop where
  inv : (s.complete e).Inv
  phase : ∃ l, s.phase = .run op l
  all : bulkOp op = true → e = .ok → s.progress = s.opLen
  probe : op = .probe → (e = .ok ∧ s.probeState = .probed) ∨ (e = .probeRejected ∧ s.probeState ≠ .unprobed) ∨
    (e ≠ .ok ∧ e ≠ .probeRejected ∧ s.probeState = .unprobed)

/-- What the plan of the command `op` can be. -/
def Planned.Good (op : HostOp) (q : Planned) : Prop :=
  match q.action with
  | .frame i => ∃ l, q.state.phase = .run op l ∧ l.fits op = true ∧ q.state.Flying op ∧ q.state.course l ∧ q.state.issues i l
  | .memRead a =>
    ∃ l, q.state.phase = .run op l ∧ l.fits op = true ∧ q.state.Flying op ∧ q.state.course l ∧ q.state.fills l ∧
      a = q.state.fillAddr
  | .memWrite a v =>
    op = .read ∧ q.state.phase = .run op .r4b ∧ q.state.Flying op ∧ q.state.course .r4b ∧ a = q.state.drainAddr ∧
      q.state.xfer.head? = some v
  | .complete e => Ending op e q.state
  | .refuse r => r = .descriptorIllFormed
  | .stuck _ => False
  | .none => False

theorem good_frame {op : HostOp} {i : Instr} {s : State} {l : Label} (hf : s.Flying op) (hl : l.fits op = true)
    (hc : s.course l) (hi : s.issues i l) : Planned.Good op { state := s.goto op l, action := .frame i } := by
  refine ⟨l, rfl, hl, hf, ?_, ?_⟩
  · cases l <;> exact hc
  · cases l <;> exact hi

/-- A completion of a command in flight that leaves the probe state alone, or fails a PROBE. -/
theorem complete_inv {s : State} {op : HostOp} {l : Label} {e : ErrCode} (hf : s.Flying op) (hp : s.phase = .run op l)
    (he : op = .probe → e ≠ .ok ∧ e ≠ .probeRejected) : (s.complete e).Inv := by
  obtain ⟨hb, hop, herr, hd, hm, hpr, hun, hbulk, hprobe⟩ := hf
  have hps : (s.complete e).probeState = .probed ↔ s.probeState = .probed := by
    rw [State.complete_probeState, hp]
    cases op
    case probe => simp [ProbeState.afterCompletion, he rfl, hprobe rfl]
    all_goals rfl
  refine ⟨fun h => hpr (hps.1 h), fun h => hun fun h' => h (hps.2 h'), ?_, fun h => (by cases h), hm, fun _ _ h => (by cases h)⟩
  exact ⟨fun h => (by cases h), fun h => absurd rfl h⟩

theorem good_finish {op : HostOp} {l : Label} {s : State} (hf : s.Flying op) (hp : s.phase = .run op l) (hop : bulkOp op = true)
    (hd : s.allDone) : Planned.Good op (finish s) :=
  ⟨complete_inv hf hp (fun h => by rw [h] at hop; cases hop), ⟨l, hp⟩, fun _ _ => hd, fun h => by rw [h] at hop; cases hop⟩

theorem good_exitFrom {op : HostOp} {l : Label} {k : Nat} {s : State} (hf : s.Flying op) (hp : s.phase = .run op l)
    (hop : bulkOp op = true) (hd : s.allDone) : Planned.Good op (exitFrom op k s) := by
  unfold exitFrom
  split
  · next i hi => exact good_frame hf hop hd hi
  · exact good_finish hf hp hop hd

/-! ## ERASE -/

theorem eraseUnit_of_flying {s : State} {op : HostOp} (hf : s.Flying op) (hop : bulkOp op = true) :
    ∃ d, s.desc = some d ∧ descWf d = true ∧ s.params = derive s.par d ∧ s.eraseUnit = eraseSizeOf d.granularity := by
  obtain ⟨d, hd, hwf, hpar⟩ := hf.2.2.2.2.2.1 (hf.2.2.2.2.2.2.2.1 hop).1
  refine ⟨d, hd, hwf, hpar, ?_⟩
  rw [State.eraseUnit, hpar]
  cases h : d.granularity <;> simp [derive, h, eraseSizeOf]

theorem good_eraseHead {l : Label} {s : State} (hf : s.Flying .erase) (hp : s.phase = .run .erase l) (hc : s.eraseCourse) :
    Planned.Good .erase (eraseHead .erase s) := by
  unfold eraseHead
  split
  · next h => exact good_frame (l := .e3a) hf rfl ⟨hc, h⟩ rfl
  · next h =>
    refine good_exitFrom hf hp rfl ?_
    obtain ⟨h1, h2, h3, h4⟩ := hc
    have : s.rem = 0 := by omega
    rw [State.allDone, h4]
    rw [this, Nat.zero_mul, Nat.add_zero] at h3
    rw [h3, Nat.add_sub_cancel_left, BitVec.ofNat_toNat, BitVec.setWidth_eq]

theorem eraseInstr_isSome {s : State} {op : HostOp} (hf : s.Flying op) (hop : bulkOp op = true) (c : Nat) :
    ∃ i, s.eraseInstr c = some i := by
  obtain ⟨d, -, -, hpar, -⟩ := eraseUnit_of_flying hf hop
  unfold State.eraseInstr
  split_ifs with _ _ _ h4 h5 h6 h7
  all_goals first | exact ⟨_, rfl⟩ | exfalso
  rw [hpar] at h4 h5 h6 h7
  cases hg : d.granularity <;> simp_all [derive, eraseOpOf]

/-- The erase frame's unit is a sector of the probed chip, whichever opcodes are equal (R16, R196, R280). -/
theorem unitOf_eraseInstr {s : State} {op : HostOp} (hf : s.Flying op) (hop : bulkOp op = true) {c : Nat} {i : Instr}
    (hi : s.eraseInstr c = some i) : s.unitOf i = some { addr := c, size := s.eraseUnit } := by
  obtain ⟨d, -, -, hpar, -⟩ := eraseUnit_of_flying hf hop
  have hu : s.eraseUnit = eraseSizeOf d.granularity := by
    rw [State.eraseUnit, hpar]; cases hg : d.granularity <;> simp [derive, hg, eraseSizeOf]
  have ho : s.params.eraseOp = eraseOpOf s.par d.granularity := by rw [hpar]; rfl
  unfold State.eraseInstr at hi
  split_ifs at hi with h1 h2 h3 h4 h5 h6 h7 <;> cases hi <;> simp only [State.unitOf, Option.some.injEq, Span.mk.injEq, true_and]
  · exact h1.2.symm
  · exact h2.2.symm
  · exact h3.2.symm
  · rfl
  all_goals
    exfalso
    cases hg : d.granularity <;> simp only [hg, eraseSizeOf, eraseOpOf] at hu ho <;> simp_all

theorem good_eraseFrame {s : State} (hf : s.Flying .erase) (hc : s.eraseCourse ∧ 0 < s.rem) :
    Planned.Good .erase (eraseFrame .erase s) := by
  obtain ⟨i, hi⟩ := eraseInstr_isSome hf rfl s.cur
  simp only [eraseFrame, hi]
  exact good_frame (l := .e3b) hf rfl hc hi

theorem eraseCourse_init {s : State} (hf : s.Flying .erase) (hp : s.progress = 0) : s.eraseInit.eraseCourse := by
  have hck : s.eraseCheck = none := (hf.2.2.2.2.2.2.2.1 rfl).2
  simp only [State.eraseCheck] at hck
  split_ifs at hck with h1 h2 h3 h4
  refine ⟨Nat.le_refl _, Classical.not_not.1 h2, ?_, ?_⟩
  · change s.opAddr.toNat + s.opLen.toNat / s.eraseUnit * s.eraseUnit = _
    have h5 : s.opLen.toNat % s.eraseUnit = 0 := by
      have := Nat.add_mod s.opAddr.toNat s.opLen.toNat s.eraseUnit
      rw [Classical.not_not.1 h2, Classical.not_not.1 h3, Nat.zero_add, Nat.mod_mod] at this
      exact this.symm
    rw [Nat.div_mul_cancel (Nat.dvd_of_mod_eq_zero h5)]; rfl
  · change s.progress = BitVec.ofNat 32 (s.opAddr.toNat - s.opAddr.toNat)
    rw [hp, Nat.sub_self]; rfl

theorem eraseCourse_done {s : State} (hc : s.eraseCourse) (hr : 0 < s.rem) : s.sectorDone.eraseCourse := by
  obtain ⟨h1, h2, h3, h4⟩ := hc
  refine ⟨Nat.le_trans h1 (Nat.le_add_right _ _), ?_, ?_, ?_⟩
  · change (s.cur + s.eraseUnit) % s.eraseUnit = 0
    rw [Nat.add_mod_right, h2]
  · change s.cur + s.eraseUnit + (s.rem - 1) * s.eraseUnit = s.opAddr.toNat + s.opLen.toNat
    rw [← h3, Nat.add_assoc]
    congr 1
    obtain ⟨r, hr'⟩ : ∃ r, s.rem = r + 1 := ⟨s.rem - 1, by omega⟩
    rw [hr', Nat.add_sub_cancel, Nat.succ_mul, Nat.add_comm]
  · change s.progress + s.params.eraseSize = BitVec.ofNat 32 (s.cur + s.eraseUnit - s.opAddr.toNat)
    rw [h4, Nat.sub_add_comm h1, BitVec.ofNat_add]
    simp [State.eraseUnit]

/-! ## WRITE -/

theorem good_fillThen {op : HostOp} {l : Label} {k : Nat} {done : State → Planned} {s : State} (hf : s.Flying op)
    (hl : l.fits op = true) (hc : s.course l) (hk : s.xfer.length < k → s.fills l)
    (hd : ¬ s.xfer.length < k → Planned.Good op (done s)) : Planned.Good op (fillThen op l k done s) := by
  unfold fillThen
  split
  · next h =>
    refine ⟨l, rfl, hl, hf, ?_, ?_, rfl⟩
    · cases l <;> exact hc
    · cases l <;> exact hk h
  · next h => exact hd h

theorem good_pageFill {s : State} (hf : s.Flying .write) (hc : s.pageChunk) (hx : s.xfer.length ≤ s.n) :
    Planned.Good .write (pageFill .write s) :=
  good_fillThen (l := .g2) hf rfl ⟨hc, hx⟩ id fun h =>
    good_frame (l := .g3) hf rfl ⟨hc, by omega⟩ rfl

theorem writeCourse_allDone {s : State} (hc : s.writeCourse) (hr : s.rem = 0) : s.allDone := by
  obtain ⟨-, h2, h3⟩ := hc
  rw [State.allDone, h3, show s.hoff = s.opLen.toNat by omega, BitVec.ofNat_toNat, BitVec.setWidth_eq]

theorem good_pageHead {l : Label} {s : State} (hf : s.Flying .write) (hp : s.phase = .run .write l) (hc : s.pageCourse) :
    Planned.Good .write (pageHead .write s) := by
  unfold pageHead
  split
  · next h =>
    exact good_pageFill (s := (s.withChunk _).withBuffer []) hf ⟨hc, h, rfl⟩ (Nat.zero_le _)
  · next h => exact good_exitFrom hf hp rfl (writeCourse_allDone hc.1 (by omega))

theorem good_aaiLast {s : State} (hf : s.Flying .write) (hc : s.aaiCourse) (hr : s.rem = 0) :
    Planned.Good .write (aaiLast .write s) := good_frame (l := .s6) hf rfl ⟨hc, hr⟩ rfl

theorem good_aaiTailFill {s : State} (hf : s.Flying .write) (hc : s.aaiEven) (hr : s.rem = 1) (hx : s.xfer.length ≤ 1) :
    Planned.Good .write (aaiTailFill .write s) :=
  good_fillThen (l := .s5m) hf rfl ⟨hc, hr, hx⟩ id fun h => good_frame (l := .s5w) hf rfl ⟨hc, hr, by omega⟩ rfl

theorem good_aaiTail {s : State} (hf : s.Flying .write) (hc : s.aaiEven) (hr : s.rem ≤ 1) :
    Planned.Good .write (aaiTail .write s) := by
  unfold aaiTail
  split
  · next h => exact good_aaiTailFill (s := s.withBuffer []) hf hc h (Nat.zero_le _)
  · next h => exact good_aaiLast hf hc.1 (by omega)

theorem good_aaiPairFill {s : State} (hf : s.Flying .write) (hc : s.aaiEven) (hr : 2 ≤ s.rem) (hx : s.xfer.length ≤ 2) :
    Planned.Good .write (aaiPairFill .write s) :=
  good_fillThen (l := .s3m) hf rfl ⟨hc, hr, hx⟩ id fun h => good_frame (l := .s3f) hf rfl ⟨hc, hr, by omega⟩ rfl

theorem good_aaiHead {s : State} (hf : s.Flying .write) (hc : s.aaiEven) : Planned.Good .write (aaiHead .write s) := by
  unfold aaiHead
  split
  · next h => exact good_aaiPairFill (s := s.withBuffer []) hf hc h (Nat.zero_le _)
  · next h => exact good_frame (l := .s4) hf rfl ⟨hc, by omega⟩ rfl

theorem good_aaiLatch {s : State} (hf : s.Flying .write) (hc : s.aaiEven) : Planned.Good .write (aaiLatch .write s) :=
  good_frame (l := .s2) hf rfl hc rfl

theorem good_aaiOddFill {s : State} (hf : s.Flying .write) (hc : s.aaiOdd) (hx : s.xfer.length ≤ 1) :
    Planned.Good .write (aaiOddFill .write s) :=
  good_fillThen (l := .s1m) hf rfl ⟨hc, hx⟩ id fun h => good_frame (l := .s1w) hf rfl ⟨hc, by omega⟩ rfl

theorem good_aaiStart {s : State} (hf : s.Flying .write) (hc : s.aaiCourse) (hr : 1 ≤ s.rem) :
    Planned.Good .write (aaiStart .write s) := by
  unfold aaiStart
  split
  · next h => exact good_aaiOddFill (s := s.withBuffer []) hf ⟨hc, h, hr⟩ (Nat.zero_le _)
  · next h => exact good_aaiLatch hf ⟨hc, by omega⟩

theorem writeCourse_bytesDone {s : State} {k : Nat} (hc : s.writeCourse) (hk : k ≤ s.rem) : (s.bytesDone k).writeCourse := by
  obtain ⟨h1, h2, h3⟩ := hc
  refine ⟨?_, ?_, ?_⟩
  · change s.cur + k = s.opAddr.toNat + (s.hoff + k); omega
  · change s.hoff + k + (s.rem - k) = s.opLen.toNat; omega
  · change s.progress + BitVec.ofNat 32 k = BitVec.ofNat 32 (s.hoff + k); rw [h3, BitVec.ofNat_add]

theorem aaiEven_bytesDone {s : State} (hc : s.aaiEven) (hk : 2 ≤ s.rem) : (s.bytesDone 2).aaiEven :=
  ⟨⟨writeCourse_bytesDone hc.1.1 hk, hc.1.2⟩, by change (s.cur + 2) % 2 = 0; have := hc.2; omega⟩

theorem good_programStart {l : Label} {s : State} (hf : s.Flying .write) (hp : s.phase = .run .write l) (h0 : s.progress = 0) :
    Planned.Good .write (programStart .write s) := by
  have hck : s.writeCheck = none := (hf.2.2.2.2.2.2.2.1 rfl).2
  have hlen : 1 ≤ s.opLen.toNat := by
    simp only [State.writeCheck] at hck
    split_ifs at hck with h1 h2 h3 h4
    have : s.opLen.toNat ≠ 0 := fun h => h2 (BitVec.eq_of_toNat_eq (by simpa using h))
    omega
  have hw : s.programInit.writeCourse := ⟨rfl, Nat.zero_add _, by change s.progress = _; rw [h0]; rfl⟩
  unfold programStart
  split
  · next h => exact good_aaiStart (s := s.programInit) hf ⟨hw, h⟩ hlen
  · next h => exact good_pageHead (s := s.programInit) hf hp ⟨hw, by simpa using h⟩

/-! ## READ -/

theorem good_readHead {l : Label} {s : State} (hf : s.Flying .read) (hp : s.phase = .run .read l) (hc : s.readCourse) :
    Planned.Good .read (readHead .read s) := by
  unfold readHead
  split
  · next h => exact good_frame (s := s.withChunk _) (l := .r4a) hf rfl ⟨hc, h, rfl⟩ rfl
  · next h =>
    refine good_exitFrom hf hp rfl ?_
    obtain ⟨-, h2, h3⟩ := hc
    rw [State.allDone, h3, show s.hoff = s.opLen.toNat by omega, BitVec.ofNat_toNat, BitVec.setWidth_eq]

theorem readCourse_chunkDone {s : State} (hc : s.readCourse) (hn : s.n ≤ s.rem) : s.chunkDone.readCourse := by
  obtain ⟨h1, h2, h3⟩ := hc
  refine ⟨?_, ?_, ?_⟩
  · change s.cur + s.n = s.readOffset + (s.hoff + s.n); omega
  · change s.hoff + s.n + (s.rem - s.n) = s.opLen.toNat; omega
  · change s.progress + BitVec.ofNat 32 s.n = BitVec.ofNat 32 (s.hoff + s.n); rw [h3, BitVec.ofNat_add]

theorem good_readDrain {s : State} (hf : s.Flying .read) (hp : s.phase = .run .read .r4b)
    (hc : s.course .r4b) : Planned.Good .read (readDrain .read s) := by
  unfold readDrain
  split
  · next v vs hx => exact ⟨rfl, rfl, hf, hc, rfl, by change s.xfer.head? = _; rw [hx]; rfl⟩
  · next hx =>
    refine good_readHead (s := s.chunkDone) hf hp (readCourse_chunkDone hc.1 ?_)
    rw [hc.2.2.1]; exact Nat.min_le_left _ _

/-! ## The bracket and the checks -/

theorem good_bulkStart {op : HostOp} {l : Label} {s : State} (hf : s.Flying op) (hp : s.phase = .run op l)
    (hop : bulkOp op = true) (hc : s.enterCourse) : Planned.Good op (bulkStart op s) := by
  cases op
  case probe => cases hop
  case illegal => cases hop
  case read =>
    exact good_readHead (s := s.readInit) hf hp
      ⟨hc.2 hf.2.1, Nat.zero_add _, by change s.progress = _; rw [hc.1]; rfl⟩
  case erase => exact good_eraseHead (s := s.eraseInit) hf hp (eraseCourse_init hf hc.1)
  case write => exact good_programStart hf hp hc.1

theorem good_enterFrom {op : HostOp} {l : Label} {k : Nat} {s : State} (hf : s.Flying op) (hp : s.phase = .run op l)
    (hop : bulkOp op = true) (hc : s.enterCourse) : Planned.Good op (enterFrom op k s) := by
  unfold enterFrom
  split
  · next i hi => exact good_frame hf hop hc hi
  · exact good_bulkStart hf hp hop hc

/-- A completion from the first position, with a code other than the failure of a PROBE. -/
theorem complete_start_inv {s : State} {op : HostOp} {l : Label} {e : ErrCode} (h : s.Inv) (hp : s.phase = .run op l)
    (he : op = .probe → e = .ok ∨ e = .probeRejected) : (s.complete e).Inv := by
  have hps : (s.complete e).probeState = s.probeState := by
    rw [State.complete_probeState, hp]
    cases op
    case probe => simp [ProbeState.afterCompletion, he rfl]
    all_goals rfl
  refine ⟨fun k => h.probed (hps ▸ k), fun k => h.unset (hps ▸ k), ?_, fun k => (by cases k), h.mem, fun _ _ k => (by cases k)⟩
  exact ⟨fun k => (by cases k), fun k => absurd rfl k⟩

/-- Checks that pass leave a command in flight; a code completes it (R134, R283). -/
theorem good_afterCheck {c : Option ErrCode} {op : HostOp} {s t : State} (h : s.Inv) (hp : s.phase = .run op .start)
    (hop : bulkOp op = true) (hok : c = some .ok → s.opLen = 0)
    (hgo : c = none → t.Flying op ∧ t.phase = .run op .start ∧ t.enterCourse) : Planned.Good op (afterCheck c op s t) := by
  unfold afterCheck
  split
  · next e _ =>
    refine ⟨complete_start_inv h hp (fun k => by rw [k] at hop; cases hop), ⟨_, hp⟩, ?_, fun k => by rw [k] at hop; cases hop⟩
    rintro - rfl
    rw [hok rfl]
    exact (h.command op .start hp).course
  · obtain ⟨h1, h2, h3⟩ := hgo rfl
    exact good_enterFrom h1 h2 hop h3

theorem probed_of_readCheck {s : State} (h : s.readCheck = none) : s.probeState = .probed := by
  simp only [State.readCheck] at h; split_ifs at h with h1 h2 h3; exact Classical.not_not.1 h1

theorem probed_of_eraseCheck {s : State} (h : s.eraseCheck = none) : s.probeState = .probed := by
  simp only [State.eraseCheck] at h; split_ifs at h with h1 h2 h3; exact Classical.not_not.1 h1

theorem probed_of_writeCheck {s : State} (h : s.writeCheck = none) : s.probeState = .probed := by
  simp only [State.writeCheck] at h; split_ifs at h with h1 h2 h3; exact Classical.not_not.1 h1

theorem flying_of_checked {s : State} {op : HostOp} {l : Label} (h : s.Inv) (hp : s.phase = .run op l)
    (hop : bulkOp op = true) (hpr : s.probeState = .probed) (hck : s.checked op) : s.Flying op := by
  have hb : s.busy = true := h.busyIff.2 (by rw [hp]; exact fun e => by cases e)
  exact ⟨hb, (h.command op l hp).latched, (h.busyClear hb).1, (h.busyClear hb).2, h.mem, h.probed, h.unset,
    fun _ => ⟨hpr, hck⟩, fun k => by rw [k] at hop; cases hop⟩

/-! ## PROBE -/

theorem good_probeDone {l : Label} {s : State} (hf : s.Flying .probe) (hp : s.phase = .run .probe l) (hc : s.probeCourse) :
    Planned.Good .probe (probeDone s) := by
  obtain ⟨hb, hop, herr, hd, hm, hpr, hun, hbulk, hprobe⟩ := hf
  refine ⟨?_, ⟨l, hp⟩, fun k => (by cases k), fun _ => .inl ⟨rfl, rfl⟩⟩
  obtain ⟨-, d, h1, h2, h3⟩ := hc
  have hps : (s.commit.complete .ok).probeState = .probed := by
    rw [State.complete_probeState, State.commit_phase, hp]; rfl
  exact ⟨fun _ => ⟨d, h1, h2, h3⟩, fun k => absurd hps k, ⟨fun k => (by cases k), fun k => absurd rfl k⟩,
    fun k => (by cases k), hm, fun _ _ k => (by cases k)⟩

/-- A PROBE that fails (R259, R278). -/
theorem ending_failed {l : Label} {e : ErrCode} {s : State} (hf : s.Flying .probe) (hp : s.phase = .run .probe l) (h1 : e ≠ .ok)
    (h2 : e ≠ .probeRejected) : Ending .probe e s :=
  ⟨complete_inv hf hp fun _ => ⟨h1, h2⟩, ⟨l, hp⟩, fun k => (by cases k),
    fun _ => .inr (.inr ⟨h1, h2, hf.2.2.2.2.2.2.2.2 rfl⟩)⟩

theorem good_unlock {l : Label} {d : Descriptor} {s : State} (hf : s.Flying .probe) (hp : s.phase = .run .probe l)
    (hc : s.probeCourse) : Planned.Good .probe (unlock .probe d s) := by
  unfold unlock
  split
  · exact good_frame (l := .u1w) hf rfl hc rfl
  · split
    · exact good_frame (s := s.withMask _) (l := .u2) hf rfl hc rfl
    · exact good_probeDone hf hp hc

theorem good_probeIdentify {l : Label} {s : State} (hf : s.Flying .probe) (hp : s.phase = .run .probe l) (h0 : s.progress = 0) :
    Planned.Good .probe (probeIdentify .probe s) := by
  unfold probeIdentify
  split
  · exact ending_failed hf hp (by decide) (by decide)
  · split
    · exact ending_failed (s := s.identified none s.pparams) hf hp (by decide) (by decide)
    · next d _ =>
      split
      · next hwf => exact good_unlock (s := s.identified (some d) (derive s.par d)) hf hp ⟨h0, d, rfl, hwf, rfl⟩
      · rfl

theorem good_unlockTest {l : Label} {s : State} (hf : s.Flying .probe) (hp : s.phase = .run .probe l) (hc : s.probeCourse) :
    Planned.Good .probe (unlockTest .probe s) := by
  unfold unlockTest
  split
  · exact good_frame (l := .u3w) hf rfl hc rfl
  · exact good_probeDone hf hp hc

/-! ## Every position -/

theorem good_commandStart {s : State} {op : HostOp} (h : s.Inv) (hp : s.phase = .run op .start) :
    Planned.Good op (commandStart op s) := by
  have hc := (h.command op .start hp).course
  have hb : s.busy = true := h.busyIff.2 (by rw [hp]; exact fun e => by cases e)
  cases op
  case probe =>
    change Planned.Good .probe (probeStart .probe s)
    unfold probeStart
    split
    · next hu => exact ⟨complete_start_inv h hp fun _ => .inr rfl, ⟨_, hp⟩, fun k => (by cases k), fun _ => .inr (.inl ⟨rfl, hu⟩)⟩
    · next hu =>
      refine good_frame (l := .q1) ?_ rfl hc rfl
      exact ⟨hb, (h.command _ _ hp).latched, (h.busyClear hb).1, (h.busyClear hb).2, h.mem, h.probed, h.unset,
        fun k => (by cases k), fun _ => Classical.not_not.1 hu⟩
  case read =>
    refine good_afterCheck h hp rfl ?_ fun k =>
      ⟨flying_of_checked (s := s) h hp rfl (probed_of_readCheck k) k, hp, hc, fun _ => rfl⟩
    intro k; simp only [State.readCheck] at k; split_ifs at k with h1 h2 <;> first | exact h2 | simp at k
  case erase =>
    refine good_afterCheck h hp rfl ?_ fun k =>
      ⟨flying_of_checked (s := s) h hp rfl (probed_of_eraseCheck k) k, hp, hc, fun e => ?_⟩
    · intro k; simp only [State.eraseCheck] at k; split_ifs at k <;> simp at k
    · rw [(h.command _ _ hp).latched] at e; cases e
  case write =>
    refine good_afterCheck h hp rfl ?_ fun k =>
      ⟨flying_of_checked (s := s) h hp rfl (probed_of_writeCheck k) k, hp, hc, fun e => ?_⟩
    · intro k; simp only [State.writeCheck] at k; split_ifs at k with h1 h2 <;> first | exact h2 | simp at k
    · rw [(h.command _ _ hp).latched] at e; cases e
  case illegal => exact ⟨complete_start_inv h hp (fun k => by cases k), ⟨_, hp⟩, fun k => (by cases k), fun k => by cases k⟩

theorem good_afterPoll {op : HostOp} {c : PollSite} {s : State} (hf : s.Flying op) (hp : s.phase = .run op (.polled c))
    (ho : op = c.owner) (hc : s.pollCourse c) : Planned.Good op (afterPoll op c s) := by
  cases c <;> subst ho
  case u1 => exact good_probeDone hf hp hc
  case u3 => exact good_probeDone hf hp hc
  case e => exact good_eraseHead (s := s.sectorDone) hf hp (eraseCourse_done hc.1 hc.2)
  case g =>
    refine good_pageHead (s := s.bytesDone s.n) hf hp ⟨writeCourse_bytesDone hc.1.1 ?_, hc.1.2⟩
    rw [hc.2.2]; exact Nat.min_le_left _ _
  case s1 =>
    refine good_aaiLatch (s := s.bytesDone 1) hf ⟨⟨writeCourse_bytesDone hc.1.1 hc.2.2, hc.1.2⟩, ?_⟩
    change (s.cur + 1) % 2 = 0
    have := hc.2.1; omega
  case s3 => exact good_aaiHead (s := s.bytesDone 2) hf (aaiEven_bytesDone hc.1 hc.2.1)
  case s4 => exact good_aaiTail hf hc.1 hc.2
  case s5 =>
    refine good_aaiLast (s := s.bytesDone 1) hf ⟨writeCourse_bytesDone hc.1.1.1 (by rw [hc.2]), hc.1.1.2⟩ ?_
    change s.rem - 1 = 0
    have := hc.2; omega

/-- The plan at every position of a command in flight is good. -/
theorem good_planAt {s : State} {op : HostOp} {l : Label} (h : s.Inv) (hp : s.phase = .run op l) :
    Planned.Good op (planAt op l s) := by
  by_cases hl : l = .start
  · subst hl; exact good_commandStart h hp
  have hf := flying_of_inv h hp hl
  have hc := (h.command op l hp).course
  have hfit := (h.command op l hp).fits
  cases l <;> simp only [Label.fits, decide_eq_true_eq, Bool.and_eq_true] at hfit
  case start => exact absurd rfl hl
  case raise e =>
    obtain ⟨rfl, -⟩ := hfit
    exact ⟨complete_inv hf hp fun _ => ⟨by decide, by decide⟩, ⟨_, hp⟩, fun _ k => (by cases k),
      fun k => .inr (.inr ⟨by decide, by decide, hf.2.2.2.2.2.2.2.2 k⟩)⟩
  case enter k => exact good_enterFrom hf hp hfit hc
  case exit k => exact good_exitFrom hf hp hfit hc
  all_goals subst hfit
  case q2 => exact good_probeIdentify hf hp hc
  case u3 => exact good_unlockTest hf hp hc
  case r4 => exact good_readHead hf hp hc
  case r4b => exact good_readDrain hf hp hc
  case e3 => exact good_eraseHead hf hp hc
  case e3b => exact good_eraseFrame hf hc
  case g1 => exact good_pageHead hf hp hc
  case g2 => exact good_pageFill hf hc.1 hc.2
  case s1m => exact good_aaiOddFill hf hc.1 hc.2
  case s2d => exact good_aaiHead (s := s.withFirst true) hf hc
  case s3 => exact good_aaiHead hf hc
  case s3m => exact good_aaiPairFill hf hc.1 hc.2.1 hc.2.2
  case s5m => exact good_aaiTailFill hf hc.1 hc.2.1 hc.2.2
  case polled c =>
    change Planned.Good c.owner (pollTest c.owner c s)
    unfold pollTest
    split
    · exact good_frame (l := .poll c) hf (by simp [Label.fits]) hc rfl
    · exact good_afterPoll hf hp rfl hc
  all_goals exact ⟨_, hp, by first | rfl | simp [Label.fits], hf, hc, rfl⟩

/-- Every plan of a command in flight is good. -/
theorem good_plan {s : State} {op : HostOp} {l : Label} (h : s.Inv) (hp : s.phase = .run op l) : Planned.Good op (plan s) := by
  have e : plan s = planAt op l s := by simp only [plan, hp]
  rw [e]; exact good_planAt h hp

/-- A frame that is planned is one that a position issues. -/
theorem issued {s : State} {i : Instr} (h : s.Inv) (ha : (plan s).action = .frame i) :
    ∃ op l l', s.phase = .run op l ∧ (plan s).state.phase = .run op l' ∧ l'.fits op = true ∧ (plan s).state.Flying op ∧
      (plan s).state.course l' ∧ (plan s).state.issues i l' := by
  cases hp : s.phase with
  | idle => simp [plan, hp] at ha
  | run op l =>
    have hg := good_plan h hp
    simp only [Planned.Good, ha] at hg
    obtain ⟨l', h1, h2, h3, h4, h5⟩ := hg
    exact ⟨op, l, l', rfl, h1, h2, h3, h4, h5⟩

/-- ILLEGAL issues no command (R133). -/
theorem not_fits_illegal {l : Label} {s : State} {i : Instr} (hi : s.issues i l) : l.fits .illegal = false := by
  cases l <;> simp [State.issues] at hi <;> simp [Label.fits, bulkOp]
  rename_i c; cases c <;> simp [PollSite.owner]

/-- No command but PROBE writes the probe results (R41 to R43). -/
theorem planHeld_of_ne {op : HostOp} {l : Label} {s : State} (hf : l.fits op = true) (h : op ≠ .probe) :
    PlanHeld s (planAt op l s).state := by
  rcases heldOr_planAt op l s with k | ⟨u, k, e⟩
  · exact k
  · cases l <;> simp only [Label.fits, decide_eq_true_eq] at hf
    case start => exact planHeld_commandStart _ s
    case raise => exact PlanHeld.refl s
    case enter => exact planHeld_enterFrom _ _ s
    case exit => exact planHeld_exitFrom _ _ s
    case r4 => exact planHeld_readHead _ s
    case r4b => exact planHeld_readDrain _ s
    case e3 => exact planHeld_eraseHead _ s
    case e3b => exact planHeld_eraseFrame _ s
    case g1 => exact planHeld_pageHead _ s
    case g2 => exact planHeld_pageFill _ s
    case s1m => exact planHeld_aaiOddFill _ s
    case s2d => exact (planHeld_withFirst _ s).trans (planHeld_aaiHead _ _)
    case s3 => exact planHeld_aaiHead _ s
    case s3m => exact planHeld_aaiPairFill _ s
    case s5m => exact planHeld_aaiTailFill _ s
    case polled c =>
      change PlanHeld s (pollTest op c s).state
      unfold pollTest
      split
      · exact planHeld_goto _ _ _
      · cases c
        case u1 => exact absurd hf h
        case u3 => exact absurd hf h
        case e => exact (planHeld_sectorDone s).trans (planHeld_eraseHead _ _)
        case g => exact (planHeld_bytesDone _ s).trans (planHeld_pageHead _ _)
        case s1 => exact (planHeld_bytesDone _ s).trans (planHeld_aaiLatch _ _)
        case s3 => exact (planHeld_bytesDone _ s).trans (planHeld_aaiHead _ _)
        case s4 => exact planHeld_aaiTail _ s
        case s5 => exact (planHeld_bytesDone _ s).trans (planHeld_aaiLast _ _)
    all_goals first | exact absurd hf h | exact PlanHeld.refl s

end Sys2Proof.Machine
end

