-- ==== Sys2Proof/Laws/Decode.lean ====
section
/-! SUPPORT. Byte order: an address field and the byte lanes of a register are read back whole. -/

namespace Sys2Proof

@[simp] theorem encodeAddr_length (a : Nat) (w : AddrWidth) : (encodeAddr a w).length = w.bytes := by cases w <;> rfl

/-- An address that fits its field is read back (R97). -/
theorem decodeAddr_encodeAddr {a : Nat} {w : AddrWidth} (h : addrFits w a = true) : decodeAddr (encodeAddr a w) = a := by
  cases w with
  | unset => cases h
  | three =>
    have h : a < 16777216 := by simpa [addrFits] using h
    simp [encodeAddr, decodeAddr]; omega
  | four =>
    have h : a < 4294967296 := by simpa [addrFits] using h
    simp [encodeAddr, decodeAddr]; omega

/-- The bytes before the data are the address field. -/
@[simp] theorem take_encodeAddr (a : Nat) (w : AddrWidth) (d : List Byte) :
    (encodeAddr a w ++ d).take w.bytes = encodeAddr a w := by
  rw [← encodeAddr_length a w, List.take_left]

/-- The bytes after the address field are the data. -/
@[simp] theorem drop_encodeAddr (a : Nat) (w : AddrWidth) (d : List Byte) : (encodeAddr a w ++ d).drop w.bytes = d := by
  rw [← encodeAddr_length a w, List.drop_left]

/-- The byte lanes of a register hold its value (R65). -/
theorem wordOfLanes_wordLanes (v : Word) : wordOfLanes (wordLanes v) = some v := by
  simp only [wordLanes, wordOfLanes, Option.some.injEq]
  apply BitVec.eq_of_getLsbD_eq
  intro i hi
  have hi : i < 32 := hi
  simp only [BitVec.getLsbD_append, BitVec.getLsbD_extractLsb']
  by_cases h1 : i < 8
  · simp [h1]
  · by_cases h2 : i < 16
    · simp [h1, show i - 8 < 8 by omega, show 8 + (i - 8) = i by omega]
    · by_cases h3 : i < 24
      · simp [h1, show ¬ i - 8 < 8 by omega, show i - 8 - 8 < 8 by omega, show 16 + (i - 8 - 8) = i by omega]
      · simp [h1, show ¬ i - 8 < 8 by omega, show ¬ i - 8 - 8 < 8 by omega, show i - 8 - 8 - 8 < 8 by omega,
          show 24 + (i - 8 - 8 - 8) = i by omega]

/-- A continuation's prefix is read off (R104). -/
theorem decodeContinuation_frameF6 (p : Params) (d0 d1 : Byte) :
    decodeContinuation p (frameF6 p.aaiContPrefix d0 d1).tx = some (.aaiCont d0 d1) := by
  have h : p.aaiContPrefix.isPrefixOf (p.aaiContPrefix ++ [d0, d1]) = true :=
    List.isPrefixOf_iff_prefix.2 (List.prefix_append _ _)
  simp [decodeContinuation, frameF6, h]

/-- A frame of one byte is no continuation. -/
theorem decodeContinuation_one (p : Params) (b : Byte) : decodeContinuation p [b] = none := by
  unfold decodeContinuation
  split
  · cases p.aaiContPrefix with
    | nil => rfl
    | cons x xs => cases xs <;> rfl
  · rfl

/-- Distinct means: no element occurs again. -/
theorem allDistinct_cons (x : Byte) (xs : List Byte) : allDistinct (x :: xs) = true ↔ x ∉ xs ∧ allDistinct xs = true := by
  simp [allDistinct]

end Sys2Proof
end

