-- ==== Sys2Proof/Laws/Flags.lean ====
section
/-! SUPPORT. Bits of a field placed in a register. -/

namespace Sys2Proof.Machine

/-- Bit `i` of a field at bit `k`. -/
theorem getLsbD_place {n : Nat} (v : BitVec n) (k i : Nat) :
    (place v k).getLsbD i = (decide (i < 32) && decide (k ≤ i) && v.getLsbD (i - k)) := by
  simp only [place, BitVec.getLsbD_shiftLeft, BitVec.getLsbD_setWidth]
  by_cases h1 : i < 32
  · by_cases h2 : k ≤ i
    · simp [h1, h2, Nat.not_lt.2 h2, show i - k < 32 by omega]
    · simp [h2, Nat.lt_of_not_le h2]
  · simp [h1]

theorem getElem_place {n : Nat} (v : BitVec n) (k i : Nat) (h : i < 32) :
    (place v k)[i] = (decide (k ≤ i) && v.getLsbD (i - k)) := by
  rw [← BitVec.getLsbD_eq_getElem h, getLsbD_place]; simp [h]

end Sys2Proof.Machine
end

