-- ==== Sys2Proof/Laws/Frames.lean ====
section
/-! SUPPORT. What a frame does to a command in flight: which command a position issues, and the working registers after it. -/

namespace Sys2Proof.Machine

/-- The commands of `SetAddressMode` (R178, R179). -/
theorem mem_modeFrames {p : Params} {w : AddrWidth} {id : BitVec 24} {en : Bool} {i : Instr} (h : i ∈ modeFrames p w id en) :
    i = .wren ∨ i = .wrdi ∨ i = .en4b ∨ i = .ex4b ∨ i = .exhbl ∨ i = .wrear ∨ ∃ e, i = .brwr e := by
  unfold modeFrames at h
  split at h
  · rw [List.mem_append] at h
    rcases h with h | h
    · unfold toggleMode at h
      split at h <;> cases en <;> simp at h <;> simp [h]
      all_goals rcases h with rfl | rfl | rfl <;> simp
    · cases en <;> simp only [if_true, if_false, Bool.false_eq_true, List.not_mem_nil] at h
      unfold clearExtAddr clearEar at h
      split at h <;> (try split at h) <;> simp at h <;> (try rcases h with rfl | rfl | rfl) <;> simp [*]
  · simp at h

/-- What a position issues is an SPI command. -/
theorem encode_of_issues {s : State} {i : Instr} {l : Label} (h : s.issues i l) :
    ∃ f, encode s.par s.params.addrWidth i = .frame f := by
  have hb : ∀ en, i ∈ s.bracket en → ∃ f, encode s.par s.params.addrWidth i = .frame f := by
    intro en hk
    rcases mem_modeFrames hk with rfl | rfl | rfl | rfl | rfl | rfl | ⟨_, rfl⟩ <;> exact ⟨_, rfl⟩
  cases l <;> simp only [State.issues] at h
  case enter k => exact hb true (List.mem_of_getElem? h)
  case exit k => exact hb false (List.mem_of_getElem? h)
  case e3b =>
    unfold State.eraseInstr at h
    split_ifs at h <;> cases h <;> exact ⟨_, rfl⟩
  case s3f => subst h; unfold State.pairInstr; split <;> exact ⟨_, rfl⟩
  all_goals subst h; exact ⟨_, rfl⟩

/-- The checks read the probe results and the latches alone (R45). -/
theorem State.checked_congr {s t : State} {op : HostOp} (h1 : t.probeState = s.probeState) (h2 : t.desc = s.desc)
    (h3 : t.params = s.params) (h4 : t.opAddr = s.opAddr) (h5 : t.opLen = s.opLen) (h6 : t.opBuf = s.opBuf) :
    t.checked op ↔ s.checked op := by
  cases op <;> simp [State.checked, State.readCheck, State.eraseCheck, State.writeCheck, State.eraseUnit, State.size, *]

/-- A frame leaves a command in flight. -/
theorem flying_frame {i : Instr} {f : Frame} {s t : State} {op : HostOp} (hf : s.Flying op) (h : FrameStep i f s t) : t.Flying op := by
  obtain ⟨hb, hop, herr, hd, hm, hpr, hun, hbulk, hprobe⟩ := hf
  have r := h.registers
  have hc : ∀ o, s.checked o → t.checked o := by
    exact fun o ho => (State.checked_congr r.probeState r.desc r.params r.opAddr r.opLen r.opBuf).2 ho
  refine ⟨r.busy ▸ hb, r.op ▸ hop, r.err ▸ herr, r.done ▸ hd, h.memWf hm, ?_, ?_, ?_, ?_⟩
  · rw [r.probeState, r.desc, r.params, h.world.par]; exact hpr
  · rw [r.probeState, r.desc, r.params]; exact hun
  · intro k; rw [r.probeState]; exact ⟨(hbulk k).1, hc _ (hbulk k).2⟩
  · intro k; rw [r.probeState]; exact hprobe k

/-- What a command does to the frame buffer and to `s.first`. -/
theorem exec_scratch {s t : State} {i : Instr} (hi : exec i s = .next t) :
    (∀ a n, i = .fastRead a n → s.frameOk = true → t.xfer.length = n) ∧
    ((∀ a n, i ≠ .fastRead a n) → t.xfer = s.xfer) ∧
    ((∃ a d e, i = .aaiWp a d e) → s.frameOk = true → t.first = false) ∧
    ((∀ a d e, i ≠ .aaiWp a d e) → t.first = s.first) := by
  have key : ∀ (j : Instr) (f : Frame) (g : State → State), t = s.send j f g id → (∀ u, (g u).xfer = u.xfer) → t.xfer = s.xfer := by
    rintro j f g rfl hg
    unfold State.send; split
    · simp [hg]
    · rfl
  have key2 : ∀ (j : Instr) (f : Frame) (g : State → State), t = s.send j f g id → (∀ u, (g u).first = u.first) → t.first = s.first := by
    rintro j f g rfl hg
    unfold State.send; split
    · simp [hg]
    · rfl
  cases i
  case probe => simp [exec, execProbe, State.issue] at hi; subst hi; split <;> simp
  case read => simp [exec, execRead, State.issue] at hi; subst hi; split <;> simp
  case erase => simp [exec, execErase, State.issue] at hi; subst hi; split <;> simp
  case write => simp [exec, execWrite, State.issue] at hi; subst hi; split <;> simp
  case fastRead a n =>
    cases hi
    refine ⟨?_, fun h => absurd rfl (h a n), fun ⟨_, _, _, h⟩ => (by cases h), ?_⟩
    · rintro _ _ ⟨⟩ hok
      rw [State.send_ok _ _ _ _ hok]
      simp
    · intro _
      cases hok : s.frameOk with
      | true => rw [State.send_ok _ _ _ _ hok]; rfl
      | false => rw [State.send_fail _ _ _ _ hok, State.fillUnspecified_eq]; rfl
  case aaiWp a d e =>
    cases hi
    refine ⟨fun _ _ h => (by cases h), fun _ => key _ _ _ rfl fun _ => rfl, ?_, fun h => absurd rfl (h a d e)⟩
    intro _ hok
    rw [State.send_ok _ _ _ _ hok]; rfl
  all_goals
    cases hi
    exact ⟨fun _ _ h => (by cases h), fun _ => key _ _ _ rfl fun _ => rfl, fun ⟨_, _, _, h⟩ => (by cases h), fun _ => key2 _ _ _ rfl fun _ => rfl⟩

/-- The position after a frame is one of the same procedure. -/
theorem fits_next {op : HostOp} {l : Label} {s : State} {i : Instr} (hi : s.issues i l) (h : l.fits op = true) :
    l.next.fits op = true := by
  cases l <;> simp [State.issues] at hi <;> simp_all [Label.next, Label.fits, PollSite.owner, bulkOp]

/-- Only the position of FAST_READ issues one. -/
theorem issues_not_fastRead {s : State} {i : Instr} {l : Label} (hi : s.issues i l) (hl : l ≠ .r4a) :
    ∀ a n, i ≠ Instr.fastRead a n := by
  rintro a n rfl
  cases l <;> simp only [State.issues, reduceCtorEq] at hi
  case enter k => rcases mem_modeFrames (List.mem_of_getElem? hi) with h | h | h | h | h | h | ⟨_, h⟩ <;> cases h
  case exit k => rcases mem_modeFrames (List.mem_of_getElem? hi) with h | h | h | h | h | h | ⟨_, h⟩ <;> cases h
  case r4a => exact hl rfl
  case e3b => unfold State.eraseInstr at hi; split_ifs at hi <;> cases hi
  case s3f => unfold State.pairInstr at hi; split at hi <;> cases hi

/-- After a frame that succeeded the working registers are on their way at the next position. -/
theorem course_next {s t : State} {i : Instr} {f : Frame} {l : Label} (hc : s.course l)
    (hi : s.issues i l) (h : FrameStep i f s t) (hok : s.frameOk = true) (he : exec i s = .next t) : t.course l.next := by
  have r := h.registers; have w := h.working; have hp := h.world.par
  obtain ⟨h1, h2, h3, h4⟩ := exec_scratch he
  have hx : l ≠ .r4a → t.xfer = s.xfer := fun hl => h2 (issues_not_fastRead hi hl)
  have rc : s.readCourse → t.readCourse := by simp [State.readCourse, State.readOffset, State.size, r.opAddr, r.desc, r.opLen, r.progress, w.cur, w.hoff, w.rem]
  have ec : s.eraseCourse → t.eraseCourse := by simp [State.eraseCourse, State.eraseUnit, r.params, r.opAddr, r.opLen, r.progress, w.cur, w.rem]
  have wc : s.writeCourse → t.writeCourse := by simp [State.writeCourse,  r.opAddr, r.opLen, r.progress, w.cur, w.hoff, w.rem]
  have pc : s.probeCourse → t.probeCourse := by simp [State.probeCourse, r.progress, w.pdesc, w.pparams, hp]
  have ent : s.enterCourse → t.enterCourse := by simp [State.enterCourse, r.progress, w.cur, r.op, State.readOffset, State.size, r.opAddr, r.desc]
  have ad : s.allDone → t.allDone := by simp [State.allDone, r.progress, r.opLen]
  have pg : s.pageChunk → t.pageChunk := by
    simp only [State.pageChunk, State.pageCourse, r.params, w.rem, w.n, w.cur, hp]; exact fun ⟨⟨a, b⟩, c⟩ => ⟨⟨wc a, b⟩, c⟩
  have ao : s.aaiOdd → t.aaiOdd := by
    simp only [State.aaiOdd, State.aaiCourse, r.params, w.rem, w.cur]; exact fun ⟨⟨a, b⟩, c⟩ => ⟨⟨wc a, b⟩, c⟩
  have ae : s.aaiEven → t.aaiEven := by
    simp only [State.aaiEven, State.aaiCourse, r.params, w.cur]; exact fun ⟨⟨a, b⟩, c⟩ => ⟨⟨wc a, b⟩, c⟩
  cases l <;> simp only [State.issues] at hi <;> simp only [Label.next, State.course, State.pollCourse] at hc ⊢
  case enter => exact ent hc
  case exit => exact ad hc
  case q1 => rw [r.progress]; exact hc
  case u1w => exact pc hc
  case u1s => exact pc hc
  case u2 => exact pc hc
  case u3w => exact pc hc
  case u3s => exact pc hc
  case r4a => rw [w.rem, w.n, h1 _ _ hi hok]; exact ⟨rc hc.1, hc.2.1, hc.2.2, Nat.le_refl _⟩
  case e3a => rw [w.rem]; exact ⟨ec hc.1, hc.2⟩
  case e3b => rw [w.rem]; exact ⟨ec hc.1, hc.2⟩
  case g3 => rw [hx (by decide), w.n]; exact ⟨pg hc.1, hc.2⟩
  case g4 => exact pg hc.1
  case s1w => rw [hx (by decide)]; exact ⟨ao hc.1, hc.2⟩
  case s1p => exact ao hc.1
  case s2 => exact ae hc
  case s3f =>
    refine ⟨ae hc.1, w.rem ▸ hc.2.1, ?_⟩
    unfold State.pairInstr at hi
    split at hi
    · exact h3 ⟨_, _, _, hi⟩ hok
    · rename_i hfst; rw [h4 (by rintro a d e rfl; cases hi)]; simpa using hfst
  case s4 => rw [w.rem]; exact ⟨ae hc.1, hc.2⟩
  case s5w => rw [w.rem, hx (by decide)]; exact ⟨ae hc.1, hc.2⟩
  case s5p => rw [w.rem]; exact ⟨ae hc.1, hc.2.1⟩
  case s6 => exact ad (writeCourse_allDone hc.1.1 hc.2)
  case poll c =>
    cases c
    case u1 => exact pc hc
    case u3 => exact pc hc
    case e => rw [w.rem]; exact ⟨ec hc.1, hc.2⟩
    case g => exact pg hc
    case s1 => exact ao hc
    case s3 => rw [w.rem, h4 (by subst hi; intros; exact nofun)]; exact ⟨ae hc.1, hc.2⟩
    case s4 => rw [w.rem]; exact ⟨ae hc.1, hc.2⟩
    case s5 => rw [w.rem]; exact ⟨ae hc.1, hc.2⟩

end Sys2Proof.Machine
end

