-- ==== Sys2Proof/Laws/Host.lean ====
section
/-! SUPPORT. What one step can be: a step of the sequencer, or one access of the host, or a reset. -/

namespace Sys2Proof.Machine

/-- A host command word executed while BUSY = 0 is accepted. -/
theorem exec_hostWord {v : Word} {i : Instr} (h : decodeHostWord v = .ok i) {s : State} (hb : s.busy = false) :
    ∃ o c, exec i s = .next (s.accept o c) := by
  unfold decodeHostWord at h
  split at h
  · cases h
  · split at h <;> cases h <;>
      simp only [exec, execProbe, execRead, execErase, execWrite, State.issue_idle _ _ hb] <;> exact ⟨_, _, rfl⟩

/-! ## The host's own memory (R87, R309) -/

/-- Where host and block race. -/
theorem State.inBuffer_iff {s : State} {a : Word} :
    s.inBuffer a = true ↔ (s.busy = true ∧ (a - s.opBuf).toNat < s.opLen.toNat) ∧
      (s.op = .read ∧ s.readCheck = none ∨ s.op = .write ∧ s.writeCheck = none) := by
  unfold State.inBuffer
  cases s.op <;> simp

theorem State.inDestination_iff {s : State} {a : Word} :
    s.inDestination a = true ↔ (s.busy = true ∧ (a - s.opBuf).toNat < s.opLen.toNat) ∧ s.op = .read ∧ s.readCheck = none := by
  unfold State.inDestination
  rw [Bool.and_eq_true, State.inBuffer_iff]
  cases s.op <;> simp

theorem State.inSource_iff {s : State} {a : Word} :
    s.inSource a = true ↔ (s.busy = true ∧ (a - s.opBuf).toNat < s.opLen.toNat) ∧ s.op = .write ∧ s.writeCheck = none := by
  unfold State.inSource
  rw [Bool.and_eq_true, State.inBuffer_iff]
  cases s.op <;> simp

/-- A store frees the byte of its own address among those read for the next frame, and no other. -/
theorem State.getElem?_bufferAfterStore (s : State) (a : Word) (j : Nat) :
    (s.bufferAfterStore a)[j]? =
      if s.inSource a = true ∧ s.hoff + j = (a - s.opBuf).toNat ∧ j < s.xfer.length
      then some (Config.freeByte s.history s.draws 0) else s.xfer[j]? := by
  unfold State.bufferAfterStore
  by_cases hs : s.inSource a = true
  · by_cases ho : s.hoff ≤ (a - s.opBuf).toNat
    · simp only [hs, ho, decide_true, Bool.and_self, if_true, List.getElem?_set, true_and]
      by_cases hj : (a - s.opBuf).toNat - s.hoff = j
      · rw [if_pos hj, hj]
        by_cases hl : j < s.xfer.length
        · rw [if_pos hl, if_pos ⟨by omega, hl⟩]
        · rw [if_neg hl, if_neg (fun h => hl h.2), List.getElem?_eq_none (by omega)]
      · rw [if_neg hj, if_neg (fun h => hj (by omega))]
    · simp only [ho, decide_false, Bool.and_false, Bool.false_eq_true, if_false]
      rw [if_neg (by omega)]
  · simp [hs]

/-- A store changes no number of bytes. -/
@[simp] theorem State.length_bufferAfterStore (s : State) (a : Word) : (s.bufferAfterStore a).length = s.xfer.length := by
  unfold State.bufferAfterStore; split <;> simp

theorem State.wf_hostStore {s : State} (h : s.mem.wf = true) (a : Word) (v : Byte) : (s.hostStore a v).mem.wf = true :=
  Memory.wf_set a _ h

theorem State.byteAt_hostStore_same {s : State} (h : s.mem.wf = true) (a : Word) (v : Byte) :
    (s.hostStore a v).byteAt a = if s.inDestination a then Config.freeByte s.history s.draws 0 else v :=
  State.byteAt_setByte_same h a _

theorem State.byteAt_hostStore_other (s : State) (a : Word) (v : Byte) {b : Word} (hb : b ≠ a) :
    (s.hostStore a v).byteAt b = s.byteAt b := State.byteAt_setByte_other s a _ hb

/-- A store races for its own byte alone. -/
theorem State.mem_raced_hostStore {s : State} {a b : Word} {v : Byte} :
    b ∈ (s.hostStore a v).raced ↔ s.inBuffer a = true ∧ b = a ∨ b ∈ s.raced := by
  rw [State.hostStore_raced]
  split
  · next h => simp [h, List.mem_insert_iff]
  · next h => simp [h]

/-- The byte received that waits for its write (R86). -/
theorem State.waitingByte_iff {s : State} {a : Word} {v : Byte} :
    s.waitingByte a = some v ↔ s.phase = .run .read .r4b ∧
      ∃ j, s.xfer[j]? = some v ∧ (a - s.opBuf).toNat = s.hoff + (s.n - s.xfer.length) + j := by
  unfold State.waitingByte
  split
  · next h =>
    refine ⟨fun hv => ⟨h.1, _, hv, by omega⟩, ?_⟩
    rintro ⟨_, j, hj, he⟩
    rw [he, Nat.add_sub_cancel_left]; exact hj
  · next h =>
    refine ⟨nofun, ?_⟩
    rintro ⟨hp, j, _, he⟩
    exact absurd ⟨hp, by omega⟩ h

/-- A load sees the byte in memory, but in the destination of a READ in flight it may see the other side of the block's write:
the byte that a DMA write replaced, or the byte that waits for its DMA write (R87). -/
theorem State.loadByte_cases (s : State) (a : Word) :
    s.loadByte a = s.byteAt a ∨
      s.inDestination a = true ∧ (s.replaced.lookup a = some (s.loadByte a) ∨ s.waitingByte a = some (s.loadByte a)) := by
  unfold State.loadByte
  split
  · next h =>
    have hd : s.inDestination a = true := by simp only [Bool.and_eq_true] at h; exact h.1
    unfold State.otherByte
    cases hr : s.replaced.lookup a with
    | some v => exact .inr ⟨hd, .inl rfl⟩
    | none =>
      cases hw : s.waitingByte a with
      | some v => exact .inr ⟨hd, .inr rfl⟩
      | none => exact .inl rfl
  · exact .inl rfl

/-- What a host access can do. -/
inductive HostEffect (s : State) : State → Prop
  /-- Ignored, or outside the window (R40, R66, R71). -/
  | ignored : HostEffect s s
  /-- A command is accepted (R131). -/
  | accepted (o : HostOp) (c : BitVec 4) (h : s.busy = false) : HostEffect s (s.accept o c)
  /-- A register is written (R24 to R26). -/
  | written (r : Reg) (v : Word) : HostEffect s (s.writeReg r v)
  /-- A register is read (R71). -/
  | loaded (bs : List Byte) : HostEffect s (s.withReadData bs)
  /-- A byte of host memory is stored (R87). -/
  | stored (a : Word) (v : Byte) : HostEffect s (s.hostStore a v)
  /-- A byte of host memory is loaded (R87). -/
  | fetched (a : Word) : HostEffect s (s.hostLoad a)

theorem writeCmd_cases (v : Word) (s : State) :
    (∃ i t, writeCmd v s = .run i t ∧ ∃ u, exec i t = .next u ∧ HostEffect s u) ∨
    (∃ u, writeCmd v s = .done (.next u) ∧ HostEffect s u) := by
  unfold writeCmd
  split
  · exact .inr ⟨s, rfl, .ignored⟩
  · next hb =>
    have hb : s.busy = false := by simpa using hb
    split
    · next i hi =>
      obtain ⟨o, c, h⟩ := exec_hostWord hi hb
      exact .inl ⟨i, s, rfl, _, h, .accepted o c hb⟩
    · exact .inr ⟨_, rfl, .accepted _ _ hb⟩

/-- Every host access is one of these, and answers a next state. -/
theorem hostTurn_cases (a : HostAccess) (s : State) :
    (∃ i t, hostTurn a s = .run i t ∧ ∃ u, exec i t = .next u ∧ HostEffect s u) ∨
    (∃ u, hostTurn a s = .done (.next u) ∧ HostEffect s u) := by
  cases a with
  | write a data =>
    unfold hostTurn busWrite
    simp only
    split
    · exact .inr ⟨s, rfl, .ignored⟩
    · split
      · exact writeCmd_cases _ s
      · next r _ _ _ => exact .inr ⟨_, rfl, .written _ _⟩
      · exact .inr ⟨s, rfl, .ignored⟩
      · exact .inr ⟨s, rfl, .ignored⟩
  | read a n =>
    refine .inr ⟨s.busRead a n, rfl, ?_⟩
    unfold State.busRead
    split
    · exact .ignored
    · exact .loaded _
  | store a v => exact .inr ⟨s.hostStore a v, rfl, .stored a v⟩
  | load a => exact .inr ⟨s.hostLoad a, rfl, .fetched a⟩

/-- What one step of the machine can be. -/
inductive Turned (s : State) : Result → Prop
  /-- A step of the sequencer, the host's turn not used up. -/
  | seq (h : ∀ r, s.script ≠ .reset :: r) : Turned s (seqStep s)
  /-- A step of the sequencer on a turn of its own. -/
  | seqTurn (r : List Turn) (h : s.script = .seq :: r) : Turned s (seqStep (s.withScript r))
  /-- A host access. -/
  | host (a : HostAccess) (r : List Turn) (h : s.script = .host a :: r) (t : State) (e : HostEffect (s.withScript r) t) :
      Turned s (.next t)
  /-- The host has waited for BUSY = 0 (R108). -/
  | waited (r : List Turn) (h : s.script = .wait :: r) (hb : s.busy = false) : Turned s (.next (s.withScript r).waited)
  /-- A reset. -/
  | reset (r : List Turn) (h : s.script = .reset :: r) : Turned s (.next (s.withScript r).resetBlock)

/-- What one step can do. -/
theorem step_turned {s : State} (hp : s.par.wf = true) : Turned s (step s) := by
  rcases hs : s.script with _ | ⟨_ | _ | _ | _, r⟩
  case nil =>
    have e : step s = seqStep s := by simp only [step, hp, if_true, fetch, hs, seqStep]
    rw [e]; exact .seq (by rw [hs]; exact fun _ k => by cases k)
  case host a =>
    have e : step s = perform (hostTurn a (s.withScript r)) := by
      simp only [step, hp, if_true, fetch, hs]
    rw [e]
    rcases hostTurn_cases a (s.withScript r) with ⟨i, t, h1, u, h2, h3⟩ | ⟨u, h1, h3⟩
    · simp only [h1, h2, perform]; exact .host a r hs u h3
    · simp only [h1, perform]; exact .host a r hs u h3
  case seq =>
    have e : step s = seqStep (s.withScript r) := by simp only [step, hp, if_true, fetch, hs, seqStep]
    rw [e]; exact .seqTurn r hs
  case wait =>
    cases hb : s.busy with
    | true =>
      have e : step s = seqStep s := by simp only [step, hp, if_true, fetch, hs, hb, seqStep]
      rw [e]; exact .seq (by rw [hs]; exact fun _ k => by cases k)
    | false =>
      have e : step s = .next (s.withScript r).waited := by simp [step, hp, fetch, hs, hb, perform]
      rw [e]; exact .waited r hs hb
  case reset =>
    have e : step s = .next (s.withScript r).resetBlock := by simp only [step, hp, if_true, fetch, hs, perform]
    rw [e]; exact .reset r hs

/-- What a reset does to the atomic step it cuts short (R302). -/
theorem State.cutShort_cases (s : State) :
    (∃ i f, (plan s).action = .frame i ∧ encode s.par s.params.addrWidth i = .frame f ∧ s.cutShort = s.cutFrame f) ∨
    (∃ a v, (plan s).action = .memWrite a v ∧ s.cutShort = s.cutWrite a) ∨
    (∀ i f, (plan s).action = .frame i → encode s.par s.params.addrWidth i ≠ .frame f) ∧
      s.cutShort = s.withFlash s.flash.abandoned := by
  unfold State.cutShort
  cases h : (plan s).action with
  | frame i =>
    cases he : encode s.par s.params.addrWidth i with
    | frame f => exact .inl ⟨i, f, rfl, he, by simp only [he]⟩
    | word v => exact .inr (.inr ⟨fun _ _ k => by cases k; rw [he]; exact nofun, by simp only [he]⟩)
  | memWrite a v => exact .inr (.inl ⟨a, v, rfl, rfl⟩)
  | none => exact .inr (.inr ⟨nofun, rfl⟩)
  | memRead _ => exact .inr (.inr ⟨nofun, rfl⟩)
  | complete _ => exact .inr (.inr ⟨nofun, rfl⟩)
  | refuse _ => exact .inr (.inr ⟨nofun, rfl⟩)
  | stuck _ => exact .inr (.inr ⟨nofun, rfl⟩)

/-- A reset while BUSY leaves nothing known of the flash (R302). -/
theorem State.cutShort_flash (s : State) : s.cutShort.flash = s.flash.abandoned := by
  rcases s.cutShort_cases with ⟨_, _, _, _, h⟩ | ⟨_, _, _, h⟩ | ⟨_, h⟩ <;> rw [h] <;> rfl

theorem step_refused {s : State} (hp : s.par.wf = false) : step s = .refused .parametersIllFormed := by simp [step, hp]

theorem par_wf_of_step {s t : State} (h : step s = .next t) : s.par.wf = true := by
  cases hp : s.par.wf with
  | true => rfl
  | false => rw [step_refused hp] at h; cases h

end Sys2Proof.Machine
end

