-- ==== Sys2Proof/Laws/Latch.lean ====
section
/-! SUPPORT. Which plans stand between a WREN and the mutating command it is for (R153). -/

namespace Sys2Proof.Machine

/-- The plan does not stand between a WREN and the mutating command it is for. -/
def Planned.Free (q : Planned) : Prop :=
  match q.action with
  | .complete _ => True
  | _ => ∀ op l, q.state.phase = .run op l → q.state.latchDue l = false

theorem free_at {op : HostOp} {l : Label} {s : State} {a : Action} (h : s.latchDue l = false) :
    Planned.Free { state := s.goto op l, action := a } := by
  have k : ∀ op' l', (s.goto op l).phase = .run op' l' → (s.goto op l).latchDue l' = false := by
    intro op' l' e
    simp only [State.goto_phase, Phase.run.injEq] at e
    obtain ⟨-, rfl⟩ := e
    cases l <;> exact h
  unfold Planned.Free
  split
  · trivial
  · exact k

theorem free_complete {s : State} {e : ErrCode} : Planned.Free { state := s, action := .complete e } := trivial

theorem free_exitFrom (op : HostOp) (k : Nat) (s : State) : (exitFrom op k s).Free := by
  unfold exitFrom; split
  · exact free_at rfl
  · exact free_complete

theorem free_eraseHead (op : HostOp) (s : State) : (eraseHead op s).Free := by
  unfold eraseHead; split
  · exact free_at rfl
  · exact free_exitFrom _ _ _

theorem free_fillThen {op : HostOp} {l : Label} {k : Nat} {done : State → Planned} {s : State} (h : s.latchDue l = false)
    (hd : (done s).Free) : (fillThen op l k done s).Free := by
  unfold fillThen; split
  · exact free_at h
  · exact hd

theorem free_pageFill (op : HostOp) (s : State) : (pageFill op s).Free := free_fillThen rfl (free_at rfl)

theorem free_pageHead (op : HostOp) (s : State) : (pageHead op s).Free := by
  unfold pageHead; split
  · exact free_pageFill _ _
  · exact free_exitFrom _ _ _

theorem free_aaiLast (op : HostOp) (s : State) : (aaiLast op s).Free := free_at rfl

theorem free_aaiTailFill (op : HostOp) (s : State) : (aaiTailFill op s).Free := free_fillThen rfl (free_at rfl)

theorem free_aaiTail (op : HostOp) (s : State) : (aaiTail op s).Free := by
  unfold aaiTail; split
  · exact free_aaiTailFill _ _
  · exact free_aaiLast _ _

theorem free_aaiPairFill {op : HostOp} {s : State} (h : s.first = false) : (aaiPairFill op s).Free :=
  free_fillThen h (free_at h)

/-- Later pairs run under the latch of their sequence (R16). -/
theorem free_aaiHead {op : HostOp} {s : State} (h : s.first = false) : (aaiHead op s).Free := by
  unfold aaiHead; split
  · exact free_aaiPairFill (s := s.withBuffer []) h
  · exact free_at rfl

theorem free_aaiLatch (op : HostOp) (s : State) : (aaiLatch op s).Free := free_at rfl

theorem free_aaiOddFill (op : HostOp) (s : State) : (aaiOddFill op s).Free := free_fillThen rfl (free_at rfl)

theorem free_aaiStart (op : HostOp) (s : State) : (aaiStart op s).Free := by
  unfold aaiStart; split
  · exact free_aaiOddFill _ _
  · exact free_aaiLatch _ _

theorem free_programStart (op : HostOp) (s : State) : (programStart op s).Free := by
  unfold programStart; split
  · exact free_aaiStart _ _
  · exact free_pageHead _ _

theorem free_readHead (op : HostOp) (s : State) : (readHead op s).Free := by
  unfold readHead; split
  · exact free_at rfl
  · exact free_exitFrom _ _ _

theorem free_readDrain (op : HostOp) (s : State) : (readDrain op s).Free := by
  unfold readDrain; split
  · exact free_at rfl
  · exact free_readHead _ _

theorem free_bulkStart (op : HostOp) (s : State) : (bulkStart op s).Free := by
  cases op
  · exact free_complete
  · exact free_readHead _ _
  · exact free_eraseHead _ _
  · exact free_programStart _ _
  · exact free_complete

theorem free_enterFrom (op : HostOp) (k : Nat) (s : State) : (enterFrom op k s).Free := by
  unfold enterFrom; split
  · exact free_at rfl
  · exact free_bulkStart _ _

theorem free_afterCheck (c : Option ErrCode) (op : HostOp) (s t : State) : (afterCheck c op s t).Free := by
  unfold afterCheck; split
  · exact free_complete
  · exact free_enterFrom _ _ _

theorem free_unlock (op : HostOp) (d : Descriptor) (s : State) : (unlock op d s).Free := by
  unfold unlock; split
  · exact free_at rfl
  · split
    · exact free_at rfl
    · exact free_complete

theorem free_unlockTest (op : HostOp) (s : State) : (unlockTest op s).Free := by
  unfold unlockTest; split
  · exact free_at rfl
  · exact free_complete

theorem free_commandStart (op : HostOp) (s : State) : (commandStart op s).Free := by
  cases op
  · change (probeStart .probe s).Free
    unfold probeStart; split
    · exact free_complete
    · exact free_at rfl
  · exact free_afterCheck _ _ _ _
  · exact free_afterCheck _ _ _ _
  · exact free_afterCheck _ _ _ _
  · exact free_complete

/-- After the Poll of a pair, `s.first` is clear (R217). -/
theorem free_pollTest {op : HostOp} {c : PollSite} {s : State} (h : c = .s3 → s.first = false) : (pollTest op c s).Free := by
  unfold pollTest; split
  · exact free_at rfl
  · cases c
    · exact free_complete
    · exact free_complete
    · exact free_eraseHead _ _
    · exact free_pageHead _ _
    · exact free_aaiLatch _ _
    · exact free_aaiHead (s := s.bytesDone 2) (h rfl)
    · exact free_aaiTail _ _
    · exact free_aaiLast _ _

/-- A plan that stands between a WREN and its command was there before. -/
theorem free_or_due {s : State} {op : HostOp} {l : Label} (h : s.Inv) (hp : s.phase = .run op l) :
    s.latchDue l = true ∨ (plan s).Free ∨ (plan s).action = .refuse .descriptorIllFormed := by
  have e : plan s = planAt op l s := by simp only [plan, hp]
  rw [e]
  have self : ∀ a, s.latchDue l = false → Planned.Free { state := s, action := a } := by
    intro a hd
    unfold Planned.Free
    split
    · trivial
    · intro op' l' k; rw [hp] at k; cases k; exact hd
  cases hl : s.latchDue l with
  | true => exact .inl rfl
  | false =>
    right
    cases l
    case start => exact .inl (free_commandStart _ s)
    case enter => exact .inl (free_enterFrom _ _ s)
    case exit => exact .inl (free_exitFrom _ _ s)
    case q2 =>
      change (probeIdentify op s).Free ∨ (probeIdentify op s).action = _
      unfold probeIdentify; split
      · exact .inl free_complete
      · split
        · exact .inl free_complete
        · split
          · exact .inl (free_unlock _ _ _)
          · exact .inr rfl
    case u3 => exact .inl (free_unlockTest _ s)
    case r4 => exact .inl (free_readHead _ s)
    case r4b => exact .inl (free_readDrain _ s)
    case e3 => exact .inl (free_eraseHead _ s)
    case e3b => cases hl
    case g1 => exact .inl (free_pageHead _ s)
    case g2 => exact .inl (free_pageFill _ s)
    case s1m => exact .inl (free_aaiOddFill _ s)
    case s2d => cases hl
    case s3 => exact .inl (free_aaiHead hl)
    case s3m => exact .inl (free_aaiPairFill hl)
    case s5m => exact .inl (free_aaiTailFill _ s)
    case polled c =>
      refine .inl (free_pollTest fun k => ?_)
      subst k
      exact (h.command _ _ hp).course.2.2
    case raise => exact .inl free_complete
    all_goals exact .inl (self _ hl)

/-- A position that issues a command which needs the latch stands after its WREN. -/
theorem latchDue_of_needs {s : State} {i : Instr} {l : Label} (hi : s.issues i l) (hn : needsLatch i = true) :
    s.latchDue l = true := by
  cases l <;> simp only [State.issues] at hi
  case enter =>
    rcases mem_modeFrames (List.mem_of_getElem? hi) with rfl | rfl | rfl | rfl | rfl | rfl | ⟨_, rfl⟩ <;> cases hn
  case exit =>
    rcases mem_modeFrames (List.mem_of_getElem? hi) with rfl | rfl | rfl | rfl | rfl | rfl | ⟨_, rfl⟩ <;> cases hn
  case s3f =>
    subst hi
    unfold State.pairInstr at hn
    split at hn
    · assumption
    · cases hn
  all_goals first | rfl | (subst hi; cases hn)

/-- Only a WREN is followed by such a position. -/
theorem wren_of_next {s t : State} {i : Instr} {l : Label} (hi : s.issues i l) (hd : t.latchDue l.next = true) : i = .wren := by
  cases l <;> simp only [State.issues] at hi <;> first | (exact hi) | (cases hd)

end Sys2Proof.Machine
end

