-- ==== Sys2Proof/Laws/PerInstr.lean ====
section
/-! SUPPORT. Statements for all instructions, one lemma per constructor. `CarriesAddress`: a command that has a flash address
sends it right after its opcode, in the width of the block (R98, R102). -/

namespace Sys2Proof.Laws.CarriesAddress

/-- The address follows the opcode, most significant byte first. -/
def Statement (i : Instr) : Prop :=
  ∀ (p : Params) (w : AddrWidth) (a : Nat), i.address = some a →
    ∃ f op rest, encode p w i = .frame f ∧ op ∈ p.opcodes ∧ f.tx = op :: encodeAddr a w ++ rest

theorem probe : Statement .probe := fun _ _ _ h => by cases h
theorem read : Statement .read := fun _ _ _ h => by cases h
theorem erase : Statement .erase := fun _ _ _ h => by cases h
theorem write : Statement .write := fun _ _ _ h => by cases h
theorem wren : Statement .wren := fun _ _ _ h => by cases h
theorem wrdi : Statement .wrdi := fun _ _ _ h => by cases h
theorem rdsr : Statement .rdsr := fun _ _ _ h => by cases h
theorem wrsr (value : Byte) : Statement (.wrsr value) := fun _ _ _ h => by cases h
theorem rdid : Statement .rdid := fun _ _ _ h => by cases h
theorem pp (addr : Nat) (data : List Byte) : Statement (.pp addr data) := fun p _ _ h => by
  cases h; exact ⟨_, p.opPp, [], rfl, by simp [Params.opcodes], by simp [frameF4, header]⟩
theorem aaiWp (addr : Nat) (d0 d1 : Byte) : Statement (.aaiWp addr d0 d1) := fun p _ _ h => by
  cases h; exact ⟨_, p.opAai, [d0, d1], rfl, by simp [Params.opcodes], rfl⟩
theorem aaiCont (d0 d1 : Byte) : Statement (.aaiCont d0 d1) := fun _ _ _ h => by cases h
theorem fastRead (addr len : Nat) : Statement (.fastRead addr len) := fun p _ _ h => by
  cases h; exact ⟨_, p.opFastRead, [p.fastReadDummy], rfl, by simp [Params.opcodes], rfl⟩
theorem se4k (addr : Nat) : Statement (.se4k addr) := fun p _ _ h => by
  cases h; exact ⟨_, p.opSe4k, [], rfl, by simp [Params.opcodes], by simp [frameF3, header]⟩
theorem se4kPmc (addr : Nat) : Statement (.se4kPmc addr) := fun p _ _ h => by
  cases h; exact ⟨_, p.opSe4kPmc, [], rfl, by simp [Params.opcodes], by simp [frameF3, header]⟩
theorem be32k (addr : Nat) : Statement (.be32k addr) := fun p _ _ h => by
  cases h; exact ⟨_, p.opBe32k, [], rfl, by simp [Params.opcodes], by simp [frameF3, header]⟩
theorem be64k (addr : Nat) : Statement (.be64k addr) := fun p _ _ h => by
  cases h; exact ⟨_, p.opBe64k, [], rfl, by simp [Params.opcodes], by simp [frameF3, header]⟩
theorem en4b : Statement .en4b := fun _ _ _ h => by cases h
theorem ex4b : Statement .ex4b := fun _ _ _ h => by cases h
theorem exhbl : Statement .exhbl := fun _ _ _ h => by cases h
theorem wrear : Statement .wrear := fun _ _ _ h => by cases h
theorem brwr (en : Bool) : Statement (.brwr en) := fun _ _ _ h => by cases h

end Sys2Proof.Laws.CarriesAddress
end

