-- ==== Sys2Proof/Tests/Slice0.lean ====
section
/-! SUPPORT. Tests of the model, each on one step or one word, with the expected results of spec/95_test_vectors.md or of the
rule named; and for every statement with hypotheses a state and operands that meet them. -/

namespace Sys2Proof.Tests

open Sys2Proof Sys2Proof.Machine

/-! ## Fixtures (95, section 0) -/

/-- The default parameters. -/
def std : Params := Params.standard

/-- No flag. -/
def plain : ChipFlags := { initSr := false, sstAai := false, bp02 := false, bp3 := false, bp4 := false }

/-- A descriptor of a fixture. -/
def chip (id : BitVec 24) (size : BitVec 64) (g : Granularity) (f : ChipFlags) : Descriptor :=
  { jedecId := id, extId := 0, sizeBytes := size, granularity := g, flags := f }

def fx1 : Descriptor := chip 0xEF4018 0x1000000 .g4k plain
def fx2 : Descriptor := chip 0xEF4019 0x2000000 .g64k { plain with bp02 := true, bp3 := true }
def fx3 : Descriptor := chip 0xBF258E 0x100000 .g4k { plain with sstAai := true, bp02 := true }
def fx4 : Descriptor := chip 0x20BA19 0x2000000 .g4k plain
def fx7 : Descriptor := chip 0x1C7019 0x2000000 .g4k { plain with initSr := true }
def fx8 : Descriptor := chip 0x010219 0x2000000 .g64k plain
def fx11 : Descriptor := chip 0xEF4017 0x800000 .g32k { plain with bp02 := true, bp3 := true, bp4 := true }
def fx12 : Descriptor := chip 0x010220 0x4000000 .g256k plain
def fx13 : Descriptor := chip 0x9D7E7F 0x100000 .g4kPmc plain

/-- The idle block after a successful PROBE of a chip. -/
def session (d : Descriptor) : State :=
  { State.reset with probeState := .probed, desc := some d, params := derive std d }

/-- A command in flight at a position. -/
def flight (d : Descriptor) (op : HostOp) (l : Label) (a n b : Word) : State :=
  { session d with busy := true, op := op, opAddr := a, opLen := n, opBuf := b, phase := .run op l }

/-- A PROBE in flight at a position. -/
def probing (l : Label) : State := { State.reset with busy := true, op := .probe, phase := .run .probe l }

/-- The transport and the flash answer: the frame succeeds, and these bytes are read back. -/
def good (rx : List Byte) : Answer := { ok := true, sent := 0, rx := rx }

/-- The frame fails after `k` bytes. -/
def bad (k : Nat) : Answer := { ok := false, sent := k, rx := [] }

/-- The state a step answers. -/
def after (r : Result) : Option State :=
  match r with
  | .next t => some t
  | .fault _ => none
  | .refused _ => none

/-- The event of a frame that succeeds on the default chip select. -/
def sent (f : Frame) (rx : List Byte) : Event := .frame { bus := 0, line := 0 } f true f.wire.length rx

/-- `W[...]`, `W2[... | ...]` and `WR[...]` of 30_encoding.md R107. -/
def W (tx : List Byte) : Frame := { kind := .w, tx := tx, tx2 := [], n := 0 }
def W2 (tx data : List Byte) : Frame := { kind := .w2, tx := tx, tx2 := data, n := 0 }
def WR (tx : List Byte) (n : Nat) : Frame := { kind := .wr, tx := tx, tx2 := [], n := n }

/-- The newest event of what a step answers. -/
def newest (r : Result) : Option Event := (after r).bind fun t => t.history.head?

/-! ## Well-formedness refuses each ill-formed term (R95 to R102, R171) -/

theorem test_wf_no_width : (Instr.se4k 0).wf std .unset = false := by decide
theorem test_wf_address_of_three_bytes : (Instr.fastRead 0x1000000 1).wf std .three = false := by decide
theorem test_wf_address_of_four_bytes : (Instr.fastRead 0x100000000 1).wf std .four = false := by decide
theorem test_wf_read_of_no_byte : (Instr.fastRead 0 0).wf std .three = false := by decide
theorem test_wf_read_too_long : (Instr.fastRead 0 131073).wf std .three = false := by decide
theorem test_wf_page_empty : (Instr.pp 0 []).wf std .three = false := by decide
theorem test_wf_page_crossed : (Instr.pp 255 [1, 2]).wf std .three = false := by decide
theorem test_wf_pair_posnodd_address : (Instr.aaiWp 1 0 0).wf std .three = false := by decide
theorem test_wf_sector_4k : (Instr.se4k 0x800).wf std .three = false := by decide
theorem test_wf_sector_4k_pmc : (Instr.se4kPmc 1).wf std .three = false := by decide
theorem test_wf_block_32k : (Instr.be32k 0x1000).wf std .three = false := by decide
theorem test_wf_block_64k : (Instr.be64k 0x8000).wf std .three = false := by decide
theorem test_wf_manufacturers_differ : Params.wf { std with mfrEon := 0x20 } = false := by decide
theorem test_wf_page_size : Params.wf { std with pageSize := 0 } = false := by decide
theorem test_wf_opcodes_differ : Params.opcodesDistinct { std with opPp := 0x06 } = false := by decide
theorem test_wf_descriptor_size : descWf (chip 0 0 .g4k plain) = false := by decide
theorem test_wf_descriptor_sector : descWf (chip 0 0x1800 .g4k plain) = false := by decide

/-! ## Every command's word, written out from R93, R101 to R103 -/

theorem test_decode_probe : decodeHostWord 0b00000000000000000000000000000001 = .ok .probe := by decide
theorem test_decode_read : decodeHostWord 0b00000000000000000000000000000010 = .ok .read := by decide
theorem test_decode_erase : decodeHostWord 0b00000000000000000000000000000011 = .ok .erase := by decide
theorem test_decode_write : decodeHostWord 0b00000000000000000000000000000100 = .ok .write := by decide
theorem test_decode_reserved_op : decodeHostWord 0x0000000F = .error .reservedOp := by decide
theorem test_decode_reserved_bits : decodeHostWord 0x00000011 = .error .reservedBits := by decide
theorem test_decode_wren : decodeFrame std .three false (W [0b00000110]) = .ok .wren := by decide
theorem test_decode_wrdi : decodeFrame std .three false (W [0b00000100]) = .ok .wrdi := by decide
theorem test_decode_rdsr : decodeFrame std .three false (WR [0b00000101] 1) = .ok .rdsr := by decide
theorem test_decode_wrsr : decodeFrame std .three false (W [0b00000001, 0x80]) = .ok (.wrsr 0x80) := by decide
theorem test_decode_rdid : decodeFrame std .three false (WR [0b10011111] 5) = .ok .rdid := by decide
theorem test_decode_pp :
    decodeFrame std .three false (W2 [0b00000010, 0x00, 0x00, 0xC8] [0x11, 0x22]) = .ok (.pp 200 [0x11, 0x22]) := by decide
theorem test_decode_aai_wp :
    decodeFrame std .three false (W [0b10101101, 0x00, 0x00, 0x02, 0xBB, 0xCC]) = .ok (.aaiWp 2 0xBB 0xCC) := by decide
theorem test_decode_aai_cont : decodeFrame std .three true (W [0xDD, 0xEE]) = .ok (.aaiCont 0xDD 0xEE) := by decide
theorem test_decode_aai_cont_prefix :
    decodeFrame { std with aaiContPrefix := [0xAD] } .three true (W [0xAD, 0xCC, 0xDD]) = .ok (.aaiCont 0xCC 0xDD) := by decide
theorem test_decode_fast_read :
    decodeFrame std .four false (WR [0b00001011, 0x01, 0x23, 0x45, 0x67, 0x00] 2) = .ok (.fastRead 0x01234567 2) := by decide
theorem test_decode_se_4k : decodeFrame std .three false (W [0b00100000, 0x00, 0x10, 0x00]) = .ok (.se4k 0x1000) := by decide
theorem test_decode_se_4k_pmc :
    decodeFrame std .three false (W [0b11010111, 0x00, 0x20, 0x00]) = .ok (.se4kPmc 0x2000) := by decide
theorem test_decode_be_32k : decodeFrame std .three false (W [0b01010010, 0x00, 0x80, 0x00]) = .ok (.be32k 0x8000) := by decide
theorem test_decode_be_64k :
    decodeFrame std .four false (W [0b11011000, 0x01, 0x00, 0x00, 0x00]) = .ok (.be64k 0x1000000) := by decide
theorem test_decode_en4b : decodeFrame std .four false (W [0b10110111]) = .ok .en4b := by decide
theorem test_decode_ex4b : decodeFrame std .four false (W [0b11101001]) = .ok .ex4b := by decide
theorem test_decode_exhbl : decodeFrame std .four false (W [0b10011000]) = .ok .exhbl := by decide
theorem test_decode_wrear : decodeFrame std .four false (W [0b11000101, 0x00]) = .ok .wrear := by decide
theorem test_decode_wrear_fixed : decodeFrame std .four false (W [0xC5, 0x01]) = .error .badFixedByte := by decide
theorem test_decode_brwr : decodeFrame std .four false (W [0b00010111, 0b10000000]) = .ok (.brwr true) := by decide
theorem test_decode_brwr_off : decodeFrame std .four false (W [0x17, 0x00]) = .ok (.brwr false) := by decide
theorem test_decode_unknown : decodeFrame std .three false (W [0xAA]) = .error .unknownOpcode := by decide
theorem test_decode_empty : decodeFrame std .three false (W []) = .error .emptyFrame := by decide
theorem test_decode_length : decodeFrame std .three false (W [0x20, 0x00]) = .error .badLength := by decide
theorem test_decode_operand : decodeFrame std .three false (W [0x20, 0x00, 0x10, 0x01]) = .error .illFormedOperand := by decide

/-- A continuation that fails ends the AAI context: the WREN and WREAR of the next command are read by their opcodes. -/
theorem test_trace_after_failed_pair :
    decodeTrace std .four .outside [sent (W [0xAD, 0, 0, 0, 0, 1, 2]) [], sent (WR [0x05] 1) [0],
      .frame { bus := 0, line := 0 } (W [3, 4]) false 1 [], sent (W [0x06]) [], sent (W [0xC5, 0x00]) []] =
      [.ok (.aaiWp 0 1 2), .ok .rdsr, .ok (.aaiCont 3 4), .ok .wren, .ok .wrear] := by decide
/-- A Poll that fails in an AAI sequence: the bracket of the next command is no continuation. -/
theorem test_trace_after_failed_poll :
    decodeTrace std .four .outside [sent (W [0xAD, 0, 0, 0, 0, 1, 2]) [], sent (WR [0x05] 1) [1],
      .frame { bus := 0, line := 0 } (WR [0x05] 1) false 0 [], sent (W [0x17, 0x80]) []] =
      [.ok (.aaiWp 0 1 2), .ok .rdsr, .ok .rdsr, .ok (.brwr true)] := by decide

/-! ## Address encoding (95: EN1 to EN8, AW1 to AW4) -/

theorem test_EN1 : encodeAddr 0x00123456 .three = [0x12, 0x34, 0x56] := by decide
theorem test_EN3 : encodeAddr 0x01234567 .three = [0x23, 0x45, 0x67] := by decide
theorem test_EN4 : encodeAddr 0x01234567 .four = [0x01, 0x23, 0x45, 0x67] := by decide
theorem test_EN7 : commandLength .three = 4 ∧ commandLength .four = 5 := by decide
theorem test_AW2 : widthOf 0x1000000 = .three := by decide
theorem test_AW3 : widthOf 0x1000001 = .four := by decide

/-! ## One step of each host command (95: H1 to H14; R131) -/

/-- The host writes a value to CMD of the idle block after reset. -/
def commanded (v : Word) : State := { State.reset with addr := 0x10, len := 3, buf := 0x20, script := [sw std .cmd v] }

theorem test_probe_accepted : (after (step (commanded 1))).map (fun t => (t.op, t.statusWord, t.opAddr)) =
    some (.probe, 0x1001, 0x10) := by decide
theorem test_read_accepted : (after (step (commanded 2))).map (fun t => (t.op, t.statusWord, t.opBuf)) =
    some (.read, 0x2001, 0x20) := by decide
theorem test_erase_accepted : (after (step (commanded 3))).map (fun t => (t.op, t.statusWord, t.opLen)) =
    some (.erase, 0x3001, 3) := by decide
theorem test_write_accepted : (after (step (commanded 4))).map (fun t => (t.op, t.statusWord, t.phase)) =
    some (.write, 0x4001, .run .write .start) := by decide
theorem test_H13_illegal_accepted : (after (step (commanded 5))).map (fun t => (t.op, t.statusWord)) =
    some (.illegal, 0x5001) := by decide
theorem test_H2_illegal_completes :
    (after (step { State.reset with busy := true, op := .illegal, statusCur := 5, phase := .run .illegal .start })).map
      State.statusWord = some 0x5802 := by decide
theorem test_H12_not_probed :
    (after (step { State.reset with busy := true, op := .read, statusCur := 2, phase := .run .read .start })).map
      State.statusWord = some 0x2702 := by decide
theorem test_H1_reset : State.reset.statusWord = 0 := by decide
theorem test_H7_addr_reads_back :
    ((after (step { State.reset with script := [sw std .addr 0x1234] })).map (·.readReg .addr)) = some 0x1234 := by decide
theorem test_H9_byte_write_ignored :
    ((after (step { State.reset with script := [.host (.write 0 [1])] })).map (·.busy)) = some false := by decide
theorem test_H11_len_while_busy :
    ((after (step { probing .q1 with len := 7, script := [sw std .len 8] })).map (·.len)) = some 7 := by decide

/-! ## One step of each SPI command (95, sections 4 to 10): the frame, and one more field of the answer -/

theorem test_wren_E1 : newest (step { flight fx1 .erase .e3a 0x1000 0x1000 0 with cur := 0x1000, rem := 1, answers := [good []] })
    = some (sent (W [0x06]) []) := by decide
theorem test_wrdi_A6 : newest (step { flight fx3 .write .s4 2 2 0x40 with cur := 4, answers := [good []] })
    = some (sent (W [0x04]) []) := by decide
theorem test_rdsr_PL3 :
    (after (step { flight fx1 .erase (.poll .e) 0 0x1000 0 with answers := [good [0xFE]] })).map (fun t => (t.sr, t.history)) =
      some (0xFE, [sent (WR [0x05] 1) [0xFE]]) := by decide
theorem test_wrsr_unlock :
    newest (step { probing .u3s with sr := 0xBC, mask := 0x3C, answers := [good []] }) = some (sent (W [0x01, 0x80]) []) := by
  decide
theorem test_rdid_PR1 :
    (after (step { probing .q1 with answers := [good [0xEF, 0x40, 0x18, 0xAB, 0xCD]] })).map (fun t => (t.rawId, t.rawExt)) =
      some (0xEF4018, 0xABCD) := by decide
theorem test_pp_P3 :
    newest (step { flight fx1 .write .g4 255 2 0x8000 with cur := 255, xfer := [0x5A], answers := [good []] }) =
      some (sent (W2 [0x02, 0x00, 0x00, 0xFF] [0x5A]) []) := by decide
theorem test_pp_P11_fails :
    (after (step { flight fx1 .write .g4 0 2 0x8000 with xfer := [1, 2], answers := [bad 4] })).map
      (fun t => (t.history, t.phase)) =
      some ([.frame { bus := 0, line := 0 } (W2 [0x02, 0, 0, 0] [1, 2]) false 4 []], .run .write (.raise .transport)) := by decide
theorem test_aai_wp_A2 :
    (after (step { flight fx3 .write .s3f 0 5 0x40 with first := true, rem := 5, xfer := [0xAA, 0xBB], answers := [good []] })).map
      (fun t => (t.history, t.first)) = some ([sent (W [0xAD, 0, 0, 0, 0xAA, 0xBB]) []], false) := by decide
theorem test_aai_cont_A2 :
    newest (step { flight fx3 .write .s3f 0 5 0x40 with cur := 2, rem := 3, xfer := [0xCC, 0xDD], answers := [good []] }) =
      some (sent (W [0xCC, 0xDD]) []) := by decide
theorem test_fast_read_RD5_truncates :
    newest (step { flight fx1 .read .r4a 0xFF0000 0x30000 0x90000000 with
      cur := 0x1010000, rem := 2, n := 2, answers := [good [1, 2]] }) = some (sent (WR [0x0B, 0x01, 0x00, 0x00, 0x00] 2) [1, 2]) := by decide
theorem test_fast_read_RD6 :
    newest (step { flight fx2 .read .r4a 0x1000000 2 0x2000 with cur := 0x1000000, rem := 2, n := 2, answers := [good [7, 8]] }) =
      some (sent (WR [0x0B, 0x01, 0x00, 0x00, 0x00, 0x00] 2) [7, 8]) := by decide
theorem test_se_4k_E8 :
    newest (step { flight fx1 .erase .e3b 0xFFF000 0x1000 0 with cur := 0xFFF000, rem := 1, answers := [good []] }) =
      some (sent (W [0x20, 0xFF, 0xF0, 0x00]) []) := by decide
theorem test_se_4k_pmc_E13 :
    newest (step { flight fx13 .erase .e3b 0x2000 0x1000 0 with cur := 0x2000, rem := 1, answers := [good []] }) =
      some (sent (W [0xD7, 0x00, 0x20, 0x00]) []) := by decide
theorem test_be_32k_E12 :
    newest (step { flight fx11 .erase .e3b 0x8000 0x8000 0 with cur := 0x8000, rem := 1, answers := [good []] }) =
      some (sent (W [0x52, 0x00, 0x80, 0x00]) []) := by decide
theorem test_be_64k_E14 :
    newest (step { flight fx12 .erase .e3b 0x40000 0x40000 0 with cur := 0x40000, rem := 1, answers := [good []] }) =
      some (sent (W [0xD8, 0x00, 0x04, 0x00, 0x00]) []) := by decide
theorem test_en4b_AM2 : newest (step { flight fx2 .read (.enter 0) 0 1 1 with answers := [good []] }) =
    some (sent (W [0xB7]) []) := by decide
theorem test_ex4b_AM1 : newest (step { flight fx4 .read (.exit 1) 0 1 1 with answers := [good []] }) =
    some (sent (W [0xE9]) []) := by decide
theorem test_exhbl_AM5 : newest (step { flight fx7 .read (.exit 1) 0 1 1 with answers := [good []] }) =
    some (sent (W [0x98]) []) := by decide
theorem test_wrear_AM1 : newest (step { flight fx4 .read (.exit 4) 0 1 1 with answers := [good []] }) =
    some (sent (W [0xC5, 0x00]) []) := by decide
theorem test_brwr_AM6 : newest (step { flight fx8 .read (.enter 0) 0 1 1 with answers := [good []] }) =
    some (sent (W [0x17, 0x80]) []) := by decide
theorem test_brwr_AM6_exit : newest (step { flight fx12 .read (.exit 0) 0 1 1 with answers := [good []] }) =
    some (sent (W [0x17, 0x00]) []) := by decide

/-! ## One step between frames -/

theorem test_E9_next_sector :
    (after (step { flight fx1 .erase (.polled .e) 0x3000 0x2000 0 with cur := 0x3000, rem := 2, answers := [good []] })).map
      (fun t => (t.progress, t.cur, t.history)) = some (0x1000, 0x4000, [sent (W [0x06]) []]) := by decide
theorem test_E2_align : (after (step (flight fx1 .erase .start 0x1000 0x1800 0))).map (fun t => (t.err, t.history)) =
    some (.align, []) := by decide
theorem test_E3_capacity : (after (step (flight fx1 .erase .start 0xFFF000 0x2000 0))).map (·.err) = some .capacity := by decide
theorem test_P9_exact_sum : (after (step (flight fx1 .write .start 0xFFFFFFFF 2 0x8000))).map (·.err) = some .capacity := by
  decide
theorem test_P13_wraps :
    (after (step { flight fx1 .write .g2 0x10 3 0xFFFFFFFF with
      cur := 0x10, rem := 3, n := 3, xfer := [9], mem := [(0, 0x77)] })).map (fun t => (t.xfer, t.history)) =
      some ([9, 0x77], [.mem .read 0 0x77]) := by decide
theorem test_RD9_stores :
    (after (step { flight fx1 .read .r4b 0 1 0x2000 with rem := 1, n := 1, xfer := [0x5A] })).map (·.mem) =
      some [(0x2000, 0x5A)] := by decide
/-- R87, 93 U10: a byte of the source buffer that the host stored to while BUSY is sent with a free value. -/
theorem test_raced_byte_is_free :
    (after (step { flight fx1 .write .g2 0 1 0x8000 with n := 1, raced := [0x8000], mem := [(0x8000, 7)] })).map (·.xfer) =
      some [Config.freeByte [] 0 0] := rfl
theorem test_store_races :
    (after (step { flight fx1 .write .g2 0 1 0x8000 with n := 1, script := [.host (.store 0x8000 7)] })).map
      (fun t => (t.raced, t.mem)) = some ([0x8000], [(0x8000, 7)]) := by decide
/-- R87, 93 U10: a store after the DMA read of its byte frees the byte that the page program is about to send, and no other. -/
theorem test_store_after_the_read :
    (after (step { flight fx1 .write .g4 0 3 0x8000 with
      n := 3, xfer := [1, 2, 3], script := [.host (.store 0x8001 7)] })).map (·.xfer) =
      some [1, Config.freeByte [] 0 0, 3] := rfl
/-- A store to a byte of an earlier chunk frees nothing of the chunk that is next. -/
theorem test_store_behind_the_chunk :
    (after (step { flight fx1 .write .g4 0 5 0x8000 with
      hoff := 2, n := 3, xfer := [1, 2, 3], script := [.host (.store 0x8001 7)] })).map (·.xfer) = some [1, 2, 3] := by decide
theorem test_store_beside_the_buffer :
    (after (step { flight fx1 .write .g2 0 1 0x8000 with n := 1, script := [.host (.store 0x8001 7)] })).map
      (fun t => (t.raced, t.mem)) = some ([], [(0x8001, 7)]) := by decide
/-- R87: a load of a destination byte already delivered sees the value before or after the block's write, and no other. -/
theorem test_load_of_a_delivered_byte :
    (after (step { flight fx1 .read .r4b 0 2 0x2000 with
      n := 2, xfer := [6], mem := [(0x2000, 5)], replaced := [(0x2000, 4)], script := [.host (.load 0x2000)] })).map (·.readData) =
      some [if Config.loadsOther [] 0 then 4 else 5] := rfl
/-- R87: and of a byte received and not yet delivered. -/
theorem test_load_of_a_waiting_byte :
    (after (step { flight fx1 .read .r4b 0 2 0x2000 with
      n := 2, xfer := [6], mem := [(0x2001, 5)], script := [.host (.load 0x2001)] })).map (·.readData) =
      some [if Config.loadsOther [] 0 then 6 else 5] := rfl
theorem test_write_keeps_the_byte_it_replaces :
    (after (step { flight fx1 .read .r4b 0 1 0x2000 with rem := 1, n := 1, xfer := [0x5A], mem := [(0x2000, 7)] })).map
      (·.replaced) = some [(0x2000, 7)] := by decide
theorem test_load_after_completion :
    (after (step { session fx1 with op := .read, opLen := 1, opBuf := 5, mem := [(5, 9)], script := [.host (.load 5)] })).map
      (·.readData) = some [9] := by decide
/-- R280: an RDSR that fails in the Poll of a sector leaves that sector unknown, and a failed exit from the bracket none. -/
theorem test_failed_poll_disturbs_its_sector :
    (after (step { flight fx1 .erase (.poll .e) 0 0x2000 0 with cur := 0x1000, rem := 1, answers := [bad 0] })).map
      (·.flash.array) = some [.disturbed { addr := 0x1000, size := 0x1000 }] := by decide
/-- R16, R280: with two equal erase opcodes the unit of a failed erase frame is still the sector of the chip. -/
theorem test_failed_erase_of_equal_opcodes :
    (after (step { flight fx2 .erase .e3b 0x10000 0x10000 0 with
      par := { std with opSe4k := std.opBe64k }, cur := 0x10000, rem := 1, answers := [bad 0] })).map (·.flash.array) =
      some [.disturbed { addr := 0x10000, size := 0x10000 }] := by decide
theorem test_failed_exit_disturbs_nothing :
    (after (step { flight fx2 .erase (.exit 1) 0 0x10000 0 with
      flash := { FlashView.unknown with array := [.erased 0 0x10000] }, answers := [bad 0] })).map (·.flash.array) =
      some [.erased 0 0x10000] := by decide
theorem test_RD2_no_buffer : (after (step (flight fx1 .read .start 0 4 0))).map (·.err) = some .noBuffer := by decide
theorem test_PR1_end :
    (after (step { probing .q2 with
      rawId := 0xEF4018, statusCur := 1, registry := [{ jedecId := 0xEF4018, ext := none, result := some fx1 }] })).map
      (fun t => (t.statusWord, t.readReg .info, t.readReg .sizeLo, t.readReg .eraseSize)) =
      some (0x1006, 0x00600020, 0x1000000, 0x1000) := by decide
theorem test_PR2_no_chip :
    (after (step { probing .q2 with rawId := 0x000000 })).map (fun t => (t.err, t.probeState)) = some (.noChip, .failed) := by
  decide
theorem test_reset_turn :
    (after (step { flight fx1 .erase .e3a 0x1000 0x1000 0 with addr := 5, answers := [bad 1], script := [.reset] })).map
      (fun t => (t.statusWord, t.addr, t.phase, t.history)) =
      some (0, 0, .idle, [.cut { bus := 0, line := 0 } (W [0x06]) 1]) := by decide
theorem test_empty_step_of_reset : after (step State.reset) = some State.reset := by decide

/-! ## Witnesses: a state and operands that meet the hypotheses of each statement, clause by clause -/

/-- The idle block after reset with the host's next turns. -/
def turned (ts : List Turn) : State := { State.reset with script := ts }

/-- An ERASE in flight with the host's next turns. -/
def busyTurned (ts : List Turn) : State := { flight fx1 .erase .e3a 0x1000 0x1000 0 with script := ts }

theorem wit_DecodeOfEncodeIsTheInstruction :
    std.opcodesDistinct = true ∧ (Instr.fastRead 0xFFFFFF 131072).wf std .three = true ∧
      (Instr.pp 255 [0xAA]).wf std .four = true ∧ (Instr.aaiCont 1 2).wf std .unset = true := by decide
theorem wit_HostWordsDecodeExactly :
    (0x00000010 : Word).extractLsb' 4 28 ≠ 0 ∧ (0x80000001 : Word).extractLsb' 4 28 ≠ 0 ∧ decodeHostWord 4 = .ok .write := by
  decide
theorem wit_AddressFieldsAreBigEndian : 3 < AddrWidth.four.bytes ∧ 0 < AddrWidth.three.bytes := by decide
theorem wit_FramesHaveTheirFormat :
    encode std .three .wren = .frame (W [6]) ∧ encode std .three (.wrsr 9) = .frame (W [1, 9]) ∧
    encode std .three (.se4k 0x1000) = .frame (W [0x20, 0, 0x10, 0]) ∧ (Instr.se4k 0x1000).wf std .three = true ∧
    encode std .three (.pp 255 [7]) = .frame (W2 [2, 0, 0, 255] [7]) ∧ (Instr.pp 255 [7]).wf std .three = true ∧
    encode std .three (.aaiWp 2 1 1) = .frame (W [0xAD, 0, 0, 2, 1, 1]) ∧ (Instr.aaiWp 2 1 1).wf std .three = true ∧
    encode std .three (.aaiCont 1 2) = .frame (W [1, 2]) ∧
    encode std .four (.fastRead 1 131072) = .frame (WR [0x0B, 0, 0, 0, 1, 0] 131072) ∧
    (Instr.fastRead 1 131072).wf std .four = true ∧ encode std .three .rdid = .frame (WR [0x9F] 5) := by decide
theorem wit_TraceDecoderReadsAaiSequences :
    std.opcodesDistinct = true ∧ (Instr.aaiWp 0xFFFFFE 0x06 0x04).wf std .three = true ∧
    decodeFrame std .three AaiContext.polled.continues (W [0x06]) = .ok .wren ∧ AaiContext.paired ≠ .polled := by decide
theorem wit_StepRunsTheDecodedCommand :
    std.wf = true ∧ windowOffset std 0 = 0 ∧ wordOfLanes [3, 0, 0, 0] = some 3 ∧ decodeHostWord 3 = .ok .erase ∧
    (turned [.host (.write 0 [3, 0, 0, 0])]).busy = false ∧ (turned []).script = [] ∧ (turned [.seq]).script = .seq :: [] ∧
    (busyTurned [.wait]).script = .wait :: [] ∧ (busyTurned [.wait]).busy = true ∧ (turned [.wait]).busy = false ∧
    (plan (busyTurned [])).action = .frame .wren := by decide
theorem wit_PlacedWordsRun :
    std.wf = true ∧ decodeTableWord 32 0x00000004 = some .write ∧ State.reset.par = Params.standard ∧
    decodeTableWord 8 0x17 = some (.brwr false) := by decide
theorem wit_CmdWriteIsAcceptedOrIgnored :
    std.wf = true ∧ (turned [sw std .cmd 0xF]).script = .host (.write 0 [0xF, 0, 0, 0]) :: [] ∧ windowOffset std 0 = 0 ∧
    wordOfLanes [0xF, 0, 0, 0] = some 0xF ∧ (turned [sw std .cmd 0xF]).busy = false ∧
    (busyTurned [sw std .cmd 0xF]).script = .host (.write 0 [0xF, 0, 0, 0]) :: [] ∧
    (busyTurned [sw std .cmd 0xF]).busy = true := by decide
theorem wit_HostCommandsAreAccepted : State.reset.busy = false ∧ (session fx2).busy = false := by decide
theorem wit_IllegalCommandsComplete :
    std.wf = true ∧ (turned [sw std .cmd 0x11]).script = .host (.write 0 [0x11, 0, 0, 0]) :: [] ∧ windowOffset std 0 = 0 ∧
    wordOfLanes [0x11, 0, 0, 0] = some 0x11 ∧ decodeHostWord 0x11 = .error .reservedBits ∧
    decodeHostWord 0x0 = .error .reservedOp ∧ (turned [sw std .cmd 0x11]).busy = false := by decide
theorem wit_CompletionRecordsTheCode :
    (plan (flight fx1 .erase .start 0x1000 0x1800 0)).action = .complete .align ∧
    (plan (flight fx1 .read .start 0 0 0)).action = .complete .ok := by decide
theorem wit_ProbeComesFirst :
    bulkOp .erase = true ∧ { State.reset with phase := .run .erase .start }.probeState ≠ .probed ∧ bulkOp .read = true ∧
    { State.reset with probeState := .failed, phase := .run .read .start }.probeState ≠ .probed := by decide
theorem wit_ProbeRegistersShowTheChip :
    State.reset.probeState ≠ .probed ∧ (session fx11).probeState = .probed ∧ (session fx11).desc = some fx11 := by decide
theorem wit_RegisterWritesStoreOrAreIgnored :
    std.wf = true ∧ wordOfLanes [1, 0, 0, 0] = some 1 ∧ (turned [.host (.write 4 [1, 0, 0, 0])]).busy = false ∧
    windowOffset std 4 = 0x04 ∧ windowOffset std 8 = 0x08 ∧ windowOffset std 12 = 0x0C ∧ windowOffset std 0x10 = 0x10 ∧
    windowOffset std 0x30 = 0x30 ∧ windowOffset std 0x100 = 256 ∧
    (busyTurned [.host (.write 4 [1, 0, 0, 0])]).busy = true := by decide
theorem wit_RegisterReadsReturnTheRegister :
    std.wf = true ∧ (turned [.host (.read 0x2C 4)]).script = .host (.read 0x2C 4) :: [] ∧
    [0x00, 0x04, 0x08, 0x0C, 0x10, 0x14, 0x18, 0x2C, 0x30, 0xFC].map (windowOffset std) =
      [0x00, 0x04, 0x08, 0x0C, 0x10, 0x14, 0x18, 0x2C, 0x30, 0xFC] := by decide
theorem wit_IllFormedAccessesHaveNoEffect :
    std.wf = true ∧ windowOffset std 0 < 256 ∧ [(1 : Byte)].length ≠ 4 ∧ windowOffset std 2 % 4 ≠ 0 ∧
    windowOffset std 2 < 256 ∧ (2 : Nat) ≠ 4 ∧ windowOffset std 0xFD % 4 ≠ 0 ∧ windowOffset std 0xFD < 256 := by decide
theorem wit_HostStoresChangeOneByte :
    let w := { flight fx1 .write .g3 0 2 0xFFFFFFFF with xfer := [1, 2], script := [.host (.store 0 7)] }
    let r := { flight fx1 .read .r4a 0 2 0xFFFFFFFF with script := [.host (.load 0)] }
    let u := { flight fx1 .read .r4b 0 3 0x8000 with n := 3, xfer := [6, 7], replaced := [(0x8000, 4)] }
    u.replaced.lookup 0x8000 = some 4 ∧ u.replaced.lookup 0x8001 = none ∧ u.phase = .run .read .r4b ∧
    u.xfer[0]? = some 6 ∧ ((0x8001 : Word) - u.opBuf).toNat = u.hoff + (u.n - u.xfer.length) + 0 ∧
    ((0x8002 : Word) - u.opBuf).toNat = u.hoff + (u.n - u.xfer.length) + 1 ∧ r.phase ≠ .run .read .r4b ∧
    std.wf = true ∧ (turned [.host (.store 0xFFFFFFFF 0)]).mem.wf = true ∧
    (turned [.host (.store 0xFFFFFFFF 0)]).script = .host (.store 0xFFFFFFFF 0) :: [] ∧
    (turned [.host (.load 5)]).script = .host (.load 5) :: [] ∧ (turned []).busy = false ∧
    w.busy = true ∧ (0 - w.opBuf).toNat < w.opLen.toNat ∧ ¬ (1 - w.opBuf).toNat < w.opLen.toNat ∧ w.op = .write ∧
    w.writeCheck = none ∧ w.hoff + 1 = (0 - w.opBuf).toNat ∧ 1 < w.xfer.length ∧ r.busy = true ∧ (0 - r.opBuf).toNat < r.opLen.toNat ∧ r.op = .read ∧ r.readCheck = none := by decide

/-- A state whose next frame succeeds, and one whose next frame fails after two bytes. -/
def ready : State := { session fx1 with answers := [good [1, 2, 3, 4, 5]] }
def failing : State := { session fx1 with answers := [bad 2] }

theorem wit_LatchAndStatusCommandsSendTheirFrame : ready.frameOk = true ∧ failing.frameOk = false := by decide
theorem wit_RdsrReadsOneStatusByte : ready.frameOk = true ∧ failing.frameOk = false := by decide
theorem wit_RdidCapturesTheId : ready.frameOk = true ∧ failing.frameOk = false := by decide
theorem wit_EraseCommandsSendTheAddress : ready.frameOk = true ∧ failing.frameOk = false := by decide
theorem wit_PageProgramSendsHeaderThenData : ready.frameOk = true ∧ failing.frameOk = false := by decide
theorem wit_FirstPairSendsAddressAndData : ready.frameOk = true ∧ failing.frameOk = false := by decide
theorem wit_LaterPairsSendDataOnly :
    { ready with flash := FlashView.unknown.aaiEntered 2 1 1 }.frameOk = true ∧
    (FlashView.unknown.aaiEntered 2 1 1).pointer = some 4 ∧ failing.frameOk = false := by decide
theorem wit_FastReadReceivesTheBytes : ready.frameOk = true := by decide
theorem wit_FailedReadFrameSpoilsItsDestination :
    failing.frameOk = false ∧ failing.mem.wf = true ∧ (4294967296 : Nat) ≤ 4294967296 := by decide
theorem wit_ModeCommandsSendTheirFrame : ready.frameOk = true ∧ failing.frameOk = false := by decide
theorem wit_FailedFramesAbortTheCommand :
    encode std .three .rdid = .frame (WR [0x9F] 5) ∧ { probing .q1 with answers := [bad 0] }.frameOk = false ∧
    (probing .q1).phase = .run .probe .q1 ∧ encode std .three .wren = .frame (W [6]) ∧ failing.frameOk = false ∧
    encode std .four .ex4b = .frame (W [0xE9]) ∧ .ex4b ∈ (flight fx2 .erase (.exit 0) 0 0 0).bracket false ∧
    encode std .three .rdsr = .frame (WR [5] 1) ∧ (flight fx1 .erase (.poll .e) 0 0 0).phase = .run .erase (.poll .e) := by
  decide
theorem wit_ProbeRunsOnlyOnce : (session fx1).busy = false ∧ (session fx1).probeState ≠ .unprobed := by decide

/-- A registry that knows FX1, and says of one more ID that no chip has it. -/
def known : List RegEntry :=
  [{ jedecId := 0xEF4018, ext := none, result := some fx1 }, { jedecId := 0xABCDEF, ext := none, result := none }]

theorem wit_ProbeOfAKnownChip :
    let s := { State.reset with registry := known, answers := [{ ok := true, sent := 0, rx := [0xEF, 0x40, 0x18, 0, 0] }] }
    s.busy = false ∧ s.probeState = .unprobed ∧ invalidId ((0xEF : Byte) ++ (0x40 : Byte) ++ (0x18 : Byte)) = false ∧
    s.lookup ((0xEF : Byte) ++ (0x40 : Byte) ++ (0x18 : Byte)) ((0 : Byte) ++ (0 : Byte)) = some fx1 ∧ descWf fx1 = true ∧
    fx1.flags.initSr = false ∧ hasProtection fx1.flags = false := by decide
theorem wit_ProbeFailsClosed :
    (probing .q2).phase = .run .probe .q2 ∧ (probing .q2).rawId = 0 ∧ { probing .q2 with rawId := 0xFFFFFF }.rawId = 0xFFFFFF ∧
    { probing .q2 with rawId := 0xABCDEF, registry := known }.lookup 0xABCDEF 0 = none ∧
    (0xABCDEF : BitVec 24) ≠ 0 ∧ (0xABCDEF : BitVec 24) ≠ 0xFFFFFF := by decide

/-- A PROBE that has read FX's ID, with a registry that knows it. -/
def identified (d : Descriptor) : State :=
  { probing .q2 with rawId := d.jedecId, registry := [{ jedecId := d.jedecId, ext := none, result := some d }] }

theorem wit_UnlockFollowsTheFlags :
    invalidId fx7.jedecId = false ∧ (identified fx7).lookup fx7.jedecId 0 = some fx7 ∧ descWf fx7 = true ∧
    fx7.flags.initSr = true ∧ (identified fx2).lookup fx2.jedecId 0 = some fx2 ∧ descWf fx2 = true ∧
    fx2.flags.initSr = false ∧ (fx2.flags.bp02 || fx2.flags.bp3 || fx2.flags.bp4) = true ∧
    (identified fx1).lookup fx1.jedecId 0 = some fx1 ∧ (fx1.flags.bp02 || fx1.flags.bp3 || fx1.flags.bp4) = false ∧
    (∀ l ∈ [Label.u1w, .u1s, .polled .u1], (probing l).phase = .run .probe l ∧ (probing l).sr.getLsbD 0 = false) := by decide
theorem wit_UnlockClearsExactlyTheMask :
    { probing .u3 with sr := 0x10, mask := 0x3C }.sr &&& 0x3C ≠ 0 ∧ { probing .u3 with sr := 0x83, mask := 0x3C }.sr &&& 0x3C = 0 ∧
    (∀ l ∈ [Label.u2, .u3, .u3w, .u3s, .polled .u3], (probing l).phase = .run .probe l ∧ (probing l).sr.getLsbD 0 = false) ∧
    { probing .u2 with answers := [good [0x3C]] }.frameOk = true := by decide
theorem wit_AddressModeSequences :
    std.wf = true ∧ manufacturer 0x20BA19 = std.mfrMicron ∧ manufacturer 0xEF4019 = std.mfrWinbond ∧
    manufacturer 0xC84019 = std.mfrGigadevice ∧ manufacturer 0xC22619 = std.mfrMacronix ∧ manufacturer 0x1C7019 = std.mfrEon ∧
    manufacturer 0x9D6019 = std.mfrIssi ∧ manufacturer 0x010219 = std.mfrSpansion ∧
    manufacturer 0xBF2643 ∉ std.manufacturers ∧
    (session fx4).desc = some fx4 ∧ (modeFrames std .four fx4.jedecId true)[2]? = some .wrdi ∧
    (flight fx4 .read (.enter 2) 0 1 1).phase = .run .read (.enter 2) ∧
    (modeFrames std .four fx4.jedecId false)[5]? = some .wrdi ∧ (flight fx4 .read (.exit 5) 0 1 1).phase = .run .read (.exit 5) ∧
    (modeFrames std .four fx4.jedecId false).length ≤ 6 := by decide
theorem wit_PollRepeatsWhileBusy :
    (flight fx1 .erase (.poll .e) 0 0 0).phase = .run .erase (.poll .e) ∧
    { flight fx1 .write (.polled .g) 0 0 0 with sr := 0xFF }.sr.getLsbD 0 = true ∧
    { flight fx1 .write (.polled .g) 0 0 0 with sr := 0xFE }.sr.getLsbD 0 = false := by decide
theorem wit_BusyFlashHangsTheCommand :
    let s := { flight fx1 .erase (.poll .e) 0 0x1000 0 with answers := [good [0xFF], good [0x01]] }
    s.par.wf = true ∧ s.script = [] ∧ s.busy = true ∧ s.done = false ∧ s.err = .ok ∧ s.phase = .run .erase (.poll .e) ∧
    2 ≤ s.answers.length ∧ ∀ a ∈ s.answers, a.ok = true ∧ ∃ b bs, a.rx = b :: bs ∧ b.getLsbD 0 = true := by
  refine ⟨by decide, rfl, rfl, rfl, rfl, rfl, by decide, ?_⟩
  intro a ha
  simp only [List.mem_cons, List.not_mem_nil, or_false] at ha
  rcases ha with rfl | rfl
  · exact ⟨rfl, 0xFF, [], rfl, by decide⟩
  · exact ⟨rfl, 0x01, [], rfl, by decide⟩
theorem wit_EraseValidatesBeforeAnyFrame :
    (session fx1).params.eraseSize = 4096 ∧ (session fx1).size = 0x1000000 ∧ 0x800 % 4096 ≠ 0 ∧
    (0x1000 % 4096 = 0 ∧ (0x1000 + 0x1800) % 4096 ≠ 0) ∧ ((0xFFF000 + 0x2000) % 4096 = 0 ∧ 0xFFF000 + 0x2000 > 0x1000000) ∧
    0xFFF000 + 0x1000 ≤ 0x1000000 ∧ (flight fx1 .erase .start 0xFFF000 0x1000 0).phase = .run .erase .start ∧
    (flight fx1 .erase .start 0xFFF000 0x1000 0).probeState = .probed ∧
    (flight fx2 .erase .start 0 0 0).bracket true = [.en4b] ∧ (flight fx1 .erase .start 0 0 0).bracket true = [] ∧
    (flight fx1 .erase .start 0 0 0).bracket false = [] ∧ 0 < (session fx1).params.eraseSize.toNat ∧
    (session fx1).params.eraseSize.toNat ≤ 0x1000 := by decide
theorem wit_EraseGoesSectorBySector :
    let s := { flight fx1 .erase (.polled .e) 0 0x2000 0 with rem := 2, sr := 0xFE }
    let t := { flight fx2 .erase (.polled .e) 0 0x10000 0 with rem := 1 }
    s.phase = .run .erase (.polled .e) ∧ s.sr.getLsbD 0 = false ∧ 2 ≤ s.rem ∧ { s with rem := 1 }.bracket false = [] ∧
    t.phase = .run .erase (.polled .e) ∧ t.sr.getLsbD 0 = false ∧ t.bracket false = [.ex4b, .wren, .wrear, .wrdi] ∧
    (flight fx1 .erase .e3a 0 0x1000 0).phase = .run .erase .e3a ∧ ready.frameOk = true := by decide
theorem wit_EraseGoesSectorBySector_start :
    (flight fx1 .erase .start 0x1000 0x1000 0).AtLoop .erase ∧ (flight fx2 .erase (.enter 1) 0x10000 0x10000 0).AtLoop .erase ∧
    0 < (0x1000 : Word).toNat / (session fx1).params.eraseSize.toNat ∧
    (0 : Word).toNat / (session fx1).params.eraseSize.toNat = 0 ∧ (flight fx1 .erase .start 0 0 0).AtLoop .erase ∧
    (flight fx1 .erase .start 0 0 0).bracket false = [] ∧ (flight fx2 .erase (.enter 1) 0 0 0).AtLoop .erase ∧
    (flight fx2 .erase (.enter 1) 0 0 0).bracket false = [.ex4b, .wren, .wrear, .wrdi] :=
  ⟨.inl ⟨rfl, show State.eraseCheck _ = none by decide, by decide⟩, .inr ⟨1, rfl, by decide⟩, by decide, by decide,
    .inl ⟨rfl, show State.eraseCheck _ = none by decide, by decide⟩, by decide, .inr ⟨1, rfl, by decide⟩, by decide⟩
theorem wit_EraseFrameUsesTheEraseOpcode :
    (flight fx1 .erase .e3b 0 0 0).phase = .run .erase .e3b ∧ (session fx1).params.eraseOp = std.opSe4k ∧
    (session fx13).params.eraseOp = std.opSe4kPmc ∧ (session fx11).params.eraseOp = std.opBe32k ∧
    (session fx12).params.eraseOp = std.opBe64k ∧
    State.reset.params.eraseOp ∉ [std.opSe4k, std.opSe4kPmc, std.opBe32k, std.opBe64k] := by decide
theorem wit_EraseRunsToCompletion :
    let s := { flight fx1 .erase .start 0x3000 0x2000 0 with answers := (List.replicate 2 (idleSector 0)).flatten ++ [bad 0] }
    s.par.wf = true ∧ s.script = [] ∧ s.phase = .run .erase .start ∧ s.eraseCheck = none ∧ s.params.eraseSize = 0x1000 ∧
    s.params.eraseOp = s.par.opSe4k ∧ s.params.addrWidth = .three ∧ s.progress = 0 ∧ s.opLen.toNat = 2 * 4096 := by decide
theorem wit_WriteChecksBeforeAnyFrame :
    (flight fx1 .write .start 0 0 0).phase = .run .write .start ∧ (flight fx1 .write .start 0 0 0).probeState = .probed ∧
    (0 : Word) = 0 ∧ ((1 : Word) ≠ 0 ∧ (0 : Word) = 0) ∧ (0xFFFFFF + 2 > (session fx1).size) ∧
    (0xFFFFFF + 1 ≤ (session fx1).size) ∧ (flight fx2 .write .start 0 1 1).bracket true = [.en4b] := by decide
theorem wit_ChunksStayInTheirPage :
    let s := { flight fx1 .write (.polled .g) 0 300 0x40 with n := 256, rem := 300 }
    0 < 256 ∧ 0 < 300 ∧ pageChunkLen 256 200 300 < 300 ∧ pageChunkLen 256 255 1 = 1 ∧ 0 < s.par.pageSize ∧
    s.phase = .run .write (.polled .g) ∧ s.sr.getLsbD 0 = false ∧ s.n < s.rem ∧ { s with rem := 256 }.rem ≤ s.n ∧
    s.bracket false = [] ∧ (flight fx2 .write (.polled .g) 0 1 1).bracket false = [.ex4b, .wren, .wrear, .wrdi] ∧
    (flight fx1 .write .g2 0 2 1).phase = .run .write .g2 ∧ { flight fx1 .write .g2 0 2 1 with n := 2 }.n ≤ [1, 2].length ∧
    (flight fx1 .write .g3 0 2 1).phase = .run .write .g3 ∧ (flight fx1 .write .g4 0 2 1).phase = .run .write .g4 := by decide
theorem wit_ChunksStayInTheirPage_start :
    (flight fx1 .write .start 200 300 0x40).AtLoop .write ∧ (flight fx2 .write (.enter 1) 200 300 0x40).AtLoop .write ∧
    (session fx1).params.sstWrite = false ∧ (300 : Word) ≠ 0 :=
  ⟨.inl ⟨rfl, show State.writeCheck _ = none by decide, by decide⟩, .inr ⟨1, rfl, by decide⟩, rfl, by decide⟩
theorem wit_AaiStepsFollowTheirOrder :
    let posn := fun l => flight fx3 .write l 1 5 0x40
    (posn .start).AtLoop .write ∧ (flight fx3 .write .start 2 5 0x40).AtLoop .write ∧ (posn .start).params.sstWrite = true ∧
    (posn .start).opAddr.toNat % 2 = 1 ∧ { posn .s1m with xfer := [1] }.xfer = [1] ∧
    (∀ l ∈ [Label.s1m, .s1w, .s1p, .polled .s1, .s2, .s2d, .s3m, .s3f, .polled .s3, .s4, .polled .s4, .s5m, .s5w, .s5p,
      .polled .s5, .s6], (posn l).phase = .run .write l ∧ (posn l).sr.getLsbD 0 = false) ∧
    2 ≤ { posn .s2d with rem := 2 }.rem ∧ { posn .s2d with rem := 1 }.rem < 2 ∧
    { posn .s3m with xfer := [1, 2] }.xfer = [1, 2] ∧ 4 ≤ { posn (.polled .s3) with rem := 4 }.rem ∧
    { posn (.polled .s3) with rem := 3 }.rem < 4 ∧ { posn (.polled .s4) with rem := 1 }.rem = 1 ∧
    (posn (.polled .s4)).rem ≠ 1 :=
  ⟨.inl ⟨rfl, show State.writeCheck _ = none by decide, by decide⟩,
    .inl ⟨rfl, show State.writeCheck _ = none by decide, by decide⟩, by decide⟩
theorem wit_ReadChecksBeforeAnyFrame :
    (flight fx1 .read .start 0 0 0).phase = .run .read .start ∧ (flight fx1 .read .start 0 0 0).probeState = .probed ∧
    (flight fx1 .read .start 0 0 0).opLen = 0 ∧ (flight fx1 .read .start 0 4 0).opLen ≠ 0 ∧
    (flight fx1 .read .start 0 4 0).opBuf = 0 ∧ (flight fx1 .read .start 0 4 1).opBuf ≠ 0 ∧
    (flight fx1 .read .start 0 4 1).bracket true = [] ∧ (flight fx2 .read .start 0 4 1).bracket true = [.en4b] := by decide
theorem wit_DmaMovesOneByte :
    let s := { flight fx1 .write .g2 0 2 0x8000 with n := 2, xfer := [1] }
    let t := { flight fx1 .read .r4b 0 2 0x8000 with n := 2, xfer := [1, 2] }
    s.phase = .run .write .g2 ∧ s.xfer.length < s.n ∧ (flight fx3 .write .s1m 1 2 1).phase = .run .write .s1m ∧
    (flight fx3 .write .s1m 1 2 1).xfer.length < 1 ∧ { flight fx3 .write .s3m 0 2 1 with xfer := [1] }.xfer.length < 2 ∧
    (flight fx3 .write .s5m 0 1 1).xfer.length < 1 ∧ (flight fx3 .write .s5m 0 1 1).phase = .run .write .s5m ∧
    t.phase = .run .read .r4b ∧ t.xfer = 1 :: [2] ∧ t.mem.wf = true ∧
    { t with raced := [0x8000] }.opBuf + BitVec.ofNat 32 (t.hoff + (t.n - ([2].length + 1))) ∈ [(0x8000 : Word)] := by decide
theorem wit_ReadGoesChunkByChunk :
    let s := { flight fx1 .read .r4b 0 0x30000 1 with n := 131072, rem := 0x30000 }
    s.phase = .run .read .r4b ∧ s.xfer = [] ∧ s.n < s.rem ∧ { s with rem := 131072 }.rem ≤ s.n ∧ s.bracket false = [] ∧
    { flight fx7 .read .r4b 0 1 1 with n := 1, rem := 1 }.bracket false = [.ex4b, .exhbl] := by decide
theorem wit_ReadGoesChunkByChunk_start :
    (flight fx1 .read .start 0 4 1).AtLoop .read ∧ (flight fx2 .read (.enter 1) 0 4 1).AtLoop .read ∧ (4 : Word) ≠ 0 ∧
    (flight fx1 .read .r4a 0 4 1).phase = .run .read .r4a :=
  ⟨.inl ⟨rfl, show State.readCheck _ = none by decide, by decide⟩, .inr ⟨1, rfl, by decide⟩, by decide, rfl⟩
theorem wit_ResetClearsTheBlock_frame :
    (plan ((busyTurned [.reset]).withScript [])).action = .frame .wren ∧
    encode std (busyTurned [.reset]).params.addrWidth .wren = .frame (W [0x06]) := by decide
theorem wit_ResetClearsTheBlock :
    std.wf = true ∧ (busyTurned [.reset]).script = .reset :: [] ∧ (busyTurned [.reset]).busy = true ∧
    (turned [.reset]).busy = false ∧ ∀ v, (plan ((busyTurned [.reset]).withScript [])).action ≠ .memWrite 5 v := by
  refine ⟨by decide, rfl, rfl, rfl, fun v h => ?_⟩
  have k : (plan ((busyTurned [.reset]).withScript [])).action = .frame .wren := by decide
  rw [k] at h; cases h

/-! ## Witnesses for the whole-machine rules: states in flight that meet the invariant -/

/-- An ERASE of one sector of FX1, its WREN sent. -/
def erasing : State :=
  { flight fx1 .erase .e3b 0x1000 0x1000 0 with cur := 0x1000, rem := 1, history := [sent (W [0x06]) []], answers := [good []] }

/-- The same ERASE when the Poll of its sector has read bit 0 clear. -/
def erased : State := { flight fx1 .erase (.polled .e) 0x1000 0x1000 0 with cur := 0x1000, rem := 1 }

theorem erasing_inv : erasing.Inv where
  probed := fun _ => ⟨fx1, rfl, by decide, rfl⟩
  unset := fun h => absurd rfl h
  busyIff := ⟨fun _ h => (by cases h), fun _ => rfl⟩
  busyClear := fun _ => ⟨rfl, rfl⟩
  mem := by decide
  command := by
    intro op l h; cases h
    exact ⟨rfl, rfl, fun _ _ => ⟨rfl, show erasing.eraseCheck = none by decide⟩, fun h => (by cases h),
      show erasing.eraseCourse ∧ 0 < erasing.rem by unfold State.eraseCourse; decide⟩

theorem erased_inv : erased.Inv where
  probed := fun _ => ⟨fx1, rfl, by decide, rfl⟩
  unset := fun h => absurd rfl h
  busyIff := ⟨fun _ h => (by cases h), fun _ => rfl⟩
  busyClear := fun _ => ⟨rfl, rfl⟩
  mem := by decide
  command := by
    intro op l h; cases h
    exact ⟨rfl, rfl, fun _ _ => ⟨rfl, show erased.eraseCheck = none by decide⟩, fun h => (by cases h),
      show erased.eraseCourse ∧ 0 < erased.rem by unfold State.eraseCourse; decide⟩

theorem identified_inv : (identified fx1).Inv where
  probed := fun h => (by cases h)
  unset := fun _ => ⟨rfl, rfl⟩
  busyIff := ⟨fun _ h => (by cases h), fun _ => rfl⟩
  busyClear := fun _ => ⟨rfl, rfl⟩
  mem := by decide
  command := by
    intro op l h; cases h
    exact ⟨rfl, rfl, fun h => (by cases h), fun _ _ => rfl, show (identified fx1).progress = 0 by decide⟩

theorem erasing_latched : erasing.Latched := by
  intro op l _ _; decide

theorem wit_EveryStepKeepsTheInvariant : erasing.Inv ∧ ∃ t, step erasing = .next t := ⟨erasing_inv, _, rfl⟩
theorem wit_ProbeStateIsLeftOnlyByReset :
    (∃ t, step (turned [.reset]) = .next t) ∧
    (erasing.Inv ∧ (∃ t, step erasing = .next t) ∧ (∀ r, erasing.script ≠ .reset :: r) ∧ erasing.probeState ≠ .unprobed) ∧
    ((identified fx1).Inv ∧ (∃ t, step (identified fx1) = .next t ∧ t.probeState ≠ (identified fx1).probeState) ∧
      ∀ r, (identified fx1).script ≠ .reset :: r) :=
  ⟨⟨_, rfl⟩, ⟨erasing_inv, ⟨_, rfl⟩, fun _ h => (by cases h), by decide⟩,
    identified_inv, ⟨_, rfl, by decide⟩, fun _ h => (by cases h)⟩
theorem wit_EraseFrameUsesTheEraseOpcode_sector :
    erasing.Inv ∧ erasing.phase = .run .erase .e3b ∧ erasing.frameOk = true ∧
    { erasing with answers := [bad 0] }.frameOk = false ∧
    { flight fx2 .erase .e3b 0 0 0 with par := { std with opSe4k := std.opBe64k } }.eraseInstr 0x10000 = some (.be64k 0x10000) :=
  ⟨erasing_inv, rfl, by decide, by decide, by decide⟩
theorem wit_NoFrameBeforeProbe : erasing.Inv ∧ (plan erasing).action = .frame (.se4k 0x1000) := ⟨erasing_inv, by decide⟩
theorem wit_OkMeansEveryByteIsDone :
    erased.Inv ∧ erased.par.wf = true ∧ (∃ t, seqStep erased = .next t ∧ t.busy = false ∧ t.err = .ok) ∧ erased.busy = true ∧
      bulkOp erased.op = true := ⟨erased_inv, by decide, ⟨_, rfl, by decide, by decide⟩, rfl, rfl⟩
theorem wit_IssuedFramesAreWellFormed :
    erasing.Inv ∧ erasing.par.wf = true ∧ (plan erasing).action = .frame (.se4k 0x1000) ∧ erasing.size ≤ 4294967296 :=
  ⟨erasing_inv, by decide, by decide, by decide⟩
theorem wit_IssuedFramesAreWellFormed_read :
    (plan { flight fx1 .read .r4a 0 4 1 with rem := 4, n := 4 }).action = .frame (.fastRead 0 4) := by decide
theorem wit_EveryStepKeepsTheLatchRule : erasing.Inv ∧ erasing.Latched ∧ ∃ t, step erasing = .next t :=
  ⟨erasing_inv, erasing_latched, _, rfl⟩
theorem wit_WrenPrecedesEveryMutatingCommand :
    erasing.Inv ∧ erasing.Latched ∧ (plan erasing).action = .frame (.se4k 0x1000) ∧ needsLatch (.se4k 0x1000) = true ∧
    (plan erasing).state.frameOk = true ∧
    (plan { flight fx3 .write .s3f 0 4 0x40 with xfer := [1, 2] }).action = .frame (.aaiCont 1 2) :=
  ⟨erasing_inv, erasing_latched, by decide, rfl, by decide, by decide⟩
theorem wit_CommandsReadOnlyTheirLatches :
    (∃ t, seqStep erasing = .next t) ∧ seqStep { State.reset with phase := .run .erase .e3b } = .fault .eraseOpUnset ∧
    seqStep { identified fx1 with registry := [{ jedecId := 0xEF4018, ext := none, result := some (chip 1 0 .g4k plain) }] } =
      .refused .descriptorIllFormed := ⟨⟨_, rfl⟩, rfl, rfl⟩
theorem wit_StopsAreThePremises :
    Params.wf { std with mfrEon := 0x20 } = false ∧ (identified fx1).phase = .run .probe .q2 ∧ invalidId 0xEF4018 = false ∧
    { identified fx1 with registry := [{ jedecId := 0xEF4018, ext := none, result := some (chip 1 0 .g4k plain) }] }.lookup
      0xEF4018 0 = some (chip 1 0 .g4k plain) ∧ descWf (chip 1 0 .g4k plain) = false ∧ std.wf = true ∧
    step { identified fx1 with registry := [{ jedecId := 0xEF4018, ext := none, result := some (chip 1 0 .g4k plain) }] } =
      .refused .descriptorIllFormed ∧ erasing.Inv :=
  ⟨by decide, rfl, by decide, by decide, by decide, by decide, rfl, erasing_inv⟩

end Sys2Proof.Tests
end

/-! # The scope of the model (00_scope.md): which step a turn is, and where the model stops -/

namespace Sys2Proof.Machine

/-! ## Which step a turn is (R84, R108) -/

/-- With no turn left the sequencer moves alone. -/
theorem step_of_script_nil {s : State} (hpar : s.par.wf = true) (hs : s.script = []) : step s = seqStep s := by
  simp only [step, hpar, if_true, fetch, hs, seqStep]

/-- A turn of the sequencer. -/
theorem step_of_script_seq {s : State} {rest : List Turn} (hpar : s.par.wf = true) (hs : s.script = .seq :: rest) :
    step s = seqStep (s.withScript rest) := by
  simp only [step, hpar, if_true, fetch, hs, seqStep]

/-- The turn `wait` leaves the step to the sequencer while BUSY = 1. -/
theorem step_of_script_wait_busy {s : State} {rest : List Turn} (hpar : s.par.wf = true) (hs : s.script = .wait :: rest)
    (hb : s.busy = true) : step s = seqStep s := by
  simp only [step, hpar, if_true, fetch, hs, hb, seqStep]

/-- The turn `wait` reads STATUS once BUSY = 0. -/
theorem step_of_script_wait_idle {s : State} {rest : List Turn} (hpar : s.par.wf = true) (hs : s.script = .wait :: rest)
    (hb : s.busy = false) : step s = .next (s.withScript rest).waited := by
  simp only [step, hpar, if_true, fetch, hs, hb, Bool.false_eq_true, if_false, perform]

/-- A turn of the host. -/
theorem step_of_script_host {s : State} {a : HostAccess} {rest : List Turn} (hpar : s.par.wf = true)
    (hs : s.script = .host a :: rest) : step s = perform (hostTurn a (s.withScript rest)) := by
  simp only [step, hpar, if_true, fetch, hs]

/-- A 32-bit bus write to offset 0 of the window is a write to CMD (R23). -/
theorem hostTurn_write_cmd {s : State} {a : Word} {data : List Byte} {v : Word} (ha : windowOffset s.par a = 0)
    (hd : wordOfLanes data = some v) : hostTurn (.write a data) s = writeCmd v s := by
  simp [hostTurn, busWrite, ha, hd, Reg.atOffset]

/-- A command word written to CMD while BUSY = 0 is the command to execute (R131). -/
theorem writeCmd_idle_ok {s : State} {v : Word} {i : Instr} (hv : decodeHostWord v = .ok i) (hb : s.busy = false) :
    writeCmd v s = .run i s := by
  simp [writeCmd, hb, hv]

/-- Settles O7: each turn of the script by the lemma that says which step it is. -/
theorem stepRunsTheDecodedCommand : Obligations.StepRunsTheDecodedCommand := by
  intro s hpar
  refine ⟨?_, step_of_script_nil hpar, fun _ => step_of_script_seq hpar, fun _ => step_of_script_wait_busy hpar,
    fun _ => step_of_script_wait_idle hpar, fun _ => seqStep_frame⟩
  intro a data rest v i hs ha hd hv hb
  calc step s = perform (hostTurn (.write a data) (s.withScript rest)) := step_of_script_host hpar hs
    _ = perform (writeCmd v (s.withScript rest)) := by rw [hostTurn_write_cmd (s := s.withScript rest) ha hd]
    _ = exec i (s.withScript rest) := by rw [writeCmd_idle_ok (s := s.withScript rest) hv hb]; rfl

/-! ## A step stops only in the sequencer -/

/-- Every command, of the host or on the SPI bus, answers a next state. -/
theorem exec_next (i : Instr) (s : State) : ∃ t, exec i s = .next t := by
  cases he : encode s.par s.params.addrWidth i with
  | word v =>
    obtain ⟨o, c, -, h⟩ := exec_host he
    exact ⟨_, h⟩
  | frame f =>
    obtain ⟨t, h, -⟩ := exec_frame he
    exact ⟨t, h⟩

/-- How the sequencer's step can come out: it stops only where its plan does. -/
theorem seqStep_cases (s : State) :
    (∃ t, seqStep s = .next t) ∨ (∃ r, (plan s).action = .refuse r ∧ seqStep s = .refused r) ∨
      ∃ e, (plan s).action = .stuck e ∧ seqStep s = .fault e := by
  cases ha : (plan s).action with
  | frame i => exact .inl (by rw [seqStep_frame ha]; exact exec_next _ _)
  | memRead a => exact .inl ⟨_, seqStep_memRead ha⟩
  | memWrite a v => exact .inl ⟨_, seqStep_memWrite ha⟩
  | complete e => exact .inl ⟨_, seqStep_complete ha⟩
  | refuse r => exact .inr (.inl ⟨r, rfl, seqStep_refuse ha⟩)
  | stuck e => exact .inr (.inr ⟨e, rfl, seqStep_stuck ha⟩)
  | none => exact .inl ⟨_, seqStep_none ha⟩

theorem plan_action_of_refused {s : State} {r : Refusal} (h : seqStep s = .refused r) : (plan s).action = .refuse r := by
  rcases seqStep_cases s with ⟨t, ht⟩ | ⟨r', ha, hr⟩ | ⟨e, -, he⟩
  · rw [ht] at h; cases h
  · rw [hr] at h; cases h; exact ha
  · rw [he] at h; cases h

theorem plan_action_of_fault {s : State} {e : Fault} (h : seqStep s = .fault e) : (plan s).action = .stuck e := by
  rcases seqStep_cases s with ⟨t, ht⟩ | ⟨r, -, hr⟩ | ⟨e', ha, he⟩
  · rw [ht] at h; cases h
  · rw [hr] at h; cases h
  · rw [he] at h; cases h; exact ha

/-- A step that does not answer a next state is the sequencer's, whatever turns are left after it. -/
theorem step_next_or_seqStep {s : State} (hpar : s.par.wf = true) :
    (∃ t, step s = .next t) ∨ ∃ rest, step s = seqStep (s.withScript rest) := by
  have h := step_turned hpar
  generalize step s = r at h ⊢
  cases h with
  | seq => exact .inr ⟨s.script, rfl⟩
  | seqTurn rest => exact .inr ⟨rest, rfl⟩
  | host => exact .inl ⟨_, rfl⟩
  | waited => exact .inl ⟨_, rfl⟩
  | reset => exact .inl ⟨_, rfl⟩

/-! ## Where the sequencer refuses (R14) -/

/-- The planned step is no refusal. -/
def Planned.Unrefused (q : Planned) : Prop := ∀ r, q.action ≠ .refuse r

theorem unrefused_frame (s : State) (i : Instr) : Planned.Unrefused { state := s, action := .frame i } := nofun

theorem unrefused_complete (s : State) (e : ErrCode) : Planned.Unrefused { state := s, action := .complete e } := nofun

theorem unrefused_exitFrom (op : HostOp) (k : Nat) (s : State) : (exitFrom op k s).Unrefused := by
  unfold exitFrom; split
  · exact unrefused_frame _ _
  · exact unrefused_complete _ _

theorem unrefused_eraseHead (op : HostOp) (s : State) : (eraseHead op s).Unrefused := by
  unfold eraseHead; split
  · exact unrefused_frame _ _
  · exact unrefused_exitFrom _ _ _

theorem unrefused_eraseFrame (op : HostOp) (s : State) : (eraseFrame op s).Unrefused := by
  unfold eraseFrame; split
  · exact unrefused_frame _ _
  · exact nofun

theorem unrefused_fillThen {op : HostOp} {l : Label} {k : Nat} {done : State → Planned} {s : State}
    (h : (done s).Unrefused) : (fillThen op l k done s).Unrefused := by
  unfold fillThen; split
  · exact nofun
  · exact h

theorem unrefused_pageFill (op : HostOp) (s : State) : (pageFill op s).Unrefused :=
  unrefused_fillThen (unrefused_frame _ _)

theorem unrefused_pageHead (op : HostOp) (s : State) : (pageHead op s).Unrefused := by
  unfold pageHead; split
  · exact unrefused_pageFill _ _
  · exact unrefused_exitFrom _ _ _

theorem unrefused_aaiTailFill (op : HostOp) (s : State) : (aaiTailFill op s).Unrefused :=
  unrefused_fillThen (unrefused_frame _ _)

theorem unrefused_aaiTail (op : HostOp) (s : State) : (aaiTail op s).Unrefused := by
  unfold aaiTail; split
  · exact unrefused_aaiTailFill _ _
  · exact unrefused_frame _ _

theorem unrefused_aaiPairFill (op : HostOp) (s : State) : (aaiPairFill op s).Unrefused :=
  unrefused_fillThen (unrefused_frame _ _)

theorem unrefused_aaiHead (op : HostOp) (s : State) : (aaiHead op s).Unrefused := by
  unfold aaiHead; split
  · exact unrefused_aaiPairFill _ _
  · exact unrefused_frame _ _

theorem unrefused_aaiOddFill (op : HostOp) (s : State) : (aaiOddFill op s).Unrefused :=
  unrefused_fillThen (unrefused_frame _ _)

theorem unrefused_aaiStart (op : HostOp) (s : State) : (aaiStart op s).Unrefused := by
  unfold aaiStart; split
  · exact unrefused_aaiOddFill _ _
  · exact unrefused_frame _ _

theorem unrefused_programStart (op : HostOp) (s : State) : (programStart op s).Unrefused := by
  unfold programStart; split
  · exact unrefused_aaiStart _ _
  · exact unrefused_pageHead _ _

theorem unrefused_readHead (op : HostOp) (s : State) : (readHead op s).Unrefused := by
  unfold readHead; split
  · exact unrefused_frame _ _
  · exact unrefused_exitFrom _ _ _

theorem unrefused_readDrain (op : HostOp) (s : State) : (readDrain op s).Unrefused := by
  unfold readDrain; split
  · exact nofun
  · exact unrefused_readHead _ _

theorem unrefused_bulkStart (op : HostOp) (s : State) : (bulkStart op s).Unrefused := by
  cases op with
  | read => exact unrefused_readHead _ _
  | erase => exact unrefused_eraseHead _ _
  | write => exact unrefused_programStart _ _
  | probe => exact unrefused_complete _ _
  | illegal => exact unrefused_complete _ _

theorem unrefused_enterFrom (op : HostOp) (k : Nat) (s : State) : (enterFrom op k s).Unrefused := by
  unfold enterFrom; split
  · exact unrefused_frame _ _
  · exact unrefused_bulkStart _ _

theorem unrefused_afterCheck (c : Option ErrCode) (op : HostOp) (s t : State) : (afterCheck c op s t).Unrefused := by
  unfold afterCheck; split
  · exact unrefused_complete _ _
  · exact unrefused_enterFrom _ _ _

theorem unrefused_probeStart (op : HostOp) (s : State) : (probeStart op s).Unrefused := by
  unfold probeStart; split
  · exact unrefused_complete _ _
  · exact unrefused_frame _ _

theorem unrefused_commandStart (op : HostOp) (s : State) : (commandStart op s).Unrefused := by
  cases op with
  | probe => exact unrefused_probeStart _ _
  | read => exact unrefused_afterCheck _ _ _ _
  | erase => exact unrefused_afterCheck _ _ _ _
  | write => exact unrefused_afterCheck _ _ _ _
  | illegal => exact unrefused_complete _ _

theorem unrefused_unlock (op : HostOp) (d : Descriptor) (s : State) : (unlock op d s).Unrefused := by
  unfold unlock; split
  · exact unrefused_frame _ _
  · split
    · exact unrefused_frame _ _
    · exact unrefused_complete _ _

theorem unrefused_unlockTest (op : HostOp) (s : State) : (unlockTest op s).Unrefused := by
  unfold unlockTest; split
  · exact unrefused_frame _ _
  · exact unrefused_complete _ _

theorem unrefused_afterPoll (op : HostOp) (c : PollSite) (s : State) : (afterPoll op c s).Unrefused := by
  cases c with
  | u1 => exact unrefused_complete _ _
  | u3 => exact unrefused_complete _ _
  | e => exact unrefused_eraseHead _ _
  | g => exact unrefused_pageHead _ _
  | s1 => exact unrefused_frame _ _
  | s3 => exact unrefused_aaiHead _ _
  | s4 => exact unrefused_aaiTail _ _
  | s5 => exact unrefused_frame _ _

theorem unrefused_pollTest (op : HostOp) (c : PollSite) (s : State) : (pollTest op c s).Unrefused := by
  unfold pollTest; split
  · exact unrefused_frame _ _
  · exact unrefused_afterPoll _ _ _

/-- No position but that of PROBE's lookup refuses. -/
theorem unrefused_planAt {op : HostOp} {l : Label} (hl : l ≠ .q2) (s : State) : (planAt op l s).Unrefused := by
  cases l
  case q2 => exact absurd rfl hl
  case start => exact unrefused_commandStart _ _
  case raise => exact unrefused_complete _ _
  case enter => exact unrefused_enterFrom _ _ _
  case exit => exact unrefused_exitFrom _ _ _
  case u3 => exact unrefused_unlockTest _ _
  case r4 => exact unrefused_readHead _ _
  case r4b => exact unrefused_readDrain _ _
  case e3 => exact unrefused_eraseHead _ _
  case e3b => exact unrefused_eraseFrame _ _
  case g1 => exact unrefused_pageHead _ _
  case g2 => exact unrefused_pageFill _ _
  case s1m => exact unrefused_aaiOddFill _ _
  case s2d => exact unrefused_aaiHead _ _
  case s3 => exact unrefused_aaiHead _ _
  case s3m => exact unrefused_aaiPairFill _ _
  case s5m => exact unrefused_aaiTailFill _ _
  case polled => exact unrefused_pollTest _ _ _
  all_goals exact unrefused_frame _ _

/-- PROBE's lookup refuses exactly the descriptors outside the registry premise (R14, R257). -/
theorem probeIdentify_refuse_iff {op : HostOp} {s : State} {r : Refusal} :
    (probeIdentify op s).action = .refuse r ↔
      r = .descriptorIllFormed ∧ invalidId s.rawId = false ∧ ∃ d, s.lookup s.rawId s.rawExt = some d ∧ descWf d = false := by
  unfold probeIdentify
  cases hid : invalidId s.rawId with
  | true => simp
  | false =>
    cases hd : s.lookup s.rawId s.rawExt with
    | none => simp
    | some d =>
      cases hwf : descWf d with
      | true => simpa [hwf] using unrefused_unlock op d _ r
      | false => simpa [hwf] using (eq_comm : Refusal.descriptorIllFormed = r ↔ _)

/-- The sequencer refuses at PROBE's lookup alone, and there a descriptor outside the registry premise (R14). -/
theorem plan_refuse_iff {s : State} {r : Refusal} :
    (plan s).action = .refuse r ↔
      r = .descriptorIllFormed ∧ invalidId s.rawId = false ∧
        ∃ op d, s.phase = .run op .q2 ∧ s.lookup s.rawId s.rawExt = some d ∧ descWf d = false := by
  unfold plan
  cases hp : s.phase with
  | idle => simp
  | run op l =>
    by_cases hl : l = .q2
    · subst hl
      simp [planAt, probeIdentify_refuse_iff]
    · simpa [hl] using unrefused_planAt hl s r

/-! ## The invariant and the script -/

/-- The invariant says nothing of the turns that are left. -/
theorem State.Inv.withScript {s : State} (h : s.Inv) (rest : List Turn) : (s.withScript rest).Inv where
  probed := h.probed
  unset := h.unset
  busyIff := h.busyIff
  busyClear := h.busyClear
  mem := h.mem
  command := fun op l hp =>
    have hc := h.command op l hp
    { fits := hc.fits
      latched := hc.latched
      bulk := fun hb hl => ⟨(hc.bulk hb hl).1, by cases op <;> exact (hc.bulk hb hl).2⟩
      probing := hc.probing
      course := by cases l <;> exact hc.course }

/-- From a state that meets the invariant the sequencer is never stuck (R196, R258). -/
theorem State.Inv.plan_not_stuck {s : State} (h : s.Inv) (e : Fault) : (plan s).action ≠ .stuck e := by
  intro ha
  cases hp : s.phase with
  | idle => simp [plan, hp] at ha
  | run op l => simpa only [Planned.Good, ha] using good_plan h hp

/-- From a state that meets the invariant no step faults. -/
theorem State.Inv.step_ne_fault {s : State} (h : s.Inv) (e : Fault) : step s ≠ .fault e := by
  intro hf
  cases hpar : s.par.wf with
  | false => rw [step_refused hpar] at hf; cases hf
  | true =>
    rcases step_next_or_seqStep hpar with ⟨t, ht⟩ | ⟨rest, hr⟩
    · rw [ht] at hf; cases hf
    · exact (h.withScript rest).plan_not_stuck e (plan_action_of_fault (hr ▸ hf))

/-- A step refused though the parameters keep their premises is a refusal of the sequencer's plan. -/
theorem plan_action_of_step_refused {s : State} {r : Refusal} (hpar : s.par.wf = true) (h : step s = .refused r) :
    ∃ rest, (plan (s.withScript rest)).action = .refuse r := by
  rcases step_next_or_seqStep hpar with ⟨t, ht⟩ | ⟨rest, hr⟩
  · rw [ht] at h; cases h
  · exact ⟨rest, plan_action_of_refused (hr ▸ h)⟩

/-- Settles O60: the plan refuses at PROBE's lookup alone, and the invariant makes every plan a good one. -/
theorem stopsAreThePremises : Obligations.StopsAreThePremises := by
  refine ⟨fun s => step_refused, ?_, ?_, fun s e h => h.step_ne_fault e⟩
  · intro s d hp hid hd hwf
    exact seqStep_refuse (plan_refuse_iff.2 ⟨rfl, hid, .probe, d, hp, hd, hwf⟩)
  · intro s r hpar h
    obtain ⟨rest, ha⟩ := plan_action_of_step_refused hpar h
    obtain ⟨hr, -, hex⟩ := plan_refuse_iff.1 ha
    exact ⟨hr, hex⟩

end Sys2Proof.Machine

/-! # The invariant of R48 (10_state.md): what keeps it -/

namespace Sys2Proof.Machine

/-! ## The live registers (R24 to R26) -/

/-- `s` with the live registers ADDR, LEN and BUF at the values `a`, `l` and `b`. -/
def State.withLive (a l b : Word) (s : State) : State := { s with addr := a, len := l, buf := b }

theorem State.writeReg_busy {s : State} (hb : s.busy = true) (r : Reg) (v : Word) : s.writeReg r v = s := by
  cases r <;> simp [State.writeReg, hb]

theorem State.writeReg_idle_addr {s : State} (hb : s.busy = false) (v : Word) :
    s.writeReg .addr v = { s with addr := v } := by simp [State.writeReg, hb]

theorem State.writeReg_idle_len {s : State} (hb : s.busy = false) (v : Word) :
    s.writeReg .len v = { s with len := v } := by simp [State.writeReg, hb]

theorem State.writeReg_idle_buf {s : State} (hb : s.busy = false) (v : Word) :
    s.writeReg .buf v = { s with buf := v } := by simp [State.writeReg, hb]

/-- A write to a register other than CMD writes ADDR, LEN or BUF at most. -/
theorem State.writeReg_eq_withLive (s : State) (r : Reg) (v : Word) : ∃ a l b, s.writeReg r v = s.withLive a l b := by
  cases hb : s.busy with
  | true => exact ⟨s.addr, s.len, s.buf, State.writeReg_busy hb r v⟩
  | false =>
    cases r
    case addr => exact ⟨v, s.len, s.buf, State.writeReg_idle_addr hb v⟩
    case len => exact ⟨s.addr, v, s.buf, State.writeReg_idle_len hb v⟩
    case buf => exact ⟨s.addr, s.len, v, State.writeReg_idle_buf hb v⟩
    all_goals exact ⟨s.addr, s.len, s.buf, rfl⟩

/-! ## What the invariant reads -/

/-- The fields that the invariant reads, but for host memory; of the frame buffer it reads the length alone. -/
structure SameInFlight (s t : State) : Prop where
  busy : t.busy = s.busy
  done : t.done = s.done
  err : t.err = s.err
  progress : t.progress = s.progress
  probeState : t.probeState = s.probeState
  desc : t.desc = s.desc
  params : t.params = s.params
  op : t.op = s.op
  opAddr : t.opAddr = s.opAddr
  opLen : t.opLen = s.opLen
  opBuf : t.opBuf = s.opBuf
  cur : t.cur = s.cur
  rem : t.rem = s.rem
  hoff : t.hoff = s.hoff
  first : t.first = s.first
  n : t.n = s.n
  pdesc : t.pdesc = s.pdesc
  pparams : t.pparams = s.pparams
  buffer : t.xfer.length = s.xfer.length
  phase : t.phase = s.phase
  par : t.par = s.par

section
variable {s t : State} (k : SameInFlight s t)
include k

theorem SameInFlight.readCourse_iff : t.readCourse ↔ s.readCourse := by
  simp only [State.readCourse, State.readOffset, State.size, k.cur, k.hoff, k.rem, k.progress, k.opAddr, k.opLen, k.desc]

theorem SameInFlight.eraseCourse_iff : t.eraseCourse ↔ s.eraseCourse := by
  simp only [State.eraseCourse, State.eraseUnit, k.cur, k.rem, k.progress, k.opAddr, k.opLen, k.params]

theorem SameInFlight.writeCourse_iff : t.writeCourse ↔ s.writeCourse := by
  simp only [State.writeCourse, k.cur, k.hoff, k.rem, k.progress, k.opAddr, k.opLen]

theorem SameInFlight.enterCourse_iff : t.enterCourse ↔ s.enterCourse := by
  simp only [State.enterCourse, State.readOffset, State.size, k.op, k.cur, k.progress, k.opAddr, k.desc]

theorem SameInFlight.probeCourse_iff : t.probeCourse ↔ s.probeCourse := by
  simp only [State.probeCourse, k.progress, k.pdesc, k.pparams, k.par]

theorem SameInFlight.pageChunk_iff : t.pageChunk ↔ s.pageChunk := by
  simp only [State.pageChunk, State.pageCourse, k.writeCourse_iff, k.params, k.rem, k.n, k.cur, k.par]

theorem SameInFlight.aaiOdd_iff : t.aaiOdd ↔ s.aaiOdd := by
  simp only [State.aaiOdd, State.aaiCourse, k.writeCourse_iff, k.params, k.rem, k.cur]

theorem SameInFlight.aaiEven_iff : t.aaiEven ↔ s.aaiEven := by
  simp only [State.aaiEven, State.aaiCourse, k.writeCourse_iff, k.params, k.cur]

theorem SameInFlight.pollCourse_iff (c : PollSite) : t.pollCourse c ↔ s.pollCourse c := by
  cases c <;> simp only [State.pollCourse, k.probeCourse_iff, k.eraseCourse_iff, k.pageChunk_iff, k.aaiOdd_iff,
    k.aaiEven_iff, k.rem, k.first]

theorem SameInFlight.course_iff (l : Label) : t.course l ↔ s.course l := by
  cases l <;> simp only [State.course, State.allDone, State.pageCourse, State.aaiCourse, k.readCourse_iff, k.eraseCourse_iff,
    k.writeCourse_iff, k.enterCourse_iff, k.probeCourse_iff, k.pageChunk_iff, k.aaiOdd_iff, k.aaiEven_iff, k.pollCourse_iff,
    k.progress, k.opLen, k.rem, k.n, k.params, k.buffer]

theorem SameInFlight.atCommand {op : HostOp} {l : Label} (h : s.atCommand op l) : t.atCommand op l where
  fits := h.fits
  latched := k.op.trans h.latched
  bulk hb hl :=
    ⟨k.probeState.trans (h.bulk hb hl).1,
      (State.checked_congr k.probeState k.desc k.params k.opAddr k.opLen k.opBuf).2 (h.bulk hb hl).2⟩
  probing hp hl := k.probeState.trans (h.probing hp hl)
  course := (k.course_iff l).2 h.course

/-- A step that writes nothing the invariant reads, and leaves host memory canonical, keeps it. -/
theorem SameInFlight.inv (h : s.Inv) (hm : t.mem.wf = true) : t.Inv where
  probed hp := by rw [k.desc, k.params, k.par]; exact h.probed (k.probeState ▸ hp)
  unset hp := by rw [k.desc, k.params]; exact h.unset (k.probeState ▸ hp)
  busyIff := by rw [k.busy, k.phase]; exact h.busyIff
  busyClear hb := by rw [k.err, k.done]; exact h.busyClear (k.busy ▸ hb)
  mem := hm
  command op l hp := k.atCommand (h.command op l (k.phase ▸ hp))

end

/-! ## What a step of the sequencer can be -/

/-- What a step of the sequencer does to a state that meets the invariant, by the kind of its atomic step (R13). -/
inductive SeqEffect (s : State) : State → Prop
  /-- An IDLE block stays as it is (R304). -/
  | idle (phase : s.phase = .idle) : SeqEffect s s
  /-- The frame of a position of the procedure. -/
  | sent {op : HostOp} {l : Label} {i : Instr} {f : Frame} {t : State} (action : (plan s).action = .frame i)
      (phase : (plan s).state.phase = .run op l) (fits : l.fits op = true) (flying : (plan s).state.Flying op)
      (course : (plan s).state.course l) (issues : (plan s).state.issues i l) (run : exec i (plan s).state = .next t)
      (frame : FrameStep i f (plan s).state t) : SeqEffect s t
  /-- One DMA read into the frame buffer. -/
  | filled {op : HostOp} {l : Label} (a : Word) (action : (plan s).action = .memRead a)
      (phase : (plan s).state.phase = .run op l) (fits : l.fits op = true) (flying : (plan s).state.Flying op)
      (course : (plan s).state.course l) (fills : (plan s).state.fills l) : SeqEffect s ((plan s).state.dmaRead a)
  /-- One DMA write of a byte received. -/
  | drained (a : Word) (v : Byte) (action : (plan s).action = .memWrite a v)
      (phase : (plan s).state.phase = .run .read .r4b) (flying : (plan s).state.Flying .read)
      (course : (plan s).state.course .r4b) : SeqEffect s ((plan s).state.dmaWrite a v)
  /-- The completion of the command in flight. -/
  | completed {op : HostOp} {l : Label} (e : ErrCode) (phase : s.phase = .run op l) (action : (plan s).action = .complete e)
      (ending : Ending op e (plan s).state) : SeqEffect s ((plan s).state.complete e)

/-- An IDLE block stays as it is while the host is silent (R304). -/
theorem seqStep_idle {s : State} (h : s.phase = .idle) : seqStep s = .next s := by
  have e : plan s = { state := s, action := .none } := by simp only [plan, h]
  rw [seqStep_none (by rw [e]), e]

theorem seqStep_effect {s t : State} (h : s.Inv) (ht : seqStep s = .next t) : SeqEffect s t := by
  cases hp : s.phase with
  | idle =>
    rw [seqStep_idle hp] at ht
    cases ht
    exact .idle hp
  | run op l =>
    have hg := good_plan h hp
    cases ha : (plan s).action <;> simp only [Planned.Good, ha] at hg
    case frame i =>
      obtain ⟨l', hph, hfit, hfly, hc, hi⟩ := hg
      obtain ⟨f, he⟩ := encode_of_issues hi
      obtain ⟨u, hu, hf⟩ := exec_frame he
      rw [seqStep_frame ha, hu] at ht
      cases ht
      exact .sent ha hph hfit hfly hc hi hu hf
    case memRead a =>
      obtain ⟨l', hph, hfit, hfly, hc, hfill, -⟩ := hg
      rw [seqStep_memRead ha] at ht
      cases ht
      exact .filled a ha hph hfit hfly hc hfill
    case memWrite a v =>
      obtain ⟨rfl, hph, hfly, hc, -, -⟩ := hg
      rw [seqStep_memWrite ha] at ht
      cases ht
      exact .drained a v ha hph hfly hc
    case complete e =>
      rw [seqStep_complete ha] at ht
      cases ht
      exact .completed e hp ha hg
    case refuse r => rw [seqStep_refuse ha] at ht; cases ht

/-! ## A step of the sequencer keeps the invariant -/

/-- After a frame the command stands at its next position, or at its completion with TRANSPORT (R47, R278). -/
theorem inv_frame {s t : State} {op : HostOp} {l : Label} {i : Instr} {f : Frame} (hp : s.phase = .run op l)
    (hfit : l.fits op = true) (hfly : s.Flying op) (hc : s.course l) (hi : s.issues i l) (he : exec i s = .next t)
    (hf : FrameStep i f s t) : t.Inv := by
  have hph := hf.phase
  rw [hp] at hph
  cases hok : s.frameOk with
  | true =>
    rw [hok] at hph
    exact (flying_frame hfly hf).inv hph (fits_next hi hfit) (course_next hc hi hf hok he)
  | false =>
    rw [hok] at hph
    have hop : op ≠ .illegal := by
      rintro rfl
      rw [not_fits_illegal hi] at hfit
      cases hfit
    exact (flying_frame hfly hf).inv (l := .raise .transport) hph (by simp [Label.fits, hop]) trivial

/-- A DMA read leaves room for no more bytes than the frame takes (R85). -/
theorem course_dmaRead {s : State} {l : Label} (a : Word) (hc : s.course l) (hfill : s.fills l) : (s.dmaRead a).course l := by
  have hx : (s.dmaRead a).xfer.length = s.xfer.length + 1 := by simp
  cases l <;> simp only [State.fills] at hfill
  case g2 => exact ⟨hc.1, by rw [hx]; exact hfill⟩
  case s1m => exact ⟨hc.1, by rw [hx]; exact hfill⟩
  case s3m => exact ⟨hc.1, hc.2.1, by rw [hx]; exact hfill⟩
  case s5m => exact ⟨hc.1, hc.2.1, by rw [hx]; exact hfill⟩

theorem course_dmaWrite {s : State} (a : Word) (v : Byte) (hc : s.course .r4b) : (s.dmaWrite a v).course .r4b := by
  obtain ⟨hr, hrem, hn, hx⟩ := hc
  refine ⟨hr, hrem, hn, ?_⟩
  calc (s.dmaWrite a v).xfer.length = s.xfer.length - 1 := by simp
    _ ≤ s.n := by omega

theorem State.Flying.dmaRead {s : State} {op : HostOp} (h : s.Flying op) (a : Word) : (s.dmaRead a).Flying op := h

theorem State.Flying.dmaWrite {s : State} {op : HostOp} (h : s.Flying op) (a : Word) (v : Byte) :
    (s.dmaWrite a v).Flying op := by
  obtain ⟨hb, hop, herr, hd, hm, hrest⟩ := h
  exact ⟨hb, hop, herr, hd, State.wf_dmaWrite hm a v, hrest⟩

theorem inv_seqStep {s t : State} (h : s.Inv) (ht : seqStep s = .next t) : t.Inv := by
  cases seqStep_effect h ht with
  | idle => exact h
  | sent _ hp hfit hfly hc hi he hf => exact inv_frame hp hfit hfly hc hi he hf
  | filled a _ hp hfit hfly hc hfill => exact (hfly.dmaRead a).inv hp hfit (course_dmaRead a hc hfill)
  | drained a v _ hp hfly hc => exact (hfly.dmaWrite a v).inv hp rfl (course_dmaWrite a v hc)
  | completed e _ _ hend => exact hend.inv

/-! ## A turn of the host keeps the invariant -/

/-- A command accepted while BUSY = 0 stands at its first position with nothing counted (R131). -/
theorem inv_accept {s : State} (h : s.Inv) (o : HostOp) (c : BitVec 4) : (s.accept o c).Inv where
  probed := h.probed
  unset := h.unset
  busyIff := ⟨fun _ => nofun, fun _ => rfl⟩
  busyClear _ := ⟨rfl, rfl⟩
  mem := h.mem
  command op l hp := by
    cases hp
    exact ⟨rfl, rfl, fun _ hl => absurd rfl hl, fun _ hl => absurd rfl hl, rfl⟩

theorem inv_withLive {s : State} (h : s.Inv) (a l b : Word) : (s.withLive a l b).Inv :=
  SameInFlight.inv (s := s) (by constructor <;> rfl) h h.mem

theorem inv_withReadData {s : State} (h : s.Inv) (bs : List Byte) : (s.withReadData bs).Inv :=
  SameInFlight.inv (s := s) (by constructor <;> rfl) h h.mem

theorem inv_hostLoad {s : State} (h : s.Inv) (a : Word) : (s.hostLoad a).Inv :=
  SameInFlight.inv (s := s) (by constructor <;> rfl) h h.mem

theorem sameInFlight_hostStore (s : State) (a : Word) (v : Byte) : SameInFlight s (s.hostStore a v) := by
  constructor
  case buffer => exact s.length_bufferAfterStore a
  all_goals rfl

theorem inv_hostEffect {s t : State} (h : s.Inv) (e : HostEffect s t) : t.Inv := by
  cases e with
  | ignored => exact h
  | accepted o c _ => exact inv_accept h o c
  | written r v =>
    obtain ⟨a, l, b, hw⟩ := s.writeReg_eq_withLive r v
    exact hw ▸ inv_withLive h a l b
  | loaded bs => exact inv_withReadData h bs
  | stored a v => exact (sameInFlight_hostStore s a v).inv h (State.wf_hostStore h.mem a v)
  | fetched a => exact inv_hostLoad h a

/-! ## A reset makes the invariant hold (R52, R301) -/

theorem inv_cleared {s : State} (hm : s.mem.wf = true) : s.cleared.Inv where
  probed := nofun
  unset _ := ⟨rfl, rfl⟩
  busyIff := ⟨nofun, fun h => absurd rfl h⟩
  busyClear := nofun
  mem := hm
  command _ _ := nofun

/-- What a reset cuts short leaves host memory canonical: a byte being written takes a free value (R302). -/
theorem wf_cutShort {s : State} (hm : s.mem.wf = true) : s.cutShort.mem.wf = true := by
  rcases s.cutShort_cases with ⟨_, f, -, -, h⟩ | ⟨a, _, -, h⟩ | ⟨-, h⟩ <;> rw [h]
  · exact hm
  · exact State.wf_setByte hm a _
  · exact hm

theorem inv_resetBlock {s : State} (hm : s.mem.wf = true) : s.resetBlock.Inv := by
  refine inv_cleared ?_
  split
  · exact wf_cutShort hm
  · exact hm

/-- Settles O52: the step is the sequencer's, a turn of the host or a reset, and each keeps the invariant. -/
theorem everyStepKeepsTheInvariant : Obligations.EveryStepKeepsTheInvariant := by
  intro s t h ht
  have hturn := step_turned (par_wf_of_step ht)
  generalize step s = r at ht hturn
  cases hturn with
  | seq => exact inv_seqStep h ht
  | seqTurn rest => exact inv_seqStep (h.withScript rest) ht
  | host a rest _ u e => cases ht; exact inv_hostEffect (h.withScript rest) e
  | waited rest => cases ht; exact inv_withReadData (h.withScript rest) _
  | reset rest => cases ht; exact inv_resetBlock (h.withScript rest).mem

/-- Settles O51: the reset state is a cleared block, and an IDLE block has no position. -/
theorem invariantHoldsAtReset : Obligations.InvariantHoldsAtReset :=
  ⟨inv_cleared (s := State.reset) rfl, fun _ _ => nofun⟩

end Sys2Proof.Machine

/-! # The probe-first rule and the end of a command (10_state.md) -/

namespace Sys2Proof.Machine

theorem SameSession.refl (s : State) : SameSession s s := ⟨rfl, rfl, rfl⟩

theorem SameSession.trans {s t u : State} (h : SameSession s t) (k : SameSession t u) : SameSession s u :=
  ⟨k.probeState.trans h.probeState, k.desc.trans h.desc, k.params.trans h.params⟩

theorem PlanHeld.sameSession {s t : State} (h : PlanHeld s t) : SameSession s t := ⟨h.probeState, h.desc, h.params⟩

/-! ## Frames come after a probe (R48) -/

/-- Settles O54: the position that issues the frame is one of a bulk command in flight, which is PROBED, or of PROBE. -/
theorem noFrameBeforeProbe : Obligations.NoFrameBeforeProbe := by
  intro s i h ha
  obtain ⟨op, l, l', hp, hp', hfit, hfly, -, hi⟩ := issued h ha
  have hheld : PlanHeld s (plan s).state := plan_held (by rw [ha]; exact nofun)
  obtain ⟨-, -, -, -, -, -, -, hbulk, -⟩ := hfly
  cases op with
  | probe => exact .inr (h.command _ _ hp).latched
  | illegal => rw [not_fits_illegal hi] at hfit; cases hfit
  | read => exact .inl (hheld.probeState ▸ (hbulk rfl).1)
  | erase => exact .inl (hheld.probeState ▸ (hbulk rfl).1)
  | write => exact .inl (hheld.probeState ▸ (hbulk rfl).1)

/-! ## How a command ends (R39, R135) -/

/-- A step of the sequencer that clears BUSY is the completion of the command in flight. -/
theorem completed_of_busy_cleared {s t : State} (h : s.Inv) (ht : seqStep s = .next t) (hb : s.busy = true)
    (hbt : t.busy = false) :
    ∃ op l e, s.phase = .run op l ∧ Ending op e (plan s).state ∧ t = (plan s).state.complete e := by
  have hq : (plan s).state.busy = true := (planSame s).busy.trans hb
  cases seqStep_effect h ht with
  | completed e hp _ hend => exact ⟨_, _, e, hp, hend, rfl⟩
  | idle => rw [hb] at hbt; cases hbt
  | sent _ _ _ _ _ _ _ hf => rw [hf.registers.busy, hq] at hbt; cases hbt
  | filled a => rw [State.dmaRead_busy, hq] at hbt; cases hbt
  | drained a v => rw [State.dmaWrite_busy, hq] at hbt; cases hbt

/-- Settles O55: an `Ending` of a bulk command with OK has counted every byte. -/
theorem okMeansEveryByteIsDone : Obligations.OkMeansEveryByteIsDone := by
  intro s t h _ ht hb hbt herr hop
  obtain ⟨op, l, e, hp, hend, rfl⟩ := completed_of_busy_cleared h ht hb hbt
  rw [(h.command op l hp).latched] at hop
  calc ((plan s).state.complete e).progress = (plan s).state.opLen := hend.all hop herr
    _ = s.opLen := (planSame s).opLen

/-! ## The probe state (R41 to R43) -/

/-- A step changes the probe results only by ending a PROBE that runs in UNPROBED: to PROBED with OK, to FAILED with another
code (R41, R259). -/
inductive ProbeEffect (s t : State) : Prop
  | same (h : SameSession s t)
  | ended (unprobed : s.probeState = .unprobed) (busy : s.busy = true) (op : s.op = .probe) (idle : t.busy = false)
      (outcome : t.probeState = .probed ∧ t.err = .ok ∨ t.probeState = .failed ∧ t.err ≠ .ok)

/-- The plan of a PROBE's first position leaves the probe results alone; past it the block is UNPROBED (R259). -/
theorem probe_held_or_unprobed {s : State} {l : Label} (h : s.Inv) (hp : s.phase = .run .probe l) :
    PlanHeld s (plan s).state ∨ s.probeState = .unprobed := by
  by_cases hl : l = .start
  · subst hl
    have e : plan s = probeStart .probe s := by simp only [plan, hp, planAt, commandStart]
    exact .inl (e ▸ planHeld_probeStart .probe s)
  · exact .inr ((h.command _ _ hp).probing rfl hl)

/-- A PROBE that is rejected leaves the probe results alone; another one makes the block PROBED or FAILED (R259, R260). -/
theorem probeEffect_probe {s : State} {l : Label} {e : ErrCode} (h : s.Inv) (hp : s.phase = .run .probe l)
    (ha : (plan s).action = .complete e) (hend : Ending .probe e (plan s).state) :
    ProbeEffect s ((plan s).state.complete e) := by
  obtain ⟨l', hp'⟩ := hend.phase
  have hps : ((plan s).state.complete e).probeState =
      if e = .ok ∨ e = .probeRejected then (plan s).state.probeState else .failed := by
    rw [State.complete_probeState, hp']; rfl
  have hb : s.busy = true := h.busyIff.2 (by rw [hp]; exact nofun)
  have hop : s.op = .probe := (h.command _ _ hp).latched
  by_cases hok : e = .ok
  · subst hok
    rw [if_pos (.inl rfl)] at hps
    rcases probe_held_or_unprobed h hp with k | hu
    · exact .same ⟨hps.trans k.probeState, k.desc, k.params⟩
    · rcases hend.probe rfl with ⟨-, hq⟩ | ⟨hr, -⟩ | ⟨hr, -, -⟩
      · exact .ended hu hb hop rfl (.inl ⟨hps.trans hq, rfl⟩)
      · cases hr
      · exact absurd rfl hr
  · have k : PlanHeld s (plan s).state := plan_held (by rw [ha]; exact fun hr => hok (by cases hr; rfl))
    rcases hend.probe rfl with ⟨hr, -⟩ | ⟨rfl, -⟩ | ⟨-, hrej, hq⟩
    · exact absurd hr hok
    · rw [if_pos (.inr rfl)] at hps
      exact .same ⟨hps.trans k.probeState, k.desc, k.params⟩
    · rw [if_neg (not_or.2 ⟨hok, hrej⟩)] at hps
      exact .ended (k.probeState ▸ hq) hb hop rfl (.inr ⟨hps, hok⟩)

/-- The completion of another command leaves the probe results alone. -/
theorem sameSession_complete {s : State} {op : HostOp} {l : Label} {e : ErrCode} (h : s.Inv) (hp : s.phase = .run op l)
    (hop : op ≠ .probe) (hend : Ending op e (plan s).state) : SameSession s ((plan s).state.complete e) := by
  have k : PlanHeld s (plan s).state := by
    have e : plan s = planAt op l s := by simp only [plan, hp]
    exact e ▸ planHeld_of_ne (h.command _ _ hp).fits hop
  obtain ⟨l', hp'⟩ := hend.phase
  refine ⟨?_, k.desc, k.params⟩
  rw [State.complete_probeState, hp', ProbeState.afterCompletion_of_ne hop, k.probeState]

theorem probeEffect_seqStep {s t : State} (h : s.Inv) (ht : seqStep s = .next t) : ProbeEffect s t := by
  have held : ∀ {a}, (plan s).action = a → a ≠ .complete .ok → SameSession s (plan s).state :=
    fun ha hne => (plan_held (ha ▸ hne)).sameSession
  cases seqStep_effect h ht with
  | idle => exact .same (.refl s)
  | sent ha _ _ _ _ _ _ hf =>
    exact .same ((held ha nofun).trans ⟨hf.registers.probeState, hf.registers.desc, hf.registers.params⟩)
  | filled a ha => exact .same ((held ha nofun).trans ⟨rfl, rfl, rfl⟩)
  | drained a v ha => exact .same ((held ha nofun).trans ⟨rfl, rfl, rfl⟩)
  | @completed op _ e hp ha hend =>
    by_cases hop : op = .probe
    · subst hop; exact probeEffect_probe h hp ha hend
    · exact .same (sameSession_complete h hp hop hend)

/-- No access of the host writes the probe results (R24 to R26, R71, R87, R131). -/
theorem sameSession_hostEffect {s t : State} (e : HostEffect s t) : SameSession s t := by
  cases e with
  | written r v =>
    obtain ⟨a, l, b, hw⟩ := s.writeReg_eq_withLive r v
    rw [hw]
    exact ⟨rfl, rfl, rfl⟩
  | ignored => exact .refl s
  | accepted => exact ⟨rfl, rfl, rfl⟩
  | loaded => exact ⟨rfl, rfl, rfl⟩
  | stored => exact ⟨rfl, rfl, rfl⟩
  | fetched => exact ⟨rfl, rfl, rfl⟩

theorem probeEffect_step {s t : State} (h : s.Inv) (ht : step s = .next t) (hr : ∀ rest, s.script ≠ .reset :: rest) :
    ProbeEffect s t := by
  have hturn := step_turned (par_wf_of_step ht)
  generalize step s = r at ht hturn
  cases hturn with
  | seq => exact probeEffect_seqStep h ht
  | seqTurn rest =>
    cases probeEffect_seqStep (h.withScript rest) ht with
    | same k => exact .same ⟨k.probeState, k.desc, k.params⟩
    | ended hu hb hop hi ho => exact .ended hu hb hop hi ho
  | host a rest _ u e => cases ht; exact .same (.trans (t := s.withScript rest) ⟨rfl, rfl, rfl⟩ (sameSession_hostEffect e))
  | waited rest => cases ht; exact .same ⟨rfl, rfl, rfl⟩
  | reset rest hs => exact absurd hs (hr rest)

/-- A turn of the reset. -/
theorem step_of_script_reset {s : State} {rest : List Turn} (hpar : s.par.wf = true) (hs : s.script = .reset :: rest) :
    step s = .next (s.withScript rest).resetBlock := by
  simp only [step, hpar, if_true, fetch, hs, perform]

/-- Settles O53: a step but a reset has a `ProbeEffect`, which changes the probe state from UNPROBED alone. -/
theorem probeStateIsLeftOnlyByReset : Obligations.ProbeStateIsLeftOnlyByReset := by
  refine ⟨rfl, ?_, ?_⟩
  · intro s t rest hs ht
    rw [step_of_script_reset (par_wf_of_step ht) hs] at ht
    cases ht
    rfl
  · intro s t h ht hr
    cases probeEffect_step h ht hr with
    | same k => exact ⟨fun _ => ⟨k.probeState, k.desc, k.params⟩, fun _ => ⟨k.desc, k.params⟩,
        fun hne => absurd k.probeState hne⟩
    | ended hu hb hop hi ho =>
      have hnu : t.probeState ≠ .unprobed := by
        rcases ho with ⟨hps, -⟩ | ⟨hps, -⟩ <;> rw [hps] <;> exact nofun
      have hiff : t.probeState = .probed ↔ t.err = .ok := by
        rcases ho with ⟨hps, he⟩ | ⟨hps, he⟩ <;> simp [hps, he]
      exact ⟨fun hne => absurd hu hne, fun heq => absurd (heq.trans hu) hnu, fun _ => ⟨hb, hop, hi, hnu, hiff⟩⟩

end Sys2Proof.Machine

/-! # The host registers (10_state.md): their fields, and what a bus write does to them -/

namespace Sys2Proof.Machine

/-! ## Fields of a register word (R10) -/

/-- A field is read back at its own place. -/
theorem extractLsb'_place {n k : Nat} (v : BitVec n) (h : k + n ≤ 32) : (place v k).extractLsb' k n = v := by
  apply BitVec.eq_of_getLsbD_eq
  intro i hi
  rw [BitVec.getLsbD_extractLsb', getLsbD_place]
  simp [hi, show k + i < 32 by omega]

/-- A field leaves the bits below and above its place 0. -/
theorem extractLsb'_place_disjoint {n k j m : Nat} (v : BitVec n) (h : j + m ≤ k ∨ k + n ≤ j) :
    (place v k).extractLsb' j m = 0#m := by
  apply BitVec.eq_of_getLsbD_eq
  intro i hi
  rw [BitVec.getLsbD_extractLsb', getLsbD_place, BitVec.getLsbD_zero]
  rcases h with h | h
  · simp [show ¬ k ≤ j + i by omega]
  · simp [BitVec.getLsbD_of_ge v (j + i - k) (by omega)]

theorem getElem_place_ofBool {b : Bool} {k : Nat} (h : k < 32) : (place (BitVec.ofBool b) k)[k] = b := by
  simp [getElem_place]

theorem getElem_place_disjoint {n k i : Nat} (v : BitVec n) (hi : i < 32) (h : i < k ∨ k + n ≤ i) :
    (place v k)[i] = false := by
  rw [getElem_place]
  rcases h with h | h
  · simp [show ¬ k ≤ i by omega]
  · simp [BitVec.getLsbD_of_ge v (i - k) (by omega)]

/-! ## STATUS (R27 to R33) -/

theorem State.statusWord_fields (s : State) :
    s.statusWord.getLsbD 0 = s.busy ∧ s.statusWord.getLsbD 1 = s.done ∧ s.statusWord.extractLsb' 2 2 = s.probeState.bits ∧
    s.statusWord.getLsbD 4 = s.addr4Flag ∧ s.statusWord.getLsbD 5 = s.sstFlag ∧ s.statusWord.extractLsb' 6 2 = 0 ∧
    s.statusWord.extractLsb' 8 4 = s.err.bits ∧ s.statusWord.extractLsb' 12 4 = s.statusCur ∧
    s.statusWord.extractLsb' 16 16 = 0 := by
  simp (disch := omega) [State.statusWord, BitVec.extractLsb'_or, extractLsb'_place, extractLsb'_place_disjoint,
    getElem_place_ofBool, getElem_place_disjoint]

theorem ErrCode.bits_le (e : ErrCode) : e.bits.toNat ≤ 9 := by cases e <;> decide

theorem ProbeState.bits_ne_three (p : ProbeState) : p.bits ≠ 3 := by cases p <;> decide

theorem State.addr4Flag_iff {s : State} : s.addr4Flag = true ↔ s.probeState = .probed ∧ s.params.addrWidth = .four := by
  simp [State.addr4Flag, State.isProbed]

theorem State.sstFlag_iff {s : State} : s.sstFlag = true ↔ s.probeState = .probed ∧ s.params.sstWrite = true := by
  simp [State.sstFlag, State.isProbed]

/-- Settles O14: offset 0x10 reads `statusWord`, whose fields are placed side by side. -/
theorem statusHasItsFields : Obligations.StatusHasItsFields := by
  refine ⟨rfl, fun s => ?_⟩
  change (∀ x, s.writeReg .status x = s) ∧ s.statusWord.getLsbD 0 = s.busy ∧ _
  obtain ⟨hbusy, hdone, hps, h4, hsst, hres, herr, hcur, htop⟩ := s.statusWord_fields
  refine ⟨fun _ => rfl, hbusy, hdone, hps, ?_, ?_, hres, herr, hcur, htop, ?_, ?_⟩
  · exact (congrArg (· = true) h4).to_iff.trans State.addr4Flag_iff
  · exact (congrArg (· = true) hsst).to_iff.trans State.sstFlag_iff
  · exact herr ▸ s.err.bits_le
  · exact hps ▸ s.probeState.bits_ne_three

/-! ## The registers of the probed chip (R36 to R38) -/

theorem infoWord_fields (r : Derived) (d : Descriptor) :
    (infoWord r d).extractLsb' 0 8 = r.eraseOp ∧ (infoWord r d).extractLsb' 8 3 = granularityCode d.granularity ∧
    (infoWord r d).extractLsb' 11 5 = 0 ∧ (infoWord r d).getLsbD 16 = d.flags.initSr ∧
    (infoWord r d).getLsbD 17 = d.flags.sstAai ∧ (infoWord r d).getLsbD 18 = d.flags.bp02 ∧
    (infoWord r d).getLsbD 19 = d.flags.bp3 ∧ (infoWord r d).getLsbD 20 = d.flags.bp4 ∧
    (infoWord r d).extractLsb' 21 3 = BitVec.ofNat 3 r.addrWidth.bytes ∧ (infoWord r d).extractLsb' 24 8 = 0 := by
  simp (disch := omega) [infoWord, BitVec.extractLsb'_or, extractLsb'_place, extractLsb'_place_disjoint,
    getElem_place_ofBool, getElem_place_disjoint]

theorem toNat_ofNat_widthBytes (w : AddrWidth) : (BitVec.ofNat 3 w.bytes).toNat = w.bytes := by cases w <;> rfl

theorem State.isProbed_of_ne {s : State} (h : s.probeState ≠ .probed) : s.isProbed = false := by
  simp [State.isProbed, h]

theorem State.shownSize_of_not_probed {s : State} (h : s.probeState ≠ .probed) : s.shownSize = 0 := by
  unfold State.shownSize; split <;> simp [State.isProbed_of_ne h]

theorem State.shownInfo_of_not_probed {s : State} (h : s.probeState ≠ .probed) : s.shownInfo = 0 := by
  unfold State.shownInfo; split <;> simp [State.isProbed_of_ne h]

theorem State.shownSize_of_probed {s : State} {d : Descriptor} (h : s.probeState = .probed) (hd : s.desc = some d) :
    s.shownSize = d.sizeBytes := by
  simp [State.shownSize, State.isProbed, h, hd]

theorem State.shownInfo_of_probed {s : State} {d : Descriptor} (h : s.probeState = .probed) (hd : s.desc = some d) :
    s.shownInfo = infoWord s.params d := by
  simp [State.shownInfo, State.isProbed, h, hd]

/-- The registers at offsets 0x1C to 0x28. -/
theorem State.readOffsetWord_probe (s : State) :
    s.readOffsetWord 0x1C = s.shownSize.extractLsb' 0 32 ∧ s.readOffsetWord 0x20 = s.shownSize.extractLsb' 32 32 ∧
    s.readOffsetWord 0x24 = (if s.isProbed then s.params.eraseSize else 0) ∧ s.readOffsetWord 0x28 = s.shownInfo :=
  ⟨rfl, rfl, rfl, rfl⟩

theorem State.readOffsetWord_probe_of_not_probed {s : State} (h : s.probeState ≠ .probed) :
    s.readOffsetWord 0x28 = 0 ∧ s.readOffsetWord 0x1C = 0 ∧ s.readOffsetWord 0x20 = 0 ∧ s.readOffsetWord 0x24 = 0 := by
  obtain ⟨hlo, hhi, hes, hinfo⟩ := s.readOffsetWord_probe
  rw [State.shownSize_of_not_probed h] at hlo hhi
  rw [State.isProbed_of_ne h] at hes
  exact ⟨hinfo.trans (State.shownInfo_of_not_probed h), hlo, hhi, hes⟩

/-- Settles O15: the four registers show `shownSize`, the sector size and `infoWord`, whose fields are placed side by side. -/
theorem probeRegistersShowTheChip : Obligations.ProbeRegistersShowTheChip := by
  refine ⟨?_, fun s => ⟨?_, State.readOffsetWord_probe_of_not_probed, fun d h hd => ?_⟩⟩
  · obtain ⟨hinfo, hlo, hhi, hes⟩ := State.readOffsetWord_probe_of_not_probed (s := State.reset) nofun
    simp [hinfo, hlo, hhi, hes]
  · intro r hr x
    simp only [List.mem_cons, List.not_mem_nil, or_false] at hr
    rcases hr with rfl | rfl | rfl | rfl <;> rfl
  · obtain ⟨hlo, hhi, hes, hinfo⟩ := s.readOffsetWord_probe
    rw [State.shownSize_of_probed h hd] at hlo hhi
    rw [State.shownInfo_of_probed h hd] at hinfo
    have hp : s.isProbed = true := by simp [State.isProbed, h]
    rw [hp] at hes
    obtain ⟨hop, hgran, hres, hsr, hsst, hbp02, hbp3, hbp4, hwidth, htop⟩ := infoWord_fields s.params d
    rw [hinfo]
    exact ⟨hlo, hhi, hes, hop, hgran, hres, hsr, hsst, hbp02, hbp3, hbp4,
      (congrArg BitVec.toNat hwidth).trans (toNat_ofNat_widthBytes s.params.addrWidth), htop⟩

/-! ## The reset values (R52, R304) -/

/-- Settles O49: each register of the reset state, and its IDLE step. -/
theorem resetStateReadsZero : Obligations.ResetStateReadsZero :=
  ⟨fun r => by cases r <;> decide, rfl, rfl, rfl, rfl, fun _ => rfl, fun _ => seqStep_idle rfl⟩

/-! ## Bus writes (R24 to R26, R40, R71) -/

theorem Reg.atOffset_offset {off : Nat} {r : Reg} (h : Reg.atOffset off = some r) : r.offset = off := by
  unfold Reg.atOffset at h
  split at h <;> cases h <;> rfl

/-- A 32-bit write to no register changes nothing: at a reserved or unaligned offset (R40), or outside the window. -/
theorem hostTurn_write_reserved {s : State} {a : Word} {data : List Byte} {v : Word} (hd : wordOfLanes data = some v)
    (hr : Reg.atOffset (windowOffset s.par a) = none) : hostTurn (.write a data) s = .done (.next s) := by
  simp [hostTurn, busWrite, hd, hr]

/-- A 32-bit write to a register other than CMD (R71). -/
theorem hostTurn_write_reg {s : State} {a : Word} {data : List Byte} {v : Word} {r : Reg} (hd : wordOfLanes data = some v)
    (hr : Reg.atOffset (windowOffset s.par a) = some r) (hne : r ≠ .cmd) :
    hostTurn (.write a data) s = .done (.next (s.writeReg r v)) := by
  have hw : windowOffset s.par a < 256 := by
    rw [← Reg.atOffset_offset hr]; cases r <;> decide
  cases r
  case cmd => exact absurd rfl hne
  all_goals simp [hostTurn, busWrite, hd, hr, hw]

theorem step_of_write_reg {s : State} {a : Word} {data : List Byte} {rest : List Turn} {v : Word} {r : Reg}
    (hpar : s.par.wf = true) (hs : s.script = .host (.write a data) :: rest) (hd : wordOfLanes data = some v)
    (hr : Reg.atOffset (windowOffset s.par a) = some r) (hne : r ≠ .cmd) :
    step s = .next ((s.withScript rest).writeReg r v) := by
  rw [step_of_script_host hpar hs, hostTurn_write_reg (s := s.withScript rest) hd hr hne]
  rfl

/-- Settles O16: the register at the offset, if there is one, and what a write to it stores. -/
theorem registerWritesStoreOrAreIgnored : Obligations.RegisterWritesStoreOrAreIgnored := by
  intro s a data rest v hpar hs hd h0
  refine ⟨fun hb ho => ?_, fun hb ho => ?_, fun hb ho => ?_, fun hor => ?_⟩
  · have hr : Reg.atOffset (windowOffset s.par a) = some .addr := by rw [ho]; rfl
    exact (step_of_write_reg hpar hs hd hr nofun).trans (congrArg _ (State.writeReg_idle_addr (s := s.withScript rest) hb v))
  · have hr : Reg.atOffset (windowOffset s.par a) = some .len := by rw [ho]; rfl
    exact (step_of_write_reg hpar hs hd hr nofun).trans (congrArg _ (State.writeReg_idle_len (s := s.withScript rest) hb v))
  · have hr : Reg.atOffset (windowOffset s.par a) = some .buf := by rw [ho]; rfl
    exact (step_of_write_reg hpar hs hd hr nofun).trans (congrArg _ (State.writeReg_idle_buf (s := s.withScript rest) hb v))
  · cases hr : Reg.atOffset (windowOffset s.par a) with
    | none => rw [step_of_script_host hpar hs, hostTurn_write_reserved (s := s.withScript rest) hd hr]; rfl
    | some r =>
      have ho := Reg.atOffset_offset hr
      have hne : r ≠ .cmd := by rintro rfl; exact h0 ho.symm
      rw [step_of_write_reg hpar hs hd hr hne]
      rcases hor with hb | ⟨ha, hl, hbuf⟩
      · rw [State.writeReg_busy (s := s.withScript rest) hb]
      · cases r
        case addr => exact absurd ho.symm ha
        case len => exact absurd ho.symm hl
        case buf => exact absurd ho.symm hbuf
        all_goals rfl

end Sys2Proof.Machine

/-! # A command in flight reads only its latches (10_state.md R45) -/

namespace Sys2Proof.Machine

section
variable {a l b : Word}

/-! ## A frame and the live registers -/

/-- An effect of a frame that neither reads nor writes the live registers. -/
def LiveBlind (a l b : Word) (g : State → State) : Prop := ∀ t : State, g (t.withLive a l b) = (g t).withLive a l b

/-- The answer of a step with the live registers at `a`, `l` and `b`. -/
def resultWithLive (a l b : Word) : Result → Result
  | .next t => .next (t.withLive a l b)
  | .fault e => .fault e
  | .refused r => .refused r

theorem State.send_withLive {onOk onFail : State → State} (hok : LiveBlind a l b onOk) (hfail : LiveBlind a l b onFail)
    (i : Instr) (f : Frame) (s : State) :
    (s.withLive a l b).send i f onOk onFail = (s.send i f onOk onFail).withLive a l b := by
  cases h : s.frameOk with
  | true =>
    have ht := hok (s.transport f)
    rw [State.send_ok (s := s.withLive a l b) i f _ _ h, State.send_ok i f _ _ h]
    exact congrArg State.advance ht
  | false =>
    have ht := hfail ((s.transport f).withFlash (s.flash.lost (s.unitOf i)))
    rw [State.send_fail (s := s.withLive a l b) i f _ _ h, State.send_fail i f _ _ h]
    exact congrArg (State.raise .transport) ht

theorem State.fillUnspecified_withLive (k : Nat) (vs : List Byte) (s : State) :
    State.fillUnspecified k vs (s.withLive a l b) = (State.fillUnspecified k vs s).withLive a l b := by
  induction vs generalizing k s with
  | nil => rfl
  | cons v vs ih => exact ih (k + 1) (s.setByte (s.hostAddr k) v)

/-- An SPI command neither reads nor writes the live registers. -/
theorem exec_withLive {s : State} {i : Instr} {f : Frame} (he : encode s.par s.params.addrWidth i = .frame f) :
    exec i (s.withLive a l b) = resultWithLive a l b (exec i s) := by
  cases i <;> simp only [encode, reduceCtorEq] at he
  case fastRead c k =>
    refine congrArg Host.Outcome.next (State.send_withLive ?_ ?_ _ _ s)
    · exact fun _ => rfl
    · exact fun t => State.fillUnspecified_withLive t.hoff _ t
  all_goals
    refine congrArg Host.Outcome.next (State.send_withLive ?_ ?_ _ _ s) <;> exact fun _ => rfl

/-! ## Plans whose atomic steps differ in the live registers alone -/

/-- The atomic step of `q'` answers as that of `q`, but for the live registers, which are `a`, `l` and `b`. -/
def RunsAlike (a l b : Word) (q q' : Planned) : Prop := perform (act q') = resultWithLive a l b (perform (act q))

theorem alike_frame {s : State} {i : Instr} (he : ∃ f, encode s.par s.params.addrWidth i = .frame f) :
    RunsAlike a l b { state := s, action := .frame i } { state := s.withLive a l b, action := .frame i } :=
  exec_withLive he.choose_spec

theorem alike_complete (s : State) (e : ErrCode) :
    RunsAlike a l b { state := s, action := .complete e } { state := s.withLive a l b, action := .complete e } := rfl

theorem alike_ite {c : Prop} [Decidable c] {q r q' r' : Planned} (hq : RunsAlike a l b q q') (hr : RunsAlike a l b r r') :
    RunsAlike a l b (if c then q else r) (if c then q' else r') := by
  split
  · exact hq
  · exact hr

theorem alike_exitFrom (op : HostOp) (k : Nat) (s : State) :
    RunsAlike a l b (exitFrom op k s) (exitFrom op k (s.withLive a l b)) := by
  have e : (s.withLive a l b).bracket false = s.bracket false := rfl
  unfold exitFrom
  rw [e]
  cases h : (s.bracket false)[k]? with
  | some i => exact alike_frame (s := s.goto op (.exit k)) (encode_of_issues (l := .exit k) h)
  | none => exact alike_complete s .ok

/-! ### ERASE -/

theorem alike_eraseHead (op : HostOp) (s : State) :
    RunsAlike a l b (eraseHead op s) (eraseHead op (s.withLive a l b)) :=
  alike_ite (alike_frame (s := s.goto op .e3a) ⟨_, rfl⟩) (alike_exitFrom op 0 s)

theorem alike_eraseFrame (op : HostOp) (s : State) :
    RunsAlike a l b (eraseFrame op s) (eraseFrame op (s.withLive a l b)) := by
  have e : (s.withLive a l b).eraseInstr (s.withLive a l b).cur = s.eraseInstr s.cur := rfl
  unfold eraseFrame
  rw [e]
  cases h : s.eraseInstr s.cur with
  | some i => exact alike_frame (s := s.goto op .e3b) (encode_of_issues (l := .e3b) h)
  | none => rfl

/-! ### WRITE -/

theorem alike_fillThen {op : HostOp} {p : Label} {k : Nat} {done : State → Planned} {s : State}
    (h : RunsAlike a l b (done s) (done (s.withLive a l b))) :
    RunsAlike a l b (fillThen op p k done s) (fillThen op p k done (s.withLive a l b)) :=
  alike_ite rfl h

theorem alike_pageFill (op : HostOp) (s : State) : RunsAlike a l b (pageFill op s) (pageFill op (s.withLive a l b)) :=
  alike_fillThen (alike_frame (s := s.goto op .g3) ⟨_, rfl⟩)

theorem alike_pageHead (op : HostOp) (s : State) : RunsAlike a l b (pageHead op s) (pageHead op (s.withLive a l b)) :=
  alike_ite (alike_pageFill op ((s.withChunk (pageChunkLen s.par.pageSize s.cur s.rem)).withBuffer [])) (alike_exitFrom op 0 s)

theorem alike_aaiLast (op : HostOp) (s : State) : RunsAlike a l b (aaiLast op s) (aaiLast op (s.withLive a l b)) :=
  alike_frame (s := s.goto op .s6) ⟨_, rfl⟩

theorem alike_aaiTailFill (op : HostOp) (s : State) :
    RunsAlike a l b (aaiTailFill op s) (aaiTailFill op (s.withLive a l b)) :=
  alike_fillThen (alike_frame (s := s.goto op .s5w) ⟨_, rfl⟩)

theorem alike_aaiTail (op : HostOp) (s : State) : RunsAlike a l b (aaiTail op s) (aaiTail op (s.withLive a l b)) :=
  alike_ite (alike_aaiTailFill op (s.withBuffer [])) (alike_aaiLast op s)

theorem alike_aaiPairFill (op : HostOp) (s : State) :
    RunsAlike a l b (aaiPairFill op s) (aaiPairFill op (s.withLive a l b)) :=
  alike_fillThen (alike_frame (s := s.goto op .s3f) (encode_of_issues (l := .s3f) rfl))

theorem alike_aaiHead (op : HostOp) (s : State) : RunsAlike a l b (aaiHead op s) (aaiHead op (s.withLive a l b)) :=
  alike_ite (alike_aaiPairFill op (s.withBuffer [])) (alike_frame (s := s.goto op .s4) ⟨_, rfl⟩)

theorem alike_aaiLatch (op : HostOp) (s : State) : RunsAlike a l b (aaiLatch op s) (aaiLatch op (s.withLive a l b)) :=
  alike_frame (s := s.goto op .s2) ⟨_, rfl⟩

theorem alike_aaiOddFill (op : HostOp) (s : State) :
    RunsAlike a l b (aaiOddFill op s) (aaiOddFill op (s.withLive a l b)) :=
  alike_fillThen (alike_frame (s := s.goto op .s1w) ⟨_, rfl⟩)

theorem alike_aaiStart (op : HostOp) (s : State) : RunsAlike a l b (aaiStart op s) (aaiStart op (s.withLive a l b)) :=
  alike_ite (alike_aaiOddFill op (s.withBuffer [])) (alike_aaiLatch op s)

theorem alike_programStart (op : HostOp) (s : State) :
    RunsAlike a l b (programStart op s) (programStart op (s.withLive a l b)) :=
  alike_ite (alike_aaiStart op s.programInit) (alike_pageHead op s.programInit)

/-! ### READ -/

theorem alike_readHead (op : HostOp) (s : State) : RunsAlike a l b (readHead op s) (readHead op (s.withLive a l b)) :=
  alike_ite (alike_frame (s := (s.withChunk (readChunkLen s.rem)).goto op .r4a) ⟨_, rfl⟩) (alike_exitFrom op 0 s)

theorem alike_readDrain (op : HostOp) (s : State) : RunsAlike a l b (readDrain op s) (readDrain op (s.withLive a l b)) := by
  have e : (s.withLive a l b).xfer = s.xfer := rfl
  unfold readDrain
  rw [e]
  cases s.xfer with
  | cons v vs => rfl
  | nil => exact alike_readHead op s.chunkDone

/-! ### PROBE -/

theorem alike_probeStart (op : HostOp) (s : State) : RunsAlike a l b (probeStart op s) (probeStart op (s.withLive a l b)) :=
  alike_ite (alike_complete s _) (alike_frame (s := s.goto op .q1) ⟨_, rfl⟩)

theorem alike_probeDone (s : State) : RunsAlike a l b (probeDone s) (probeDone (s.withLive a l b)) :=
  alike_complete s.commit .ok

theorem alike_unlock (op : HostOp) (d : Descriptor) (s : State) :
    RunsAlike a l b (unlock op d s) (unlock op d (s.withLive a l b)) :=
  alike_ite (alike_frame (s := s.goto op .u1w) ⟨_, rfl⟩)
    (alike_ite (alike_frame (s := (s.withMask (protectionMask s.par d.flags)).goto op .u2) ⟨_, rfl⟩) (alike_probeDone s))

theorem alike_probeIdentify (op : HostOp) (s : State) :
    RunsAlike a l b (probeIdentify op s) (probeIdentify op (s.withLive a l b)) := by
  refine alike_ite (alike_complete s .noChip) ?_
  have e : (s.withLive a l b).lookup (s.withLive a l b).rawId (s.withLive a l b).rawExt = s.lookup s.rawId s.rawExt := rfl
  rw [e]
  cases s.lookup s.rawId s.rawExt with
  | none => exact alike_complete (s.identified none s.pparams) .unknownId
  | some d => exact alike_ite (alike_unlock op d (s.identified (some d) (derive s.par d))) rfl

theorem alike_unlockTest (op : HostOp) (s : State) : RunsAlike a l b (unlockTest op s) (unlockTest op (s.withLive a l b)) :=
  alike_ite (alike_frame (s := s.goto op .u3w) ⟨_, rfl⟩) (alike_probeDone s)

/-! ### Every position -/

theorem alike_bulkStart (op : HostOp) (s : State) : RunsAlike a l b (bulkStart op s) (bulkStart op (s.withLive a l b)) := by
  cases op with
  | read => exact alike_readHead .read s.readInit
  | erase => exact alike_eraseHead .erase s.eraseInit
  | write => exact alike_programStart .write s
  | probe => exact alike_complete s .ok
  | illegal => exact alike_complete s .ok

theorem alike_enterFrom (op : HostOp) (k : Nat) (s : State) :
    RunsAlike a l b (enterFrom op k s) (enterFrom op k (s.withLive a l b)) := by
  have e : (s.withLive a l b).bracket true = s.bracket true := rfl
  unfold enterFrom
  rw [e]
  cases h : (s.bracket true)[k]? with
  | some i => exact alike_frame (s := s.goto op (.enter k)) (encode_of_issues (l := .enter k) h)
  | none => exact alike_bulkStart op s

theorem alike_afterCheck (c : Option ErrCode) (op : HostOp) (s t : State) :
    RunsAlike a l b (afterCheck c op s t) (afterCheck c op (s.withLive a l b) (t.withLive a l b)) := by
  cases c with
  | some e => exact alike_complete s e
  | none => exact alike_enterFrom op 0 t

/-- The checks read the latches, not the live registers (R45). -/
theorem alike_commandStart (op : HostOp) (s : State) :
    RunsAlike a l b (commandStart op s) (commandStart op (s.withLive a l b)) := by
  cases op with
  | probe => exact alike_probeStart .probe s
  | read => exact alike_afterCheck s.readCheck .read s s.readPrepare
  | erase => exact alike_afterCheck s.eraseCheck .erase s s
  | write => exact alike_afterCheck s.writeCheck .write s s
  | illegal => exact alike_complete s .illegalCommand

theorem alike_afterPoll (op : HostOp) (c : PollSite) (s : State) :
    RunsAlike a l b (afterPoll op c s) (afterPoll op c (s.withLive a l b)) := by
  cases c with
  | u1 => exact alike_probeDone s
  | u3 => exact alike_probeDone s
  | e => exact alike_eraseHead op s.sectorDone
  | g => exact alike_pageHead op (s.bytesDone s.n)
  | s1 => exact alike_aaiLatch op (s.bytesDone 1)
  | s3 => exact alike_aaiHead op (s.bytesDone 2)
  | s4 => exact alike_aaiTail op s
  | s5 => exact alike_aaiLast op (s.bytesDone 1)

theorem alike_pollTest (op : HostOp) (c : PollSite) (s : State) :
    RunsAlike a l b (pollTest op c s) (pollTest op c (s.withLive a l b)) :=
  alike_ite (alike_frame (s := s.goto op (.poll c)) ⟨_, rfl⟩) (alike_afterPoll op c s)

theorem alike_planAt (op : HostOp) (p : Label) (s : State) :
    RunsAlike a l b (planAt op p s) (planAt op p (s.withLive a l b)) := by
  cases p
  case start => exact alike_commandStart op s
  case raise e => exact alike_complete s e
  case enter k => exact alike_enterFrom op k s
  case exit k => exact alike_exitFrom op k s
  case q2 => exact alike_probeIdentify op s
  case u3 => exact alike_unlockTest op s
  case r4 => exact alike_readHead op s
  case r4b => exact alike_readDrain op s
  case e3 => exact alike_eraseHead op s
  case e3b => exact alike_eraseFrame op s
  case g1 => exact alike_pageHead op s
  case g2 => exact alike_pageFill op s
  case s1m => exact alike_aaiOddFill op s
  case s2d => exact alike_aaiHead op (s.withFirst true)
  case s3 => exact alike_aaiHead op s
  case s3m => exact alike_aaiPairFill op s
  case s3f => exact alike_frame (encode_of_issues (l := .s3f) rfl)
  case s5m => exact alike_aaiTailFill op s
  case polled c => exact alike_pollTest op c s
  all_goals exact alike_frame ⟨_, rfl⟩

end

/-- A step of the sequencer is the same whatever the live registers hold, and leaves them as they are (R45). -/
theorem seqStep_withLive (a l b : Word) (s : State) : seqStep (s.withLive a l b) = resultWithLive a l b (seqStep s) := by
  have e : (s.withLive a l b).phase = s.phase := rfl
  unfold seqStep plan
  rw [e]
  cases s.phase with
  | idle => rfl
  | run op p => exact alike_planAt op p s

/-- Settles O59: the step at other live registers is `resultWithLive` of the step. -/
theorem commandsReadOnlyTheirLatches : Obligations.CommandsReadOnlyTheirLatches := by
  intro s a l b
  have h := seqStep_withLive a l b s
  exact ⟨fun t ht => by rw [ht] at h; exact h, fun e he => by rw [he] at h; exact h, fun r hr => by rw [hr] at h; exact h⟩

end Sys2Proof.Machine

/-! # Frames and their formats (20_memory.md R72, 30_encoding.md R95 to R102) -/

namespace Sys2Proof

@[simp] theorem header_length (op : Byte) (a : Nat) (w : AddrWidth) : (header op a w).length = commandLength w := by
  simp [header, commandLength]

/-- Every frame but an AAI continuation begins with an opcode (R101, R102). -/
theorem opcode_of_encode {p : Params} {w : AddrWidth} {i : Instr} {f : Frame} (he : encode p w i = .frame f)
    (hi : i.format ≠ .f6) : ∃ op rest, f.tx = op :: rest ∧ op ∈ p.opcodes := by
  cases i <;> simp only [encode, Encoded.frame.injEq, reduceCtorEq] at he <;> subst he
  case aaiCont => exact absurd rfl hi
  all_goals exact ⟨_, _, rfl, by simp [Params.opcodes]⟩

/-- Settles O5: the frame of each command, by its format. -/
theorem framesHaveTheirFormat : Obligations.FramesHaveTheirFormat := by
  intro p w i f he hwf
  refine ⟨opcode_of_encode he, ?_⟩
  cases i <;> simp only [encode, Encoded.frame.injEq, reduceCtorEq] at he <;> subst he
  case wren | wrdi | en4b | ex4b | exhbl => exact ⟨rfl, rfl, rfl, rfl⟩
  case wrsr | wrear | brwr => exact ⟨rfl, rfl, rfl, rfl⟩
  case se4k | se4kPmc | be32k | be64k => exact ⟨rfl, header_length _ _ w, rfl, rfl⟩
  case pp a d =>
    simp only [Instr.wf, Bool.and_eq_true, decide_eq_true_eq] at hwf
    obtain ⟨⟨-, hlo⟩, hhi⟩ := hwf
    exact ⟨rfl, header_length _ _ w, hlo, hhi.trans (Nat.sub_le _ _), rfl⟩
  case aaiWp a d0 d1 => exact ⟨rfl, by simp [frameF5], rfl, rfl⟩
  case aaiCont d0 d1 => exact ⟨rfl, by simp [frameF6], rfl, rfl⟩
  case fastRead a n =>
    simp only [Instr.wf, Bool.and_eq_true, decide_eq_true_eq] at hwf
    obtain ⟨⟨-, hlo⟩, hhi⟩ := hwf
    exact ⟨rfl, by simp [frameF7], rfl, hlo, hhi⟩
  case rdsr => exact ⟨rfl, rfl, rfl, .inl rfl⟩
  case rdid => exact ⟨rfl, rfl, rfl, .inr rfl⟩

end Sys2Proof

/-! # Register accesses (20_memory.md R65, R66, R71) -/

namespace Sys2Proof.Machine

/-- Only an access of four bytes has a register value (R66). -/
theorem length_of_wordOfLanes {data : List Byte} {v : Word} (h : wordOfLanes data = some v) : data.length = 4 := by
  unfold wordOfLanes at h
  split at h
  · rfl
  · cases h

theorem Reg.offset_lt (r : Reg) : r.offset < 0x30 := by cases r <;> decide

theorem Reg.offset_mod_four (r : Reg) : r.offset % 4 = 0 := by cases r <;> rfl

/-- No register stands above PROGRESS or at an offset that is not a multiple of 4 (R22, R40). -/
theorem Reg.atOffset_reserved {off : Nat} (h : 0x30 ≤ off ∨ off % 4 ≠ 0) : Reg.atOffset off = none := by
  cases hr : Reg.atOffset off with
  | none => rfl
  | some r =>
    have ho := Reg.atOffset_offset hr
    have hlt := r.offset_lt
    have hmod := r.offset_mod_four
    omega

theorem State.readOffsetWord_reserved {off : Nat} (h : 0x30 ≤ off ∨ off % 4 ≠ 0) (s : State) :
    s.readOffsetWord off = 0 := by
  simp only [State.readOffsetWord, Reg.atOffset_reserved h]

/-- A field at bit 0 is zero-extended. -/
theorem toNat_place_zero {n : Nat} (v : BitVec n) (h : n ≤ 32) : (place v 0).toNat = v.toNat := by
  have hlt : v.toNat < 2 ^ 32 := v.isLt.trans_le (Nat.pow_le_pow_right (by decide) h)
  simpa [place] using Nat.mod_eq_of_lt hlt

/-- A bus read of the window returns its bytes and changes nothing of the block (R71). -/
theorem step_of_read_window {s : State} {a : Word} {n : Nat} {rest : List Turn} (hpar : s.par.wf = true)
    (hs : s.script = .host (.read a n) :: rest) (hw : windowOffset s.par a < 256) :
    step s = .next ((s.withScript rest).withReadData (s.busData (windowOffset s.par a) n)) := by
  rw [step_of_script_host hpar hs]
  exact congrArg Host.Outcome.next (if_neg (Nat.not_le.2 hw))

theorem State.busData_word (s : State) (off : Nat) : s.busData off 4 = wordLanes (s.readOffsetWord off) := rfl

/-- A read that is not a 32-bit read at a multiple of 4 returns zeros (R66). -/
theorem State.busData_illFormed {off n : Nat} (h : n ≠ 4 ∨ off % 4 ≠ 0) (s : State) :
    s.busData off n = List.replicate n 0 := by
  by_cases hn : n = 4
  · subst hn
    rw [State.busData_word, State.readOffsetWord_reserved (.inr (h.resolve_left (absurd rfl)))]
    rfl
  · exact if_neg hn

/-- Settles O17: a read returns the lanes of `readOffsetWord`, whose cases are the registers. -/
theorem registerReadsReturnTheRegister : Obligations.RegisterReadsReturnTheRegister := by
  intro s a rest hpar hs hw off
  have hread : ∀ k, off = k → s.readOffsetWord off = s.readOffsetWord k := fun _ => congrArg s.readOffsetWord
  have hnat : ∀ k, off = k → (s.readOffsetWord off).toNat = (s.readOffsetWord k).toNat := fun k h => by rw [h]
  exact ⟨s.readOffsetWord off, step_of_read_window hpar hs hw, hread 0x00, hread 0x04, hread 0x08, hread 0x0C,
    fun h => (hnat 0x14 h).trans (toNat_place_zero s.rawId (by decide)),
    fun h => (hnat 0x18 h).trans (toNat_place_zero s.rawExt (by decide)), hread 0x2C, fun _ => rfl,
    fun h => State.readOffsetWord_reserved (.inl h) s⟩

/-- A write that is not a 32-bit write at a multiple of 4 is ignored (R66). -/
theorem hostTurn_write_illFormed {s : State} {a : Word} {data : List Byte}
    (h : data.length ≠ 4 ∨ windowOffset s.par a % 4 ≠ 0) : hostTurn (.write a data) s = .done (.next s) := by
  cases hd : wordOfLanes data with
  | none => simp [hostTurn, busWrite, hd]
  | some v =>
    have hal := h.resolve_left (absurd (length_of_wordOfLanes hd))
    exact hostTurn_write_reserved hd (Reg.atOffset_reserved (.inr hal))

/-- Settles O18: an ill-formed write is ignored, an ill-formed read returns zeros. -/
theorem illFormedAccessesHaveNoEffect : Obligations.IllFormedAccessesHaveNoEffect := by
  intro s a rest hpar hw
  constructor
  · intro data hs h
    rw [step_of_script_host hpar hs, hostTurn_write_illFormed (s := s.withScript rest) h]
    rfl
  · intro n hs h
    rw [step_of_read_window hpar hs hw, State.busData_illFormed h]

end Sys2Proof.Machine

/-! # Host memory: the host's accesses, DMA, and a failed fast-read frame (20_memory.md R62, R80, R85 to R87) -/

namespace Sys2Proof.Machine

/-! ## The host's stores and loads (R87, R309) -/

theorem State.inBuffer_iff_source_or_destination {s : State} {a : Word} :
    s.inBuffer a = true ↔ s.inSource a = true ∨ s.inDestination a = true := by
  rw [State.inBuffer_iff, State.inSource_iff, State.inDestination_iff]
  tauto

/-- A store outside every buffer in flight changes host memory alone. -/
theorem State.hostStore_outside {s : State} {a : Word} (hs : s.inSource a = false) (hd : s.inDestination a = false)
    (v : Byte) : s.hostStore a v = { s with mem := (s.hostStore a v).mem } := by
  have hb : s.inBuffer a = false := by
    simp [← Bool.not_eq_true, State.inBuffer_iff_source_or_destination, hs, hd]
  simp [State.hostStore, State.bufferAfterStore, hs, hb]

/-- A store in the source of a WRITE in flight touches host memory, the frame buffer and the races. -/
theorem State.hostStore_source {s : State} {a : Word} (hs : s.inSource a = true) (v : Byte) :
    s.hostStore a v = { s with
      mem := (s.hostStore a v).mem, raced := (s.hostStore a v).raced, xfer := (s.hostStore a v).xfer
      draws := s.draws + 1 } := by
  simp [State.hostStore, State.inBuffer_iff_source_or_destination.2 (.inl hs)]

/-- A store in the destination of a READ in flight touches host memory and the races. -/
theorem State.hostStore_destination {s : State} {a : Word} (hd : s.inDestination a = true) (v : Byte) :
    s.hostStore a v = { s with
      mem := (s.hostStore a v).mem, raced := (s.hostStore a v).raced, draws := s.draws + 1 } := by
  have hs : s.inSource a = false := by
    rw [← Bool.not_eq_true, State.inSource_iff]
    rw [State.inDestination_iff] at hd
    rintro ⟨-, hop, -⟩
    rw [hd.2.1] at hop
    cases hop
  simp [State.hostStore, State.bufferAfterStore, hs, State.inBuffer_iff_source_or_destination.2 (.inr hd)]

theorem State.loadByte_memory {s : State} (a : Word) (h : Config.loadsOther s.history s.draws = false) :
    s.loadByte a = s.byteAt a := by
  simp [State.loadByte, h]

theorem State.loadByte_other {s : State} {a : Word} (hd : s.inDestination a = true)
    (h : Config.loadsOther s.history s.draws = true) : s.loadByte a = s.otherByte a := by
  simp [State.loadByte, hd, h]

theorem State.otherByte_replaced {s : State} {a : Word} {v : Byte} (h : s.replaced.lookup a = some v) :
    s.otherByte a = v := by
  simp only [State.otherByte, h]

theorem State.otherByte_unreplaced {s : State} {a : Word} (h : s.replaced.lookup a = none) :
    s.otherByte a = (s.waitingByte a).getD (s.byteAt a) := by
  simp only [State.otherByte, h]

/-- Where no byte received waits for its write, the load has the byte in memory alone to see. -/
theorem State.waitingByte_eq_none {s : State} {a : Word}
    (h : s.phase ≠ .run .read .r4b ∨
      ∀ j, j < s.xfer.length → (a - s.opBuf).toNat ≠ s.hoff + (s.n - s.xfer.length) + j) : s.waitingByte a = none := by
  cases hw : s.waitingByte a with
  | none => rfl
  | some v =>
    obtain ⟨hp, j, hj, he⟩ := State.waitingByte_iff.1 hw
    obtain ⟨hlt, -⟩ := List.getElem?_eq_some_iff.1 hj
    rcases h with h | h
    · exact absurd hp h
    · exact absurd he (h j hlt)

/-- A load outside the destination of a READ in flight returns the byte in memory. -/
theorem State.hostLoad_elsewhere {s : State} {a : Word} (hd : s.inDestination a = false) :
    s.hostLoad a = { s with readData := [s.byteAt a] } := by
  simp [State.hostLoad, State.loadByte, hd]

/-- A load in the destination of a READ in flight draws a free choice. -/
theorem State.hostLoad_destination {s : State} {a : Word} (hd : s.inDestination a = true) :
    s.hostLoad a = { s with readData := [s.loadByte a], draws := s.draws + 1 } := by
  simp [State.hostLoad, hd]

/-- Settles O19: a store and a load by where their byte lies: in the source of a WRITE in flight, in the destination of a READ
in flight, or elsewhere. -/
theorem hostStoresChangeOneByte : Obligations.HostStoresChangeOneByte := by
  intro s a v rest hpar hm inside source destination
  have hsrc : (s.withScript rest).inSource a = true ↔ source := State.inSource_iff
  have hdst : (s.withScript rest).inDestination a = true ↔ destination := State.inDestination_iff
  have hnsrc : ¬ source → (s.withScript rest).inSource a = false := fun h => Bool.eq_false_iff.2 (mt hsrc.1 h)
  have hndst : ¬ destination → (s.withScript rest).inDestination a = false := fun h => Bool.eq_false_iff.2 (mt hdst.1 h)
  constructor
  · intro hs
    have hbyte := State.byteAt_hostStore_same (s := s.withScript rest) hm a v
    refine ⟨(s.withScript rest).hostStore a v, step_of_script_host hpar hs,
      fun b hb => State.byteAt_hostStore_other (s.withScript rest) a v hb, fun h => hbyte.trans (by rw [hndst h]; rfl),
      fun h => hbyte.trans (if_pos (hdst.2 h)), fun h1 h2 => State.hostStore_outside (hnsrc h1) (hndst h2) v,
      fun h => ⟨State.hostStore_source (hsrc.2 h) v, (s.withScript rest).length_bufferAfterStore a, fun j hj => ?_⟩,
      fun h => State.hostStore_destination (hdst.2 h) v, fun h b => ?_⟩
    · refine ((s.withScript rest).getElem?_bufferAfterStore a j).trans (if_congr ?_ rfl rfl)
      exact ⟨fun k => k.2.1, fun k => ⟨hsrc.2 h, k, hj⟩⟩
    · have hb := State.inBuffer_iff_source_or_destination.2 (h.imp hsrc.2 hdst.2)
      exact State.mem_raced_hostStore.trans (or_congr_left (and_iff_right hb))
  · intro hs
    have hstep : step s = .next ((s.withScript rest).hostLoad a) := step_of_script_host hpar hs
    refine ⟨fun h => hstep.trans (congrArg _ (State.hostLoad_elsewhere (hndst h))), fun h =>
      ⟨(s.withScript rest).loadByte a, hstep.trans (congrArg _ (State.hostLoad_destination (hdst.2 h))),
        State.loadByte_memory (s := s.withScript rest) a, fun hl w hr => ?_, fun hl hr => ?_⟩⟩
    · exact (State.loadByte_other (hdst.2 h) hl).trans (State.otherByte_replaced hr)
    · have hload := (State.loadByte_other (hdst.2 h) hl).trans (State.otherByte_unreplaced hr)
      refine ⟨fun j w hp hj he => hload.trans ?_, fun hno => hload.trans ?_⟩
      · rw [(State.waitingByte_iff (s := s.withScript rest)).2 ⟨hp, j, hj, he⟩]; rfl
      · rw [State.waitingByte_eq_none (s := s.withScript rest) hno]; rfl

/-! ## A failed fast-read frame (R86, R279) -/

/-- What a command leaves of the state when its frame fails (R279, R280). -/
theorem FrameStep.sentFailing {i : Instr} {f : Frame} {s t : State} (h : FrameStep i f s t) (hf : s.frameOk = false) :
    SentFailing i f s t where
  history := ⟨s.frameSent f, s.frameSent_le f, by rw [h.history, hf, State.frameRx_fail f hf]⟩
  answers := h.answers
  draws := h.draws
  phase := by rw [h.phase, hf]; rfl
  flash := h.flashFail hf

theorem FrameStep.untouched {i : Instr} {f : Frame} {s t : State} (h : FrameStep i f s t) (hf : s.frameOk = false) :
    Untouched s t where
  registers := h.registers
  id := h.idFail hf
  working := h.working
  scratch := h.scratchFail hf
  world := h.world
  replaced := h.replaced

/-- The bytes of a buffer of at most 4 GiB have different addresses (R62). -/
theorem State.hostAddr_ne (s : State) {i j : Nat} (h : i < j) (hk : j < i + 4294967296) : s.hostAddr i ≠ s.hostAddr j := by
  intro e
  have he : BitVec.ofNat 32 i = BitVec.ofNat 32 j := (BitVec.add_right_inj s.opBuf).1 e
  have hmod := congrArg BitVec.toNat he
  simp only [BitVec.toNat_ofNat] at hmod
  omega

/-- Each byte of the destination takes the value that is filled in. -/
theorem State.byteAt_fillUnspecified_same {i j : Nat} {vs : List Byte} {s : State} {v : Byte} (hm : s.mem.wf = true)
    (hk : vs.length ≤ 4294967296) (hv : vs[j]? = some v) :
    (State.fillUnspecified i vs s).byteAt (s.hostAddr (i + j)) = v := by
  induction vs generalizing i j s with
  | nil => cases hv
  | cons w vs ih =>
    rw [List.length_cons] at hk
    cases j with
    | zero =>
      obtain rfl : w = v := by simpa using hv
      have hne : ∀ j, j < vs.length → s.hostAddr i ≠ s.hostAddr (i + 1 + j) := fun j hj =>
        s.hostAddr_ne (by omega) (by omega)
      calc (State.fillUnspecified (i + 1) vs (s.setByte (s.hostAddr i) w)).byteAt (s.hostAddr i)
          = (s.setByte (s.hostAddr i) w).byteAt (s.hostAddr i) := State.byteAt_fillUnspecified_other _ _ _ hne
        _ = w := State.byteAt_setByte_same hm _ w
    | succ j =>
      rw [← Nat.succ_add_eq_add_succ]
      exact ih (s := s.setByte (s.hostAddr i) w) (State.wf_setByte hm _ w) (by omega) (by simpa using hv)

@[simp] theorem State.length_unspecifiedBytes (s : State) (k : Nat) : (s.unspecifiedBytes k).length = k := by
  simp [State.unspecifiedBytes]

theorem State.getElem?_unspecifiedBytes {s : State} {k i : Nat} (h : i < k) :
    (s.unspecifiedBytes k)[i]? = some (Config.freeByte s.history s.draws i) := by
  simp [State.unspecifiedBytes, h]

/-- Of the state, filling bytes in reads host memory and the buffer's address alone. -/
theorem State.fillUnspecified_mem_congr {s t : State} (hm : t.mem = s.mem) (hb : t.opBuf = s.opBuf) (i : Nat)
    (vs : List Byte) : (State.fillUnspecified i vs t).mem = (State.fillUnspecified i vs s).mem := by
  induction vs generalizing i s t with
  | nil => exact hm
  | cons v vs ih =>
    refine ih (s := s.setByte (s.hostAddr i) v) (t := t.setByte (t.hostAddr i) v) ?_ hb (i + 1)
    simp only [State.setByte_mem, State.hostAddr, hm, hb]

/-- Host memory after a fast-read frame that fails (R86): the destination is filled, and nothing else is written. -/
theorem mem_of_fastRead_fail {s t : State} {c k : Nat} (hf : s.frameOk = false) (ht : exec (.fastRead c k) s = .next t) :
    t.mem = (State.fillUnspecified s.hoff (s.unspecifiedBytes k) s).mem := by
  cases ht
  rw [State.send_fail _ _ _ _ hf, State.raise_mem]
  exact State.fillUnspecified_mem_congr (s := s) (t := (s.transport _).withFlash _) rfl rfl s.hoff (s.unspecifiedBytes k)

/-- Settles O28: the frame fails as every frame does, and fills its destination with free values. -/
theorem failedReadFrameSpoilsItsDestination : Obligations.FailedReadFrameSpoilsItsDestination := by
  intro s c k hf hm hk
  obtain ⟨t, ht, hstep⟩ := frameStep_fastRead c k s
  have hmem : ∀ a, t.byteAt a = (State.fillUnspecified s.hoff (s.unspecifiedBytes k) s).byteAt a := fun a =>
    congrArg (Memory.get · a.toNat) (mem_of_fastRead_fail hf ht)
  refine ⟨t, ht, hstep.sentFailing hf, hstep.untouched hf, fun i hi => ?_, fun a ha => ?_⟩
  · exact (hmem _).trans (State.byteAt_fillUnspecified_same hm (by simpa using hk) (State.getElem?_unspecifiedBytes hi))
  · exact (hmem a).trans (State.byteAt_fillUnspecified_other _ _ s (by simpa using ha))

/-! ## DMA (R62, R85) -/

/-- While bytes of the frame's data are missing, the next atomic step of a WRITE is a DMA read (R85, R213, R217). -/
theorem plan_fill {s : State} {l : Label} {k : Nat} (hl : (l, k) ∈ [(Label.g2, s.n), (.s1m, 1), (.s3m, 2), (.s5m, 1)])
    (hp : s.phase = .run .write l) (hx : s.xfer.length < k) :
    plan s = { state := s.goto .write l, action := .memRead s.fillAddr } := by
  simp only [List.mem_cons, Prod.mk.injEq, List.not_mem_nil, or_false] at hl
  simp only [plan, hp]
  rcases hl with ⟨rfl, rfl⟩ | ⟨rfl, rfl⟩ | ⟨rfl, rfl⟩ | ⟨rfl, rfl⟩ <;> exact if_pos hx

/-- While bytes received wait, the next atomic step of a READ is a DMA write of the first of them (R86). -/
theorem plan_drain {s : State} {v : Byte} {vs : List Byte} (hp : s.phase = .run .read .r4b) (hx : s.xfer = v :: vs) :
    plan s = { state := s.goto .read .r4b, action := .memWrite s.drainAddr v } := by
  simp only [plan, hp, planAt, readDrain, hx]

theorem State.goto_of_phase {s : State} {op : HostOp} {l : Label} (h : s.phase = .run op l) : s.goto op l = s := by
  rw [State.goto, ← h]

theorem State.unlessRaced_eq (s : State) (a : Word) (v : Byte) :
    s.unlessRaced a v = if a ∈ s.raced then Config.freeByte s.history s.draws 0 else v := by
  split
  · next h => exact State.unlessRaced_of_mem h v
  · next h => exact State.unlessRaced_of_not_mem h v

theorem State.byteAt_dmaWrite_same {s : State} (h : s.mem.wf = true) (a : Word) (v : Byte) :
    (s.dmaWrite a v).byteAt a = s.unlessRaced a v := State.byteAt_setByte_same h a _

theorem State.byteAt_dmaWrite_other (s : State) (a : Word) (v : Byte) {b : Word} (hb : b ≠ a) :
    (s.dmaWrite a v).byteAt b = s.byteAt b := State.byteAt_setByte_other s a _ hb

/-- Settles O47: the plan is a DMA access at the next buffer address, and the step is that access. -/
theorem dmaMovesOneByte : Obligations.DmaMovesOneByte := by
  intro s
  constructor
  · intro l k hl hp hx a v
    have hplan := plan_fill hl hp hx
    rw [State.goto_of_phase hp] at hplan
    have hv : s.dmaByte a = v := s.unlessRaced_eq a (s.byteAt a)
    refine ⟨s.dmaRead a, ?_, by rw [State.dmaRead_xfer, hv], by rw [State.dmaRead_history, hv], rfl, rfl, rfl, ?_, ?_, ?_, ?_⟩
    · rw [seqStep_memRead (by rw [hplan]), hplan]; rfl
    all_goals constructor <;> rfl
  · intro v vs hp hx hm a
    have hplan := plan_drain hp hx
    rw [State.goto_of_phase hp] at hplan
    have ha : s.drainAddr = a := by simp only [State.drainAddr, hx]; rfl
    refine ⟨s.dmaWrite a v, ?_, by rw [State.dmaWrite_xfer, hx]; rfl, rfl, rfl,
      (State.byteAt_dmaWrite_same hm a v).trans (s.unlessRaced_eq a v), fun b hb => State.byteAt_dmaWrite_other s a v hb,
      rfl, ?_, ?_, ?_, ?_⟩
    · rw [seqStep_memWrite (by rw [hplan]), hplan, ha]
    all_goals constructor <;> rfl

end Sys2Proof.Machine

/-! # Every frame that is issued is well formed (20_memory.md R72; R199, R214, R216, R220, R243) -/

namespace Sys2Proof.Machine

/-! ## Which frame a position issues -/

/-- Operands that need no check: those of a command without an address. -/
theorem wf_of_address_none {i : Instr} (h : i.address = none) (p : Params) (w : AddrWidth) : i.wf p w = true := by
  cases i <;> first | rfl | cases h

/-- The commands that carry an address, each with its positions (R47). -/
theorem issues_cases {s : State} {i : Instr} {l : Label} (h : s.issues i l) :
    i.address = none ∨ (l = .r4a ∧ i = .fastRead s.cur s.n) ∨ (l = .e3b ∧ s.eraseInstr s.cur = some i) ∨
      ((l = .g4 ∨ l = .s1p ∨ l = .s5p) ∧ i = .pp s.cur s.xfer) ∨ (l = .s3f ∧ i = s.pairInstr) := by
  have hmode : ∀ en, i ∈ s.bracket en → i.address = none := by
    intro en hm
    rcases mem_modeFrames hm with rfl | rfl | rfl | rfl | rfl | rfl | ⟨_, rfl⟩ <;> rfl
  cases l <;> simp only [State.issues] at h
  case enter k => exact .inl (hmode true (List.mem_of_getElem? h))
  case exit k => exact .inl (hmode false (List.mem_of_getElem? h))
  case r4a => exact .inr (.inl ⟨rfl, h⟩)
  case e3b => exact .inr (.inr (.inl ⟨rfl, h⟩))
  case g4 => exact .inr (.inr (.inr (.inl ⟨.inl rfl, h⟩)))
  case s1p => exact .inr (.inr (.inr (.inl ⟨.inr (.inl rfl), h⟩)))
  case s5p => exact .inr (.inr (.inr (.inl ⟨.inr (.inr rfl), h⟩)))
  case s3f => exact .inr (.inr (.inr (.inr ⟨rfl, h⟩)))
  all_goals exact .inl (by rw [h]; rfl)

/-- The erase frame of a probed chip, with the sector size of its granularity, whichever opcodes are equal (R196). -/
theorem eraseInstr_cases {s : State} {op : HostOp} (hf : s.Flying op) (hop : bulkOp op = true) {c : Nat} {i : Instr}
    (hi : s.eraseInstr c = some i) :
    ((i = .se4k c ∨ i = .se4kPmc c) ∧ s.eraseUnit = 4096) ∨ (i = .be32k c ∧ s.eraseUnit = 32768) ∨
      (i = .be64k c ∧ (s.eraseUnit = 65536 ∨ s.eraseUnit = 262144)) := by
  obtain ⟨d, -, -, hpar, hunit⟩ := eraseUnit_of_flying hf hop
  have hopc : s.params.eraseOp = eraseOpOf s.par d.granularity := by rw [hpar]; rfl
  have hlarge : ¬ (s.params.eraseOp = s.par.opSe4k ∧ s.eraseUnit = 4096) →
      ¬ (s.params.eraseOp = s.par.opSe4kPmc ∧ s.eraseUnit = 4096) →
      ¬ (s.params.eraseOp = s.par.opBe32k ∧ s.eraseUnit = 32768) →
      s.params.eraseOp = s.par.opBe64k ∧ (s.eraseUnit = 65536 ∨ s.eraseUnit = 262144) := by
    intro h1 h2 h3
    cases hg : d.granularity <;> rw [hg] at hunit hopc
    case g4k => exact absurd ⟨hopc, hunit⟩ h1
    case g4kPmc => exact absurd ⟨hopc, hunit⟩ h2
    case g32k => exact absurd ⟨hopc, hunit⟩ h3
    case g64k => exact ⟨hopc, .inl hunit⟩
    case g256k => exact ⟨hopc, .inr hunit⟩
  unfold State.eraseInstr at hi
  split_ifs at hi with h1 h2 h3 h4 <;> cases hi
  · exact .inl ⟨.inl rfl, h1.2⟩
  · exact .inl ⟨.inr rfl, h2.2⟩
  · exact .inr (.inl ⟨rfl, h3.2⟩)
  · exact .inr (.inr ⟨rfl, (hlarge h1 h2 h3).2⟩)
  all_goals exact absurd (hlarge h1 h2 h3).1 h4

/-! ## Addresses inside the chip -/

theorem addrFits_widthOf {size a : Nat} (hs : size ≤ 4294967296) (ha : a < size) : addrFits (widthOf size) a = true := by
  unfold widthOf
  split
  · exact decide_eq_true (by omega)
  · next h => exact decide_eq_true (by simp only [Config.addr4Threshold] at h; omega)

/-- An address inside the probed chip fits the chip's address field (R97, R258). -/
theorem State.Flying.addrFits {s : State} {op : HostOp} (hf : s.Flying op) (hop : bulkOp op = true)
    (hs : s.size ≤ 4294967296) {a : Nat} (ha : a < s.size) : addrFits s.params.addrWidth a = true := by
  obtain ⟨d, hd, -, hpar, -⟩ := eraseUnit_of_flying hf hop
  have hsize : s.size = descSize d := by simp only [State.size, hd]
  rw [hsize] at hs ha
  rw [hpar]
  exact addrFits_widthOf hs ha

theorem capacity_of_eraseCheck {s : State} (h : s.eraseCheck = none) : s.opAddr.toNat + s.opLen.toNat ≤ s.size := by
  simp only [State.eraseCheck] at h; split_ifs at h with _ _ _ hcap; exact Nat.not_lt.1 hcap

theorem capacity_of_writeCheck {s : State} (h : s.writeCheck = none) : s.opAddr.toNat + s.opLen.toNat ≤ s.size := by
  simp only [State.writeCheck] at h; split_ifs at h with _ _ _ hcap; exact Nat.not_lt.1 hcap

theorem State.Flying.checked {s : State} {op : HostOp} (hf : s.Flying op) (hop : bulkOp op = true) : s.checked op := by
  obtain ⟨-, -, -, -, -, -, -, hbulk, -⟩ := hf
  exact (hbulk hop).2

/-- The sector that is next lies inside the chip (R199). -/
theorem sector_le_size {s : State} (hf : s.Flying .erase) (hc : s.eraseCourse) (hr : 0 < s.rem) :
    s.cur + s.eraseUnit ≤ s.size := by
  obtain ⟨-, -, hsum, -⟩ := hc
  calc s.cur + s.eraseUnit ≤ s.cur + s.rem * s.eraseUnit := Nat.add_le_add_left (Nat.le_mul_of_pos_left _ hr) _
    _ = s.opAddr.toNat + s.opLen.toNat := hsum
    _ ≤ s.size := capacity_of_eraseCheck (hf.checked rfl)

/-- The bytes still to program lie inside the chip. -/
theorem bytesLeft_le_size {s : State} (hf : s.Flying .write) (hc : s.writeCourse) : s.cur + s.rem ≤ s.size := by
  obtain ⟨hcur, hsum, -⟩ := hc
  calc s.cur + s.rem = s.opAddr.toNat + s.opLen.toNat := by omega
    _ ≤ s.size := capacity_of_writeCheck (hf.checked rfl)

/-! ## Each kind of frame -/

theorem pageSize_pos {p : Params} (h : p.wf = true) : 0 < p.pageSize := by
  simp only [Params.wf, Bool.and_eq_true, decide_eq_true_eq] at h
  exact h.2

theorem wf_eraseInstr {s : State} {i : Instr} (hf : s.Flying .erase) (hs : s.size ≤ 4294967296) (hc : s.eraseCourse)
    (hr : 0 < s.rem) (hi : s.eraseInstr s.cur = some i) : i.wf s.par s.params.addrWidth = true := by
  have hle := sector_le_size hf hc hr
  obtain ⟨-, hmod, -, -⟩ := hc
  have hfits : 0 < s.eraseUnit → addrFits s.params.addrWidth s.cur = true := fun hu => hf.addrFits rfl hs (by omega)
  rcases eraseInstr_cases hf rfl hi with ⟨rfl | rfl, hu⟩ | ⟨rfl, hu⟩ | ⟨rfl, hu | hu⟩ <;> rw [hu] at hmod hfits <;>
    simp only [Instr.wf, Bool.and_eq_true, decide_eq_true_eq] <;> exact ⟨hfits (by decide), by omega⟩

/-- A page program stays in its page: its data is a chunk, or a single byte (R214, R216). -/
theorem wf_pp {s : State} (hp : s.par.wf = true) (hf : s.Flying .write) (hs : s.size ≤ 4294967296) {l : Label}
    (hl : l = .g4 ∨ l = .s1p ∨ l = .s5p) (hc : s.course l) :
    (Instr.pp s.cur s.xfer).wf s.par s.params.addrWidth = true := by
  have hpage := pageSize_pos hp
  have hroom : 1 ≤ s.par.pageSize - s.cur % s.par.pageSize := Nat.sub_pos_of_lt (Nat.mod_lt _ hpage)
  have hdata : s.writeCourse ∧ 0 < s.rem ∧ 1 ≤ s.xfer.length ∧ s.xfer.length ≤ s.par.pageSize - s.cur % s.par.pageSize := by
    rcases hl with rfl | rfl | rfl
    · obtain ⟨⟨⟨hw, -⟩, hr, hn⟩, hx⟩ := hc
      rw [hx, hn, pageChunkLen]
      exact ⟨hw, hr, le_min hr hroom, min_le_right _ _⟩
    · obtain ⟨⟨⟨hw, -⟩, -, hr⟩, hx⟩ := hc
      exact ⟨hw, hr, hx.ge, hx.le.trans hroom⟩
    · obtain ⟨⟨⟨hw, -⟩, -⟩, hr, hx⟩ := hc
      exact ⟨hw, by omega, hx.ge, hx.le.trans hroom⟩
  obtain ⟨hw, hr, hlo, hhi⟩ := hdata
  have hle := bytesLeft_le_size hf hw
  simp only [Instr.wf, Bool.and_eq_true, decide_eq_true_eq]
  exact ⟨⟨hf.addrFits rfl hs (by omega), hlo⟩, hhi⟩

theorem wf_pairInstr {s : State} (hf : s.Flying .write) (hs : s.size ≤ 4294967296) (hc : s.course .s3f) :
    s.pairInstr.wf s.par s.params.addrWidth = true := by
  obtain ⟨⟨⟨hw, -⟩, heven⟩, hr, -⟩ := hc
  have hle := bytesLeft_le_size hf hw
  unfold State.pairInstr
  split
  · simp only [Instr.wf, Bool.and_eq_true, decide_eq_true_eq]
    exact ⟨hf.addrFits rfl hs (by omega), heven⟩
  · rfl

/-! ## Every frame -/

/-- A position of an SPI command with an address belongs to one bulk command (R47). -/
theorem op_of_fits {l : Label} {op o : HostOp} (h : l.fits op = true) (hl : l.fits op = decide (op = o)) : op = o := by
  rw [hl] at h; exact of_decide_eq_true h

theorem fastRead_length {s : State} {l : Label} {a n : Nat} (hc : s.course l) (hi : s.issues (.fastRead a n) l) :
    1 ≤ n ∧ n ≤ Config.readChunk := by
  have hl : l = .r4a := Classical.byContradiction fun hl => issues_not_fastRead hi hl a n rfl
  subst hl
  cases hi
  obtain ⟨-, hr, hn⟩ := hc
  rw [hn, readChunkLen]
  exact ⟨le_min hr (by decide), min_le_right _ _⟩

theorem erase_sector {s : State} {op : HostOp} {l : Label} {i : Instr} {a : Nat} (hfit : l.fits op = true)
    (hf : s.Flying op) (hc : s.course l) (hi : s.issues i l) (ha : i ∈ [Instr.se4k a, .se4kPmc a, .be32k a, .be64k a]) :
    a % s.eraseUnit = 0 ∧ a + s.eraseUnit ≤ s.size := by
  have haddr : i.address = some a := by
    simp only [List.mem_cons, List.not_mem_nil, or_false] at ha
    rcases ha with rfl | rfl | rfl | rfl <;> rfl
  rcases issues_cases hi with h | ⟨-, rfl⟩ | ⟨rfl, he⟩ | ⟨-, rfl⟩ | ⟨-, rfl⟩
  · rw [h] at haddr; cases haddr
  · simp at ha
  · obtain rfl : op = .erase := op_of_fits hfit rfl
    have hcur : s.cur = a := by
      rcases eraseInstr_cases hf rfl he with ⟨rfl | rfl, -⟩ | ⟨rfl, -⟩ | ⟨rfl, -⟩ <;> exact Option.some.inj haddr
    subst hcur
    exact ⟨hc.1.2.1, sector_le_size hf hc.1 hc.2⟩
  · simp at ha
  · unfold State.pairInstr at ha; split at ha <;> simp at ha

theorem wf_of_issues {s : State} {op : HostOp} {l : Label} {i : Instr} (hp : s.par.wf = true) (hfit : l.fits op = true)
    (hf : s.Flying op) (hc : s.course l) (hi : s.issues i l) (hread : ∀ a n, i ≠ .fastRead a n)
    (hs : s.size ≤ 4294967296) : i.wf s.par s.params.addrWidth = true := by
  rcases issues_cases hi with h | ⟨-, h⟩ | ⟨rfl, he⟩ | ⟨hl, rfl⟩ | ⟨rfl, rfl⟩
  · exact wf_of_address_none h _ _
  · exact absurd h (hread _ _)
  · obtain rfl : op = .erase := op_of_fits hfit rfl
    exact wf_eraseInstr hf hs hc.1 hc.2 he
  · obtain rfl : op = .write := op_of_fits hfit (by rcases hl with rfl | rfl | rfl <;> rfl)
    exact wf_pp hp hf hs hl hc
  · obtain rfl : op = .write := op_of_fits hfit rfl
    exact wf_pairInstr hf hs hc

theorem PlanHeld.size {s t : State} (h : PlanHeld s t) : t.size = s.size := by
  simp only [State.size, h.desc]

/-- Settles O56: the frame is the one its position issues, with the working registers on their way there. -/
theorem issuedFramesAreWellFormed : Obligations.IssuedFramesAreWellFormed := by
  intro s i h hpar ha
  obtain ⟨op, -, l, -, -, hfit, hf, hc, hi⟩ := issued h ha
  have hheld : PlanHeld s (plan s).state := plan_held (by rw [ha]; exact nofun)
  rw [← hheld.size, ← hheld.params, ← hheld.par]
  rw [← hheld.par] at hpar
  exact ⟨fun a n e => fastRead_length hc (e ▸ hi), fun a => erase_sector hfit hf hc hi, wf_of_issues hpar hfit hf hc hi⟩

end Sys2Proof.Machine

/-! # The encodings (30_encoding.md) -/

namespace Sys2Proof

/-! ## Host command words (R91 to R93) -/

/-- A word without reserved bits is the value of its OP field (R91). -/
theorem toNat_eq_op {v : Word} (h : v.extractLsb' 4 28 = 0) : v.toNat = (v.extractLsb' 0 4).toNat := by
  have hr := congrArg BitVec.toNat h
  have hz : (0 : BitVec 28).toNat = 0 := rfl
  rw [hz] at hr
  simp only [BitVec.extractLsb'_toNat, Nat.shiftRight_eq_div_pow] at hr ⊢
  omega

theorem decodeHostWord_reserved {v : Word} (h : v.extractLsb' 4 28 ≠ 0) : decodeHostWord v = .error .reservedBits :=
  if_pos h

/-- A host word that is a command has the code of the command and nothing else set (R92, R93). -/
theorem word_of_decodeHostWord {v : Word} {i : Instr} (h : decodeHostWord v = .ok i) :
    (v = 0x00000001 ∧ i = .probe) ∨ (v = 0x00000002 ∧ i = .read) ∨ (v = 0x00000003 ∧ i = .erase) ∨
      (v = 0x00000004 ∧ i = .write) := by
  by_cases hr : v.extractLsb' 4 28 = 0
  · have hv := toNat_eq_op hr
    have word {n : Nat} (hn : (v.extractLsb' 0 4).toNat = n) : v = BitVec.ofNat 32 n := by rw [← hn, ← hv]; simp
    simp only [decodeHostWord, hr, ne_eq, not_true_eq_false, if_false] at h
    split at h
    · next hn => cases h; exact .inl ⟨word hn, rfl⟩
    · next hn => cases h; exact .inr (.inl ⟨word hn, rfl⟩)
    · next hn => cases h; exact .inr (.inr (.inl ⟨word hn, rfl⟩))
    · next hn => cases h; exact .inr (.inr (.inr ⟨word hn, rfl⟩))
    · cases h
  · rw [decodeHostWord_reserved hr] at h; cases h

/-- Settles O2: reserved bits are tested first, and without them the word is its OP field. -/
theorem hostWordsDecodeExactly : Obligations.HostWordsDecodeExactly := by
  refine ⟨fun _ => decodeHostWord_reserved, fun v i => ⟨word_of_decodeHostWord, ?_⟩⟩
  rintro (⟨rfl, rfl⟩ | ⟨rfl, rfl⟩ | ⟨rfl, rfl⟩ | ⟨rfl, rfl⟩) <;> rfl

/-! ## Address fields (R97) -/

/-- Eight bits of a truncated address are a byte of the quotient. -/
theorem extractLsb'_ofNat_eq_div (a k : Nat) (hk : k + 8 ≤ 32) :
    (BitVec.ofNat 32 a).extractLsb' k 8 = BitVec.ofNat 8 (a / 2 ^ k) := by
  apply BitVec.eq_of_getLsbD_eq
  intro i hi
  simp only [BitVec.getLsbD_extractLsb', BitVec.getLsbD_ofNat, Nat.testBit_div_two_pow, hi, show k + i < 32 by omega,
    decide_true, Bool.true_and, Nat.add_comm]

theorem getElem?_encodeAddr (a : Nat) {w : AddrWidth} {i : Nat} (hi : i < w.bytes) :
    (encodeAddr a w)[i]? = some ((BitVec.ofNat 32 a).extractLsb' (8 * (w.bytes - 1 - i)) 8) := by
  have hw : w.bytes ≤ 4 := by cases w <;> decide
  rw [extractLsb'_ofNat_eq_div a _ (by omega)]
  cases w with
  | unset => cases hi
  | three =>
    have hi : i < 3 := hi
    interval_cases i <;> simp [encodeAddr, AddrWidth.bytes]
  | four =>
    have hi : i < 4 := hi
    interval_cases i <;> simp [encodeAddr, AddrWidth.bytes]

/-- An address field keeps the low bits of any address (R97). -/
theorem decodeAddr_encodeAddr_mod (a : Nat) (w : AddrWidth) : decodeAddr (encodeAddr a w) = a % 2 ^ (8 * w.bytes) := by
  cases w <;> simp [encodeAddr, decodeAddr, AddrWidth.bytes] <;> omega

/-- Settles O3: length, bytes and value of the field. -/
theorem addressFieldsAreBigEndian : Obligations.AddressFieldsAreBigEndian :=
  fun a w => ⟨encodeAddr_length a w, fun _ => getElem?_encodeAddr a, decodeAddr_encodeAddr_mod a w⟩

/-- Settles O4: each word is decoded by evaluation. -/
theorem knownWordsDecode : Obligations.KnownWordsDecode := by
  unfold Obligations.KnownWordsDecode
  decide

/-! ## The decoder of frames, case by case (R101 to R104) -/

theorem checkOperands_ok {p : Params} {w : AddrWidth} {i : Instr} (hi : i.wf p w = true) :
    checkOperands p w (.ok i) = .ok i := by simp [checkOperands, hi]

theorem of_checkOperands {p : Params} {w : AddrWidth} {r : Except DecodeError Instr} {i : Instr}
    (h : checkOperands p w r = .ok i) : r = .ok i := by
  unfold checkOperands at h
  split at h
  · split at h
    · exact h
    · cases h
  · cases h

theorem decodeF1_eq_ok {rest : List Byte} {i j : Instr} : decodeF1 rest i = .ok j ↔ rest = [] ∧ i = j := by
  cases rest <;> simp [decodeF1]

theorem decodeF3_eq_ok {w : AddrWidth} {rest : List Byte} {mk : Nat → Instr} {i : Instr} :
    decodeF3 w rest mk = .ok i ↔ rest.length = w.bytes ∧ mk (decodeAddr rest) = i := by
  unfold decodeF3; split <;> simp [*]

/-- An address field that holds its address is read back by the decoder of F3. -/
theorem decodeF3_encodeAddr {a : Nat} {w : AddrWidth} (h : addrFits w a = true) (mk : Nat → Instr) :
    decodeF3 w (encodeAddr a w) mk = .ok (mk a) :=
  decodeF3_eq_ok.2 ⟨encodeAddr_length a w, by rw [decodeAddr_encodeAddr h]⟩

theorem decodeFrame_w {p : Params} {w : AddrWidth} {f : Frame} (h : f.kind = .w) :
    decodeFrame p w false f = checkOperands p w (decodeWrite p w f.tx) := by simp [decodeFrame, h]

theorem decodeFrame_w2 {p : Params} {w : AddrWidth} {f : Frame} (h : f.kind = .w2) (aai : Bool) :
    decodeFrame p w aai f = checkOperands p w (decodeWriteTwo p w f.tx f.tx2) := by simp [decodeFrame, h]

theorem decodeFrame_wr {p : Params} {w : AddrWidth} {f : Frame} (h : f.kind = .wr) (aai : Bool) :
    decodeFrame p w aai f = checkOperands p w (decodeReadBack p w f.tx f.n) := by simp [decodeFrame, h]

/-- Inside an AAI sequence a continuation is read before any opcode (R104). -/
theorem decodeFrame_of_continuation {p : Params} {f : Frame} {i : Instr} (hk : f.kind = .w)
    (hc : decodeContinuation p f.tx = some i) (w : AddrWidth) : decodeFrame p w true f = checkOperands p w (.ok i) := by
  simp [decodeFrame, hk, hc]

/-- Inside an AAI sequence a frame that is no continuation is read as outside one (R104). -/
theorem decodeFrame_of_not_continuation {p : Params} {w : AddrWidth} {f : Frame}
    (h : f.kind = .w → decodeContinuation p f.tx = none) (aai : Bool) :
    decodeFrame p w aai f = decodeFrame p w false f := by
  cases hk : f.kind with
  | w => simp [decodeFrame, hk, h hk]
  | w2 => rw [decodeFrame_w2 hk, decodeFrame_w2 hk]
  | wr => rw [decodeFrame_wr hk, decodeFrame_wr hk]

/-! ## Which formats each transport operation is decoded to (R102) -/

/-- Whatever is decoded has one of the formats `fs`. -/
def ReadsOnly (fs : List Format) (r : Except DecodeError Instr) : Prop := ∀ i, r = .ok i → i.format ∈ fs

section
variable {fs gs : List Format}

theorem ReadsOnly.mono {r : Except DecodeError Instr} (h : ReadsOnly fs r) (hs : fs ⊆ gs) : ReadsOnly gs r :=
  fun i e => hs (h i e)

theorem ReadsOnly.checkOperands {r : Except DecodeError Instr} (h : ReadsOnly fs r) (p : Params) (w : AddrWidth) :
    ReadsOnly fs (checkOperands p w r) :=
  fun i e => h i (of_checkOperands e)

theorem readsOnly_error (e : DecodeError) : ReadsOnly fs (.error e) := nofun

theorem readsOnly_ok {i : Instr} (h : i.format ∈ fs) : ReadsOnly fs (.ok i) := fun _ e => by cases e; exact h

theorem readsOnly_ite {c : Prop} [Decidable c] {a b : Except DecodeError Instr} (ha : ReadsOnly fs a)
    (hb : ReadsOnly fs b) : ReadsOnly fs (if c then a else b) := by
  split
  · exact ha
  · exact hb

theorem readsOnly_decodeF1 (rest : List Byte) {i : Instr} (h : i.format ∈ fs) : ReadsOnly fs (decodeF1 rest i) :=
  fun _ e => (decodeF1_eq_ok.1 e).2 ▸ h

theorem readsOnly_decodeF3 (w : AddrWidth) (rest : List Byte) {mk : Nat → Instr} (h : ∀ a, (mk a).format ∈ fs) :
    ReadsOnly fs (decodeF3 w rest mk) :=
  fun _ e => (decodeF3_eq_ok.1 e).2 ▸ h _

end

theorem decodeWrite_readsOnly (p : Params) (w : AddrWidth) (tx : List Byte) :
    ReadsOnly [.f1, .f2, .f3, .f5] (decodeWrite p w tx) := by
  unfold decodeWrite
  split
  · exact readsOnly_error _
  · iterate 5 refine readsOnly_ite (readsOnly_decodeF1 _ (by simp [Instr.format])) ?_
    refine readsOnly_ite (c := _ = p.opWrsr) ?wrsr (readsOnly_ite (c := _ = p.opWrear) ?wrear
      (readsOnly_ite (c := _ = p.opBrwr) ?brwr ?_))
    case wrsr =>
      split
      · exact readsOnly_ok (by simp [Instr.format])
      · exact readsOnly_error _
    case wrear =>
      split
      · exact readsOnly_ite (readsOnly_ok (by simp [Instr.format])) (readsOnly_error _)
      · exact readsOnly_error _
    case brwr =>
      split
      · exact readsOnly_ite (readsOnly_ok (by simp [Instr.format]))
          (readsOnly_ite (readsOnly_ok (by simp [Instr.format])) (readsOnly_error _))
      · exact readsOnly_error _
    iterate 4 refine readsOnly_ite (readsOnly_decodeF3 _ _ (by simp [Instr.format])) ?_
    refine readsOnly_ite ?_ (readsOnly_error _)
    split
    · exact readsOnly_ok (by simp [Instr.format])
    · exact readsOnly_error _

theorem decodeWriteTwo_readsOnly (p : Params) (w : AddrWidth) (tx data : List Byte) :
    ReadsOnly [.f4] (decodeWriteTwo p w tx data) := by
  unfold decodeWriteTwo
  split
  · exact readsOnly_error _
  · exact readsOnly_ite (readsOnly_decodeF3 _ _ (by simp [Instr.format])) (readsOnly_error _)

theorem decodeReadBack_readsOnly (p : Params) (w : AddrWidth) (tx : List Byte) (n : Nat) :
    ReadsOnly [.f7, .f8] (decodeReadBack p w tx n) := by
  unfold decodeReadBack
  split
  · exact readsOnly_error _
  · iterate 2 refine readsOnly_ite (readsOnly_ite (readsOnly_ok (by simp [Instr.format])) (readsOnly_error _)) ?_
    refine readsOnly_ite ?_ (readsOnly_error _)
    split
    · exact readsOnly_ite (readsOnly_ok (by simp [Instr.format])) (readsOnly_error _)
    · exact readsOnly_error _

/-- A continuation is what `decodeContinuation` reads, and nothing else. -/
theorem format_of_decodeContinuation {p : Params} {tx : List Byte} {i : Instr} (h : decodeContinuation p tx = some i) :
    i.format = .f6 := by
  unfold decodeContinuation at h
  split at h
  · split at h
    · cases h; rfl
    · cases h
  · cases h

/-- Outside an AAI sequence a frame is read by its first byte: it is neither a host command nor a continuation (R104). -/
theorem decodeFrame_outside_readsOnly (p : Params) (w : AddrWidth) (f : Frame) :
    ReadsOnly [.f1, .f2, .f3, .f4, .f5, .f7, .f8] (decodeFrame p w false f) := by
  cases hk : f.kind with
  | w => rw [decodeFrame_w hk]; exact ((decodeWrite_readsOnly p w f.tx).mono (by decide)).checkOperands p w
  | w2 => rw [decodeFrame_w2 hk]; exact ((decodeWriteTwo_readsOnly p w f.tx f.tx2).mono (by decide)).checkOperands p w
  | wr => rw [decodeFrame_wr hk]; exact ((decodeReadBack_readsOnly p w f.tx f.n).mono (by decide)).checkOperands p w

/-- Wherever it stands, a frame is an SPI command: none is decoded to a host command (R101). -/
theorem decodeFrame_readsOnly (p : Params) (w : AddrWidth) (aai : Bool) (f : Frame) :
    ReadsOnly [.f1, .f2, .f3, .f4, .f5, .f6, .f7, .f8] (decodeFrame p w aai f) := by
  by_cases hc : f.kind = .w → decodeContinuation p f.tx = none
  · rw [decodeFrame_of_not_continuation hc]
    exact (decodeFrame_outside_readsOnly p w f).mono (by decide)
  · obtain ⟨hk, hn⟩ := Classical.not_imp.1 hc
    obtain ⟨j, hj⟩ := Option.ne_none_iff_exists'.1 hn
    cases aai with
    | false => exact (decodeFrame_outside_readsOnly p w f).mono (by decide)
    | true =>
      rw [decodeFrame_of_continuation hk hj]
      exact (readsOnly_ok (by simp [format_of_decodeContinuation hj])).checkOperands p w

/-! ## Decoding what is encoded (R101 to R104) -/

theorem allDistinct_iff_nodup (l : List Byte) : allDistinct l = true ↔ l.Nodup := by
  induction l with
  | nil => simp [allDistinct]
  | cons x xs ih => rw [allDistinct_cons, ih, List.nodup_cons]

/-- Distinct opcodes differ in either order. -/
theorem opcodes_nodup {p : Params} (h : p.opcodesDistinct = true) : p.opcodes.Nodup ∧ p.opcodes.reverse.Nodup := by
  rw [List.nodup_reverse, and_self]
  exact (allDistinct_iff_nodup _).1 h

/-- The address of a well-formed command fits its field (R97). -/
theorem addrFits_of_wf {p : Params} {w : AddrWidth} {i : Instr} {a : Nat} (hi : i.wf p w = true) (ha : i.address = some a) :
    addrFits w a = true := by
  cases i <;> cases ha <;> simp only [Instr.wf, Bool.and_eq_true] at hi
  case pp | fastRead => obtain ⟨⟨h, -⟩, -⟩ := hi; exact h
  case aaiWp | se4k | se4kPmc | be32k | be64k => obtain ⟨h, -⟩ := hi; exact h

theorem bankByte_true_ne_false : bankByte true ≠ bankByte false := by decide

section
variable {p : Params} {w : AddrWidth} {i : Instr} {f : Frame} (hp : p.opcodesDistinct = true) (hi : i.wf p w = true)
  (he : encode p w i = .frame f)
include hi he

theorem decodeWriteTwo_encode (hk : f.kind = .w2) : decodeWriteTwo p w f.tx f.tx2 = .ok i := by
  cases i <;> simp only [encode, Encoded.frame.injEq, reduceCtorEq] at he <;> subst he
  case pp a d =>
    have ha := addrFits_of_wf hi rfl
    simp [frameF4, header, decodeWriteTwo, decodeF3_encodeAddr ha]
  all_goals cases hk

include hp

/-- The decoder of `Write` frames reads what a command of that operation is encoded as: its opcode is none of those tested
before it. -/
theorem decodeWrite_encode (hk : f.kind = .w) (hc : i.isContinuation = false) : decodeWrite p w f.tx = .ok i := by
  have hd := opcodes_nodup hp
  simp only [Params.opcodes, List.reverse_cons, List.reverse_nil, List.nil_append, List.cons_append, List.nodup_cons,
    List.mem_cons, not_or] at hd
  cases i <;> simp only [encode, Encoded.frame.injEq, reduceCtorEq] at he <;> subst he
  case wren | wrdi | en4b | ex4b | exhbl => simp [frameF1, decodeWrite, decodeF1, hd]
  case wrsr | wrear => simp [frameF2, decodeWrite, hd]
  case brwr en => cases en <;> simp [frameF2, decodeWrite, hd, bankByte_true_ne_false.symm]
  case se4k a | se4kPmc a | be32k a | be64k a =>
    have ha := addrFits_of_wf hi rfl
    simp [frameF3, header, decodeWrite, decodeF3_encodeAddr ha, hd]
  case aaiWp a d0 d1 =>
    have ha := addrFits_of_wf hi rfl
    simp [frameF5, header, decodeWrite, decodeAddr_encodeAddr ha, hd]
  case aaiCont => cases hc
  case pp | fastRead | rdsr | rdid => cases hk

theorem decodeReadBack_encode (hk : f.kind = .wr) : decodeReadBack p w f.tx f.n = .ok i := by
  have hd := opcodes_nodup hp
  simp only [Params.opcodes, List.reverse_cons, List.reverse_nil, List.nil_append, List.cons_append, List.nodup_cons,
    List.mem_cons, not_or] at hd
  cases i <;> simp only [encode, Encoded.frame.injEq, reduceCtorEq] at he <;> subst he
  case rdsr | rdid => simp [frameF8, decodeReadBack, hd]
  case fastRead a n =>
    have ha := addrFits_of_wf hi rfl
    simp [frameF7, header, decodeReadBack, decodeAddr_encodeAddr ha, hd]
  all_goals cases hk

/-- Outside an AAI sequence the frame of every command but AAI_CONT is decoded to it. -/
theorem decodeFrame_encode (hc : i.isContinuation = false) : decodeFrame p w false f = .ok i := by
  have hok := checkOperands_ok hi
  cases hk : f.kind with
  | w => rw [decodeFrame_w hk, decodeWrite_encode hp hi he hk hc, hok]
  | w2 => rw [decodeFrame_w2 hk, decodeWriteTwo_encode hi he hk, hok]
  | wr => rw [decodeFrame_wr hk, decodeReadBack_encode hp hi he hk, hok]

end

/-- Inside an AAI sequence a pair is read as a continuation, whatever its bytes are (R104). -/
theorem decodeFrame_continuation (p : Params) (w : AddrWidth) (d0 d1 : Byte) :
    decodeFrame p w true (frameF6 p.aaiContPrefix d0 d1) = .ok (.aaiCont d0 d1) := by
  rw [decodeFrame_of_continuation rfl (decodeContinuation_frameF6 p d0 d1), checkOperands_ok rfl]

/-- Settles O1: a host command's word by evaluation, AAI_CONT by its shape, and every other frame by its opcode. -/
theorem decodeOfEncodeIsTheInstruction : Obligations.DecodeOfEncodeIsTheInstruction := by
  intro p w i hp hi
  cases he : encode p w i with
  | word v =>
    cases i <;> cases he <;> rfl
  | frame f =>
    cases hc : i.isContinuation with
    | false => exact decodeFrame_encode hp hi he hc
    | true =>
      cases i <;> cases hc
      cases he
      exact decodeFrame_continuation p w _ _

end Sys2Proof

/-! # AAI sequences in a trace (30_encoding.md R104) -/

namespace Sys2Proof

@[simp] theorem AaiContext.read_read (c : AaiContext) : c.read.read = c.read := by cases c <;> rfl

/-- Every command but a pair and RDSR leaves the AAI sequence (R104). -/
theorem AaiContext.after_eq_outside {i : Instr} (hr : i ≠ .rdsr) (hw : ∀ a d0 d1, i ≠ .aaiWp a d0 d1)
    (hc : ∀ d0 d1, i ≠ .aaiCont d0 d1) (c : AaiContext) : c.after i = .outside := by
  cases i
  case rdsr => exact absurd rfl hr
  case aaiWp a d0 d1 => exact absurd rfl (hw a d0 d1)
  case aaiCont d0 d1 => exact absurd rfl (hc d0 d1)
  all_goals rfl

theorem AaiContext.continues_eq_false {c : AaiContext} (h : c ≠ .polled) : c.continues = false := decide_eq_false h

/-- A failed frame ends the sequence, whatever it is decoded to (R278, R279). -/
@[simp] theorem AaiContext.step_false (c : AaiContext) (r : Except DecodeError Instr) : c.step false r = .outside := by
  cases r <;> rfl

/-- The event of a frame that succeeded, with the bytes read back. -/
abbrev wholeFrame (cs : ChipSelect) (rx : List Byte) (f : Frame) : Event := .frame cs f true f.wire.length rx

section
variable {p : Params} {w : AddrWidth}

/-- A frame that succeeded and is decoded to a command moves the context as that command does. -/
theorem decodeTrace_frame_ok {c : AaiContext} {f : Frame} {i : Instr} (h : decodeFrame p w c.continues f = .ok i)
    (cs : ChipSelect) (k : Nat) (rx : List Byte) (es : List Event) :
    decodeTrace p w c (.frame cs f true k rx :: es) = .ok i :: decodeTrace p w (c.after i) es := by
  simp [decodeTrace, h, AaiContext.step]

theorem decodeTrace_mem (c : AaiContext) (d : MemDir) (x : Word) (v : Byte) (es : List Event) :
    decodeTrace p w c (.mem d x v :: es) = decodeTrace p w c es := rfl

variable (hp : p.opcodesDistinct = true)
include hp

/-- A poll is read as RDSR in every context. -/
theorem decodeFrame_poll (aai : Bool) : decodeFrame p w aai (frameF8 p.opRdsr 1) = .ok .rdsr := by
  rw [decodeFrame_of_not_continuation fun hk => by cases hk]
  exact decodeFrame_encode hp rfl rfl rfl

/-- WRDI is read as WRDI in every context: it is too short for a continuation (R104). -/
theorem decodeFrame_wrdi (aai : Bool) : decodeFrame p w aai (frameF1 p.opWrdi) = .ok .wrdi := by
  rw [decodeFrame_of_not_continuation fun _ => decodeContinuation_one p _]
  exact decodeFrame_encode hp rfl rfl rfl

variable (cs : ChipSelect) (rx : List Byte) (es : List Event)

/-- A `Poll`: one RDSR frame or more (R151). -/
theorem decodeTrace_polls (c : AaiContext) (m : Nat) :
    decodeTrace p w c (List.replicate (m + 1) (wholeFrame cs rx (frameF8 p.opRdsr 1)) ++ es)
      = List.replicate (m + 1) (.ok .rdsr) ++ decodeTrace p w c.read es := by
  induction m generalizing c with
  | zero => exact decodeTrace_frame_ok (decodeFrame_poll hp _) cs _ rx es
  | succ m ih =>
    rw [List.replicate_succ, List.cons_append, decodeTrace_frame_ok (decodeFrame_poll hp _), AaiContext.after, ih,
      AaiContext.read_read]
    rfl

/-- A closing WRDI with its `Poll`. -/
theorem decodeTrace_wrdi (c : AaiContext) :
    decodeTrace p w c (wholeFrame cs rx (frameF1 p.opWrdi) :: es) = .ok .wrdi :: decodeTrace p w .outside es :=
  decodeTrace_frame_ok (decodeFrame_wrdi hp _) cs _ rx es

/-- The continuations of a sequence, each with its DMA reads and its `Poll` (R217, R221). -/
theorem decodeTrace_continuations (x : Word) (m : Nat) (pairs : List (Byte × Byte)) :
    decodeTrace p w .polled
      ((pairs.flatMap fun q => .mem .read x q.1 :: .mem .read x q.2 ::
          wholeFrame cs rx (frameF6 p.aaiContPrefix q.1 q.2) ::
          List.replicate (m + 1) (wholeFrame cs rx (frameF8 p.opRdsr 1))) ++ es)
      = (pairs.flatMap fun q => .ok (.aaiCont q.1 q.2) :: List.replicate (m + 1) (.ok .rdsr)) ++
        decodeTrace p w .polled es := by
  induction pairs with
  | nil => rfl
  | cons q qs ih =>
    have hq : decodeFrame p w AaiContext.polled.continues (frameF6 p.aaiContPrefix q.1 q.2) = .ok (.aaiCont q.1 q.2) :=
      decodeFrame_continuation p w q.1 q.2
    simp only [List.flatMap_cons, List.cons_append, List.append_assoc, decodeTrace_mem]
    rw [decodeTrace_frame_ok hq, AaiContext.after, decodeTrace_polls hp, AaiContext.read, ih]

/-- The first pair of a sequence. -/
theorem decodeTrace_aaiWp {a : Nat} {d0 d1 : Byte} (hi : (Instr.aaiWp a d0 d1).wf p w = true) :
    decodeTrace p w .outside (wholeFrame cs rx (frameF5 p.opAai a w d0 d1) :: es)
      = .ok (.aaiWp a d0 d1) :: decodeTrace p w .paired es :=
  decodeTrace_frame_ok (c := .outside) (decodeFrame_encode hp hi rfl rfl) cs _ rx es

end

/-- Settles O6: the sequence part by part, each moving the context on; then the frames that end a context. -/
theorem traceDecoderReadsAaiSequences : Obligations.TraceDecoderReadsAaiSequences := by
  constructor
  · intro p w a b0 b1 pairs cs m rx x hp hi
    simp only [List.cons_append, List.append_assoc]
    rw [decodeTrace_aaiWp hp cs rx _ hi, decodeTrace_polls hp, AaiContext.read, decodeTrace_continuations hp,
      decodeTrace_wrdi hp, decodeTrace_polls hp, AaiContext.read, decodeTrace_wrdi hp]
    rfl
  · intro p w c cs f k rx es
    refine ⟨by simp [decodeTrace], rfl, fun i h hr hw hc => ?_, fun hc d0 d1 h => ?_⟩
    · rw [decodeTrace_frame_ok h, AaiContext.after_eq_outside hr hw hc]
    · rw [AaiContext.continues_eq_false hc] at h
      have hf := decodeFrame_outside_readsOnly p w f _ h
      simp [Instr.format] at hf

end Sys2Proof

/-! # Placed words (30_encoding.md R93, R101, 40_host_commands.md R131) -/

namespace Sys2Proof.Machine

/-! ## A host word -/

@[simp] theorem windowOffset_address_cmd (p : Params) : windowOffset p (Reg.cmd.address p) = 0 := by
  simp [windowOffset, Reg.address, Reg.offset]

theorem instrOf_eq_some {r : Except DecodeError Instr} {i : Instr} : instrOf r = some i ↔ r = .ok i := by
  cases r <;> simp [instrOf]

/-- A 32-bit row is read as the host word of its value (R65). -/
theorem decodeHostWord_of_decodeTableWord {n : Nat} {i : Instr} (h : decodeTableWord 32 n = some i) :
    decodeHostWord (BitVec.ofNat 32 n) = .ok i := by
  simp only [decodeTableWord, wordOfLanes_wordLanes] at h
  split_ifs at h
  · exact instrOf_eq_some.1 h
  · omega

/-- A host word placed as the next instruction runs as its command, from a block made idle (R131). -/
theorem step_withHostWord {s : State} {v : Word} {i : Instr} (hpar : s.par.wf = true) (hv : decodeHostWord v = .ok i) :
    step (s.withHostWord v) = exec i { s with busy := false, phase := .idle } :=
  (stepRunsTheDecodedCommand (s.withHostWord v) hpar).1 _ _ s.script v i rfl (windowOffset_address_cmd s.par)
    (wordOfLanes_wordLanes v) hv rfl

/-! ## A frame word -/

/-- An 8-bit row is read as an SPI command (R101). -/
theorem format_of_decodeTableWord {n : Nat} {i : Instr} (h : decodeTableWord 8 n = some i) : i.format ≠ .hostCmd := by
  simp only [decodeTableWord] at h
  split_ifs at h
  · omega
  · have hf := decodeFrame_readsOnly _ _ _ _ i (instrOf_eq_some.1 h)
    intro e
    simp [e] at hf

theorem enterFrom_action {op : HostOp} {k : Nat} {s : State} {i : Instr} (h : (s.bracket true)[k]? = some i) :
    (enterFrom op k s).action = .frame i := by simp [enterFrom, h]

theorem exitFrom_action {op : HostOp} {k : Nat} {s : State} {i : Instr} (h : (s.bracket false)[k]? = some i) :
    (exitFrom op k s).action = .frame i := by simp [exitFrom, h]

/-- Entering the bracket of a chip above 16 MiB, the sequencer sends what the manufacturer's class asks for (R171, R172). -/
theorem plan_enter_withChip {s : State} {m : Byte} {k : Nat} {i : Instr}
    (h : (modeFrames s.par .four (m ++ (0 : BitVec 16)) true)[k]? = some i) (op : HostOp) (r : List Turn) :
    (plan (((s.withChip m).atPosition op (.enter k)).withScript r)).action = .frame i :=
  enterFrom_action h

/-- Leaving that bracket: the switch back, then the frames that clear the extended address (R171, R172). -/
theorem plan_exit_withChip {s : State} {m : Byte} {k : Nat} {i : Instr}
    (h : (modeFrames s.par .four (m ++ (0 : BitVec 16)) false)[k]? = some i) (op : HostOp) (r : List Turn) :
    (plan (((s.withChip m).atPosition op (.exit k)).withScript r)).action = .frame i :=
  exitFrom_action h

theorem eraseFrame_action {op : HostOp} {s : State} {i : Instr} (h : s.eraseInstr s.cur = some i) :
    (eraseFrame op s).action = .frame i := by simp [eraseFrame, h]

/-- With no bit to clear, the unlock writes the status register back as it was read. -/
theorem unlockValue_zero (v : Byte) : unlockValue v 0 = v := by
  rw [unlockValue, BitVec.ofNat_eq_ofNat, BitVec.not_zero, BitVec.and_allOnes]

/-- What the placing of a frame word keeps, and the turn it gives the sequencer (log entry 3). -/
structure Poised (s t : State) : Prop where
  par : t.par = s.par
  mem : t.mem = s.mem
  history : t.history = s.history
  answers : t.answers = s.answers
  script : t.script = .seq :: s.script

/-- The address width is a probe result; the rest of the state stays. -/
theorem exists_withWidth_eq (s : State) : ∃ r, s.withWidth = { s with params := r } := by
  unfold State.withWidth
  split <;> exact ⟨_, rfl⟩

theorem poised_keeps {i : Instr} (hi : i.format ≠ .hostCmd) (s : State) : Poised s (s.poised i) := by
  obtain ⟨r, hr⟩ := exists_withWidth_eq s
  cases i
  case probe | read | erase | write => exact absurd rfl hi
  all_goals
    simp only [State.poised, State.atErase, hr]
    constructor <;> rfl

/-- The position that a frame word is placed at issues the frame of its command (R13, R47). -/
theorem plan_poised {i : Instr} (hi : i.format ≠ .hostCmd) {s : State} (hpar : s.par = Params.standard) :
    (plan ((s.poised i).withScript s.script)).action = .frame i := by
  obtain ⟨r, hr⟩ := exists_withWidth_eq s
  cases i
  case probe | read | erase | write => exact absurd rfl hi
  case wren | wrdi | rdsr | rdid | pp | fastRead | aaiWp | aaiCont => rfl
  case wrsr v => exact congrArg (fun b => Action.frame (.wrsr b)) (unlockValue_zero v)
  case en4b => exact plan_enter_withChip (by rw [hpar]; rfl) _ _
  case ex4b | exhbl | wrear => exact plan_exit_withChip (by rw [hpar]; rfl) _ _
  case brwr en =>
    cases en with
    | false => exact plan_exit_withChip (by rw [hpar]; rfl) _ _
    | true => exact plan_enter_withChip (by rw [hpar]; rfl) _ _
  case se4k | se4kPmc | be32k | be64k =>
    refine eraseFrame_action ?_
    simp only [State.poised, State.atErase, hr]
    simp [State.atPosition, State.eraseInstr, hpar, Params.standard]

/-- Settles O8: a host word is the host's next write to CMD, a frame word the frame of the position it is placed at. -/
theorem placedWordsRun : Obligations.PlacedWordsRun := by
  refine ⟨fun s n i hpar h => step_withHostWord hpar (decodeHostWord_of_decodeTableWord h), fun s n i hpar h => ?_⟩
  have hi := format_of_decodeTableWord h
  have hk := poised_keeps hi s
  have hsame := planSame ((s.poised i).withScript s.script)
  refine ⟨(plan ((s.poised i).withScript s.script)).state, ?_, hsame.mem.trans hk.mem, hsame.history.trans hk.history,
    hsame.answers.trans hk.answers, hsame.script⟩
  have hwf : (s.poised i).par.wf = true := by rw [hk.par, hpar]; decide
  calc step (s.withFetchWord 8 n) = step (s.poised i) := by simp [State.withFetchWord, State.placeWord, h]
    _ = seqStep ((s.poised i).withScript s.script) := step_of_script_seq hwf hk.script
    _ = exec i (plan ((s.poised i).withScript s.script)).state := seqStep_frame (plan_poised hi hpar)

end Sys2Proof.Machine

/-! # Acceptance and completion (40_host_commands.md) -/

namespace Sys2Proof.Machine

/-! ## Acceptance (R131, R133) -/

/-- Acceptance does not see the host's turns. -/
theorem Accepted.withScript {o : HostOp} {c : BitVec 4} {s t : State} (h : Accepted o c s t) (rest : List Turn) :
    Accepted o c s (t.withScript rest) :=
  { h with
    session := ⟨h.session.probeState, h.session.desc, h.session.params⟩
    id := ⟨h.id.rawId, h.id.rawExt⟩
    working := ⟨h.working.cur, h.working.rem, h.working.hoff, h.working.mask, h.working.n, h.working.pdesc, h.working.pparams⟩
    scratch := ⟨h.scratch.sr, h.scratch.first, h.scratch.xfer⟩ }

theorem opOfWord_error {v : Word} {e : DecodeError} (h : decodeHostWord v = .error e) : opOfWord v = .illegal := by
  simp only [opOfWord, h]

/-- A command word, executed while BUSY = 0, is accepted as the operation it encodes, with its OP field as the code. -/
theorem exec_of_decodeHostWord {s : State} {v : Word} {i : Instr} (hv : decodeHostWord v = .ok i) (hb : s.busy = false) :
    exec i s = .next (s.accept (opOfWord v) (v.extractLsb' 0 4)) := by
  obtain ⟨rfl, rfl⟩ | ⟨rfl, rfl⟩ | ⟨rfl, rfl⟩ | ⟨rfl, rfl⟩ := word_of_decodeHostWord hv <;>
    exact congrArg _ (State.issue_idle _ _ hb)

/-- A write to CMD while BUSY = 0 accepts the value, whether it is a command or not. -/
theorem perform_writeCmd_idle {s : State} (v : Word) (hb : s.busy = false) :
    perform (writeCmd v s) = .next (s.accept (opOfWord v) (v.extractLsb' 0 4)) := by
  cases hv : decodeHostWord v with
  | ok i => rw [writeCmd_idle_ok hv hb]; exact exec_of_decodeHostWord hv hb
  | error e => simp [writeCmd, hb, hv, opOfWord_error hv, perform]

theorem writeCmd_busy {s : State} (v : Word) (hb : s.busy = true) : writeCmd v s = .done (.next s) := by
  simp [writeCmd, hb]

/-- A host's 32-bit write to offset 0 is a write to CMD, and uses up the turn (R23, R84). -/
theorem step_of_write_cmd {s : State} {a : Word} {data : List Byte} {rest : List Turn} {v : Word} (hpar : s.par.wf = true)
    (hs : s.script = .host (.write a data) :: rest) (ha : windowOffset s.par a = 0) (hd : wordOfLanes data = some v) :
    step s = perform (writeCmd v (s.withScript rest)) := by
  rw [step_of_script_host hpar hs, hostTurn_write_cmd (s := s.withScript rest) ha hd]

/-- Settles O9: a write to CMD by whether the block is busy. -/
theorem cmdWriteIsAcceptedOrIgnored : Obligations.CmdWriteIsAcceptedOrIgnored := by
  intro s a data rest v hpar hs ha hd
  rw [step_of_write_cmd hpar hs ha hd]
  refine ⟨fun hb => ⟨_, perform_writeCmd_idle (s := s.withScript rest) v hb, ?_, rfl⟩, fun hb => ?_⟩
  · exact (State.accepted_accept (opOfWord v) (v.extractLsb' 0 4) s).withScript rest
  · rw [writeCmd_busy (s := s.withScript rest) v hb]; rfl

/-- A host command executed while BUSY = 0, whatever is left of the turns. -/
theorem accepted_of_issue {i : Instr} {o : HostOp} {c : BitVec 4} {s : State} (hi : exec i s = .next (s.issue o c))
    (hb : s.busy = false) : ∃ t, exec i s = .next t ∧ Accepted o c s t ∧ t.script = s.script :=
  ⟨s.accept o c, hi.trans (congrArg _ (State.issue_idle o c hb)), State.accepted_accept o c s, rfl⟩

/-- Settles O10: each of the four commands issues its operation with its code. -/
theorem hostCommandsAreAccepted : Obligations.HostCommandsAreAccepted :=
  fun _ hb => ⟨accepted_of_issue rfl hb, accepted_of_issue rfl hb, accepted_of_issue rfl hb, accepted_of_issue rfl hb⟩

/-! ## Completion (R133 to R135) -/

/-- Neither the internal computation before a completion nor the completion writes what the completion keeps (R135). -/
theorem PlanSame.completedWith {s t : State} (h : PlanSame s t) (e : ErrCode) : CompletedWith e s (t.complete e) where
  err := rfl
  busy := rfl
  done := rfl
  phase := rfl
  addr := h.addr
  len := h.len
  buf := h.buf
  statusCur := h.statusCur
  op := h.op
  opAddr := h.opAddr
  opLen := h.opLen
  opBuf := h.opBuf
  id := ⟨h.rawId, h.rawExt⟩
  mem := h.mem
  flash := h.flash
  history := h.history
  answers := h.answers
  draws := h.draws
  world := ⟨h.registry, h.par, h.script, h.readData, h.raced⟩
  replaced := h.replaced

/-- Settles O12: the plan writes nothing that a completion keeps. -/
theorem completionRecordsTheCode : Obligations.CompletionRecordsTheCode :=
  fun s e ha => ⟨_, seqStep_complete ha, (planSame s).completedWith e⟩

/-- A command other than PROBE that ends without computation before its end keeps the probe results and PROGRESS. -/
theorem completes_of_plan {s : State} {op : HostOp} {l : Label} {e : ErrCode} (hp : s.phase = .run op l) (hop : op ≠ .probe)
    (hplan : plan s = { state := s, action := .complete e }) :
    ∃ t, seqStep s = .next t ∧ CompletedWith e s t ∧ SameSession s t ∧ t.progress = s.progress := by
  have hps : (s.complete e).probeState = s.probeState := by
    rw [State.complete_probeState, hp, ProbeState.afterCompletion_of_ne hop]
  refine ⟨s.complete e, ?_, State.completedWith_complete e s, ⟨hps, rfl, rfl⟩, rfl⟩
  rw [seqStep_complete (by rw [hplan]), hplan]

/-- The first position of every command (R132). -/
theorem plan_of_start {s : State} {op : HostOp} (hp : s.phase = .run op .start) : plan s = commandStart op s := by
  simp only [plan, hp, planAt]

/-- Settles O11: the word is accepted as ILLEGAL, whose first position completes it. -/
theorem illegalCommandsComplete : Obligations.IllegalCommandsComplete := by
  intro s a data rest v e hpar hs ha hd hv hb
  obtain ⟨t, ht, hacc, hscript⟩ := (cmdWriteIsAcceptedOrIgnored s a data rest v hpar hs ha hd).1 hb
  rw [opOfWord_error hv] at hacc
  obtain ⟨u, hu, hcomp, hsess, hprog⟩ := completes_of_plan hacc.phase (by decide) (plan_of_start hacc.phase)
  exact ⟨t, u, ht, hacc.op, hacc.statusCur, hscript, hu, hcomp, hacc.session.trans hsess, hprog.trans hacc.progress,
    hcomp.history.trans hacc.history, hcomp.mem.trans hacc.mem⟩

/-- The checks of every bulk command begin with the probe-first gate (R134). -/
theorem commandStart_of_not_probed {s : State} {op : HostOp} (hop : bulkOp op = true) (h : s.probeState ≠ .probed) :
    commandStart op s = { state := s, action := .complete .notProbed } := by
  cases op with
  | read => simp [commandStart, State.readCheck, h, afterCheck]
  | erase => simp [commandStart, State.eraseCheck, h, afterCheck]
  | write => simp [commandStart, State.writeCheck, h, afterCheck]
  | probe => cases hop
  | illegal => cases hop

/-- Settles O13: the gate ends the command at its first position. -/
theorem probeComesFirst : Obligations.ProbeComesFirst := by
  intro s op hop hp hps
  have hne : op ≠ .probe := by rintro rfl; cases hop
  exact completes_of_plan hp hne ((plan_of_start hp).trans (commandStart_of_not_probed hop hps))

end Sys2Proof.Machine

/-! # The write-enable latch (41_status_register.md R153, 70_reset_and_hazards.md R310) -/

namespace Sys2Proof.Machine

/-! ## What the latch rule reads -/

/-- Of the working registers, only `s.first` tells which positions stand between a WREN and its command. -/
theorem State.latchDue_congr {s t : State} (hf : t.first = s.first) (l : Label) : t.latchDue l = s.latchDue l := by
  cases l <;> simp only [State.latchDue, hf]

/-- A step that moves no position and sends no frame keeps the latch rule. -/
theorem State.Latched.congr {s t : State} (hl : s.Latched) (hp : t.phase = s.phase) (hf : t.first = s.first)
    (hh : lastFrame t.history = lastFrame s.history) (hpar : t.par = s.par) : t.Latched := by
  intro op l hrun hdue
  rw [hp] at hrun
  rw [State.latchDue_congr hf] at hdue
  rw [hh, hpar]
  exact hl op l hrun hdue

/-- An IDLE block stands at no position. -/
theorem State.Latched.of_idle {s : State} (hp : s.phase = .idle) : s.Latched := by
  intro op l hrun
  rw [hp] at hrun
  cases hrun

/-- A position that no WREN precedes asks for nothing. -/
theorem State.Latched.of_not_due {s : State} {op : HostOp} {l : Label} (hp : s.phase = .run op l)
    (hd : s.latchDue l = false) : s.Latched := by
  intro op' l' hrun hdue
  rw [hp] at hrun
  cases hrun
  rw [hd] at hdue
  cases hdue

/-! ## A step of the sequencer keeps the latch rule -/

theorem Planned.Free.latchDue {q : Planned} (h : q.Free) (ha : ∀ e, q.action ≠ .complete e) {op : HostOp} {l : Label}
    (hp : q.state.phase = .run op l) : q.state.latchDue l = false := by
  unfold Planned.Free at h
  split at h
  · next e he => exact absurd he (ha e)
  · exact h op l hp

/-- The internal computation before a frame or a DMA access stays after the WREN, or leaves those positions (R13). -/
theorem latched_plan {s : State} (h : s.Inv) (hl : s.Latched) (hc : ∀ e, (plan s).action ≠ .complete e)
    (hr : ∀ r, (plan s).action ≠ .refuse r) : (plan s).state.Latched := by
  cases hp : s.phase with
  | idle => simpa only [plan, hp] using hl
  | run op l =>
    intro op' l' hrun hdue
    rcases free_or_due h hp with hs | hfree | href
    · rw [(planSame s).history, (planSame s).par]
      exact hl op l hp hs
    · rw [hfree.latchDue hc hrun] at hdue
      cases hdue
    · exact absurd href (hr _)

/-- The frame of an SPI command is the one it is encoded as. -/
theorem frameStep_of_exec {i : Instr} {f : Frame} {s t : State} (he : encode s.par s.params.addrWidth i = .frame f)
    (hx : exec i s = .next t) : FrameStep i f s t := by
  obtain ⟨u, hu, hf⟩ := exec_frame he
  rw [hu] at hx
  cases hx
  exact hf

/-- The position after a frame stands after a WREN only if the frame was a WREN that succeeded (R153, R278). -/
theorem latched_frame {s t : State} {op : HostOp} {l : Label} {i : Instr} (hp : s.phase = .run op l)
    (hi : s.issues i l) (hx : exec i s = .next t) : t.Latched := by
  obtain ⟨f, he⟩ := encode_of_issues hi
  have hf := frameStep_of_exec he hx
  have hph := hf.phase
  rw [hp] at hph
  cases hok : s.frameOk with
  | false =>
    rw [hok] at hph
    exact .of_not_due (l := .raise .transport) hph rfl
  | true =>
    rw [hok] at hph
    cases hd : t.latchDue l.next with
    | false => exact .of_not_due hph hd
    | true =>
      obtain rfl : i = .wren := wren_of_next hi hd
      cases he
      intro _ _ _ _
      rw [hf.history, hf.world.par, hok]
      rfl

theorem latched_seqStep {s t : State} (h : s.Inv) (hl : s.Latched) (ht : seqStep s = .next t) : t.Latched := by
  cases seqStep_effect h ht with
  | idle => exact hl
  | sent _ hp _ _ _ hi hx _ => exact latched_frame hp hi hx
  | filled a ha =>
    have hplan := latched_plan h hl (by rw [ha]; exact nofun) (by rw [ha]; exact nofun)
    exact hplan.congr rfl rfl rfl rfl
  | drained a v _ hp => exact .of_not_due (l := .r4b) hp rfl
  | completed => exact .of_idle rfl

/-! ## A turn of the host keeps the latch rule -/

/-- No access of the host sends a frame, and only an acceptance moves the position, to the first one (R90, R131). -/
theorem latched_hostEffect {s t : State} (hl : s.Latched) (e : HostEffect s t) : t.Latched := by
  cases e with
  | ignored => exact hl
  | accepted o c _ => exact .of_not_due (l := .start) rfl rfl
  | written r v =>
    obtain ⟨a, l, b, hw⟩ := s.writeReg_eq_withLive r v
    exact hw ▸ hl.congr rfl rfl rfl rfl
  | loaded bs => exact hl.congr rfl rfl rfl rfl
  | stored a v => exact hl.congr rfl rfl rfl rfl
  | fetched a => exact hl.congr rfl rfl rfl rfl

/-- Settles O57: the step is the sequencer's, a turn of the host or a reset, and each keeps the latch rule. -/
theorem everyStepKeepsTheLatchRule : Obligations.EveryStepKeepsTheLatchRule := by
  intro s t h hl ht
  have hturn := step_turned (par_wf_of_step ht)
  generalize step s = r at ht hturn
  cases hturn with
  | seq => exact latched_seqStep h hl ht
  | seqTurn rest => exact latched_seqStep (h.withScript rest) (hl.congr rfl rfl rfl rfl) ht
  | host a rest _ u e => cases ht; exact latched_hostEffect (s := s.withScript rest) (hl.congr rfl rfl rfl rfl) e
  | waited => cases ht; exact hl.congr rfl rfl rfl rfl
  | reset => cases ht; exact .of_idle rfl

/-! ## WREN before, and a Poll after, every mutating command (R152, R153) -/

/-- Only the frame of a pair is an AAI continuation (R217, @S3). -/
theorem eq_s3f_of_issues_aaiCont {s : State} {l : Label} {d0 d1 : Byte} (hi : s.issues (.aaiCont d0 d1) l) : l = .s3f := by
  have hmode : ∀ en, Instr.aaiCont d0 d1 ∉ s.bracket en := by
    intro en hm
    rcases mem_modeFrames hm with h | h | h | h | h | h | ⟨_, h⟩ <;> cases h
  cases l <;> simp only [State.issues, reduceCtorEq] at hi
  case enter k => exact absurd (List.mem_of_getElem? hi) (hmode true)
  case exit k => exact absurd (List.mem_of_getElem? hi) (hmode false)
  case e3b => unfold State.eraseInstr at hi; split_ifs at hi <;> cases hi
  case s3f => rfl

/-- The position after a mutating command is a Poll (R152). -/
theorem next_eq_poll {s : State} {i : Instr} {l : Label} (hi : s.issues i l)
    (hm : needsLatch i = true ∨ ∃ d0 d1, i = .aaiCont d0 d1) : ∃ c, l.next = .poll c := by
  rcases hm with hn | ⟨d0, d1, rfl⟩
  · have hdue := latchDue_of_needs hi hn
    cases l <;> simp only [State.latchDue, State.issues, Bool.false_eq_true] at hdue hi
    all_goals exact ⟨_, rfl⟩
  · obtain rfl := eq_s3f_of_issues_aaiCont hi
    exact ⟨.s3, rfl⟩

theorem plan_of_poll {s : State} {op : HostOp} {c : PollSite} (hp : s.phase = .run op (.poll c)) :
    plan s = { state := s, action := .frame .rdsr } := by
  simp only [plan, hp, planAt]

/-- Settles O58: the position that issues the command stands after its WREN, and the position after it is a Poll. -/
theorem wrenPrecedesEveryMutatingCommand : Obligations.WrenPrecedesEveryMutatingCommand := by
  constructor
  · intro s i h hl ha hn
    obtain ⟨op, -, l, -, hp, -, -, -, hi⟩ := issued h ha
    have hplan := latched_plan h hl (by rw [ha]; exact nofun) (by rw [ha]; exact nofun)
    rw [← (planSame s).history, ← (planSame s).par]
    exact hplan op l hp (latchDue_of_needs hi hn)
  · intro s i h ha hm hok
    obtain ⟨op, -, l, -, hp, -, -, -, hi⟩ := issued h ha
    obtain ⟨f, he⟩ := encode_of_issues hi
    obtain ⟨t, hx, hf⟩ := exec_frame he
    obtain ⟨c, hc⟩ := next_eq_poll hi hm
    have hph : t.phase = .run op (.poll c) := by
      rw [hf.phase, hok, hp, ← hc]; rfl
    exact ⟨t, op, c, (seqStep_frame ha).trans hx, hph, by rw [plan_of_poll hph]⟩

end Sys2Proof.Machine

/-! # The status-register commands and Poll (41_status_register.md) -/

namespace Sys2Proof.Machine

/-! ## One frame of a command (R12, R80) -/

/-- What a frame that succeeds leaves behind (R80, R83). -/
theorem FrameStep.sentWhole {i : Instr} {f : Frame} {s t : State} (h : FrameStep i f s t) (hok : s.frameOk = true) :
    SentWhole f s t where
  history := by rw [h.history, hok, State.frameSent_ok f hok, State.frameRx_ok f hok]
  answers := h.answers
  draws := h.draws
  phase := by rw [h.phase, hok]; rfl

theorem FrameStep.quiet {i : Instr} {f : Frame} {s t : State} (h : FrameStep i f s t) (hok : s.frameOk = true) :
    Quiet s t where
  registers := h.registers
  working := h.working
  world := h.world
  memory := fun a => by rw [State.byteAt, State.byteAt, h.memOk hok]
  replaced := h.replaced

/-- A command that does nothing of its own when its frame fails is that frame, with its effect after a success. -/
theorem frameCommand_send {i : Instr} {f : Frame} {onOk : State → State} {s : State} {effect : State → Prop}
    (hx : exec i s = .next (s.send i f onOk id)) (he : encode s.par s.params.addrWidth i = .frame f)
    (heff : effect (onOk (s.transport f)).advance) : FrameCommand i f s effect := by
  have hf := frameStep_of_exec he hx
  constructor
  · intro hok
    refine ⟨_, hx, hf.sentWhole hok, hf.quiet hok, ?_⟩
    rw [State.send_ok i f onOk id hok]
    exact heff
  · intro hfail
    refine ⟨_, hx, hf.sentFailing hfail, hf.untouched hfail, fun a => ?_⟩
    rw [State.send_fail i f onOk id hfail]
    rfl

/-! ## WREN, WRDI, WRSR and RDSR (R146 to R149) -/

/-- A command that writes no register of the block changes the record of the flash alone. -/
theorem onFlash_transport (s : State) (f : Frame) (v : FlashView) : OnFlash s v ((s.transport f).withFlash v).advance :=
  ⟨⟨rfl, rfl⟩, ⟨rfl, rfl, rfl⟩, rfl⟩

/-- Settles O20: each command is one frame, with its clause "on the flash" as the effect. -/
theorem latchAndStatusCommandsSendTheirFrame : Obligations.LatchAndStatusCommandsSendTheirFrame :=
  fun s v =>
    ⟨frameCommand_send rfl rfl (onFlash_transport s _ s.flash.latched),
      frameCommand_send rfl rfl (onFlash_transport s _ s.flash.released),
      frameCommand_send rfl rfl (onFlash_transport s _ (s.flash.statusWritten v))⟩

/-- Settles O21: RDSR is one frame, and takes the byte read back. -/
theorem rdsrReadsOneStatusByte : Obligations.RdsrReadsOneStatusByte :=
  fun _ => frameCommand_send rfl rfl ⟨⟨rfl, rfl⟩, rfl, rfl, rfl, rfl, rfl⟩

/-! ## Poll (R151) -/

/-- The plan does not read the status. -/
def Planned.Unpolled (q : Planned) : Prop := q.action ≠ .frame .rdsr

theorem unpolled_exitFrom (op : HostOp) (k : Nat) (s : State) : (exitFrom op k s).Unpolled := by
  unfold exitFrom; split
  · next i hi =>
    rintro ⟨⟩
    rcases mem_modeFrames (List.mem_of_getElem? hi) with h | h | h | h | h | h | ⟨_, h⟩ <;> cases h
  · exact nofun

theorem unpolled_eraseHead (op : HostOp) (s : State) : (eraseHead op s).Unpolled := by
  unfold eraseHead; split
  · exact nofun
  · exact unpolled_exitFrom op 0 s

theorem unpolled_fillThen {op : HostOp} {l : Label} {k : Nat} {done : State → Planned} {s : State}
    (hd : (done s).Unpolled) : (fillThen op l k done s).Unpolled := by
  unfold fillThen; split
  · exact nofun
  · exact hd

theorem unpolled_pageHead (op : HostOp) (s : State) : (pageHead op s).Unpolled := by
  unfold pageHead; split
  · exact unpolled_fillThen nofun
  · exact unpolled_exitFrom op 0 s

theorem State.pairInstr_ne_rdsr (s : State) : s.pairInstr ≠ .rdsr := by
  unfold State.pairInstr; split <;> exact nofun

theorem unpolled_aaiHead (op : HostOp) (s : State) : (aaiHead op s).Unpolled := by
  unfold aaiHead; split
  · exact unpolled_fillThen fun h => State.pairInstr_ne_rdsr _ (Action.frame.inj h)
  · exact nofun

theorem unpolled_aaiTail (op : HostOp) (s : State) : (aaiTail op s).Unpolled := by
  unfold aaiTail; split
  · exact unpolled_fillThen nofun
  · exact nofun

/-- Where a command continues after a Poll, no other Poll is next (R152). -/
theorem unpolled_afterPoll (op : HostOp) (c : PollSite) (s : State) : (afterPoll op c s).Unpolled := by
  cases c with
  | u1 => exact nofun
  | u3 => exact nofun
  | e => exact unpolled_eraseHead op s.sectorDone
  | g => exact unpolled_pageHead op (s.bytesDone s.n)
  | s1 => exact nofun
  | s3 => exact unpolled_aaiHead op (s.bytesDone 2)
  | s4 => exact unpolled_aaiTail op s
  | s5 => exact nofun

theorem plan_of_polled {s : State} {op : HostOp} {c : PollSite} (hp : s.phase = .run op (.polled c)) :
    plan s = pollTest op c s := by
  simp only [plan, hp, planAt]

theorem pollTest_busy {s : State} (op : HostOp) (c : PollSite) (h : s.sr.getLsbD 0 = true) :
    pollTest op c s = { state := s.goto op (.poll c), action := .frame .rdsr } := if_pos h

theorem pollTest_idle {s : State} (op : HostOp) (c : PollSite) (h : s.sr.getLsbD 0 = false) :
    pollTest op c s = afterPoll op c s := if_neg (Bool.eq_false_iff.1 h)

/-- Settles O37: the test of a Poll by bit 0 of the status. -/
theorem pollRepeatsWhileBusy : Obligations.PollRepeatsWhileBusy := by
  intro s op c
  refine ⟨fun hp => ?_, fun hp hbusy => ?_, fun hp hidle => ?_⟩
  · rw [plan_of_poll hp]; exact ⟨rfl, rfl⟩
  · rw [plan_of_polled hp, pollTest_busy op c hbusy]; exact ⟨rfl, rfl⟩
  · rw [plan_of_polled hp, pollTest_idle op c hidle]; exact unpolled_afterPoll op c s

end Sys2Proof.Machine

/-! # The address-mode controller and the unlock (42_address_mode.md), and the checks before a bracket (R180) -/

namespace Sys2Proof.Machine

/-! ## EN4B, EX4B, EXHBL, WREAR and BRWR (R173 to R177) -/

/-- Settles O29: each command is one frame, with its clause "on the flash" as the effect. -/
theorem modeCommandsSendTheirFrame : Obligations.ModeCommandsSendTheirFrame :=
  fun s =>
    ⟨frameCommand_send rfl rfl (onFlash_transport s _ { s.flash with fourByte := some true }),
      frameCommand_send rfl rfl (onFlash_transport s _ { s.flash with fourByte := some false }),
      frameCommand_send rfl rfl (onFlash_transport s _ { s.flash with highBank := some false }),
      frameCommand_send rfl rfl (onFlash_transport s _ { s.flash with ear := some 0x00 }),
      frameCommand_send rfl rfl (onFlash_transport s _ { s.flash with bank := some 0x80, fourByte := some true }),
      frameCommand_send rfl rfl (onFlash_transport s _ { s.flash with bank := some 0x00, fourByte := some false })⟩

/-! ## A position that issues a command (R47) -/

/-- A position that issues a command sends its frame at once, without computation before it (R13, R47). -/
theorem plan_of_issues {s : State} {op : HostOp} {l : Label} {i : Instr} (hp : s.phase = .run op l) (hi : s.issues i l) :
    plan s = { state := s, action := .frame i } := by
  cases l <;> simp only [State.issues] at hi
  case enter k => simp only [plan, hp, planAt, enterFrom, hi, State.goto_of_phase hp]
  case exit k => simp only [plan, hp, planAt, exitFrom, hi, State.goto_of_phase hp]
  case e3b => simp only [plan, hp, planAt, eraseFrame, hi, State.goto_of_phase hp]
  all_goals subst hi; simp only [plan, hp, planAt]

/-- If that frame succeeds, the command goes on to the next position (R47). -/
theorem sendsThen_of_issues {s : State} {op : HostOp} {l : Label} {i : Instr} (hp : s.phase = .run op l)
    (hi : s.issues i l) : s.SendsThen i op l.next := by
  obtain ⟨f, he⟩ := encode_of_issues hi
  exact State.sendsThen_of_plan hp (plan_of_issues hp hi) he rfl

/-- The step of the sequencer at such a position is the command itself. -/
theorem seqStep_of_issues {s : State} {op : HostOp} {l : Label} {i : Instr} (hp : s.phase = .run op l)
    (hi : s.issues i l) : seqStep s = exec i s := by
  have hplan := plan_of_issues hp hi
  rw [seqStep_frame (by rw [hplan]), hplan]

/-! ## SetAddressMode (R171, R172, R178, R179) -/

section
variable {p : Params} {id : BitVec 24}

/-- The toggle class and the EAR-clear class of a manufacturer code (R171). -/
structure Classified (p : Params) (m : Byte) (t : ToggleClass) (e : EarClass) : Prop where
  toggle : toggleClass p m = t
  ear : earClass p m = e

theorem classified_iff {m : Byte} {t : ToggleClass} {e : EarClass} :
    Classified p m t e ↔ toggleClass p m = t ∧ earClass p m = e := ⟨fun h => ⟨h.toggle, h.ear⟩, fun h => ⟨h.1, h.2⟩⟩

/-- Distinct manufacturer codes differ in either order (R171). -/
theorem manufacturers_nodup (hp : p.wf = true) : p.manufacturers.Nodup ∧ p.manufacturers.reverse.Nodup := by
  rw [List.nodup_reverse, and_self]
  exact (allDistinct_iff_nodup _).1 (Bool.and_eq_true_iff.1 hp).1

/-- The table of R171: since the codes are distinct, a code meets the test of its own row alone. -/
theorem classified_manufacturers (hp : p.wf = true) :
    Classified p p.mfrMicron .micron .clearEar ∧ Classified p p.mfrEon .single .exhbl ∧
    Classified p p.mfrMacronix .single .macronix ∧ Classified p p.mfrWinbond .single .clearEar ∧
    Classified p p.mfrGigadevice .single .clearEar ∧ Classified p p.mfrIssi .bank .none ∧
    Classified p p.mfrSpansion .bank .none := by
  obtain ⟨hd, hr⟩ := manufacturers_nodup hp
  simp only [Params.manufacturers, List.nodup_cons, List.mem_cons, not_or, List.reverse_cons, List.reverse_nil, List.nil_append,
    List.cons_append] at hd hr
  simp [classified_iff, toggleClass, earClass, hd, hr]

/-- Any other code is in no row. -/
theorem classified_of_not_mem {m : Byte} (h : m ∉ p.manufacturers) : Classified p m .none .none := by
  simp only [Params.manufacturers, List.mem_cons, not_or] at h
  simp [classified_iff, toggleClass, earClass, h]

section
variable {e : EarClass}

theorem modeFrames_micron (h : Classified p (manufacturer id) .micron .clearEar) :
    modeFrames p .four id true = [.wren, .en4b, .wrdi] ∧
    modeFrames p .four id false = [.wren, .ex4b, .wrdi, .wren, .wrear, .wrdi] := by
  simp [modeFrames, toggleMode, clearExtAddr, clearEar, h.toggle, h.ear]

theorem modeFrames_single (h : Classified p (manufacturer id) .single e) :
    modeFrames p .four id true = [.en4b] ∧ modeFrames p .four id false = .ex4b :: clearExtAddr p id := by
  simp [modeFrames, toggleMode, h.toggle]

theorem modeFrames_bank (h : Classified p (manufacturer id) .bank .none) (en : Bool) :
    modeFrames p .four id en = [.brwr en] := by
  simp [modeFrames, toggleMode, clearExtAddr, h.toggle, h.ear]

theorem modeFrames_none (h : Classified p (manufacturer id) .none .none) (en : Bool) :
    modeFrames p .four id en = [] := by
  simp [modeFrames, toggleMode, clearExtAddr, h.toggle, h.ear]

end

end

theorem State.bracket_of_desc {s : State} {d : Descriptor} (h : s.desc = some d) (en : Bool) :
    s.bracket en = modeFrames s.par s.params.addrWidth d.jedecId en := by
  simp only [State.bracket, State.chipId, h]

/-- Past the last frame of the exit the command is over (R180). -/
theorem exitFrom_of_length_le {op : HostOp} {k : Nat} {s : State} (h : (s.bracket false).length ≤ k) :
    exitFrom op k s = finish s := by
  simp only [exitFrom, List.getElem?_eq_none h]

/-- Settles O36: the frames by the row of R171, and each of them from its position in the bracket. -/
theorem addressModeSequences : Obligations.AddressModeSequences := by
  refine ⟨fun p id hp => ?_, fun s d op k hd => ?_⟩
  · obtain ⟨hMicron, hEon, hMacronix, hWinbond, hGigadevice, hIssi, hSpansion⟩ := classified_manufacturers hp
    refine ⟨fun _ => rfl, fun (hm : manufacturer id = _) => ?_,
      fun (hm : manufacturer id = _ ∨ manufacturer id = _) => ?_, fun (hm : manufacturer id = _) => ?_,
      fun (hm : manufacturer id = _) => ?_, fun (hm : manufacturer id = _ ∨ manufacturer id = _) => ?_, fun hm => ?_⟩
    · exact modeFrames_micron (hm.symm ▸ hMicron)
    · have hc : Classified p (manufacturer id) .single .clearEar := hm.elim (·.symm ▸ hWinbond) (·.symm ▸ hGigadevice)
      simpa [clearExtAddr, hc.ear, clearEar] using modeFrames_single hc
    · have hc : Classified p (manufacturer id) .single .macronix := hm.symm ▸ hMacronix
      obtain ⟨henter, hexit⟩ := modeFrames_single hc
      refine ⟨henter, hexit.trans ?_⟩
      rw [clearExtAddr, hc.ear]
      exact apply_ite (List.cons Instr.ex4b) _ _ _
    · have hc : Classified p (manufacturer id) .single .exhbl := hm.symm ▸ hEon
      simpa [clearExtAddr, hc.ear] using modeFrames_single hc
    · have hc : Classified p (manufacturer id) .bank .none := hm.elim (·.symm ▸ hIssi) (·.symm ▸ hSpansion)
      exact ⟨modeFrames_bank hc true, modeFrames_bank hc false⟩
    · exact modeFrames_none (classified_of_not_mem hm)
  · simp only [← State.bracket_of_desc hd]
    refine ⟨fun i hp hi => sendsThen_of_issues hp hi, fun i hp hi => sendsThen_of_issues hp hi, fun hp hk => ?_⟩
    simp only [plan, hp, planAt, exitFrom_of_length_le hk, finish]

/-! ## The unlock (R181 to R183) -/

/-- After the lookup of a descriptor within the registry premise, its flags choose what is next (R257 to R259). -/
theorem plan_of_lookup {s : State} {op : HostOp} {d : Descriptor} (hp : s.phase = .run op .q2)
    (hid : invalidId s.rawId = false) (hd : s.lookup s.rawId s.rawExt = some d) (hwf : descWf d = true) :
    plan s = unlock op d (s.identified (some d) (derive s.par d)) := by
  simp [plan, hp, planAt, probeIdentify, hid, hd, hwf]

/-- After its RDSR the unlock tests the protection bits (R182). -/
theorem plan_of_u3 {s : State} {op : HostOp} (hp : s.phase = .run op .u3) : plan s = unlockTest op s := by
  simp only [plan, hp, planAt]

section
variable {d : Descriptor} (op : HostOp) (s : State)

theorem unlock_of_initSr (h : d.flags.initSr = true) :
    unlock op d s = { state := s.goto op .u1w, action := .frame .wren } := if_pos h

theorem unlock_of_protection (hi : d.flags.initSr = false) (hb : hasProtection d.flags = true) :
    unlock op d s =
      { state := (s.withMask (protectionMask s.par d.flags)).goto op .u2, action := .frame .rdsr } := by
  simp [unlock, hi, hb]

theorem unlock_of_no_flag (hi : d.flags.initSr = false) (hb : hasProtection d.flags = false) :
    unlock op d s = probeDone s := by
  simp [unlock, hi, hb]

theorem unlockTest_of_ne (h : s.sr &&& s.mask ≠ 0) :
    unlockTest op s = { state := s.goto op .u3w, action := .frame .wren } := if_pos h

theorem unlockTest_of_eq (h : s.sr &&& s.mask = 0) : unlockTest op s = probeDone s := if_neg (not_not_intro h)

end

/-- The Poll of an unlock, once it has read bit 0 clear, ends the PROBE (R182, R183). -/
theorem plan_of_unlock_polled {s : State} {op : HostOp} {c : PollSite} (hc : c = .u1 ∨ c = .u3)
    (hp : s.phase = .run op (.polled c)) (hs : s.sr.getLsbD 0 = false) : plan s = probeDone s := by
  rw [plan_of_polled hp, pollTest_idle op c hs]
  rcases hc with rfl | rfl <;> rfl

/-- Bit by bit, the value written back is the one read with the masked bits cleared (R182). -/
theorem getLsbD_unlockValue (sr mask : Byte) {i : Nat} (hi : i < 8) :
    (unlockValue sr mask).getLsbD i = if mask.getLsbD i then false else sr.getLsbD i := by
  cases h : mask.getLsbD i <;>
    simp only [unlockValue, BitVec.getLsbD_and, BitVec.getLsbD_not, hi, h, decide_true, Bool.not_true, Bool.not_false,
      Bool.and_true, Bool.and_false, if_true, if_false, Bool.false_eq_true]

/-- Settles O34: the lookup by the flags, then each position of the INIT_SR path. -/
theorem unlockFollowsTheFlags : Obligations.UnlockFollowsTheFlags := by
  intro s d hp hid hd hwf
  rw [plan_of_lookup hp hid hd hwf]
  refine ⟨fun hi => ?_, fun hi hb => ?_, fun hi hb => ?_, fun t => ⟨fun hp => ?_, fun hp => ?_, fun hp hs => ?_⟩⟩
  · rw [unlock_of_initSr _ _ hi]; exact ⟨rfl, rfl⟩
  · rw [unlock_of_protection _ _ hi hb]; exact ⟨rfl, rfl, rfl⟩
  · rw [unlock_of_no_flag _ _ hi hb]; rfl
  · exact sendsThen_of_issues hp rfl
  · exact sendsThen_of_issues hp rfl
  · rw [plan_of_unlock_polled (.inl rfl) hp hs]; rfl

/-- Settles O35: the positions of the unlock in their order; the mask is a working register that no frame of it writes. -/
theorem unlockClearsExactlyTheMask : Obligations.UnlockClearsExactlyTheMask := by
  intro s
  refine ⟨fun hp => ⟨sendsThen_of_issues hp rfl, fun hok => ?_⟩, fun hp hne => ?_, fun hp heq => ?_,
    fun hp => ⟨sendsThen_of_issues hp rfl, fun hok => ?_⟩,
    fun hp => ⟨_, sendsThen_of_issues hp rfl, fun i hi => getLsbD_unlockValue s.sr s.mask hi⟩, fun hp hs => ?_⟩
  · obtain ⟨t, ht, -, hquiet, -, -, -, hsr, -⟩ := (rdsrReadsOneStatusByte s).1 hok
    exact ⟨t, (seqStep_of_issues hp rfl).trans ht, hsr, hquiet.working.mask⟩
  · rw [plan_of_u3 hp, unlockTest_of_ne _ _ hne]
    exact ⟨rfl, rfl, rfl, rfl⟩
  · rw [plan_of_u3 hp, unlockTest_of_eq _ _ heq]
    rfl
  · obtain ⟨t, ht, -, hquiet, -, hscratch, -⟩ := (latchAndStatusCommandsSendTheirFrame s 0).1.1 hok
    exact ⟨t, (seqStep_of_issues hp rfl).trans ht, hscratch.sr, hquiet.working.mask⟩
  · rw [plan_of_unlock_polled (.inr rfl) hp hs]; rfl

/-! ## The checks of a bulk command, and its bracket (R180, R198, R211, R283) -/

section
variable {s : State}

/-- The codes of ERASE's checks, in their order, once the probe-first gate is passed (R198). -/
theorem eraseCheck_of_probed (hps : s.probeState = .probed) :
    s.eraseCheck =
      if s.opAddr.toNat % s.params.eraseSize.toNat ≠ 0 then some .align
      else if (s.opAddr.toNat + s.opLen.toNat) % s.params.eraseSize.toNat ≠ 0 then some .align
      else if s.opAddr.toNat + s.opLen.toNat > s.size then some .capacity else none :=
  if_neg (not_not_intro hps)

/-- The codes of WRITE's checks, in their order, once that gate is passed (R211, R212). -/
theorem writeCheck_of_probed (hps : s.probeState = .probed) :
    s.writeCheck =
      if s.opLen = 0 then some .ok
      else if s.opBuf = 0 then some .noBuffer
      else if s.opAddr.toNat + s.opLen.toNat > s.size then some .capacity else none :=
  if_neg (not_not_intro hps)

/-- A code of the checks ends a bulk command at its first position. -/
theorem completes_of_check {op : HostOp} {c : Option ErrCode} {e : ErrCode} {t : State} (hp : s.phase = .run op .start)
    (hop : op ≠ .probe) (hplan : plan s = afterCheck c op s t) (hc : c = some e) :
    ∃ t, seqStep s = .next t ∧ CompletedWith e s t ∧ SameSession s t ∧ t.progress = s.progress :=
  completes_of_plan hp hop (by rw [hplan, hc]; rfl)

theorem afterCheck_none {op : HostOp} {c : Option ErrCode} {t : State} (hc : c = none) :
    afterCheck c op s t = enterFrom op 0 t := by rw [hc]; rfl

theorem enterFrom_zero_cons {op : HostOp} {i : Instr} {is : List Instr} (h : s.bracket true = i :: is) :
    enterFrom op 0 s = { state := s.goto op (.enter 0), action := .frame i } := by simp [enterFrom, h]

theorem enterFrom_zero_nil {op : HostOp} (h : s.bracket true = []) : enterFrom op 0 s = bulkStart op s := by
  simp [enterFrom, h]

/-- Without frames to leave it, the bracket's end is the end of the command (R180). -/
theorem exitFrom_zero_complete_iff {op : HostOp} {e : ErrCode} :
    (exitFrom op 0 s).action = .complete e ↔ e = .ok ∧ s.bracket false = [] := by
  unfold exitFrom
  cases s.bracket false <;> simp [finish, eq_comm]

/-- The loop of an ERASE ends the command only with nothing left to erase (R197). -/
theorem eraseHead_complete_iff {op : HostOp} {e : ErrCode} :
    (eraseHead op s).action = .complete e ↔ s.rem = 0 ∧ e = .ok ∧ s.bracket false = [] := by
  unfold eraseHead
  split
  · next h => exact ⟨nofun, fun ⟨h0, _⟩ => absurd h0 (Nat.ne_of_gt h)⟩
  · next h => rw [exitFrom_zero_complete_iff, and_iff_right (Nat.eq_zero_of_not_pos h)]

/-- With sectors to erase, that loop begins with the WREN of the first one (R197). -/
theorem bulkStart_erase (h : 0 < s.sectorCount) :
    bulkStart .erase s = { state := s.eraseInit.goto .erase .e3a, action := .frame .wren } := if_pos h

/-- A length between sector boundaries holds no sector only if it is 0 (R198). -/
theorem sectorCount_eq_zero_iff (ha : s.opAddr.toNat % s.eraseUnit = 0)
    (hn : (s.opAddr.toNat + s.opLen.toNat) % s.eraseUnit = 0) : s.sectorCount = 0 ↔ s.opLen.toNat = 0 := by
  have hdvd : s.eraseUnit ∣ s.opLen.toNat :=
    (Nat.dvd_add_right (Nat.dvd_of_mod_eq_zero ha)).1 (Nat.dvd_of_mod_eq_zero hn)
  refine ⟨Nat.eq_zero_of_dvd_of_div_eq_zero hdvd, fun h => ?_⟩
  rw [State.sectorCount, h, Nat.zero_div]

end

/-- Settles O39: the checks one by one, then the bracket or the loop. -/
theorem eraseValidatesBeforeAnyFrame : Obligations.EraseValidatesBeforeAnyFrame := by
  intro s hp hps
  dsimp only
  have hck := eraseCheck_of_probed hps
  have hplan : plan s = afterCheck s.eraseCheck .erase s s := plan_of_start hp
  have hend := fun e => completes_of_check (e := e) hp (by decide) hplan
  refine ⟨fun h1 => ?_, fun h1 h2 => ?_, fun h1 h2 h3 => ?_, fun h1 h2 h3 => ?_⟩
  · exact hend _ (by rw [hck, if_pos h1])
  · exact hend _ (by rw [hck, if_neg (not_not_intro h1), if_pos h2])
  · exact hend _ (by rw [hck, if_neg (not_not_intro h1), if_neg (not_not_intro h2), if_pos h3])
  · rw [hplan, afterCheck_none (by
      rw [hck, if_neg (not_not_intro h1), if_neg (not_not_intro h2), if_neg (Nat.not_lt.2 h3)])]
    refine ⟨fun i is hb => ?_, fun hb hpos hle => ?_, fun e => ?_⟩
    · rw [enterFrom_zero_cons hb]; exact ⟨rfl, rfl⟩
    · rw [enterFrom_zero_nil hb, bulkStart_erase (Nat.div_pos hle hpos)]; exact ⟨rfl, rfl⟩
    · cases hb : s.bracket true with
      | cons i is => simp [enterFrom_zero_cons hb]
      | nil =>
        have hhead : (bulkStart .erase s).action = .complete e ↔ s.sectorCount = 0 ∧ e = .ok ∧ s.bracket false = [] :=
          eraseHead_complete_iff
        rw [enterFrom_zero_nil hb, hhead, sectorCount_eq_zero_iff h1 h2]
        simp [and_left_comm]

/-! ## The beginning of a WRITE (R211, R213, R217) -/

/-- The plan does not end the command. -/
def Planned.Continues (q : Planned) : Prop := ∀ e, q.action ≠ .complete e

theorem continues_fillThen {op : HostOp} {l : Label} {k : Nat} {done : State → Planned} {s : State}
    (hd : (done s).Continues) : (fillThen op l k done s).Continues := by
  unfold fillThen; split
  · exact nofun
  · exact hd

theorem continues_pageHead {op : HostOp} {s : State} (h : 0 < s.rem) : (pageHead op s).Continues := by
  rw [pageHead, if_pos h]
  exact continues_fillThen nofun

theorem continues_aaiStart (op : HostOp) (s : State) : (aaiStart op s).Continues := by
  unfold aaiStart; split
  · exact continues_fillThen nofun
  · exact nofun

/-- With bytes to program, either algorithm starts with a DMA read or a frame (R211). -/
theorem continues_programStart {op : HostOp} {s : State} (h : 0 < s.opLen.toNat) : (programStart op s).Continues := by
  unfold programStart; split
  · exact continues_aaiStart op s.programInit
  · exact continues_pageHead h

/-- Settles O43: the checks one by one, then the bracket or the program loop. -/
theorem writeChecksBeforeAnyFrame : Obligations.WriteChecksBeforeAnyFrame := by
  intro s hp hps
  have hck := writeCheck_of_probed hps
  have hplan : plan s = afterCheck s.writeCheck .write s s := plan_of_start hp
  have hend := fun e => completes_of_check (e := e) hp (by decide) hplan
  refine ⟨fun h1 => ?_, fun h1 h2 => ?_, fun h1 h2 h3 => ?_, fun h1 h2 h3 => ?_⟩
  · exact hend _ (by rw [hck, if_pos h1])
  · exact hend _ (by rw [hck, if_neg h1, if_pos h2])
  · exact hend _ (by rw [hck, if_neg h1, if_neg h2, if_pos h3])
  · rw [hplan, afterCheck_none (by rw [hck, if_neg h1, if_neg h2, if_neg (Nat.not_lt.2 h3)])]
    have hpos : 0 < s.opLen.toNat := Nat.pos_of_ne_zero fun h => h1 (BitVec.eq_of_toNat_eq h)
    refine ⟨?_, fun i is hb => ?_⟩
    · cases hb : s.bracket true with
      | cons i is => rw [enterFrom_zero_cons hb]; exact nofun
      | nil => rw [enterFrom_zero_nil hb]; exact continues_programStart hpos
    · rw [enterFrom_zero_cons hb]; exact ⟨rfl, rfl⟩

end Sys2Proof.Machine

/-! # The sector-erase engine (43_erase.md) -/

namespace Sys2Proof.Machine

/-! ## SE_4K, SE_4K_PMC, BE_32K and BE_64K (R201 to R204) -/

/-- Settles O23: each command is one frame, with its clause "on the flash" as the effect. -/
theorem eraseCommandsSendTheAddress : Obligations.EraseCommandsSendTheAddress :=
  fun s c =>
    ⟨frameCommand_send rfl rfl (onFlash_transport s _ (s.flash.erasing c 4096)),
      frameCommand_send rfl rfl (onFlash_transport s _ (s.flash.erasing c 4096)),
      frameCommand_send rfl rfl (onFlash_transport s _ (s.flash.erasing c 32768)),
      frameCommand_send rfl rfl (onFlash_transport s _ (s.flash.erasing c s.eraseUnit))⟩

/-- What a command on one unit does to the record of the array: its own entry, or that unit disturbed (R280). -/
theorem FrameCommand.array {i : Instr} {f : Frame} {s : State} {v : FlashView} {o : ArrayOp} {u : Span}
    (h : FrameCommand i f s (OnFlash s v)) (hv : v.array = o :: s.flash.array) (hu : s.unitOf i = some u) :
    ∃ t, exec i s = .next t ∧ t.flash.array = (if s.frameOk then o else .disturbed u) :: s.flash.array := by
  obtain ⟨hsent, hfailed⟩ := h
  cases hok : s.frameOk with
  | true =>
    obtain ⟨t, ht, -, -, -, -, hflash⟩ := hsent hok
    exact ⟨t, ht, by rw [hflash, hv, if_pos rfl]⟩
  | false =>
    obtain ⟨t, ht, hf, -⟩ := hfailed hok
    exact ⟨t, ht, by rw [hf.flash, hu, FlashView.lost_array]; rfl⟩

/-! ## The erase frame (R197, @E3b) -/

/-- Whichever of the four commands it is, its frame is the erase opcode and the encoded address. -/
theorem encode_eraseInstr {s : State} {c : Nat} {i : Instr} (h : s.eraseInstr c = some i) :
    encode s.par s.params.addrWidth i = .frame (frameF3 s.params.eraseOp c s.params.addrWidth) := by
  unfold State.eraseInstr at h
  split_ifs at h <;> cases h <;> simp [encode, *]

/-- There is no command exactly when the register holds none of the four opcodes (log entry 22). -/
theorem eraseInstr_eq_none_iff {s : State} {c : Nat} :
    s.eraseInstr c = none ↔ s.params.eraseOp ∉ [s.par.opSe4k, s.par.opSe4kPmc, s.par.opBe32k, s.par.opBe64k] := by
  unfold State.eraseInstr
  split_ifs <;> simp [*]

/-- In a command in flight, the erase frame erases the sector of the probed chip at its address, or disturbs it alone. -/
theorem exec_eraseInstr_array {s : State} {op : HostOp} (hf : s.Flying op) (hop : bulkOp op = true) {c : Nat} {i : Instr}
    (hi : s.eraseInstr c = some i) :
    ∃ t, exec i s = .next t ∧ t.flash.array =
      (if s.frameOk then .erased c s.eraseUnit else .disturbed { addr := c, size := s.eraseUnit }) :: s.flash.array := by
  obtain ⟨hse4k, hse4kPmc, hbe32k, hbe64k⟩ := eraseCommandsSendTheAddress s c
  have hunit := unitOf_eraseInstr hf hop hi
  rcases eraseInstr_cases hf hop hi with ⟨rfl | rfl, hu⟩ | ⟨rfl, hu⟩ | ⟨rfl, -⟩
  · exact hse4k.array (by rw [hu]) hunit
  · exact hse4kPmc.array (by rw [hu]) hunit
  · exact hbe32k.array (by rw [hu]) hunit
  · exact hbe64k.array rfl hunit

/-- Settles O41: the command by `eraseInstr`, its effect on the array by the invariant, and the stuck case without one. -/
theorem eraseFrameUsesTheEraseOpcode : Obligations.EraseFrameUsesTheEraseOpcode := by
  intro s op hp
  refine ⟨fun hmem => ?_, fun hinv => ?_, fun hmem => ?_⟩
  · obtain ⟨i, hi⟩ := Option.ne_none_iff_exists'.1 fun h : s.eraseInstr s.cur = none => eraseInstr_eq_none_iff.1 h hmem
    have hplan := plan_of_issues (l := .e3b) hp hi
    exact ⟨i, by rw [hplan], by rw [hplan], encode_eraseInstr hi⟩
  · obtain rfl : op = .erase := op_of_fits (hinv.command _ _ hp).fits rfl
    have hf := flying_of_inv hinv hp (by decide)
    obtain ⟨i, hi⟩ := eraseInstr_isSome hf rfl s.cur
    obtain ⟨t, ht, harray⟩ := exec_eraseInstr_array hf rfl hi
    exact ⟨t, (seqStep_of_issues (l := .e3b) hp hi).trans ht, harray⟩
  · have hnone : s.eraseInstr s.cur = none := eraseInstr_eq_none_iff.2 hmem
    exact seqStep_stuck (by simp only [plan, hp, planAt, eraseFrame, hnone])

/-! ## Sector by sector (R197, R199) -/

section
variable {op : HostOp} {s : State}

/-- With a sector left, the loop goes on with its WREN. -/
theorem eraseHead_of_pos (h : 0 < s.rem) : eraseHead op s = { state := s.goto op .e3a, action := .frame .wren } := if_pos h

/-- With none left, the loop leaves the bracket. -/
theorem eraseHead_of_zero (h : s.rem = 0) : eraseHead op s = exitFrom op 0 s := if_neg (h ▸ Nat.lt_irrefl 0)

theorem exitFrom_zero_cons {i : Instr} {is : List Instr} (h : s.bracket false = i :: is) :
    exitFrom op 0 s = { state := s.goto op (.exit 0), action := .frame i } := by simp [exitFrom, h]

theorem exitFrom_zero_nil (h : s.bracket false = []) : exitFrom op 0 s = finish s :=
  exitFrom_of_length_le (by rw [h]; exact Nat.le_refl 0)

/-- The loop head moves the step pointer alone. -/
theorem eraseHead_state (op : HostOp) (s : State) : ∃ p, (eraseHead op s).state = { s with phase := p } := by
  unfold eraseHead exitFrom
  split
  · exact ⟨_, rfl⟩
  · split
    · exact ⟨_, rfl⟩
    · exact ⟨s.phase, rfl⟩

/-- The loop head keeps the working registers of ERASE and PROGRESS. -/
theorem eraseHead_keeps (op : HostOp) (s : State) :
    (eraseHead op s).state.cur = s.cur ∧ (eraseHead op s).state.rem = s.rem ∧
      (eraseHead op s).state.progress = s.progress := by
  obtain ⟨p, hp⟩ := eraseHead_state op s
  rw [hp]; exact ⟨rfl, rfl, rfl⟩

/-- What follows at the loop head: the WREN of a sector, or, with none left, the frames of the bracket or the end. -/
theorem eraseHead_goesOn (op : HostOp) (s : State) :
    (0 < s.rem → (eraseHead op s).action = .frame .wren ∧ (eraseHead op s).state.phase = .run op .e3a) ∧
    (s.rem = 0 → s.bracket false = [] → (eraseHead op s).action = .complete .ok) ∧
    (s.rem = 0 → ∀ i is, s.bracket false = i :: is →
      (eraseHead op s).action = .frame i ∧ (eraseHead op s).state.phase = .run op (.exit 0)) := by
  refine ⟨fun hr => ?_, fun hr hb => ?_, fun hr i is hb => ?_⟩
  · rw [eraseHead_of_pos hr]; exact ⟨rfl, rfl⟩
  · rw [eraseHead_of_zero hr, exitFrom_zero_nil hb]; rfl
  · rw [eraseHead_of_zero hr, exitFrom_zero_cons hb]; exact ⟨rfl, rfl⟩

/-- Once the Poll of a sector has read bit 0 clear, the sector is counted and the loop head is next (R199). -/
theorem plan_of_polled_idle (hp : s.phase = .run .erase (.polled .e)) (hs : s.sr.getLsbD 0 = false) :
    plan s = eraseHead .erase s.sectorDone := by
  rw [plan_of_polled hp, pollTest_idle _ _ hs]; rfl

end

/-- Settles O40: the loop head after the bracket and after a Poll, then the WREN's frame. -/
theorem eraseGoesSectorBySector : Obligations.EraseGoesSectorBySector := by
  refine ⟨fun s hs => ?_, fun s hp hsr => ?_, fun s hp => ⟨sendsThen_of_issues hp rfl, fun hok => ?_⟩⟩
  · obtain ⟨hcur, hrem, hprogress⟩ := eraseHead_keeps .erase s.eraseInit
    rw [plan_atLoop hs (.inl rfl)]
    exact ⟨hcur, hrem, hprogress, eraseHead_goesOn .erase s.eraseInit⟩
  · obtain ⟨hcur, hrem, hprogress⟩ := eraseHead_keeps .erase s.sectorDone
    obtain ⟨hmore, hend, hexit⟩ := eraseHead_goesOn .erase s.sectorDone
    have hlast : s.rem = 1 → s.sectorDone.rem = 0 := fun hr => Nat.sub_eq_zero_of_le hr.le
    rw [plan_of_polled_idle hp hsr]
    exact ⟨hprogress, hcur, hrem, fun hr => hmore (Nat.sub_pos_of_lt hr), fun hr hb => hend (hlast hr) hb,
      fun hr i is hb => (hexit (hlast hr) i is hb).1⟩
  · obtain ⟨t, ht, -, hquiet, -⟩ := (latchAndStatusCommandsSendTheirFrame s 0).1.1 hok
    exact ⟨t, (seqStep_of_issues hp rfl).trans ht, hquiet.working.cur, hquiet.working.rem⟩

/-! ## Answers given as data (R78, R79, log entry 4) -/

/-- The next answer says whether the next frame succeeds (R79). -/
theorem State.frameOk_cons {s : State} {a : Answer} {as : List Answer} (h : s.answers = a :: as) : s.frameOk = a.ok := by
  simp only [State.frameOk, h]

/-- An answer given as data is what a frame reads back, if it has the length (R78). -/
theorem oracleBytes_of_answers {s : State} {a : Answer} {as : List Answer} (h : s.answers = a :: as) :
    s.oracleBytes a.rx.length = a.rx := by
  refine List.ext_getElem (by simp) fun i hi hi' => ?_
  simp [State.oracleBytes, State.oracleByte, h, List.getElem?_eq_getElem hi']

/-! ## A whole ERASE (R135, R197, R199) -/

/-- The loop head `.e3`, which is passed within a step: at a plan that goes there, the step is the one from the head itself. -/
theorem seqStep_eq_of_eraseHead {s u : State} {l : Label} (hp : u.phase = .run .erase l)
    (hplan : plan s = eraseHead .erase u) : seqStep s = seqStep (u.goto .erase .e3) := by
  have hhead : plan (u.goto .erase .e3) = eraseHead .erase (u.goto .erase .e3) := rfl
  simp only [seqStep, hplan, hhead]
  by_cases hr : u.rem = 0
  · rw [eraseHead_of_zero hr, eraseHead_of_zero (s := u.goto .erase .e3) hr]
    cases hb : u.bracket false with
    | nil =>
      rw [exitFrom_zero_nil hb, exitFrom_zero_nil (s := u.goto .erase .e3) hb]
      simp only [perform, act, finish, State.complete, hp, State.goto, ProbeState.afterCompletion]
    | cons i is => rw [exitFrom_zero_cons hb, exitFrom_zero_cons (s := u.goto .erase .e3) hb]; rfl
  · have hr := Nat.pos_of_ne_zero hr
    rw [eraseHead_of_pos hr, eraseHead_of_pos (s := u.goto .erase .e3) hr]; rfl

/-- With a sector left, the step from the loop head is the one from the WREN's own position. -/
theorem seqStep_e3_of_pos {s : State} (hp : s.phase = .run .erase .e3) (hr : 0 < s.rem) :
    seqStep s = seqStep (s.goto .erase .e3a) := by
  have hplan : plan s = eraseHead .erase s := by simp only [plan, hp, planAt]
  have hwren : plan (s.goto .erase .e3a) = { state := s.goto .erase .e3a, action := .frame .wren } := rfl
  simp only [seqStep, hplan, eraseHead_of_pos hr, hwren]

/-- The premises of a run of ERASE that a sector keeps: the host is silent and the chip's sectors are erased by SE_4K. -/
structure State.Erases4k (s : State) : Prop where
  par : s.par.wf = true
  script : s.script = []
  eraseOp : s.params.eraseOp = s.par.opSe4k
  eraseSize : s.params.eraseSize = 0x1000

theorem State.Erases4k.congr {s t : State} (h : s.Erases4k) (hpar : t.par = s.par) (hscript : t.script = s.script)
    (hparams : t.params = s.params) : t.Erases4k where
  par := hpar ▸ h.par
  script := hscript.trans h.script
  eraseOp := by rw [hparams, hpar, h.eraseOp]
  eraseSize := by rw [hparams, h.eraseSize]

theorem State.Erases4k.step_eq {s : State} (h : s.Erases4k) : step s = seqStep s := step_of_script_nil h.par h.script

theorem State.Erases4k.eraseUnit {s : State} (h : s.Erases4k) : s.eraseUnit = 4096 := by
  rw [State.eraseUnit, h.eraseSize]; rfl

theorem State.Erases4k.eraseInstr {s : State} (h : s.Erases4k) (c : Nat) : s.eraseInstr c = some (.se4k c) :=
  if_pos ⟨h.eraseOp, h.eraseUnit⟩

/-- What one frame of ERASE's loop leaves alone of what the loop works with. -/
structure SameLoop (s t : State) : Prop where
  cur : t.cur = s.cur
  rem : t.rem = s.rem
  progress : t.progress = s.progress
  params : t.params = s.params
  par : t.par = s.par
  script : t.script = s.script
  mem : t.mem = s.mem

theorem SameLoop.trans {s t u : State} (h : SameLoop s t) (k : SameLoop t u) : SameLoop s u where
  cur := k.cur.trans h.cur
  rem := k.rem.trans h.rem
  progress := k.progress.trans h.progress
  params := k.params.trans h.params
  par := k.par.trans h.par
  script := k.script.trans h.script
  mem := k.mem.trans h.mem

theorem State.Erases4k.sameLoop {s t : State} (h : s.Erases4k) (k : SameLoop s t) : t.Erases4k :=
  h.congr k.par k.script k.params

theorem FrameStep.sameLoop {i : Instr} {f : Frame} {s t : State} (h : FrameStep i f s t) (hok : s.frameOk = true) :
    SameLoop s t :=
  ⟨h.working.cur, h.working.rem, h.registers.progress, h.registers.params, h.world.par, h.world.script, h.memOk hok⟩

/-- A position of the loop that issues a command sends its frame, if the next answer accepts it, and goes on (R47, R80). -/
theorem State.Erases4k.step_sends {s : State} {l : Label} {i : Instr} {f : Frame} {a : Answer} {as : List Answer}
    (h : s.Erases4k) (hp : s.phase = .run .erase l) (hi : s.issues i l)
    (he : encode s.par s.params.addrWidth i = .frame f) (ha : s.answers = a :: as) (hok : a.ok = true) :
    ∃ t, step s = .next t ∧ exec i s = .next t ∧ SameLoop s t ∧ t.phase = .run .erase l.next ∧ t.answers = as ∧
      t.history = .frame s.par.chipSelect f true f.wire.length (s.oracleBytes f.n) :: s.history := by
  obtain ⟨t, ht, hf⟩ := exec_frame he
  have hok : s.frameOk = true := (State.frameOk_cons ha).trans hok
  have hsent := hf.sentWhole hok
  refine ⟨t, ?_, ht, hf.sameLoop hok, ?_, ?_, hsent.history⟩
  · rw [h.step_eq, seqStep_of_issues hp hi, ht]
  · rw [hsent.phase, hp]; rfl
  · rw [hsent.answers, ha]; rfl

/-- RDSR takes the byte that the flash answers (R148). -/
theorem sr_of_exec_rdsr {s t : State} (h : exec .rdsr s = .next t) (hok : s.frameOk = true) : t.sr = s.oracleByte 0 := by
  obtain ⟨u, hu, -, -, -, -, -, hsr, -⟩ := (rdsrReadsOneStatusByte s).1 hok
  cases hu.symm.trans h
  exact hsr

theorem frameF3_wire_length (op : Byte) (a : Nat) (w : AddrWidth) : (frameF3 op a w).wire.length = commandLength w := by
  simp [Frame.wire, frameF3]

theorem run_succ_of_next {s t : State} (h : step s = .next t) (n : Nat) :
    Host.Core.run core (n + 1) s = Host.Core.run core n t := by
  have h : core.step s = .next t := h
  simp only [Host.Core.run, h]

theorem run_succ_congr {s t : State} (h : step s = step t) (n : Nat) :
    Host.Core.run core (n + 1) s = Host.Core.run core (n + 1) t := by
  have h : core.step s = core.step t := h
  simp only [Host.Core.run, h]

/-- The three steps of a sector on a flash that is idle at once: WREN, SE_4K, and one RDSR that reads 0x00 (R197, R152). -/
theorem State.Erases4k.run_frames {s : State} (h : s.Erases4k) (hp : s.phase = .run .erase .e3a) {k : Nat}
    {more : List Answer} (ha : s.answers = idleSector k ++ more) :
    ∃ t : State, (∀ n, Host.Core.run core (n + 3) s = Host.Core.run core n t) ∧ SameLoop s t ∧
      t.phase = .run .erase (.polled .e) ∧ t.sr = 0x00 ∧ t.answers = more ∧
      t.history.reverse = s.history.reverse ++ sectorFrames s s.cur 1 := by
  obtain ⟨t₁, hstep₁, -, hsame₁, hp₁, ha₁, hhist₁⟩ := h.step_sends (f := frameF1 s.par.opWren) hp rfl rfl ha rfl
  have h₁ := h.sameLoop hsame₁
  obtain ⟨t₂, hstep₂, -, hsame₂, hp₂, ha₂, hhist₂⟩ := h₁.step_sends hp₁ (h₁.eraseInstr t₁.cur) rfl ha₁ rfl
  have hsame₁₂ := hsame₁.trans hsame₂
  have h₂ := h.sameLoop hsame₁₂
  obtain ⟨t₃, hstep₃, hexec₃, hsame₃, hp₃, ha₃, hhist₃⟩ :=
    h₂.step_sends (f := frameF8 t₂.par.opRdsr 1) hp₂ rfl rfl ha₂ rfl
  have hbyte : t₂.oracleByte 0 = 0x00 := by simp [State.oracleByte, ha₂]
  refine ⟨t₃, fun n => ?_, hsame₁₂.trans hsame₃, hp₃, ?_, ha₃, ?_⟩
  · rw [run_succ_of_next hstep₁, run_succ_of_next hstep₂, run_succ_of_next hstep₃]
  · rw [sr_of_exec_rdsr hexec₃ (State.frameOk_cons ha₂), hbyte]
  · rw [hhist₃, hhist₂, hhist₁, frameF3_wire_length, hsame₁₂.par, hsame₁.par, hsame₁.params, hsame₁.cur]
    simp [sectorFrames, State.oracleBytes, hbyte, frameF1, frameF3, frameF8, Frame.wire]

/-- From one loop head to another: `r` sectors are erased and counted, in ascending order (R39, R199). -/
structure SectorsErased (r : Nat) (s t : State) : Prop where
  phase : t.phase = .run .erase .e3
  rem : t.rem = s.rem - r
  cur : t.cur = s.cur + r * s.params.eraseSize.toNat
  progress : t.progress = s.progress + BitVec.ofNat 32 (r * s.params.eraseSize.toNat)
  params : t.params = s.params
  par : t.par = s.par
  script : t.script = s.script
  mem : t.mem = s.mem
  history : t.history.reverse = s.history.reverse ++ sectorFrames s s.cur r

theorem SectorsErased.zero {s : State} (hp : s.phase = .run .erase .e3) : SectorsErased 0 s s := by
  constructor <;> simp [hp, sectorFrames]

theorem sectorFrames_congr {s t : State} (hpar : t.par = s.par) (hparams : t.params = s.params) (r : Nat) :
    ∀ c, sectorFrames t c r = sectorFrames s c r := by
  induction r with
  | zero => exact fun _ => rfl
  | succ r ih => intro c; simp only [sectorFrames, hpar, hparams, ih]

theorem SectorsErased.cons {r : Nat} {s t u : State} (h : SectorsErased 1 s t) (k : SectorsErased r t u) :
    SectorsErased (r + 1) s u where
  phase := k.phase
  rem := by rw [k.rem, h.rem, Nat.sub_sub, Nat.add_comm]
  cur := by rw [k.cur, h.cur, h.params]; ring
  progress := by rw [k.progress, h.progress, h.params, BitVec.add_assoc, ← BitVec.ofNat_add]; ring_nf
  params := k.params.trans h.params
  par := k.par.trans h.par
  script := k.script.trans h.script
  mem := k.mem.trans h.mem
  history := by
    rw [k.history, h.history, sectorFrames_congr h.par h.params, h.cur, Nat.one_mul, List.append_assoc]
    rfl

/-- One sector, from loop head to loop head; the step that finds the Poll over is the next head's. -/
theorem State.Erases4k.run_sector {s : State} (h : s.Erases4k) (hp : s.phase = .run .erase .e3) (hr : 0 < s.rem) {k : Nat}
    {more : List Answer} (ha : s.answers = idleSector k ++ more) :
    ∃ t : State, (∀ n, Host.Core.run core (n + 4) s = Host.Core.run core (n + 1) t) ∧ SectorsErased 1 s t ∧
      t.answers = more := by
  have hwren : (s.goto .erase .e3a).Erases4k := h.congr rfl rfl rfl
  have hfirst : step s = step (s.goto .erase .e3a) := by rw [h.step_eq, hwren.step_eq, seqStep_e3_of_pos hp hr]
  obtain ⟨t, hrun, hsame, htp, hsr, hta, hhist⟩ := hwren.run_frames rfl ha
  have ht := hwren.sameLoop hsame
  have hnext : (t.sectorDone.goto .erase .e3).Erases4k := ht.congr rfl rfl rfl
  have hhead : step t = step (t.sectorDone.goto .erase .e3) := by
    rw [ht.step_eq, hnext.step_eq]
    exact seqStep_eq_of_eraseHead (u := t.sectorDone) htp (plan_of_polled_idle htp (by rw [hsr]; rfl))
  refine ⟨t.sectorDone.goto .erase .e3, fun n => ?_, ?_, hta⟩
  · rw [run_succ_congr hfirst, hrun, run_succ_congr hhead]
  · exact {
      phase := rfl
      rem := congrArg (· - 1) hsame.rem
      cur := by simp [State.eraseUnit, hsame.cur, hsame.params]
      progress := by simp [hsame.progress, hsame.params]
      params := hsame.params
      par := hsame.par
      script := hsame.script
      mem := hsame.mem
      history := hhist.trans (congrArg (s.history.reverse ++ ·) (sectorFrames_congr (s := s) rfl rfl 1 _)) }

/-- All sectors, up to the loop head with none left. -/
theorem State.Erases4k.run_sectors {k : Nat} {more : List Answer} (r : Nat) : ∀ {s : State}, s.Erases4k →
    s.phase = .run .erase .e3 → s.rem = r → s.answers = (List.replicate r (idleSector k)).flatten ++ more →
    ∃ t : State, Host.Core.run core (3 * r + 1) s = Host.Core.run core 1 t ∧ SectorsErased r s t ∧ t.answers = more := by
  induction r with
  | zero => exact fun _ hp _ ha => ⟨_, rfl, .zero hp, ha⟩
  | succ r ih =>
    intro s h hp hr ha
    rw [List.replicate_succ, List.flatten_cons, List.append_assoc] at ha
    obtain ⟨t, hrun, herased, hta⟩ := h.run_sector hp (hr ▸ Nat.succ_pos r) ha
    obtain ⟨u, hrun', herased', hua⟩ := ih (h.congr herased.par herased.script herased.params) herased.phase
      (by rw [herased.rem, hr]; rfl) hta
    exact ⟨u, (hrun (3 * r)).trans hrun', herased.cons herased', hua⟩

/-- At the loop head with no sector left and no bracket, the command is over (R135). -/
theorem completes_of_no_sector {s : State} (hp : s.phase = .run .erase .e3) (hr : s.rem = 0) (hb : s.bracket false = []) :
    ∃ t, seqStep s = .next t ∧ CompletedWith .ok s t ∧ SameSession s t ∧ t.progress = s.progress := by
  refine completes_of_plan hp (by decide) ?_
  simp only [plan, hp, planAt]
  rw [eraseHead_of_zero hr, exitFrom_zero_nil hb]; rfl

/-- A chip of three address bytes has no bracket (R172). -/
theorem bracket_of_three {s : State} (h : s.params.addrWidth = .three) (en : Bool) : s.bracket en = [] := by
  rw [State.bracket, h]; rfl

/-- Settles O42: the first loop head, the sectors one by one, and the end at the last one. -/
theorem eraseRunsToCompletion : Obligations.EraseRunsToCompletion := by
  intro s r k more hpar hscript hp hcheck hsize hop hwidth hprogress hlen ha
  have h : s.Erases4k := ⟨hpar, hscript, hop, hsize⟩
  have hinit : (s.eraseInit.goto .erase .e3).Erases4k := h.congr rfl rfl rfl
  have hcount : s.sectorCount = r := by
    rw [State.sectorCount, h.eraseUnit, hlen, Nat.mul_div_cancel _ (by decide)]
  have hhead : step s = step (s.eraseInit.goto .erase .e3) := by
    rw [h.step_eq, hinit.step_eq]
    exact seqStep_eq_of_eraseHead (u := s.eraseInit) hp
      (plan_atLoop (.inl ⟨hp, hcheck, bracket_of_three hwidth true⟩) (.inl rfl))
  obtain ⟨t, hrun, herased, hta⟩ := hinit.run_sectors r rfl hcount ha
  have hbracket : t.bracket false = [] := bracket_of_three (by rw [herased.params]; exact hwidth) false
  obtain ⟨u, hu, hend, -, hup⟩ := completes_of_no_sector herased.phase
    (herased.rem.trans (Nat.sub_eq_zero_of_le hcount.le)) hbracket
  have hstep : step t = .next u := by rw [(hinit.congr herased.par herased.script herased.params).step_eq, hu]
  refine ⟨u, ?_, hend.phase, hend.busy, hend.done, hend.err, ?_, hend.mem.trans herased.mem, hend.answers.trans hta, ?_⟩
  · rw [run_succ_congr hhead, hrun, run_succ_of_next hstep]; rfl
  · rw [hup, herased.progress]
    simp [hprogress, hsize, ← hlen]
  · rw [hend.history, herased.history]
    exact congrArg (s.history.reverse ++ ·) (sectorFrames_congr (s := s) (t := s.eraseInit.goto .erase .e3) rfl rfl r _)

end Sys2Proof.Machine

/-! # The probe of a chip without unlock (46_probe.md R256 to R259) -/

namespace Sys2Proof.Machine

/-- RDID is one frame, and takes the ID and the extended ID from the bytes read back (R99, R256). -/
theorem frameCommand_rdid (s : State) : FrameCommand .rdid (frameF8 s.par.opRdid 5) s fun t =>
    t.rawId = assembleId (s.oracleBytes 5) ∧ t.rawExt = assembleExt (s.oracleBytes 5) ∧ t.mem = s.mem :=
  frameCommand_send rfl rfl ⟨rfl, rfl, rfl⟩

/-- The first step of a PROBE in UNPROBED is its RDID; if it succeeds, the ID is read (R257). -/
theorem seqStep_of_probe_start {s : State} {a : Answer} {as : List Answer} (hp : s.phase = .run .probe .start)
    (hps : s.probeState = .unprobed) (ha : s.answers = a :: as) (hok : a.ok = true) (hlen : a.rx.length = 5) :
    ∃ t, seqStep s = .next t ∧ t.phase = .run .probe .q2 ∧ t.rawId = assembleId a.rx ∧ t.rawExt = assembleExt a.rx ∧
      t.progress = s.progress ∧ t.mem = s.mem ∧ t.answers = as ∧ SameWorld s t ∧
      t.history = .frame s.par.chipSelect (frameF8 s.par.opRdid 5) true 1 a.rx :: s.history := by
  have hplan : plan s = { state := s.goto .probe .q1, action := .frame .rdid } :=
    (plan_of_start hp).trans (if_neg (not_not_intro hps))
  obtain ⟨t, ht, hsent, hquiet, hrawId, hrawExt, hmem⟩ :=
    (frameCommand_rdid (s.goto .probe .q1)).1 ((State.frameOk_cons ha).trans hok)
  have hworld := hquiet.world
  have hrx : (s.goto .probe .q1).oracleBytes 5 = a.rx := hlen ▸ oracleBytes_of_answers (s := s.goto .probe .q1) ha
  refine ⟨t, ?_, hsent.phase, hrx ▸ hrawId, hrx ▸ hrawExt, hquiet.registers.progress, hmem,
    hsent.answers.trans (congrArg List.tail ha),
    ⟨hworld.registry, hworld.par, hworld.script, hworld.readData, hworld.raced⟩, hrx ▸ hsent.history⟩
  rw [seqStep_frame (by rw [hplan]), hplan]
  exact ht

/-- The lookup of a descriptor that asks for no unlock ends the PROBE, and commits it with its parameters (R258, R259). -/
theorem seqStep_of_lookup {s : State} {d : Descriptor} (hp : s.phase = .run .probe .q2) (hid : invalidId s.rawId = false)
    (hd : s.lookup s.rawId s.rawExt = some d) (hwf : descWf d = true) (hi : d.flags.initSr = false)
    (hb : hasProtection d.flags = false) :
    seqStep s = .next ((s.identified (some d) (derive s.par d)).commit.complete .ok) := by
  have hplan : plan s = probeDone (s.identified (some d) (derive s.par d)) :=
    (plan_of_lookup hp hid hd hwf).trans (unlock_of_no_flag _ _ hi hb)
  rw [seqStep_complete (by rw [hplan]; rfl), hplan]; rfl

/-- A PROBE that completes with OK after its commit is PROBED (R259). -/
theorem probeState_commit_complete {s : State} {l : Label} (hp : s.phase = .run .probe l) :
    (s.commit.complete .ok).probeState = .probed := by
  rw [State.complete_probeState, State.commit_phase, hp]; rfl

/-- Settles O32: acceptance, the RDID frame, and the lookup, whose completion commits the descriptor. -/
theorem probeOfAKnownChip : Obligations.ProbeOfAKnownChip := by
  intro s d k b0 b1 b2 b3 b4 rest hidle hps ha hid hd hwf hi hb
  have ht : exec .probe s = .next (s.accept .probe 1) := congrArg _ (State.issue_idle .probe 1 hidle)
  obtain ⟨u, hu, hp, (hrawId : u.rawId = b0 ++ b1 ++ b2), (hrawExt : u.rawExt = b3 ++ b4), hprogress, hmem, hanswers, hworld,
    hhistory⟩ := seqStep_of_probe_start (s := s.accept .probe 1) rfl hps ha rfl rfl
  have hpar : u.par = s.par := hworld.par
  have hlookup : u.lookup u.rawId u.rawExt = some d := by
    rw [hrawId, hrawExt, ← hd, State.lookup, hworld.registry]; rfl
  refine ⟨_, u, _, ht, hu, seqStep_of_lookup hp (by rw [hrawId]; exact hid) hlookup hwf hi hb, rfl, rfl, rfl, rfl,
    probeState_commit_complete (s := u.identified _ _) hp, rfl, ?_, hrawId, hrawExt, hprogress, hmem, hanswers, hhistory⟩
  change derive u.par d = _
  rw [hpar, derive]
  cases d.granularity <;> rfl

end Sys2Proof.Machine

/-! # The page-program and AAI word-program engines (44_program.md) -/

namespace Sys2Proof.Machine

/-! ## PP, AAI_WP and AAI_CONT (R214, R218, R221) -/

/-- Settles O24: PP is one frame, with its clause "on the flash" as the effect. -/
theorem pageProgramSendsHeaderThenData : Obligations.PageProgramSendsHeaderThenData :=
  fun s c d => frameCommand_send rfl rfl (onFlash_transport s _ (s.flash.programming c d))

/-- Settles O25: AAI_WP is one frame, which clears `s.first` and enters AAI mode. -/
theorem firstPairSendsAddressAndData : Obligations.FirstPairSendsAddressAndData := by
  intro s c d0 d1
  refine frameCommand_send rfl rfl ⟨⟨rfl, rfl⟩, rfl, ?_⟩
  simp [FlashView.aaiEntered]

/-- From a known pointer, a continuation programs its pair there and moves the pointer on by two (R220, R221). -/
theorem FlashView.aaiContinued_of_pointer {v : FlashView} {c : Nat} (h : v.pointer = some c) (d0 d1 : Byte) :
    (v.aaiContinued d0 d1).pointer = some (c + 2) ∧
      (v.aaiContinued d0 d1).array = .programmed c [d0, d1] :: v.array := by
  simp [FlashView.aaiContinued, FlashView.pairDone, h]

/-- Settles O26: AAI_CONT is one frame, which continues from the flash's own pointer. -/
theorem laterPairsSendDataOnly : Obligations.LaterPairsSendDataOnly :=
  fun _ d0 d1 => frameCommand_send rfl rfl
    ⟨⟨rfl, rfl⟩, ⟨rfl, rfl, rfl⟩, rfl, fun _ hc => FlashView.aaiContinued_of_pointer hc d0 d1⟩

/-! ## The length of a chunk (R216) -/

section
variable {page cur rem : Nat}

theorem pageChunkLen_le_rem (page cur rem : Nat) : pageChunkLen page cur rem ≤ rem := min_le_left _ _

/-- A chunk fits in what is left of its page. -/
theorem mod_add_pageChunkLen_le (hpage : 0 < page) (cur rem : Nat) : cur % page + pageChunkLen page cur rem ≤ page := by
  have hmod := Nat.mod_lt cur hpage
  have hroom : pageChunkLen page cur rem ≤ page - cur % page := min_le_right _ _
  omega

theorem pageChunkLen_pos (hpage : 0 < page) (hrem : 0 < rem) (cur : Nat) : 0 < pageChunkLen page cur rem :=
  lt_min hrem (Nat.sub_pos_of_lt (Nat.mod_lt cur hpage))

/-- The last byte of a chunk lies in the page of its first one. -/
theorem div_pageChunkLen_last (hpage : 0 < page) (hrem : 0 < rem) (cur : Nat) :
    cur / page = (cur + pageChunkLen page cur rem - 1) / page := by
  have hfits := mod_add_pageChunkLen_le hpage cur rem
  have hpos := pageChunkLen_pos hpage hrem cur
  have hsplit := Nat.div_add_mod cur page
  have hlast : cur + pageChunkLen page cur rem - 1 = page * (cur / page) + (cur % page + pageChunkLen page cur rem - 1) := by
    omega
  have hzero : (cur % page + pageChunkLen page cur rem - 1) / page = 0 := Nat.div_eq_of_lt (by omega)
  rw [hlast, Nat.mul_add_div hpage, hzero, Nat.add_zero]

/-- A chunk that leaves bytes over ends with its page. -/
theorem add_pageChunkLen_mod (hpage : 0 < page) (h : pageChunkLen page cur rem < rem) :
    (cur + pageChunkLen page cur rem) % page = 0 := by
  have hlen : pageChunkLen page cur rem = page - cur % page :=
    (min_choice rem (page - cur % page)).resolve_left h.ne
  have hmod := Nat.mod_lt cur hpage
  have hsplit := Nat.div_add_mod cur page
  have hend : cur + pageChunkLen page cur rem = page * (cur / page) + page := by omega
  rw [hend, Nat.add_mod_right, Nat.mul_mod_right]

end

/-! ## DMA reads before a frame (R85) -/

section
variable {op : HostOp} {l : Label} {s : State}

theorem fillThen_of_lt {k : Nat} {done : State → Planned} (h : s.xfer.length < k) :
    fillThen op l k done s = { state := s.goto op l, action := .memRead s.fillAddr } := if_pos h

theorem fillThen_of_le {k : Nat} {done : State → Planned} (h : k ≤ s.xfer.length) : fillThen op l k done s = done s :=
  if_neg (Nat.not_lt.2 h)

/-- With all bytes of a page chunk, or of a single byte, read, its WREN is next (R213, R217). -/
theorem plan_filled {k : Nat} {l' : Label} (hl : (l, k, l') ∈ [(Label.g2, s.n, Label.g3), (.s1m, 1, .s1w), (.s5m, 1, .s5w)])
    (hp : s.phase = .run .write l) (hx : k ≤ s.xfer.length) :
    plan s = { state := s.goto .write l', action := .frame .wren } := by
  simp only [List.mem_cons, Prod.mk.injEq, List.not_mem_nil, or_false] at hl
  rcases hl with ⟨rfl, rfl, rfl⟩ | ⟨rfl, rfl, rfl⟩ | ⟨rfl, rfl, rfl⟩ <;>
    simp only [plan, hp, planAt, pageFill, aaiOddFill, aaiTailFill, fillThen_of_le hx]

theorem State.pairInstr_of_xfer {d0 d1 : Byte} (hx : s.xfer = [d0, d1]) :
    s.pairInstr = if s.first then .aaiWp s.cur d0 d1 else .aaiCont d0 d1 := by
  rw [State.pairInstr, hx]; rfl

/-- With both bytes of a pair read, its frame is next (R217, @S3). -/
theorem plan_pair_filled {d0 d1 : Byte} (hp : s.phase = .run .write .s3m) (hx : s.xfer = [d0, d1]) :
    plan s = { state := s.goto .write .s3f, action := .frame (if s.first then .aaiWp s.cur d0 d1 else .aaiCont d0 d1) } := by
  have hread : 2 ≤ s.xfer.length := by rw [hx]; exact Nat.le_refl 2
  simp only [plan, hp, planAt, aaiPairFill, fillThen_of_le hread, State.pairInstr_of_xfer hx]

/-! ## The loop heads (R213, R217) -/

/-- What the internal computation of a program's loop head leaves alone: the cursors, PROGRESS and the mark of the first
pair. -/
structure SameProgram (s t : State) : Prop where
  cur : t.cur = s.cur
  rem : t.rem = s.rem
  hoff : t.hoff = s.hoff
  progress : t.progress = s.progress
  first : t.first = s.first

theorem sameProgram_exitFrom (op : HostOp) (k : Nat) (s : State) : SameProgram s (exitFrom op k s).state := by
  unfold exitFrom; split <;> constructor <;> rfl

theorem sameProgram_goto (op : HostOp) (l : Label) (s : State) : SameProgram s (s.goto op l) := by constructor <;> rfl

/-- With bytes left, the next chunk is measured and its first byte is read (R216). -/
theorem pageHead_of_pos (hpage : 0 < s.par.pageSize) (h : 0 < s.rem) :
    pageHead op s =
      { state := ((s.withChunk (pageChunkLen s.par.pageSize s.cur s.rem)).withBuffer []).goto op .g2
        action := .memRead (s.hostAddr s.hoff) } := by
  rw [pageHead, if_pos h]
  exact fillThen_of_lt (pageChunkLen_pos hpage h s.cur)

theorem pageHead_of_zero (h : s.rem = 0) : pageHead op s = exitFrom op 0 s := if_neg (h ▸ Nat.lt_irrefl 0)

/-- What follows at the loop head: the first DMA read of a chunk, or, with none left, the end of the command's loop (R213). -/
theorem pageHead_goesOn (op : HostOp) (s : State) (hpage : 0 < s.par.pageSize) :
    (0 < s.rem → (pageHead op s).action = .memRead (s.hostAddr s.hoff) ∧ (pageHead op s).state.phase = .run op .g2 ∧
      (pageHead op s).state.n = pageChunkLen s.par.pageSize s.cur s.rem ∧ (pageHead op s).state.xfer = []) ∧
    (s.rem = 0 → s.bracket false = [] → (pageHead op s).action = .complete .ok) ∧
    (s.rem = 0 → ∀ i is, s.bracket false = i :: is → (pageHead op s).action = .frame i) := by
  refine ⟨fun hr => ?_, fun hr hb => ?_, fun hr i is hb => ?_⟩
  · rw [pageHead_of_pos hpage hr]; exact ⟨rfl, rfl, rfl, rfl⟩
  · rw [pageHead_of_zero hr, exitFrom_zero_nil hb]; rfl
  · rw [pageHead_of_zero hr, exitFrom_zero_cons hb]

theorem sameProgram_pageHead (op : HostOp) (hpage : 0 < s.par.pageSize) : SameProgram s (pageHead op s).state := by
  rcases Nat.eq_zero_or_pos s.rem with h | h
  · rw [pageHead_of_zero h]; exact sameProgram_exitFrom op 0 s
  · rw [pageHead_of_pos hpage h]; constructor <;> rfl

theorem aaiHead_of_pair (h : 2 ≤ s.rem) :
    aaiHead op s = { state := (s.withBuffer []).goto op .s3m, action := .memRead (s.hostAddr s.hoff) } := by
  rw [aaiHead, if_pos h]
  exact fillThen_of_lt Nat.zero_lt_two

theorem aaiHead_of_lt (h : s.rem < 2) : aaiHead op s = { state := s.goto op .s4, action := .frame .wrdi } :=
  if_neg (Nat.not_le.2 h)

/-- What follows at the loop head: the first DMA read of a pair, or the WRDI (R217, @S3 and @S4). -/
theorem aaiHead_goesOn (op : HostOp) (s : State) :
    (2 ≤ s.rem → (aaiHead op s).action = .memRead (s.hostAddr s.hoff) ∧ (aaiHead op s).state.phase = .run op .s3m ∧
      (aaiHead op s).state.xfer = []) ∧
    (s.rem < 2 → (aaiHead op s).action = .frame .wrdi ∧ (aaiHead op s).state.phase = .run op .s4) := by
  refine ⟨fun h => ?_, fun h => ?_⟩
  · rw [aaiHead_of_pair h]; exact ⟨rfl, rfl, rfl⟩
  · rw [aaiHead_of_lt h]; exact ⟨rfl, rfl⟩

theorem sameProgram_aaiHead (op : HostOp) (s : State) : SameProgram s (aaiHead op s).state := by
  rcases Nat.lt_or_ge s.rem 2 with h | h
  · rw [aaiHead_of_lt h]; exact sameProgram_goto op .s4 s
  · rw [aaiHead_of_pair h]; constructor <;> rfl

theorem aaiTail_of_one (h : s.rem = 1) :
    aaiTail op s = { state := (s.withBuffer []).goto op .s5m, action := .memRead (s.hostAddr s.hoff) } := by
  rw [aaiTail, if_pos h]
  exact fillThen_of_lt Nat.zero_lt_one

theorem aaiTail_of_ne (h : s.rem ≠ 1) : aaiTail op s = { state := s.goto op .s6, action := .frame .wrdi } := if_neg h

theorem aaiStart_of_odd (h : s.cur % 2 = 1) :
    aaiStart op s = { state := (s.withBuffer []).goto op .s1m, action := .memRead (s.hostAddr s.hoff) } := by
  rw [aaiStart, if_pos h]
  exact fillThen_of_lt Nat.zero_lt_one

theorem aaiStart_of_even (h : s.cur % 2 = 0) : aaiStart op s = { state := s.goto op .s2, action := .frame .wren } :=
  if_neg (by rw [h]; decide)

theorem sameProgram_aaiStart (op : HostOp) (s : State) : SameProgram s (aaiStart op s).state := by
  rcases Nat.mod_two_eq_zero_or_one s.cur with h | h
  · rw [aaiStart_of_even h]; exact sameProgram_goto op .s2 s
  · rw [aaiStart_of_odd h]; constructor <;> rfl

/-! ## Where the heads are reached from -/

theorem plan_atLoop_page (h : s.AtLoop .write) (hw : s.params.sstWrite = false) :
    plan s = pageHead .write s.programInit := by
  rw [plan_atLoop h (.inr rfl)]
  exact if_neg (Bool.eq_false_iff.1 hw)

theorem plan_atLoop_aai (h : s.AtLoop .write) (hw : s.params.sstWrite = true) :
    plan s = aaiStart .write s.programInit := by
  rw [plan_atLoop h (.inr rfl)]
  exact if_pos hw

/-- Once a Poll has read bit 0 clear, the command continues behind it (R152). -/
theorem plan_afterPoll {c : PollSite} (hp : s.phase = .run op (.polled c)) (hs : s.sr.getLsbD 0 = false) :
    plan s = afterPoll op c s := (plan_of_polled hp).trans (pollTest_idle op c hs)

/-- The WREN of step 2 is past: the first pair is marked, and the loop head is next (R217, @S2). -/
theorem plan_of_s2d (hp : s.phase = .run op .s2d) : plan s = aaiHead op (s.withFirst true) := by
  simp only [plan, hp, planAt]

/-- The first byte of the buffer is at BUF itself (R85). -/
theorem State.hostAddr_zero (s : State) : s.hostAddr 0 = s.opBuf := BitVec.add_zero _

end

/-- Settles O44: the arithmetic of a chunk, then the loop head after the bracket and after a Poll, and the frames between. -/
theorem chunksStayInTheirPage : Obligations.ChunksStayInTheirPage := by
  refine ⟨fun page cur rem hpage hrem => ?_, fun s hpage => ⟨fun hs hw hlen => ?_, fun hp hx => ?_,
    fun hp => sendsThen_of_issues hp rfl, fun hp => sendsThen_of_issues hp rfl, fun hp hsr => ?_⟩, by decide⟩
  · have hfits := mod_add_pageChunkLen_le hpage cur rem
    refine ⟨rfl, pageChunkLen_pos hpage hrem cur, (Nat.le_add_left _ _).trans hfits, pageChunkLen_le_rem page cur rem,
      div_pageChunkLen_last hpage hrem cur, add_pageChunkLen_mod hpage, fun hstart => ?_⟩
    rw [pageChunkLen, hstart, Nat.sub_zero]
  · have hpos : 0 < s.programInit.rem := Nat.pos_of_ne_zero fun h => hlen (BitVec.eq_of_toNat_eq h)
    have hsame := sameProgram_pageHead (s := s.programInit) .write hpage
    obtain ⟨haction, hphase, hn, hxfer⟩ := (pageHead_goesOn .write s.programInit hpage).1 hpos
    rw [plan_atLoop_page hs hw]
    exact ⟨haction.trans (congrArg Action.memRead s.hostAddr_zero), hphase, hn, hsame.cur, hsame.rem, hsame.hoff, hxfer⟩
  · rw [plan_filled (.head _) hp hx]; exact ⟨rfl, rfl⟩
  · have hplan : plan s = pageHead .write (s.bytesDone s.n) := plan_afterPoll hp hsr
    have hsame := sameProgram_pageHead (s := s.bytesDone s.n) .write hpage
    obtain ⟨hmore, hend, hexit⟩ := pageHead_goesOn .write (s.bytesDone s.n) hpage
    rw [hplan]
    refine ⟨hsame.progress, hsame.cur, hsame.hoff, hsame.rem, fun hr => ?_, fun hr => hend (Nat.sub_eq_zero_of_le hr),
      fun hr => hexit (Nat.sub_eq_zero_of_le hr)⟩
    obtain ⟨haction, -, hn, hxfer⟩ := hmore (Nat.sub_pos_of_lt hr)
    exact ⟨hn, hxfer, haction⟩

/-- Settles O45: the positions in their order; those that issue a command send it, the others pass through a loop head. -/
theorem aaiStepsFollowTheirOrder : Obligations.AaiStepsFollowTheirOrder := by
  intro s
  refine ⟨fun hs hw => ?atLoop, fun d hp hx => ?leadFilled, fun hp => sendsThen_of_issues hp rfl,
    fun hp => sendsThen_of_issues hp rfl, fun hp hsr => ?leadPolled, fun hp => sendsThen_of_issues hp rfl,
    fun hp => ?latched, fun d0 d1 hp hx => ?pairFilled, fun d0 d1 hp hx => ?pairIssued, fun hp hsr => ?pairPolled,
    fun hp => sendsThen_of_issues hp rfl, fun hp hsr => ?closePolled, fun d hp hx => ?tailFilled,
    fun hp => sendsThen_of_issues hp rfl, fun hp => sendsThen_of_issues hp rfl, fun hp hsr => ?tailPolled,
    fun hp => sendsThen_of_issues hp rfl⟩
  case atLoop =>
    have hsame := sameProgram_aaiStart .write s.programInit
    rw [plan_atLoop_aai hs hw]
    refine ⟨hsame.cur, hsame.rem, hsame.hoff, fun h => ?_, fun h => ?_⟩
    · rw [aaiStart_of_odd (s := s.programInit) h]; exact ⟨congrArg Action.memRead s.hostAddr_zero, rfl⟩
    · rw [aaiStart_of_even (s := s.programInit) h]; exact ⟨rfl, rfl⟩
  case leadFilled =>
    rw [plan_filled (l := .s1m) (k := 1) (l' := .s1w) (by simp) hp (by rw [hx]; exact Nat.le_refl 1)]
    exact ⟨rfl, rfl⟩
  case leadPolled => rw [plan_afterPoll hp hsr]; exact ⟨rfl, rfl⟩
  case latched =>
    have hsame := sameProgram_aaiHead .write (s.withFirst true)
    rw [plan_of_s2d hp]
    exact ⟨hsame.first, hsame.cur, aaiHead_goesOn .write (s.withFirst true)⟩
  case pairFilled => rw [plan_pair_filled hp hx]; exact ⟨rfl, rfl⟩
  case pairIssued => exact sendsThen_of_issues hp (State.pairInstr_of_xfer hx).symm
  case pairPolled =>
    have hplan : plan s = aaiHead .write (s.bytesDone 2) := plan_afterPoll hp hsr
    have hsame := sameProgram_aaiHead .write (s.bytesDone 2)
    obtain ⟨hpair, hover⟩ := aaiHead_goesOn .write (s.bytesDone 2)
    rw [hplan]
    exact ⟨hsame.progress, hsame.cur, hsame.hoff, hsame.rem, hsame.first, fun h => hpair (Nat.le_sub_of_add_le h),
      fun h => hover (by rw [State.bytesDone_rem]; omega)⟩
  case closePolled =>
    have hplan : plan s = aaiTail .write s := plan_afterPoll hp hsr
    rw [hplan]
    refine ⟨fun h => ?_, fun h => ?_⟩
    · rw [aaiTail_of_one h]; exact ⟨rfl, rfl, rfl, rfl⟩
    · rw [aaiTail_of_ne h]; exact ⟨rfl, rfl⟩
  case tailFilled =>
    rw [plan_filled (l := .s5m) (k := 1) (l' := .s5w) (by simp) hp (by rw [hx]; exact Nat.le_refl 1)]
    exact ⟨rfl, rfl⟩
  case tailPolled => rw [plan_afterPoll hp hsr]; exact ⟨rfl, rfl⟩

end Sys2Proof.Machine

/-! # The fast-read chunker (45_read.md) -/

namespace Sys2Proof.Machine

/-! ## FAST_READ (R244) -/

/-- A FAST_READ whose frame succeeds keeps the bytes read back for their DMA writes. -/
theorem exec_fastRead_ok {s : State} (hok : s.frameOk = true) (c k : Nat) :
    exec (.fastRead c k) s = .next
      ((s.transport (frameF7 s.par.opFastRead c s.params.addrWidth s.par.fastReadDummy k)).withBuffer
        (s.oracleBytes k)).advance :=
  congrArg _ (State.send_ok _ _ _ _ hok)

/-- Settles O27: the frame succeeds as every frame does, and what it reads back is the frame buffer. -/
theorem fastReadReceivesTheBytes : Obligations.FastReadReceivesTheBytes := by
  intro s c k hok
  obtain ⟨t, ht, hstep⟩ := frameStep_fastRead c k s
  cases ht.symm.trans (exec_fastRead_ok hok c k)
  exact ⟨_, ht, hstep.sentWhole hok, hstep.quiet hok, ⟨rfl, rfl⟩, rfl, rfl, rfl, State.oracleBytes_length s k,
    fun _ hi => State.oracleBytes_get hi⟩

/-! ## The loop head (R241, R243) -/

section
variable {op : HostOp} {s : State}

/-- With bytes left, the next frame reads a chunk at the cursor (R243). -/
theorem readHead_of_pos (h : 0 < s.rem) :
    readHead op s =
      { state := (s.withChunk (readChunkLen s.rem)).goto op .r4a
        action := .frame (.fastRead s.cur (readChunkLen s.rem)) } :=
  if_pos h

theorem readHead_of_zero (h : s.rem = 0) : readHead op s = exitFrom op 0 s := if_neg (h ▸ Nat.lt_irrefl 0)

/-- What follows at the loop head: the FAST_READ of a chunk, or, with none left, the end of the command's loop (R241). -/
theorem readHead_goesOn (op : HostOp) (s : State) :
    (0 < s.rem → (readHead op s).action = .frame (.fastRead s.cur (readChunkLen s.rem)) ∧
      (readHead op s).state.n = readChunkLen s.rem) ∧
    (s.rem = 0 → s.bracket false = [] → (readHead op s).action = .complete .ok) ∧
    (s.rem = 0 → ∀ i is, s.bracket false = i :: is → (readHead op s).action = .frame i) := by
  refine ⟨fun hr => ?_, fun hr hb => ?_, fun hr i is hb => ?_⟩
  · rw [readHead_of_pos hr]; exact ⟨rfl, rfl⟩
  · rw [readHead_of_zero hr, exitFrom_zero_nil hb]; rfl
  · rw [readHead_of_zero hr, exitFrom_zero_cons hb]

theorem sameProgram_readHead (op : HostOp) (s : State) : SameProgram s (readHead op s).state := by
  rcases Nat.eq_zero_or_pos s.rem with h | h
  · rw [readHead_of_zero h]; exact sameProgram_exitFrom op 0 s
  · rw [readHead_of_pos h]; constructor <;> rfl

/-- Once every byte of a chunk is stored, the chunk is counted and the loop head is next (R241, @R4b). -/
theorem plan_drained (hp : s.phase = .run op .r4b) (hx : s.xfer = []) : plan s = readHead op s.chunkDone := by
  simp only [plan, hp, planAt, readDrain, hx]

/-! ## The beginning of a READ (R241, R242) -/

/-- The codes of READ's checks, in their order, once the probe-first gate is passed (R241). -/
theorem readCheck_of_probed (hps : s.probeState = .probed) :
    s.readCheck = if s.opLen = 0 then some .ok else if s.opBuf = 0 then some .noBuffer else none :=
  if_neg (not_not_intro hps)

/-- With a length that is not 0, the loop begins with the FAST_READ of the first chunk (R241, R243). -/
theorem readHead_readInit (h : s.opLen ≠ 0) :
    readHead op s.readInit =
      { state := (s.readInit.withChunk (readChunkLen s.opLen.toNat)).goto op .r4a
        action := .frame (.fastRead s.cur (readChunkLen s.opLen.toNat)) } :=
  readHead_of_pos (s := s.readInit) (Nat.pos_of_ne_zero fun h0 => h (BitVec.eq_of_toNat_eq h0))

/-- A READ without a bracket begins with that frame, with the cursor at the start offset (R242). -/
theorem enterFrom_readPrepare_nil (h : s.opLen ≠ 0) (hb : s.bracket true = []) :
    enterFrom .read 0 s.readPrepare =
      { state := (s.readPrepare.readInit.withChunk (readChunkLen s.opLen.toNat)).goto .read .r4a
        action := .frame (.fastRead s.readOffset (readChunkLen s.opLen.toNat)) } :=
  (enterFrom_zero_nil (s := s.readPrepare) hb).trans (readHead_readInit (s := s.readPrepare) h)

/-- With a bracket it begins with the bracket's first frame, the cursor already there (R242). -/
theorem enterFrom_readPrepare_cons {i : Instr} {is : List Instr} (hb : s.bracket true = i :: is) :
    enterFrom .read 0 s.readPrepare = { state := s.readPrepare.goto .read (.enter 0), action := .frame i } :=
  enterFrom_zero_cons (s := s.readPrepare) hb

end

/-- Settles O46: the checks one by one, then the bracket or the first chunk, with the cursor at the start offset. -/
theorem readChecksBeforeAnyFrame : Obligations.ReadChecksBeforeAnyFrame := by
  intro s hp hps
  have hck := readCheck_of_probed hps
  have hplan : plan s = afterCheck s.readCheck .read s s.readPrepare := plan_of_start hp
  have hend := fun e => completes_of_check (e := e) hp (by decide) hplan
  have hpass : s.opLen ≠ 0 → s.opBuf ≠ 0 → plan s = enterFrom .read 0 s.readPrepare := fun h1 h2 =>
    hplan.trans (afterCheck_none (by rw [hck, if_neg h1, if_neg h2]))
  refine ⟨fun h1 => ?_, fun h1 h2 => ?_, fun h1 h2 hb => ?_, fun h1 h2 i is hb => ?_, fun h1 h2 => ?_⟩
  · exact hend _ (by rw [hck, if_pos h1])
  · exact hend _ (by rw [hck, if_neg h1, if_pos h2])
  · rw [hpass h1 h2, enterFrom_readPrepare_nil h1 hb]; rfl
  · rw [hpass h1 h2, enterFrom_readPrepare_cons hb]; exact ⟨rfl, rfl⟩
  · rw [hpass h1 h2]
    cases hb : s.bracket true with
    | nil => rw [enterFrom_readPrepare_nil h1 hb]; rfl
    | cons i is => rw [enterFrom_readPrepare_cons hb]; rfl

/-- Settles O48: the loop head after the bracket and after a chunk, and the frame between. -/
theorem readGoesChunkByChunk : Obligations.ReadGoesChunkByChunk := by
  refine ⟨fun s hs hlen => ?_, fun s hp => sendsThen_of_issues hp rfl, fun s hp hx => ?_⟩
  · rw [plan_atLoop_read hs]
    split
    · rw [readHead_readInit (s := s.readPrepare) hlen]; exact ⟨rfl, rfl⟩
    · rw [readHead_readInit hlen]; exact ⟨rfl, rfl⟩
  · have hsame := sameProgram_readHead .read s.chunkDone
    obtain ⟨hmore, hend, hexit⟩ := readHead_goesOn .read s.chunkDone
    rw [plan_drained hp hx]
    exact ⟨hsame.progress, hsame.cur, hsame.hoff, hsame.rem, fun hr => hmore (Nat.sub_pos_of_lt hr),
      fun hr => hend (Nat.sub_eq_zero_of_le hr), fun hr => hexit (Nat.sub_eq_zero_of_le hr)⟩

end Sys2Proof.Machine

/-! # RDID's bytes, and a PROBE that ends with an error (46_probe.md R256, R257, R259, R260) -/

namespace Sys2Proof.Machine

/-! ## RDID (R99, R256, R257) -/

/-- A byte appended on the right is the low digit of base 256. -/
theorem toNat_append_byte {n : Nat} (v : BitVec n) (b : Byte) : (v ++ b).toNat = v.toNat * 256 + b.toNat := by
  rw [BitVec.toNat_append, ← Nat.shiftLeft_add_eq_or_of_lt b.isLt, Nat.shiftLeft_eq]

theorem assembleId_toNat (rx : List Byte) :
    (assembleId rx).toNat = (rx.getD 0 0).toNat * 65536 + (rx.getD 1 0).toNat * 256 + (rx.getD 2 0).toNat := by
  rw [assembleId, toNat_append_byte, toNat_append_byte]
  omega

theorem assembleExt_toNat (rx : List Byte) :
    (assembleExt rx).toNat = (rx.getD 3 0).toNat * 256 + (rx.getD 4 0).toNat := toNat_append_byte _ _

/-- Settles O22: RDID is one frame, and reads its bytes as the digits of the two numbers. -/
theorem rdidCapturesTheId : Obligations.RdidCapturesTheId :=
  fun s => frameCommand_send rfl rfl
    ⟨⟨rfl, rfl, rfl⟩, rfl, assembleId_toNat (s.oracleBytes 5), assembleExt_toNat (s.oracleBytes 5)⟩

/-! ## A PROBE that ends with an error (R259, R260, R278) -/

/-- A PROBE whose plan is to complete with an error commits nothing; it makes the block FAILED unless it was rejected. -/
theorem completes_of_probe_plan {s u : State} {l : Label} {e : ErrCode} (hp : s.phase = .run .probe l)
    (hplan : plan s = { state := u, action := .complete e }) (hu : u.phase = s.phase) (he : e ≠ .ok) :
    ∃ t, seqStep s = .next t ∧ t.progress = u.progress ∧ CompletedWith e s t ∧
      t.probeState = (if e = .probeRejected then s.probeState else .failed) ∧ t.desc = s.desc ∧ t.params = s.params := by
  have hheld : PlanHeld s (plan s).state := plan_held (by rw [hplan]; exact fun h => he (Action.complete.inj h))
  refine ⟨_, seqStep_complete (by rw [hplan]), by rw [hplan]; rfl, (planSame s).completedWith e, ?_, hheld.desc, hheld.params⟩
  rw [State.complete_probeState, hheld.probeState, hplan, hu, hp]
  simp [ProbeState.afterCompletion, he]

/-- A PROBE of a block that is not UNPROBED is rejected at its first position (R260, @Q0). -/
theorem probeStart_of_ne {s : State} (op : HostOp) (h : s.probeState ≠ .unprobed) :
    probeStart op s = { state := s, action := .complete .probeRejected } := if_pos h

/-- Settles O31: the acceptance, then the completion at the first position, which keeps what the acceptance kept. -/
theorem probeRunsOnlyOnce : Obligations.ProbeRunsOnlyOnce := by
  intro s hidle hps
  obtain ⟨t, ht, hacc, -⟩ := (hostCommandsAreAccepted s hidle).1
  have hplan : plan t = { state := t, action := .complete .probeRejected } :=
    (plan_of_start hacc.phase).trans (probeStart_of_ne .probe (by rw [hacc.session.probeState]; exact hps))
  obtain ⟨u, hu, hprogress, hcomp, hstate, hdesc, hparams⟩ := completes_of_probe_plan hacc.phase hplan rfl nofun
  exact ⟨t, u, ht, hu, hcomp.err, hcomp.done, hcomp.busy, hcomp.phase, hcomp.statusCur.trans hacc.statusCur,
    hprogress.trans hacc.progress, hacc.session.trans ⟨hstate, hdesc, hparams⟩,
    ⟨hcomp.id.rawId.trans hacc.id.rawId, hcomp.id.rawExt.trans hacc.id.rawExt⟩, hcomp.addr.trans hacc.addr,
    hcomp.len.trans hacc.len, hcomp.buf.trans hacc.buf, hcomp.history.trans hacc.history, hcomp.mem.trans hacc.mem,
    hcomp.flash.trans hacc.flash, hcomp.answers.trans hacc.answers⟩

theorem invalidId_iff (id : BitVec 24) : invalidId id = true ↔ id = 0x000000 ∨ id = 0xFFFFFF := by simp [invalidId]

/-- After the RDID frame, an invalid ID ends the PROBE (R257, @Q2). -/
theorem plan_of_invalidId {s : State} {op : HostOp} (hp : s.phase = .run op .q2) (hid : invalidId s.rawId = true) :
    plan s = { state := s, action := .complete .noChip } := by
  simp only [plan, hp, planAt, probeIdentify, hid, if_true]

/-- A valid ID that no descriptor has ends it too (R259, @Q3). -/
theorem plan_of_unknownId {s : State} {op : HostOp} (hp : s.phase = .run op .q2) (hid : invalidId s.rawId = false)
    (hd : s.lookup s.rawId s.rawExt = none) :
    plan s = { state := s.identified none s.pparams, action := .complete .unknownId } := by
  simp [plan, hp, planAt, probeIdentify, hid, hd]

/-- Settles O33: the test of the ID, then the lookup; each ends the PROBE with its code. -/
theorem probeFailsClosed : Obligations.ProbeFailsClosed := by
  intro s hp
  refine ⟨fun hid => ?_, fun hzero hones hd => ?_⟩
  · obtain ⟨t, ht, -, hend⟩ := completes_of_probe_plan hp (plan_of_invalidId hp ((invalidId_iff _).2 hid)) rfl nofun
    exact ⟨t, ht, hend⟩
  · have hid : invalidId s.rawId = false := Bool.eq_false_iff.2 fun h => ((invalidId_iff _).1 h).elim hzero hones
    obtain ⟨t, ht, -, hend⟩ := completes_of_probe_plan hp (plan_of_unknownId hp hid hd) rfl nofun
    exact ⟨t, ht, hend⟩

end Sys2Proof.Machine

/-! # A frame that fails (60_exceptions.md R278 to R280) -/

namespace Sys2Proof.Machine

/-! ## The completion step of an error (R278) -/

theorem plan_of_raise {s : State} {op : HostOp} {e : ErrCode} (hp : s.phase = .run op (.raise e)) :
    plan s = { state := s, action := .complete e } := by
  simp only [plan, hp, planAt]

/-- TRANSPORT makes a PROBE fail and leaves the probe state of every other command alone. -/
theorem ProbeState.afterCompletion_transport (ps : ProbeState) (op : HostOp) (l : Label) :
    ps.afterCompletion (.run op l) .transport = if op = .probe then .failed else ps := by
  cases op <;> rfl

/-- A command whose frame has failed is over with TRANSPORT in its next step. -/
theorem SentFailing.completes {i : Instr} {f : Frame} {s t : State} {op : HostOp} {l : Label} (h : SentFailing i f s t)
    (hp : s.phase = .run op l) :
    seqStep t = .next (t.complete .transport) ∧
      (t.complete .transport).probeState = if op = .probe then .failed else t.probeState := by
  have hpt : t.phase = .run op (.raise .transport) := by rw [h.phase, hp]; rfl
  constructor
  · rw [seqStep_complete (by rw [plan_of_raise hpt]), plan_of_raise hpt]
  · rw [State.complete_probeState, hpt, ProbeState.afterCompletion_transport]

/-! ## The unit of the failing frame (R280) -/

theorem SentFailing.array {i : Instr} {f : Frame} {s t : State} {u : Option Span} (h : SentFailing i f s t)
    (hu : s.unitOf i = u) : t.flash.array = u.toList.map .disturbed ++ s.flash.array := by
  rw [h.flash, hu, FlashView.lost_array]

/-- WREN, WRDI and RDSR have no address: their unit is that of their position. -/
theorem State.unitOf_of_phase {s : State} {op : HostOp} {l : Label} (hp : s.phase = .run op l) {i : Instr}
    (hi : i = .wren ∨ i = .wrdi ∨ i = .rdsr) : s.unitOf i = s.unitAt l := by
  rcases hi with rfl | rfl | rfl <;> simp only [State.unitOf, State.unitAtWork, hp]

/-- A frame of `SetAddressMode` works on no unit of the array. -/
theorem State.unitOf_of_mem_bracket {s : State} {op : HostOp} {l : Label} {i : Instr} {en : Bool} {k : Nat}
    (hp : s.phase = .run op l) (hl : l = .enter k ∨ l = .exit k) (hi : i ∈ s.bracket en) : s.unitOf i = none := by
  have hat : s.unitAt l = none := by rcases hl with rfl | rfl <;> rfl
  rcases mem_modeFrames hi with rfl | rfl | rfl | rfl | rfl | rfl | ⟨_, rfl⟩
  · exact (State.unitOf_of_phase hp (.inl rfl)).trans hat
  · exact (State.unitOf_of_phase hp (.inr (.inl rfl))).trans hat
  all_goals rfl

/-- Settles O30: the frame's own step, then the completion; the unit disturbed is the one of the frame's position. -/
theorem failedFramesAbortTheCommand : Obligations.FailedFramesAbortTheCommand := by
  intro s i f op l he hfail hp
  obtain ⟨t, ht, hf⟩ := exec_frame he
  have hsent := hf.sentFailing hfail
  obtain ⟨hnext, hprobe⟩ := hsent.completes hp
  have hat : i = .wren ∨ i = .rdsr → t.flash.array = (s.unitAt l).toList.map .disturbed ++ s.flash.array :=
    fun hi => hsent.array (State.unitOf_of_phase hp (hi.imp_right .inr))
  refine ⟨t, t.complete .transport, ht, hsent, hf.untouched hfail, hnext, State.completedWith_complete _ t,
    hf.registers.progress, hf.registers.desc, hf.registers.params, ?_, ?_, ?_, ?_, fun k en hl hi => ?_⟩
  · rw [hprobe, hf.registers.probeState]
  · rintro (⟨rfl, hi⟩ | ⟨rfl, hi⟩)
    · exact hat (.inl hi)
    · exact hat (.inr hi)
  · rintro (⟨rfl, hi⟩ | ⟨rfl, hi⟩)
    · exact hat (.inl hi)
    · exact hat (.inr hi)
  · rintro ⟨rfl, hi⟩
    exact hat (.inr hi)
  · exact hsent.array (State.unitOf_of_mem_bracket hp hl hi)

end Sys2Proof.Machine

/-! # A flash that stays busy (60_exceptions.md R277, 40_host_commands.md R136, 41_status_register.md R151) -/

namespace Sys2Proof.Machine

theorem SameRegisters.trans {s t u : State} (h : SameRegisters s t) (k : SameRegisters t u) : SameRegisters s u where
  addr := k.addr.trans h.addr
  len := k.len.trans h.len
  buf := k.buf.trans h.buf
  busy := k.busy.trans h.busy
  done := k.done.trans h.done
  err := k.err.trans h.err
  statusCur := k.statusCur.trans h.statusCur
  progress := k.progress.trans h.progress
  probeState := k.probeState.trans h.probeState
  desc := k.desc.trans h.desc
  params := k.params.trans h.params
  op := k.op.trans h.op
  opAddr := k.opAddr.trans h.opAddr
  opLen := k.opLen.trans h.opLen
  opBuf := k.opBuf.trans h.opBuf

/-- An answer that accepts an RDSR and sends a status with the busy bit set (R79, R150). -/
def ReportsBusy (a : Answer) : Prop := a.ok = true ∧ ∃ b bs, a.rx = b :: bs ∧ b.getLsbD 0 = true

theorem oracleByte_zero_of_answers {s : State} {a : Answer} {as : List Answer} {b : Byte} {bs : List Byte}
    (h : s.answers = a :: as) (hb : a.rx = b :: bs) : s.oracleByte 0 = b := by
  simp [State.oracleByte, h, hb]

/-- At the RDSR of a Poll, or at its test with the busy bit read (R151). -/
def State.InPoll (s : State) (op : HostOp) (c : PollSite) : Prop :=
  s.phase = .run op (.poll c) ∨ s.phase = .run op (.polled c) ∧ s.sr.getLsbD 0 = true

/-- Either way an RDSR of the same Poll is next. -/
theorem State.InPoll.plan_eq {s : State} {op : HostOp} {c : PollSite} (h : s.InPoll op c) :
    plan s = { state := s.goto op (.poll c), action := .frame .rdsr } := by
  rcases h with hp | ⟨hp, hbusy⟩
  · rw [plan_of_poll hp, State.goto_of_phase hp]
  · rw [plan_of_polled hp, pollTest_busy op c hbusy]

/-- An RDSR that reads the busy bit set leads back to the test of the same Poll, and every register but `s.sr` stays. -/
theorem State.InPoll.seqStep_busy {s : State} {op : HostOp} {c : PollSite} (h : s.InPoll op c) {a : Answer}
    {as : List Answer} (ha : s.answers = a :: as) (hbusy : ReportsBusy a) :
    ∃ t, seqStep s = .next t ∧ t.InPoll op c ∧ t.answers = as ∧ SameRegisters s t ∧ t.par = s.par ∧
      t.script = s.script ∧ t.mem = s.mem := by
  obtain ⟨haok, b, bs, hb, hbit⟩ := hbusy
  have hgoto : SameRegisters s (s.goto op (.poll c)) := by constructor <;> rfl
  have hok : (s.goto op (.poll c)).frameOk = true := (State.frameOk_cons ha).trans haok
  obtain ⟨t, ht, hf⟩ := exec_frame (s := s.goto op (.poll c)) (i := .rdsr) rfl
  have hsr : t.sr = b := (sr_of_exec_rdsr ht hok).trans (oracleByte_zero_of_answers ha hb)
  have hsent := hf.sentWhole hok
  refine ⟨t, ?_, .inr ⟨hsent.phase, hsr ▸ hbit⟩, ?_, hgoto.trans hf.registers, hf.world.par,
    hf.world.script, hf.memOk hok⟩
  · rw [seqStep_frame (by rw [h.plan_eq]), h.plan_eq]; exact ht
  · rw [hsent.answers, State.goto_answers, ha]; rfl

/-- Any number of busy answers leaves the command in its Poll, by induction on the number of steps. -/
theorem State.InPoll.run_busy {op : HostOp} {c : PollSite} (k : Nat) : ∀ {s : State}, s.InPoll op c → s.par.wf = true →
    s.script = [] → k ≤ s.answers.length → (∀ a ∈ s.answers, ReportsBusy a) →
    ∃ t, Host.Core.run core k s = .next t ∧ t.InPoll op c ∧ SameRegisters s t ∧ t.mem = s.mem := by
  induction k with
  | zero => exact fun {s} h _ _ _ _ => ⟨s, rfl, h, SameRegisters.refl s, rfl⟩
  | succ k ih =>
    intro s h hpar hscript hk hbusy
    obtain ⟨a, as, ha⟩ := List.exists_cons_of_length_pos (Nat.zero_lt_of_lt hk)
    rw [ha] at hk hbusy
    obtain ⟨u, hu, hpoll, hanswers, hregs, hpar', hscript', hmem⟩ := h.seqStep_busy ha (hbusy a List.mem_cons_self)
    obtain ⟨t, ht, hpoll', hregs', hmem'⟩ := ih hpoll (hpar' ▸ hpar) (hscript'.trans hscript)
      (hanswers ▸ Nat.le_of_succ_le_succ hk) (hanswers ▸ fun a' h' => hbusy a' (List.mem_cons_of_mem a h'))
    refine ⟨t, ?_, hpoll', hregs.trans hregs', hmem'.trans hmem⟩
    rw [run_succ_of_next ((step_of_script_nil hpar hscript).trans hu), ht]

/-- Settles O38: the command stays in its Poll with its registers. -/
theorem busyFlashHangsTheCommand : Obligations.BusyFlashHangsTheCommand := by
  intro k s op c hpar hscript hb hd he hp hk hbusy
  obtain ⟨t, ht, hpoll, hregs, hmem⟩ := State.InPoll.run_busy k (.inl hp) hpar hscript hk hbusy
  exact ⟨t, ht, hregs.busy.trans hb, hregs.done.trans hd, hregs.err.trans he, hpoll.imp_right And.left, hregs.progress, hmem⟩

end Sys2Proof.Machine

/-! # Reset (70_reset_and_hazards.md R301, R302) -/

namespace Sys2Proof.Machine

theorem State.resetBlock_busy {s : State} (h : s.busy = true) : s.resetBlock = s.cutShort.cleared := by
  simp only [State.resetBlock, h, if_true]

theorem State.resetBlock_idle {s : State} (h : s.busy = false) : s.resetBlock = s.cleared := by
  simp [State.resetBlock, h]

/-- A cleared block shows the reset values in its registers, whatever stays outside them (R52). -/
theorem State.cleared_readReg (s : State) (r : Reg) : s.cleared.readReg r = 0 := by
  have h : s.cleared.readReg r = State.reset.readReg r := by cases r <;> rfl
  exact h.trans (resetStateReadsZero.1 r)

/-- What a reset cuts short belongs to the block: the world outside stays. -/
theorem sameWorld_cutShort (s : State) : SameWorld s s.cutShort := by
  rcases s.cutShort_cases with ⟨_, _, -, -, h⟩ | ⟨_, _, -, h⟩ | ⟨-, h⟩ <;> rw [h] <;> constructor <;> rfl

/-- A reset is of the block alone. -/
theorem State.resetBlock_world (s : State) :
    s.resetBlock.script = s.script ∧ s.resetBlock.par = s.par ∧ s.resetBlock.registry = s.registry := by
  cases hb : s.busy with
  | true =>
    have h := sameWorld_cutShort s
    rw [State.resetBlock_busy hb]
    exact ⟨h.script, h.par, h.registry⟩
  | false => rw [State.resetBlock_idle hb]; exact ⟨rfl, rfl, rfl⟩

/-- A reset records the frame it cuts, if the next atomic step is one. -/
theorem State.cutShort_history_frame {s : State} {i : Instr} {f : Frame} (ha : (plan s).action = .frame i)
    (he : encode s.par s.params.addrWidth i = .frame f) :
    s.cutShort.history = .cut s.par.chipSelect f (s.cutAt f) :: s.history := by
  simp only [State.cutShort, ha, he, State.cutFrame_history]

/-- It records nothing else. -/
theorem State.cutShort_history_cases (s : State) :
    s.cutShort.history = s.history ∨ ∃ i f, (plan s).action = .frame i ∧
      encode s.par s.params.addrWidth i = .frame f ∧ s.cutShort.history = .cut s.par.chipSelect f (s.cutAt f) :: s.history := by
  rcases s.cutShort_cases with ⟨i, f, ha, he, -⟩ | ⟨_, _, -, h⟩ | ⟨-, h⟩
  · exact .inr ⟨i, f, ha, he, State.cutShort_history_frame ha he⟩
  · exact .inl (by rw [h]; rfl)
  · exact .inl (by rw [h]; rfl)

/-- A byte of host memory that is not being written survives a reset. -/
theorem State.byteAt_cutShort_other {s : State} {b : Word} (h : ∀ v, (plan s).action ≠ .memWrite b v) :
    s.cutShort.byteAt b = s.byteAt b := by
  rcases s.cutShort_cases with ⟨_, f, -, -, hcut⟩ | ⟨a, v, ha, hcut⟩ | ⟨-, hcut⟩ <;> rw [hcut]
  · rfl
  · have hb : b ≠ a := by rintro rfl; exact h v ha
    exact State.byteAt_setByte_other s a _ hb
  · rfl

/-- Settles O50: the block is cleared; while BUSY the atomic step cut short comes before. -/
theorem resetClearsTheBlock : Obligations.ResetClearsTheBlock := by
  intro s rest hpar hs
  obtain ⟨hscript, hpar', hreg⟩ := State.resetBlock_world (s.withScript rest)
  refine ⟨_, step_of_script_reset hpar hs, State.cleared_readReg _, rfl, rfl, rfl, rfl, rfl, rfl, rfl, rfl, rfl, rfl, rfl,
    hscript, hpar', hreg, ?_⟩
  cases hb : s.busy with
  | true =>
    rw [State.resetBlock_busy (s := s.withScript rest) hb]
    refine ⟨?_, fun i f _ ha he => ⟨_, State.cutAt_le _ f, State.cutShort_history_frame ha he⟩,
      fun _ => State.cutShort_flash _, nofun, fun _ => State.byteAt_cutShort_other⟩
    rcases (s.withScript rest).cutShort_history_cases with h | ⟨i, f, ha, he, h⟩
    · exact .inl h
    · exact .inr ⟨i, f, _, rfl, ha, he, State.cutAt_le _ f, h⟩
  | false =>
    rw [State.resetBlock_idle (s := s.withScript rest) hb]
    exact ⟨.inl rfl, nofun, nofun, fun _ => ⟨rfl, rfl, rfl⟩, fun _ _ => rfl⟩

end Sys2Proof.Machine
